-- ==== Sys2Proof/Word.lean ====
section
/-! DEFINITION. The plain words of the Elpwave 4130: bytes and 16-bit values of the SPI port, the node-time word,
and the index types of stations, zones and levels. -/

namespace Sys2Proof

/-- One byte of an SPI request or reply (R163, R180). -/
abbrev Byte := BitVec 8

/-- A 16-bit argument of an SPI request (R180), and the isolation stamp (R79). -/
abbrev Half := BitVec 16

/-- Node time: a 32-bit count of milliseconds that wraps (R162). -/
abbrev Time := BitVec 32

/-- A station number, S0 to S7 (00_scope, A typical vehicle). -/
abbrev Station := Fin 8

/-- A zone index, Z0 to Z11 (00_scope, Zones). -/
abbrev Zone := Fin 12

/-- A drive level, L0 FULL to L5 STOP; a higher number is the more restrictive level (00_scope, Levels). -/
abbrev Level := Fin 6

/-- A fault input FI0 to FI7, and the number of its slot I0 to I7 (R4). -/
abbrev Input := Fin 8

/-- A declared slot D0 to D7 (R4). -/
abbrev DeclSlot := Fin 8

/-- A follow group, 0 to 3 (R103). -/
abbrev Group := Fin 4

/-- A timer: absent while it is not running, else the milliseconds it still has to run (R1). -/
abbrev Timer := Option Nat

end Sys2Proof
end

