-- ==== Sys2Proof/Machine/Types.lean ====
section
/-! DEFINITION. The fixed sets of names of the manual with their codes (R182), and the records that several blocks share:
an accusation (R70) and its class and severity. -/

namespace Sys2Proof

/-- Severities in the order MINOR < MAJOR < CRITICAL (00_scope, Numbers). -/
inductive Severity where
  | minor | major | critical
  deriving DecidableEq, Repr

/-- Accusation classes, coded 1 to 10; the last four are derived (R182). -/
inductive FaultClass where
  | overcurrent | overvoltage | undervoltage | overtemp | sensor | mechanical
  | lost | implausible | bus | stale
  deriving DecidableEq, Repr

/-- Station roles, set by the ROLE straps (R149). -/
inductive Role where
  | aux | battery | drive | controls
  deriving DecidableEq, Repr

/-- Node modes (R152). -/
inductive NodeMode where
  | unconfigured | joining | running | departed
  deriving DecidableEq, Repr

/-- Presence states of a peer record (R49). -/
inductive Presence where
  | absent | joining | present | silent | leaving
  deriving DecidableEq, Repr

/-- Zone states (R74). -/
inductive ZoneState where
  | clear | suspect | confirmed | isolated | pinned
  deriving DecidableEq, Repr

/-- Entry states of the Local Fault Table (R5). -/
inductive EntryState where
  | qualifying | active | healing | latched
  deriving DecidableEq, Repr

/-- Contactor states (07_output_lines, the state table). -/
inductive Contactor where
  | opened | closed | dropping
  deriving DecidableEq, Repr

/-- LAMP patterns (R137). -/
inductive Lamp where
  | off | blink1Hz | blink4Hz | steady
  deriving DecidableEq, Repr

/-- Kinds of frame on the Peer Status Bus (R178). -/
inductive Kind where
  | hello | status | leave
  deriving DecidableEq, Repr

/-- Reply codes of the host port (R167, R182). -/
inductive ReplyCode where
  | ok | clamped | badCrc | unknown | wrongMode | range | full | notFound
  | stamp | accused | pinned | notIsolated | tripActive | stillAsserted | busy | blocked
  deriving DecidableEq, Repr

/-- R163, R170, R176: how CS_N stood while the bytes of a request were clocked in, seen from the event of the port before it: a
request, a host reset, RST_N that returned high, or the release from power-on reset. -/
inductive Select where
  /-- CS_N has fallen since that event. -/
  | fresh
  /-- CS_N was low at that event and has not risen since. -/
  | same
  /-- As `same`; and the eighth clock of the CRC byte came together with the host reset that was taken from RST_N just before. -/
  | atReset
  deriving DecidableEq, Repr

/-- R163: the end of a request: the CRC byte as received, and how CS_N stood. -/
structure Tail where
  crc : Byte
  select : Select
  deriving DecidableEq, Repr

/-- R164: the bits clocked in on SDI when CS_N rises, since it fell or, in a transaction that has had its request, since then. -/
structure Clocked where
  select : Select
  bits : List Bool
  deriving DecidableEq, Repr

/-- R149: the levels of ID2..ID0 and ROLE1..ROLE0. -/
structure Straps where
  id : BitVec 3
  role : BitVec 2
  deriving DecidableEq, Repr

/-- The eight pending flags of the host port (R171). -/
inductive Flag where
  | level | zone | peer | trip | contactor | stale | notice | spi
  deriving DecidableEq, Repr

/-- R182: severity codes; 0 is left for an absent accusation. -/
def Severity.code : Severity → Nat
  | .minor => 1 | .major => 2 | .critical => 3

/-- The severity a code names, if any (R182). -/
def Severity.ofCode : Nat → Option Severity
  | 1 => some .minor | 2 => some .major | 3 => some .critical | _ => none

/-- R11: one step more severe, held at CRITICAL. -/
def Severity.up : Severity → Severity
  | .minor => .major | .major => .critical | .critical => .critical

/-- R182: class codes. -/
def FaultClass.code : FaultClass → Nat
  | .overcurrent => 1 | .overvoltage => 2 | .undervoltage => 3 | .overtemp => 4 | .sensor => 5
  | .mechanical => 6 | .lost => 7 | .implausible => 8 | .bus => 9 | .stale => 10

/-- The class a code names, if any (R182). -/
def FaultClass.ofCode : Nat → Option FaultClass
  | 1 => some .overcurrent | 2 => some .overvoltage | 3 => some .undervoltage | 4 => some .overtemp
  | 5 => some .sensor | 6 => some .mechanical | 7 => some .lost | 8 => some .implausible
  | 9 => some .bus | 10 => some .stale | _ => none

/-- The class of an input or a declaration: codes 1 to 6 alone (R12, R156). -/
def FaultClass.ofLocalCode (n : Nat) : Option FaultClass :=
  if n ≤ 6 then FaultClass.ofCode n else none

/-- R182: role codes, the two ROLE straps. -/
def Role.code : Role → Nat
  | .aux => 0 | .battery => 1 | .drive => 2 | .controls => 3

/-- R149: the role that ROLE1..ROLE0 give. -/
def Role.ofCode : Nat → Role
  | 0 => .aux | 1 => .battery | 2 => .drive | _ => .controls

/-- R182: node mode codes. -/
def NodeMode.code : NodeMode → Nat
  | .unconfigured => 0 | .joining => 1 | .running => 2 | .departed => 3

/-- R182: presence state codes. -/
def Presence.code : Presence → Nat
  | .absent => 0 | .joining => 1 | .present => 2 | .silent => 3 | .leaving => 4

/-- R182: zone state codes. -/
def ZoneState.code : ZoneState → Nat
  | .clear => 0 | .suspect => 1 | .confirmed => 2 | .isolated => 3 | .pinned => 4

/-- R182: entry state codes. -/
def EntryState.code : EntryState → Nat
  | .qualifying => 0 | .active => 1 | .healing => 2 | .latched => 3

/-- R182: contactor state codes. -/
def Contactor.code : Contactor → Nat
  | .opened => 0 | .closed => 1 | .dropping => 2

/-- R178: frame kind codes; 3 names no kind. -/
def Kind.code : Kind → Nat
  | .hello => 0 | .status => 1 | .leave => 2

/-- R182: reply status codes. -/
def ReplyCode.code : ReplyCode → Nat
  | .ok => 0 | .clamped => 1 | .badCrc => 2 | .unknown => 3 | .wrongMode => 4 | .range => 5
  | .full => 6 | .notFound => 7 | .stamp => 8 | .accused => 9 | .pinned => 10 | .notIsolated => 11
  | .tripActive => 12 | .stillAsserted => 13 | .busy => 14 | .blocked => 15

/-- R182: the bit each flag takes in the pending byte, the enable mask and every flag mask. -/
def Flag.bit : Flag → Nat
  | .level => 0 | .zone => 1 | .peer => 2 | .trip => 3 | .contactor => 4 | .stale => 5
  | .notice => 6 | .spi => 7

/-- R66: SUSPECT, CONFIRMED, ISOLATED or PINNED. -/
def ZoneState.suspectOrWorse (z : ZoneState) : Bool := z != .clear

/-- ISOLATED or PINNED, the two states that R78 enters. -/
def ZoneState.isIsolated (z : ZoneState) : Bool := z == .isolated || z == .pinned

/-- What one accusation says of a zone: a class and a severity (R70). -/
structure Claim where
  cls : FaultClass
  severity : Severity
  deriving DecidableEq, Repr

/-- An accusation as a STATUS list carries it (R91, R178). -/
structure Accusation where
  zone : Zone
  claim : Claim
  deriving DecidableEq, Repr

/-- The own zone of station n is Zn (00_scope, Zones). -/
def stationZone (n : Station) : Zone := ⟨n.val, by omega⟩

/-- The owner of a zone: Sn for Zn with n up to 7, none for the four shared zones (00_scope, Zones). -/
def zoneOwner (z : Zone) : Option Station :=
  if h : z.val < 8 then some ⟨z.val, h⟩ else none

/-- Z8, the DC link. -/
def dcLinkZone : Zone := 8

/-- Z11, the status bus zone. -/
def busZone : Zone := 11

end Sys2Proof
end

