-- ==== Sys2Proof/Machine/Spi.lean ====
section
/-! DEFINITION. The byte layer of the host port: the CRC-8, the command bytes with their argument and data counts, the
layout of a reply, and multi-byte values (R163, R167, R180). -/

namespace Sys2Proof

/-- R180: one left shift of the CRC register, polynomial 0x2F. -/
def crc8Shift (r : Byte) : Byte := if r.msb then (r <<< 1) ^^^ 0x2F#8 else r <<< 1

/-- R180: one covered byte into the CRC register: exclusive-OR, then eight shifts. -/
def crc8Step (r b : Byte) : Byte := Nat.repeat crc8Shift 8 (r ^^^ b)

/-- R180: the check of requests and replies, from 0xFF. -/
def crc8 (bytes : List Byte) : Byte := bytes.foldl crc8Step 0xFF#8

/-- R180: how many argument bytes a command byte fixes; none for a byte that names no command (R166). -/
def argCount (command : Byte) : Option Nat :=
  match command.toNat with
  | 0x01 => some 3 | 0x02 => some 7 | 0x03 => some 7 | 0x04 => some 16 | 0x05 => some 3 | 0x06 => some 0
  | 0x10 => some 1 | 0x11 => some 3 | 0x12 => some 2 | 0x13 => some 1 | 0x14 => some 0 | 0x15 => some 1
  | 0x16 => some 3 | 0x17 => some 0 | 0x18 => some 0 | 0x19 => some 0 | 0x1A => some 0 | 0x1B => some 0
  | 0x20 => some 0 | 0x21 => some 1 | 0x22 => some 1 | 0x23 => some 1 | 0x24 => some 0
  | 0x30 => some 1 | 0x31 => some 2 | 0x32 => some 1 | 0x3C => some 0
  | _ => none

/-- R163: eight bits as a byte, most significant bit first. -/
def bitsByte (bits : List Bool) : Byte := BitVec.ofNat 8 (bits.foldl (fun n b => 2 * n + b.toNat) 0)

/-- R163, R164: the bytes that the port takes from the bits clocked in; a partial last byte is dropped. -/
def bytesOf : List Bool → List Byte
  | b7 :: b6 :: b5 :: b4 :: b3 :: b2 :: b1 :: b0 :: rest => bitsByte [b7, b6, b5, b4, b3, b2, b1, b0] :: bytesOf rest
  | _ => []

/-- R182: the status byte of a reply. -/
def ReplyCode.byte (c : ReplyCode) : Byte := BitVec.ofNat 8 c.code

/-- R167: whether the data bytes carry results. -/
def ReplyCode.carriedOut (c : ReplyCode) : Bool := c == .ok || c == .clamped

/-- R167, R180: a reply is the status, the data bytes and a CRC over both. -/
def replyFrame (code : ReplyCode) (data : List Byte) : List Byte :=
  code.byte :: data ++ [crc8 (code.byte :: data)]

/-- R180: a 16-bit value, most significant byte first. -/
def halfBytes (n : Nat) : List Byte := [BitVec.ofNat 8 (n / 256), BitVec.ofNat 8 n]

/-- R180: a 32-bit value, most significant byte first. -/
def timeBytes (t : Time) : List Byte := halfBytes (t.toNat / 65536) ++ halfBytes (t.toNat % 65536)

/-- R181: a reply byte from its fields, each given by its lowest bit and its value. -/
def packByte (fields : List (Nat × Nat)) : Byte := BitVec.ofNat 8 ((fields.map fun f => f.2 * 2 ^ f.1).sum)

/-- The two bytes of a 16-bit argument, most significant first (R180). -/
def argBytes (h : Half) : List Byte := halfBytes h.toNat

end Sys2Proof
end

