-- ==== Sys2Proof/Syntax.lean ====
section
/-! DEFINITION. The commands of the Elpwave 4130: one constructor for each row of spec/opcode_table.json, with the
operands the manual gives it. A host request carries its argument bytes as clocked in (R180), the CRC byte received and how CS_N
stood, so that a corrupted request (R165) and a second one of the same transaction (R163) are operand values. A frame that is
heard carries the line's samples (R38), so that a discarded frame is one too. Timer expiries are events of their own (R1). -/

namespace Sys2Proof

/-- The commands, in the order of the opcode table. -/
inductive Instr where
  /-- R3: the line of FIn moves to its active level and holds it for `held` nanoseconds. -/
  | assertion (input : Input) (held : Nat)
  /-- R3, R8: the line of FIn moves back and holds the inactive level for `held` nanoseconds. -/
  | inputRelease (input : Input) (held : Nat)
  /-- R7: the qualify timer of slot In expires. -/
  | qualifyExpiry (input : Input)
  /-- R10: the heal timer of slot In expires. -/
  | healExpiry (input : Input)
  /-- R16: the heal timer of a declared slot expires. -/
  | declaredHealExpiry (slot : DeclSlot)
  /-- R155: SET-TIMING(item, value). -/
  | setTiming (item : Byte) (value : Half) (tail : Tail)
  /-- R156: SET-ZONE. -/
  | setZone (zone suspect confirmed isolated : Byte) (delay : Half) (attrs : Byte) (tail : Tail)
  /-- R156: SET-INPUT. -/
  | setInput (input flags qualify heal cls severity zone : Byte) (tail : Tail)
  /-- R156: SET-LEVELS. -/
  | setLevels (b0 b1 b2 b3 v0 v1 v2 v3 : Half) (tail : Tail)
  /-- R156: SET-PEERS. -/
  | setPeers (expected group quorum : Byte) (tail : Tail)
  /-- R157: START. -/
  | start (tail : Tail)
  /-- R116: STRESS(value). -/
  | stress (value : Byte) (tail : Tail)
  /-- R12: DECLARE(class, zone, severity). -/
  | declare (cls zone severity : Byte) (tail : Tail)
  /-- R15: WITHDRAW(class, zone). -/
  | withdraw (cls zone : Byte) (tail : Tail)
  /-- R17: CLEAR-FAULT(slot). -/
  | clearFault (slot : Byte) (tail : Tail)
  /-- R18: CLEAR-ALL. -/
  | clearAll (tail : Tail)
  /-- R101: FLOOR(level). -/
  | floor (level : Byte) (tail : Tail)
  /-- R86: RELEASE(zone, stamp). -/
  | release (zone : Byte) (stamp : Half) (tail : Tail)
  /-- R139: TRIP-CLEAR. -/
  | tripClear (tail : Tail)
  /-- R142: CONTACTOR-CLOSE. -/
  | contactorClose (tail : Tail)
  /-- R143: CONTACTOR-OPEN. -/
  | contactorOpen (tail : Tail)
  /-- R160: DEPART. -/
  | depart (tail : Tail)
  /-- R161: REJOIN. -/
  | rejoin (tail : Tail)
  /-- R169: READ-SUMMARY. -/
  | readSummary (tail : Tail)
  /-- R93: READ-ZONE(zone). -/
  | readZone (zone : Byte) (tail : Tail)
  /-- R62: READ-PEER(station). -/
  | readPeer (station : Byte) (tail : Tail)
  /-- R21: READ-FAULT(slot). -/
  | readFault (slot : Byte) (tail : Tail)
  /-- R162: READ-TIME. -/
  | readTime (tail : Tail)
  /-- R172: ACK(mask). -/
  | ack (mask : Byte) (tail : Tail)
  /-- R173: FLAG-TEST(set mask, clear mask). -/
  | flagTest (setMask clearMask : Byte) (tail : Tail)
  /-- R174: ENABLE(mask). -/
  | enable (mask : Byte) (tail : Tail)
  /-- R170: RESET. -/
  | reset (tail : Tail)
  /-- R166: a command byte that names no command, with the CRC byte that follows it. -/
  | unknownCommand (byte : Byte) (tail : Tail)
  /-- R164: CS_N rises. -/
  | requestDiscarded (clocked : Clocked)
  /-- R151: RST_N goes low and has been low for `low` nanoseconds without a break. -/
  | hostReset (low : Nat)
  /-- R150: VDD falls below the threshold or power-up occurs; the chip is held in reset. -/
  | powerOnReset
  /-- R50: the receiver samples a HELLO: `idle` recessive bit times, then `bits`, since the last sample that a command gave or, if
  it was enabled since, since then. -/
  | hello (idle : Nat) (bits : List Bool)
  /-- R51: the receiver samples a STATUS. -/
  | status (idle : Nat) (bits : List Bool)
  /-- R52: the receiver samples a LEAVE. -/
  | leave (idle : Nat) (bits : List Bool)
  /-- R28: the bit time after `idle` recessive ones, counted as for a frame that is heard. -/
  | frameStart (idle : Nat)
  /-- R30: dominant is read where recessive was driven, at this bit of the frame in flight. -/
  | lostContention (bit : Nat)
  /-- R31: a level different from the driven one is read, at this bit of the frame in flight. -/
  | bitFault (bit : Nat)
  /-- R32: the seventh end bit of the frame in flight is read back without a mismatch. -/
  | completes
  /-- R33: the status timer expires. -/
  | statusTimerExpiry
  /-- R36: the spacing timer expires. -/
  | spacingTimerExpiry
  /-- R37: the mute timer expires. -/
  | muteTimerExpiry
  /-- R54: the silence timer of a peer expires. -/
  | silenceTimerExpiry (peer : Station)
  /-- R53: the leave timer of a peer expires. -/
  | leaveTimerExpiry (peer : Station)
  /-- R57: the join-deadline timer expires. -/
  | joinDeadlineExpiry
  /-- R77: the isolation delay timer of a zone expires. -/
  | isolationDelayExpiry (zone : Zone)
  /-- R83: the dispute timer of a zone expires. -/
  | disputeTimerExpiry (zone : Zone)
  /-- R88: the clean timer of a zone expires. -/
  | cleanTimerExpiry (zone : Zone)
  /-- R117: the stress timer expires. -/
  | stressTimerExpiry
  /-- R122: the dwell timer expires. -/
  | dwellTimerExpiry
  /-- R123: the ramp timer expires. -/
  | rampExpiry
  /-- R132: the re-arm timer expires. -/
  | reArmTimerExpiry
  /-- R134: a PWM period of CAP begins. -/
  | pwmPeriodStart
  /-- R144: the contactor delay timer expires. -/
  | contactorDelayExpiry
  /-- R150: VDD has been above the threshold and RST_N high for `ready` microseconds. -/
  | releaseFromReset (straps : Straps) (ready : Nat)
  /-- R151: RST_N returns high. -/
  | rstNReturnsHigh
  deriving DecidableEq, Repr

end Sys2Proof
end

