-- ==== Sys2Proof/Decode.lean ====
section
/-! DEFINITION. What the bytes of a request spell (R163, R166, R180), and the commands that a word of the opcode table spells. No row
of spec/opcode_table.json gives bits: the 4130 fetches no instruction, and its commands are requests, frames, line events and
timer expiries. So no word spells a command. The layouts of frames, replies and codes (R178, R181, R182) stand in
Machine/Wire.lean, Machine/Spi.lean and Machine/Types.lean. -/

namespace Sys2Proof

/-- R180: a 16-bit argument from its two bytes, most significant first. -/
def half (high low : Byte) : Half := high ++ low

/-- R163, R166, R180: the request that the bytes of a transaction carry; none while its CRC byte has not come. Bytes after the CRC
byte are ignored, and a byte that names no command has no argument bytes. -/
def readRequest (select : Select) : List Byte → Option Instr
  | [] => none
  | command :: rest =>
    let tail (crc : Byte) : Tail := ⟨crc, select⟩
    match command.toNat, rest with
    | 0x01, item :: v1 :: v0 :: crc :: _ => some (.setTiming item (half v1 v0) (tail crc))
    | 0x02, zone :: l1 :: l2 :: l3 :: d1 :: d0 :: attrs :: crc :: _ =>
      some (.setZone zone l1 l2 l3 (half d1 d0) attrs (tail crc))
    | 0x03, input :: flags :: qualify :: heal :: cls :: severity :: zone :: crc :: _ =>
      some (.setInput input flags qualify heal cls severity zone (tail crc))
    | 0x04, a1 :: a0 :: b1 :: b0 :: c1 :: c0 :: d1 :: d0 :: e1 :: e0 :: f1 :: f0 :: g1 :: g0 :: h1 :: h0 :: crc :: _ =>
      some (.setLevels (half a1 a0) (half b1 b0) (half c1 c0) (half d1 d0) (half e1 e0) (half f1 f0) (half g1 g0)
        (half h1 h0) (tail crc))
    | 0x05, expected :: group :: quorum :: crc :: _ => some (.setPeers expected group quorum (tail crc))
    | 0x06, crc :: _ => some (.start (tail crc))
    | 0x10, value :: crc :: _ => some (.stress value (tail crc))
    | 0x11, cls :: zone :: severity :: crc :: _ => some (.declare cls zone severity (tail crc))
    | 0x12, cls :: zone :: crc :: _ => some (.withdraw cls zone (tail crc))
    | 0x13, slot :: crc :: _ => some (.clearFault slot (tail crc))
    | 0x14, crc :: _ => some (.clearAll (tail crc))
    | 0x15, level :: crc :: _ => some (.floor level (tail crc))
    | 0x16, zone :: s1 :: s0 :: crc :: _ => some (.release zone (half s1 s0) (tail crc))
    | 0x17, crc :: _ => some (.tripClear (tail crc))
    | 0x18, crc :: _ => some (.contactorClose (tail crc))
    | 0x19, crc :: _ => some (.contactorOpen (tail crc))
    | 0x1A, crc :: _ => some (.depart (tail crc))
    | 0x1B, crc :: _ => some (.rejoin (tail crc))
    | 0x20, crc :: _ => some (.readSummary (tail crc))
    | 0x21, zone :: crc :: _ => some (.readZone zone (tail crc))
    | 0x22, station :: crc :: _ => some (.readPeer station (tail crc))
    | 0x23, slot :: crc :: _ => some (.readFault slot (tail crc))
    | 0x24, crc :: _ => some (.readTime (tail crc))
    | 0x30, mask :: crc :: _ => some (.ack mask (tail crc))
    | 0x31, setMask :: clearMask :: crc :: _ => some (.flagTest setMask clearMask (tail crc))
    | 0x32, mask :: crc :: _ => some (.enable mask (tail crc))
    | 0x3C, crc :: _ => some (.reset (tail crc))
    | _, crc :: _ => if (argCount command).isNone then some (.unknownCommand command (tail crc)) else none
    | _, [] => none

/-- The command a table word spells: none, for every row's bits are empty. -/
def decodeTableWord (_nbits _w : Nat) : Option Instr := none

end Sys2Proof
end

