-- ==== Sys2Proof/Machine/Wire.lean ====
section
/-! DEFINITION. The frames of the Peer Status Bus as bits on the line: fields (R178), frame CRC (R179), bit stuffing (R25),
the transmitter's encoding and the receiver's checks (R38), and what a difference on read-back means (R30, R31).
A bit is true for recessive (logic 1) and false for dominant (logic 0), as R24 has them. -/

namespace Sys2Proof

/-- A frame's contents: the sender's number and the payload of its kind (R29, R178). -/
inductive Frame where
  | hello (id : Station) (role : Role) (group : Group)
  | status (id : Station) (join attest selfIsolated more : Bool) (group : Group) (lown lapp : Level)
      (list : List Accusation)
  | leave (id : Station)
  deriving DecidableEq, Repr

/-- The station number a frame carries. -/
def Frame.id : Frame → Station
  | .hello id _ _ => id
  | .status id _ _ _ _ _ _ _ _ => id
  | .leave id => id

/-- The kind of a frame. -/
def Frame.kind : Frame → Kind
  | .hello _ _ _ => .hello
  | .status _ _ _ _ _ _ _ _ _ => .status
  | .leave _ => .leave

/-- What every frame of a 4130 satisfies: at most four accusations, each of another zone (R91). -/
def Frame.wf : Frame → Bool
  | .status _ _ _ _ _ _ _ _ list => list.length ≤ 4 && (list.map (·.zone)).Nodup
  | _ => true

/-- The low `w` bits of `n`, most significant first (10_formats, conventions). -/
def natBits : Nat → Nat → List Bool
  | 0, _ => []
  | w + 1, n => n.testBit w :: natBits w n

/-- The number that bits spell, most significant first. -/
def bitsNat (bits : List Bool) : Nat := bits.foldl (fun n b => 2 * n + b.toNat) 0

/-- R179: one bit into the CRC register, polynomial 0x1021. -/
def crc16Step (r : BitVec 16) (b : Bool) : BitVec 16 :=
  if r.msb = b then r <<< 1 else (r <<< 1) ^^^ 0x1021#16

/-- R179: the frame CRC over the station ID, kind and payload bits, from 0xFFFF. -/
def crc16 (bits : List Bool) : BitVec 16 := bits.foldl crc16Step 0xFFFF#16

/-- R178: one accusation entry, zone (4), class (4), severity (2). -/
def Accusation.bits (a : Accusation) : List Bool :=
  natBits 4 a.zone.val ++ natBits 4 a.claim.cls.code ++ natBits 2 a.claim.severity.code

/-- R178: the payload of a frame. -/
def Frame.payload : Frame → List Bool
  | .hello _ role group => natBits 2 role.code ++ natBits 2 group.val
  | .status _ join attest selfIsolated more group lown lapp list =>
      [join, attest, selfIsolated, more] ++ natBits 2 group.val ++ natBits 3 lown.val ++ natBits 3 lapp.val
        ++ natBits 3 list.length ++ list.flatMap Accusation.bits
  | .leave _ => []

/-- R179: the bits the CRC covers. -/
def Frame.covered (f : Frame) : List Bool :=
  natBits 3 f.id.val ++ natBits 2 f.kind.code ++ f.payload

/-- R178: a frame from its start bit to its last CRC bit, before stuffing. -/
def Frame.body (f : Frame) : List Bool :=
  false :: (f.covered ++ natBits 16 (crc16 f.covered).toNat)

/-- R25: the length of the run that bit `b` ends, after a run of `run` bits at level `last`. -/
def runWith (last : Bool) (run : Nat) (b : Bool) : Nat := if b = last then run + 1 else 1

/-- R25: insert a stuff bit after every run of four; the stuff bit is the first bit of the next run. -/
def stuffFrom (last : Bool) (run : Nat) : List Bool → List Bool
  | [] => []
  | b :: bs =>
    if runWith last run b = 4 then b :: (!b) :: stuffFrom (!b) 1 bs
    else b :: stuffFrom b (runWith last run b) bs

/-- R25: the stuffed region of a frame. -/
def stuff (bits : List Bool) : List Bool := stuffFrom true 0 bits

/-- R25: the receiver drops the bit after every run of four; one of the run's own level is a stuff error. -/
def destuffFrom (last : Bool) (run : Nat) : List Bool → Option (List Bool)
  | [] => some []
  | b :: bs =>
    if runWith last run b = 4 then
      match bs with
      | [] => none
      | c :: cs => if c = b then none else (destuffFrom c 1 cs).map (b :: ·)
    else (destuffFrom b (runWith last run b) bs).map (b :: ·)

/-- R25: a stuffed region with its stuff bits removed. -/
def destuff (bits : List Bool) : Option (List Bool) := destuffFrom true 0 bits

/-- R178: the end field, seven recessive bits, not stuffed. -/
def endField : List Bool := List.replicate 7 true

/-- The whole frame as the transmitter drives it, from the start bit to the seventh end bit (R25, R178). -/
def Frame.wire (f : Frame) : List Bool := stuff f.body ++ endField

/-- R38: one received accusation entry; a zone of 12 or above, a class outside 1 to 10 or a severity of 0 is discarded. -/
def readEntry (zone cls severity : Nat) : Option Accusation :=
  if h : zone < 12 then
    match FaultClass.ofCode cls, Severity.ofCode severity with
    | some c, some v => some ⟨⟨zone, h⟩, ⟨c, v⟩⟩
    | _, _ => none
  else none

/-- R38: the accusation entries that the count implies, and nothing after them. -/
def readEntries : Nat → List Bool → Option (List Accusation)
  | 0, [] => some []
  | n + 1, z3 :: z2 :: z1 :: z0 :: c3 :: c2 :: c1 :: c0 :: v1 :: v0 :: rest =>
    match readEntry (bitsNat [z3, z2, z1, z0]) (bitsNat [c3, c2, c1, c0]) (bitsNat [v1, v0]), readEntries n rest with
    | some a, some l => some (a :: l)
    | _, _ => none
  | _, _ => none

/-- A received level field: 6 and 7 are discarded (R38, R178). -/
def readLevel (n : Nat) : Option Level := if h : n < 6 then some ⟨n, h⟩ else none

/-- R38, R178: the payload of a STATUS. -/
def readStatus (id : Station) : List Bool → Option Frame
  | join :: attest :: selfIsolated :: more :: g1 :: g0 :: a2 :: a1 :: a0 :: b2 :: b1 :: b0 :: c2 :: c1 :: c0 :: rest =>
    if bitsNat [c2, c1, c0] ≤ 4 then
      match readLevel (bitsNat [a2, a1, a0]), readLevel (bitsNat [b2, b1, b0]), readEntries (bitsNat [c2, c1, c0]) rest with
      | some lown, some lapp, some list =>
        if (list.map (·.zone)).Nodup then
          some (.status id join attest selfIsolated more (Fin.ofNat 4 (bitsNat [g1, g0])) lown lapp list)
        else none
      | _, _, _ => none
    else none
  | _ => none

/-- R38, R178: the fields that the CRC covers; kind 3 and a length that the kind and count do not imply are discarded. -/
def readCovered : List Bool → Option Frame
  | i2 :: i1 :: i0 :: k1 :: k0 :: payload =>
    let id : Station := Fin.ofNat 8 (bitsNat [i2, i1, i0])
    match k1, k0, payload with
    | false, false, [r1, r0, g1, g0] =>
      some (.hello id (Role.ofCode (bitsNat [r1, r0])) (Fin.ofNat 4 (bitsNat [g1, g0])))
    | false, true, _ => readStatus id payload
    | true, false, [] => some (.leave id)
    | _, _, _ => none
  | _ => none

/-- R38, R179: a frame without its stuff bits and end field: start bit, covered fields and a CRC that matches them. -/
def readBody : List Bool → Option Frame
  | false :: rest =>
    let covered := rest.take (rest.length - 16)
    if rest.drop (rest.length - 16) = natBits 16 (crc16 covered).toNat then readCovered covered else none
  | _ => none

/-- R38: the receiver's checks on the bits sampled from the start bit to the seventh end bit; none is a discarded frame. -/
def receive (bits : List Bool) : Option Frame :=
  if bits.drop (bits.length - 7) = endField then (destuff (bits.take (bits.length - 7))).bind readBody else none

/-- What the SBC takes a read-back difference for (R30, R31). -/
inductive Mismatch where
  | lostContention | bitFault
  deriving DecidableEq, Repr

/-- How many bits of the line belong to the start bit and the ID field. The ID field is the three ID bits with any stuff bit
that falls among them (R30); the only one that can is the one after start and ID 000, which ends the field.
DEDUCED, log entry 12. -/
def idFieldEnd (f : Frame) : Nat := (stuff (false :: natBits 3 f.id.val)).length

/-- R30, R31: a difference on bit `k` of this frame: dominant read where recessive was driven inside the ID field is lost
contention, every other difference is a bit fault; past the last bit nothing is driven and nothing can differ. -/
def Frame.mismatch (f : Frame) (k : Nat) : Option Mismatch :=
  match f.wire[k]? with
  | none => none
  | some driven => if driven && decide (k < idFieldEnd f) then some .lostContention else some .bitFault

end Sys2Proof
end

