-- ==== Sys2Proof/Machine/Line.lean ====
section
/-! DEFINITION. The receiver's view of the line, sample by sample: where a frame begins and ends, and when the line is idle
(R26). -/

namespace Sys2Proof

/-- R26: what the receiver makes of the line. -/
inductive Line where
  /-- The line is idle. -/
  | idle
  /-- A frame is in progress; its samples so far, from the start bit on. -/
  | frame (bits : List Bool)
  /-- `left` further recessive bit times make the line idle; a dominant one takes the count back to `again`. -/
  | wait (left again : Nat)
  deriving DecidableEq, Repr

/-- R26: the recessive bit times after a frame's end, or after the receiver is enabled, that make the line idle. -/
def idleBits : Nat := 10

/-- R26: the recessive bit times that end a frame that has broken off. -/
def endBits : Nat := 7

/-- R26, R42, R46: the receiver is enabled. -/
def Line.enabled : Line := .wait idleBits idleBits

/-- R26: a frame has ended. A dominant bit while the line is not idle again is read as part of that frame, whose end is then taken
at the next run of seven recessive bits. -/
def Line.ended : Line := .wait idleBits (endBits + idleBits)

/-- R178: the length of a frame from its start bit to its last CRC bit that its kind and count imply; none for kind 3, a count above 4
(R38) or a frame that has not come so far. -/
def bodyLength : List Bool → Option Nat
  | _ :: _ :: _ :: _ :: k1 :: k0 :: payload =>
    match k1, k0, payload with
    | false, false, _ => some 26
    | false, true, _ :: _ :: _ :: _ :: _ :: _ :: _ :: _ :: _ :: _ :: _ :: _ :: c2 :: c1 :: c0 :: _ =>
      if bitsNat [c2, c1, c0] ≤ 4 then some (37 + 10 * bitsNat [c2, c1, c0]) else none
    | true, false, _ => some 22
    | _, _, _ => none
  | _ => none

/-- The last seven samples are recessive. -/
def quietTail (bits : List Bool) : Bool := bits.drop (bits.length - endBits) == endField

/-- R26, R38: samples that have the form of a whole frame: a region that destuffs to the length its kind and count imply, and the end
field. -/
def formed (bits : List Bool) : Bool :=
  quietTail bits && (destuff (bits.take (bits.length - endBits))).any fun body => bodyLength body == some body.length

/-- R26: a frame is over at the last of its end bits. One that has broken off, or whose end field is broken, is over after seven
recessive bits, unless these are the end of a region and the first bits of an end field still under way. -/
def frameOver (bits : List Bool) : Bool :=
  quietTail bits && (formed bits || (List.range endBits).all fun k => !formed (bits ++ List.replicate k true))

/-- R26, R38: one sample; a frame that passes every check is taken at its last end bit. -/
def Line.sample : Line → Bool → Line × Option Frame
  | .idle, true => (.idle, none)
  | .idle, false => (.frame [false], none)
  | .frame bits, b =>
    if frameOver (bits ++ [b]) then (Line.ended, receive (bits ++ [b])) else (.frame (bits ++ [b]), none)
  | .wait left again, true => (if left ≤ 1 then .idle else .wait (left - 1) again, none)
  | .wait _ again, false => (.wait again again, none)

/-- R39: samples up to the end of the first valid frame among them. -/
def Line.hear (l : Line) : List Bool → Line × Option Frame
  | [] => (l, none)
  | b :: bs =>
    match l.sample b with
    | (m, some f) => (m, some f)
    | (m, none) => Line.hear m bs

/-- R30, R31: what the receiver has of the line when bit `k` of a frame of its own station reads `level`: the bits read back before it,
and that one. -/
def Line.readBack (f : Frame) (k : Nat) (level : Bool) : Line := (Line.hear .idle (f.wire.take k ++ [level])).1

end Sys2Proof
end

