-- ==== Sys2Proof/Machine/Records.lean ====
section
/-! DEFINITION. The records of each block of the 4130, as plain data. INVENTORY.md lists each field with its rule and its
reset value. -/

namespace Sys2Proof.Machine

/-- R2: the nine attributes of one fault input. `qualify` and `heal` are in milliseconds. -/
structure InputConfig where
  enabled : Bool
  activeLow : Bool
  qualify : Nat
  heal : Nat
  cls : FaultClass
  severity : Severity
  zone : Zone
  latching : Bool
  trip : Bool
  deriving DecidableEq, Repr

/-- R66, R98: what SET-ZONE loads for one zone. -/
structure ZoneConfig where
  suspectLevel : Level
  confirmedLevel : Level
  isolatedLevel : Level
  delay : Nat
  regenInhibit : Bool
  contactorDrop : Bool
  deriving DecidableEq, Repr

/-- R154 to R156: the configuration store. Times are in milliseconds, the clean interval in seconds. -/
structure Store where
  statusPeriod : Nat
  silenceTimeout : Nat
  leaveGrace : Nat
  joinDeadline : Nat
  escalation : Nat
  declaredHeal : Nat
  disputeWindow : Nat
  cleanInterval : Nat
  slo : Nat
  shi : Nat
  rampStep : Nat
  dwell : Nat
  stressTimeout : Nat
  rearmTime : Nat
  contactorFitted : Bool
  contactorDelay : Nat
  zones : Vector ZoneConfig 12
  inputs : Vector InputConfig 8
  baseCaps : Vector Nat 4
  speedCaps : Vector Nat 4
  expected : BitVec 8
  group : Group
  quorum : Nat
  deriving DecidableEq, Repr

/-- R4: where an entry comes from. -/
inductive Source where
  | input (n : Input) | declared
  deriving DecidableEq, Repr

/-- R4: one entry of the Local Fault Table. The count is absent while QUALIFYING. -/
structure Entry where
  source : Source
  cls : FaultClass
  zone : Zone
  configured : Severity
  current : Severity
  state : EntryState
  count : Option Nat
  escalated : Bool
  firstActive : Option Time
  latching : Bool
  deriving DecidableEq, Repr

/-- R4, section 1.3: one slot with its two timers. -/
structure Slot where
  entry : Option Entry
  qualify : Timer
  heal : Timer
  deriving DecidableEq, Repr

/-- R4, section 1.5: the Local Fault Table and the round-robin pointer. -/
structure Lft where
  inputs : Vector Slot 8
  declared : Vector Slot 8
  pointer : DeclSlot
  deriving DecidableEq, Repr

/-- R27: the transmit request set, one mark for each kind. -/
structure Requests where
  hello : Bool
  status : Bool
  leave : Bool
  deriving DecidableEq, Repr

/-- 02_the_peer_status_bus: the Status Bus Controller. `line` is what the receiver makes of the line, and `inFlight` this station's
frame on it. -/
structure Sbc where
  receiverOn : Bool
  line : Line
  transmitterOn : Bool
  requests : Requests
  inFlight : Option Frame
  renewal : Bool
  statusTimer : Timer
  spacing : Timer
  mute : Timer
  bitFaults : Nat
  duplicateLatch : Bool
  deriving DecidableEq, Repr

/-- R47: the fields of a peer record that a STATUS fills. -/
structure StatusFields where
  lown : Level
  lapp : Level
  attest : Bool
  selfIsolated : Bool
  more : Bool
  deriving DecidableEq, Repr

/-- R47: one record of the Peer View Table. -/
structure PeerRecord where
  presence : Presence
  expected : Bool
  role : Option Role
  group : Option Group
  status : Option StatusFields
  list : List Accusation
  lastHeard : Option Time
  silence : Timer
  leave : Timer
  deriving DecidableEq, Repr

/-- R47, R57: the Peer View. -/
structure PeerView where
  peers : Vector PeerRecord 8
  joinTimer : Timer
  deriving DecidableEq, Repr

/-- R67: the derived set. `lost p` and `implausible a` name the station whose zone is accused. -/
structure Derived where
  lost : Vector Bool 8
  deaf : Bool
  mute : Bool
  bitFault : Bool
  duplicate : Bool
  implausible : Vector Bool 8
  stale : Bool
  deriving DecidableEq, Repr

/-- R65: one entry of the all-accuser list. -/
structure Accuser where
  station : Station
  claim : Claim
  discounted : Bool
  deriving DecidableEq, Repr

/-- R65, R82, R83: the dispute on a zone, with its lone accuser. -/
inductive Dispute where
  | none | pending (accuser : Station) | inForce (accuser : Station)
  deriving DecidableEq, Repr

/-- R65: one record of the Zone Table. -/
structure ZoneRecord where
  state : ZoneState
  accusers : List Accuser
  own : Option Claim
  delay : Timer
  dispute : Dispute
  disputeTimer : Timer
  clean : Timer
  count : Nat
  released : Bool
  stamp : Option Half
  deriving DecidableEq, Repr

/-- 04_zone_isolation: the Zone Isolation Unit. -/
structure Ziu where
  zones : Vector ZoneRecord 12
  derived : Derived
  deriving DecidableEq, Repr

/-- 05_drive_levels: what the Level Resolver holds. -/
structure Levels where
  floor : Level
  lown : Level
  follow : Level
  lapp : Level
  speedCap : Nat
  regen : Bool
  deriving DecidableEq, Repr

/-- 06_drive_permission_arithmetic: what the Permission Unit holds. The ramp timer has no field: it runs without stopping
on the phase of node time (R123). -/
structure Permission where
  stress : Byte
  foldback : Nat
  target : Nat
  output : Nat
  dwell : Timer
  stressTimer : Timer
  deriving DecidableEq, Repr

/-- 07_output_lines: what the Output Unit holds. -/
structure Outputs where
  gen : Bool
  tripLatch : Bool
  rearm : Timer
  activeDuty : Nat
  pendingDuty : Nat
  lamp : Lamp
  contactor : Contactor
  contactorTimer : Timer
  deriving DecidableEq, Repr

/-- 08_start_up_and_node_modes: what the Mode Controller holds. `held` is set while the chip is held in power-on reset. -/
structure ModeCtl where
  held : Bool
  mode : NodeMode
  started : Bool
  station : Station
  role : Role
  nodeTime : Time
  deriving DecidableEq, Repr

/-- 09_host_port: the pending flags, the enable mask, and the reply of the present transaction. The reply is absent until a request
has been accepted in the transaction; it is there, and empty, in a transaction in which the port takes no request (R163, R170,
R176). -/
structure Port where
  flags : Byte
  enable : Byte
  reply : Option (List Byte)
  deriving DecidableEq, Repr

/-- The input lines whose level the rules depend on: FI0 to FI7 (true for high), and RST_N held low, since a host reset was taken
from it or while the chip is held in power-on reset (R150, R151, R170). -/
structure Pins where
  faultLines : Vector Bool 8
  rstLow : Bool
  deriving DecidableEq, Repr

end Sys2Proof.Machine
end

