-- ==== Sys2Proof/Machine/Defaults.lean ====
section
/-! DEFINITION. The values that power-on reset gives each block's records (R22, R45, R63, R94, R112, R128, R147, R176) and
the defaults of the configuration store. -/

namespace Sys2Proof.Machine

/-- R2: the power-on defaults of a fault input of this station. -/
def InputConfig.initial (station : Station) : InputConfig :=
  { enabled := false, activeLow := false, qualify := 10, heal := 500, cls := .sensor, severity := .major
    zone := stationZone station, latching := false, trip := false }

/-- R66, R98: the power-on defaults of a zone. -/
def ZoneConfig.initial (z : Zone) : ZoneConfig :=
  if z = 8 then ⟨2, 3, 5, 200, true, true⟩
  else if z = 9 then ⟨1, 3, 3, 300, false, false⟩
  else if z = 10 then ⟨1, 2, 3, 300, false, false⟩
  else if z = 11 then ⟨2, 3, 3, 300, false, false⟩
  else ⟨1, 2, 2, 300, false, false⟩

/-- R2, R66, R96, R98, R103, R114, R141, R155: the power-on defaults of the store. -/
def Store.initial (station : Station) (role : Role) : Store :=
  { statusPeriod := 50, silenceTimeout := 200, leaveGrace := 500, joinDeadline := 1000, escalation := 3
    declaredHeal := 500, disputeWindow := 1000, cleanInterval := 60, slo := 120, shi := 200, rampStep := 25
    dwell := 2000, stressTimeout := 500, rearmTime := 100, contactorFitted := role == .battery
    contactorDelay := 100, zones := Vector.ofFn ZoneConfig.initial
    inputs := Vector.ofFn fun _ => InputConfig.initial station
    baseCaps := #v[1000, 750, 450, 150], speedCaps := #v[250, 250, 150, 60]
    expected := 0, group := if role = .drive then 1 else 0, quorum := 2 }

/-- R22: an empty slot. -/
def Slot.empty : Slot := ⟨none, none, none⟩

/-- R22: the empty table. -/
def Lft.empty : Lft := ⟨Vector.ofFn fun _ => Slot.empty, Vector.ofFn fun _ => Slot.empty, 0⟩

/-- R45: the SBC after power-on reset. -/
def Sbc.initial : Sbc :=
  { receiverOn := false, line := .enabled, transmitterOn := false, requests := ⟨false, false, false⟩, inFlight := none
    renewal := false, statusTimer := none, spacing := none, mute := none, bitFaults := 0, duplicateLatch := false }

/-- R63, R64: a record of which nothing is known. -/
def PeerRecord.absent (expected : Bool) : PeerRecord :=
  { presence := .absent, expected := expected, role := none, group := none, status := none, list := []
    lastHeard := none, silence := none, leave := none }

/-- R63: the Peer View after power-on reset. -/
def PeerView.initial : PeerView := ⟨Vector.ofFn fun _ => PeerRecord.absent false, none⟩

/-- R67: the empty derived set. -/
def Derived.empty : Derived :=
  { lost := Vector.ofFn fun _ => false, deaf := false, mute := false, bitFault := false, duplicate := false
    implausible := Vector.ofFn fun _ => false, stale := false }

/-- R94: a zone record after power-on reset. -/
def ZoneRecord.initial : ZoneRecord :=
  { state := .clear, accusers := [], own := none, delay := none, dispute := .none, disputeTimer := none
    clean := none, count := 0, released := false, stamp := none }

/-- R94: the ZIU after power-on reset. -/
def Ziu.initial : Ziu := ⟨Vector.ofFn fun _ => ZoneRecord.initial, Derived.empty⟩

/-- R112: the Level Resolver after power-on reset. -/
def Levels.initial : Levels := ⟨0, 0, 0, 5, 0, false⟩

/-- R128: the Permission Unit after power-on reset. -/
def Permission.initial : Permission := ⟨0, 1000, 0, 0, none, none⟩

/-- R147: the Output Unit at the release from power-on reset. -/
def Outputs.initial : Outputs :=
  { gen := false, tripLatch := false, rearm := none, activeDuty := 50, pendingDuty := 50, lamp := .steady
    contactor := .opened, contactorTimer := none }

/-- R176: the Host Port at the release from power-on reset; a CS_N that is low then begins no transaction. -/
def Port.initial : Port := ⟨0, 0xFF, some []⟩

end Sys2Proof.Machine
end

