-- ==== Sys2Proof/Machine/State.lean ====
section
/-! DEFINITION. Everything the manual gives one 4130, the reasons a step can stop, and the state right after power-on reset. -/

namespace Sys2Proof.Machine

/-- One Elpwave 4130. `pending`, `due` and `choices` are the model's own fields: the commands that wait, first in, first out;
the events that fell due in the present millisecond and have not had their turn; and the number of open choices taken so far. -/
structure State where
  ctl : ModeCtl
  pins : Pins
  cfg : Store
  lft : Lft
  sbc : Sbc
  pv : PeerView
  ziu : Ziu
  lvl : Levels
  perm : Permission
  out : Outputs
  port : Port
  pending : List Instr
  due : List Instr
  choices : Nat
  deriving DecidableEq, Repr

/-- Why a command could stop the machine with a fault: the manual names no such stop, so there is no reason. -/
inductive Fault where
  deriving DecidableEq, Repr

/-- Why a command is turned away by the model. -/
inductive Refusal where
  /-- Raised by an arm of exec whose command has no meaning yet; safe. -/
  | notModelled (mnemonic : String)
  /-- Raised for a command that is not well formed: its row says one thing and its operands another (a HELLO whose samples
  spell a valid STATUS), so no event of the machine corresponds to it; safe. -/
  | mislabelled
  deriving DecidableEq, Repr

/-- What a meaning answers. -/
abbrev Result := Host.Outcome State Fault Refusal

/-- R150: every block at its power-on values, with these straps and these levels on FI0 to FI7. -/
def State.powerOn (station : Station) (role : Role) (lines : Vector Bool 8) (pending : List Instr)
    (choices : Nat) : State :=
  { ctl := { held := false, mode := .unconfigured, started := false, station := station, role := role, nodeTime := 0 }
    pins := ⟨lines, false⟩
    cfg := Store.initial station role
    lft := Lft.empty
    sbc := Sbc.initial
    pv := PeerView.initial
    ziu := Ziu.initial
    lvl := Levels.initial
    perm := Permission.initial
    out := Outputs.initial
    port := Port.initial
    pending := pending
    due := []
    choices := choices }

/-- The machine right after the release from power-on reset (R150), with every strap and every fault line low:
DESIGN CHOICE, log entry 1. -/
def State.reset : State := State.powerOn 0 .aux (Vector.ofFn fun _ => false) [] 0

end Sys2Proof.Machine
end

