-- ==== Sys2Proof/Machine/Flags.lean ====
section
/-! DEFINITION. The pending flags, the enable mask and INT_N (R171 to R175). -/

namespace Sys2Proof.Machine

/-- R182: the mark of a flag in a mask. -/
def Flag.mask (f : Flag) : Byte := 1#8 <<< f.bit

/-- R171: a raised flag becomes pending, or stays so; the enable mask plays no part. -/
def raise (f : Flag) (s : State) : State := { s with port.flags := s.port.flags ||| Flag.mask f }

/-- Raise a flag if a condition holds. -/
def raiseIf (c : Bool) (f : Flag) (s : State) : State := if c then raise f s else s

/-- R171: whether a flag is pending. -/
def State.isPending (s : State) (f : Flag) : Bool := s.port.flags.getLsbD f.bit

/-- R172: the flags after an ACK of these. -/
def ackFlags (flags mask : Byte) : Byte := flags &&& ~~~mask

/-- R173: the flags after a FLAG-TEST; the set mask wins. -/
def testFlags (flags setMask clearMask : Byte) : Byte := (flags &&& ~~~clearMask) ||| setMask

/-- R175: INT_N is driven low while a flag is both pending and enabled; in power-on reset it is released. -/
def State.intLow (s : State) : Bool := !s.ctl.held && (s.port.flags &&& s.port.enable) != 0

end Sys2Proof.Machine
end

