-- ==== Sys2Proof/Machine/Operands.lean ====
section
/-! DEFINITION. How a host request reaches its owner and what its argument bytes mean: the transaction, acceptance and CRC (R163 to R167),
structural arguments that name something or are refused RANGE, and numeric arguments that are clamped (R154 to R156). -/

namespace Sys2Proof.Machine

/-- What the owner of a request answers: the state, the reply code and the data bytes of a request carried out. -/
structure Answer where
  state : State
  code : ReplyCode
  data : List Byte := []

/-- A refusal: nothing changes (R167). -/
def refuse (code : ReplyCode) (s : State) : Answer := ⟨s, code, []⟩

/-- A request carried out; some of its values may have been clamped (R154, R167). -/
def accept (clamped : Bool) (s : State) : Answer := ⟨s, if clamped then .clamped else .ok, []⟩

/-- Whether the port takes requests: not while the chip is held in reset or RST_N is held low after a host reset (R170). -/
def State.portOpen (s : State) : Bool := !s.ctl.held && !s.pins.rstLow

/-- R163, R170, R176: whether the port takes a request that is clocked in now. In a transaction that has had its request, or that
was in progress at a reset, it takes none until CS_N has risen and fallen. -/
def State.takes (s : State) (select : Select) : Bool := s.portOpen && (select == .fresh || s.port.reply.isNone)

/-- R163, R170: a request that is not taken. The bytes of a second request of a transaction are ignored, and a transaction that
overlaps RST_N low is discarded, with no reply. -/
def turnAway (s : State) : State := if s.portOpen || s.ctl.held then s else { s with port.reply := some [] }

/-- R165: a request whose CRC does not match is not executed; SPI is raised and the reply is BAD-CRC. -/
def badCrc (s : State) : State := { raise .spi s with port.reply := some (replyFrame .badCrc []) }

/-- R167: the data bytes of a reply are all 0x00 when the command is refused. -/
def replyData (dataCount : Nat) (a : Answer) : List Byte :=
  if a.code.carriedOut then a.data else List.replicate dataCount 0

/-- R163 to R168: a whole request at the eighth clock of its CRC byte. -/
def hostRequest (command : Byte) (args : List Byte) (tail : Tail) (dataCount : Nat) (owner : State → Answer)
    (s : State) : Result :=
  if s.takes tail.select then
    if crc8 (command :: args) = tail.crc then
      .next { (owner s).state with port.reply := some (replyFrame (owner s).code (replyData dataCount (owner s))) }
    else .next (badCrc s)
  else .next (turnAway s)

/-- Taken in JOINING, RUNNING and DEPARTED; refused WRONG-MODE in UNCONFIGURED (R12, R86, R101, R116). -/
def whenStarted (s : State) (a : Answer) : Answer :=
  if s.ctl.mode = .unconfigured then refuse .wrongMode s else a

/-- Taken in UNCONFIGURED alone (R154, R157). -/
def whenUnconfigured (s : State) (a : Answer) : Answer :=
  if s.ctl.mode = .unconfigured then a else refuse .wrongMode s

/-- A number brought to the nearer bound of a range (R154). -/
def clampTo (lo hi n : Nat) : Nat := max lo (min hi n)

/-- A zone argument: 12 or above names nothing. -/
def zoneArg (b : Byte) : Option Zone := if h : b.toNat < 12 then some ⟨b.toNat, h⟩ else none

/-- A station, input or declared-slot argument: 8 or above names nothing. -/
def eightArg (b : Byte) : Option (Fin 8) := if h : b.toNat < 8 then some ⟨b.toNat, h⟩ else none

/-- A level argument: above 5 is clamped to L5 (R98, R101). -/
def levelArg (b : Byte) : Level := ⟨min b.toNat 5, by omega⟩

/-- A follow group argument: above 3 is clamped to 3 (R103). -/
def groupArg (b : Byte) : Group := ⟨min b.toNat 3, by omega⟩

/-- A class argument of an input or a declaration (R12, R156). -/
def classArg (b : Byte) : Option FaultClass := FaultClass.ofLocalCode b.toNat

/-- A severity argument (R12, R156). -/
def severityArg (b : Byte) : Option Severity := Severity.ofCode b.toNat

/-- R156, R180: the attributes that SET-INPUT loads, if its structural arguments all name something. -/
def inputConfigArg (flags qualify heal cls severity zone : Byte) : Option InputConfig :=
  match classArg cls, severityArg severity, zoneArg zone with
  | some c, some v, some z =>
    some { enabled := flags.getLsbD 0, activeLow := flags.getLsbD 1, qualify := qualify.toNat
           heal := 10 * heal.toNat, cls := c, severity := v, zone := z
           latching := flags.getLsbD 2, trip := flags.getLsbD 3 }
  | _, _, _ => none

/-- R156, R180: what SET-ZONE loads, clamped. -/
def zoneConfigArg (suspect confirmed isolated : Byte) (delay : Half) (attrs : Byte) : ZoneConfig :=
  { suspectLevel := levelArg suspect, confirmedLevel := levelArg confirmed, isolatedLevel := levelArg isolated
    delay := min delay.toNat 5000, regenInhibit := attrs.getLsbD 0, contactorDrop := attrs.getLsbD 1 }

/-- R155: the value that a SET-TIMING item takes, after its per-item clamp; the last arm is item 15. Items 8 and 9 take
the low byte alone. -/
def timingValue (item : Fin 16) (value : Nat) : Nat :=
  match item.val with
  | 0 => clampTo 20 200 value / 10 * 10
  | 1 => clampTo 100 2000 value
  | 2 => clampTo 100 2000 value
  | 3 => clampTo 200 5000 value
  | 4 => if value = 1 then 2 else min value 15
  | 5 => min value 5000
  | 6 => clampTo 200 5000 value
  | 7 => clampTo 5 600 value
  | 8 => value % 256
  | 9 => value % 256
  | 10 => clampTo 1 1000 value
  | 11 => min value 10000
  | 12 => if value = 0 then 0 else clampTo 100 5000 value
  | 13 => clampTo 20 1000 value
  | 14 => min value 1
  | _ => clampTo 20 500 value

/-- R154, R155: whether an item's value was clamped; items 8 and 9 have no clamp. -/
def timingClamped (item : Fin 16) (value : Nat) : Bool :=
  item != 8 && item != 9 && timingValue item value != value

/-- R155: the store with one item replaced; the last arm is item 15. -/
def Store.setTiming (c : Store) (item : Fin 16) (v : Nat) : Store :=
  match item.val with
  | 0 => { c with statusPeriod := v }
  | 1 => { c with silenceTimeout := v }
  | 2 => { c with leaveGrace := v }
  | 3 => { c with joinDeadline := v }
  | 4 => { c with escalation := v }
  | 5 => { c with declaredHeal := v }
  | 6 => { c with disputeWindow := v }
  | 7 => { c with cleanInterval := v }
  | 8 => { c with slo := v }
  | 9 => { c with shi := v }
  | 10 => { c with rampStep := v }
  | 11 => { c with dwell := v }
  | 12 => { c with stressTimeout := v }
  | 13 => { c with rearmTime := v }
  | 14 => { c with contactorFitted := v != 0 }
  | _ => { c with contactorDelay := v }

end Sys2Proof.Machine
end

