-- ==== Sys2Proof/Config.lean ====
section
/-! DEFINITION. What the manual leaves open. The only open matter of its rules is the order in which things that come
together are taken ('either may be taken first'). That order is a free value: keys without a body, by which the model
sorts what comes together. Nothing can be proved of a key, so whatever is proved holds for every order. -/

namespace Sys2Proof

/-- A free value: the sort key, at the `n`-th open choice, of the `i`-th thing of those that come together. -/
opaque Config.orderKey : Nat → Nat → Nat

/-- Put one keyed thing before the first that has a greater key. -/
def insertKeyed {α : Type} (key : Nat) (x : α) : List (Nat × α) → List (Nat × α)
  | [] => [(key, x)]
  | (k, y) :: rest => if key ≤ k then (key, x) :: (k, y) :: rest else (k, y) :: insertKeyed key x rest

/-- Sort things by the keys of open choice `n`, the first of them having position `i`. -/
def orderFrom {α : Type} (n i : Nat) : List α → List (Nat × α)
  | [] => []
  | x :: rest => insertKeyed (Config.orderKey n i) x (orderFrom n (i + 1) rest)

/-- The things that come together, in the order that open choice `n` takes them: any order at all. -/
def freeOrder {α : Type} (n : Nat) (things : List α) : List α := (orderFrom n 0 things).map (·.2)

end Sys2Proof
end

