-- ==== Sys2Proof/Machine/Support.lean ====
section
/-! DEFINITION. Who accuses a zone, and how strongly: the local accusations and the attest condition that the LFT block
hands on (R19, R20), the own accusation (R67, R68), the accuser sets (R70, R71), the confirmation condition (R72) and
the dispute condition (R81). All are computed from the tables as they stand. -/

namespace Sys2Proof.Machine

/-- R19, R68: whether `a` is the accusation to take over `b`: the higher severity, and within it the lower class code. -/
def Claim.over (a b : Claim) : Bool :=
  b.severity.code < a.severity.code || (a.severity == b.severity && a.cls.code < b.cls.code)

/-- R19, R68: the accusation that several sources form together. -/
def strongest : List Claim → Option Claim
  | [] => none
  | c :: rest =>
    match strongest rest with
    | none => some c
    | some d => if Claim.over d c then some d else some c

/-- R4: the slots in the order of their numbers 0 to 15. -/
def Lft.slots (l : Lft) : List Slot := l.inputs.toList ++ l.declared.toList

/-- R5, R19: an entry accuses its zone unless it is QUALIFYING. -/
def Entry.accuses (e : Entry) (z : Zone) : Bool := e.zone == z && e.state != .qualifying

/-- R19: the accusation a slot contributes against a zone. -/
def Slot.claim (z : Zone) (sl : Slot) : Option Claim :=
  match sl.entry with
  | some e => if e.accuses z then some ⟨e.cls, e.current⟩ else none
  | none => none

/-- R19: the local accusation of a zone. -/
def localAccusation (l : Lft) (z : Zone) : Option Claim := strongest (l.slots.filterMap (Slot.claim z))

/-- R19, R181: the slots that accuse a zone, bit n for slot n. -/
def accusingSlots (l : Lft) (z : Zone) : Nat :=
  ((l.slots.zipIdx.filter fun x => (Slot.claim z x.1).isSome).map fun x => 2 ^ x.2).sum

/-- R20: no entry in any state accuses this station's own zone. -/
def State.attests (s : State) : Bool :=
  s.lft.slots.all fun sl =>
    match sl.entry with
    | some e => e.zone != stationZone s.ctl.station
    | none => true

/-- Whether a mark kept for each station is set for the station that owns the zone. -/
def ownerMarked (marks : Vector Bool 8) (z : Zone) : Bool :=
  match zoneOwner z with
  | some p => marks[p]
  | none => false

/-- R67, R181: the derivations that can stand against a zone, each with its bit in the READ-ZONE reply, whether it stands,
and what it accuses the zone of. -/
def derivations (d : Derived) (self : Station) (z : Zone) : List (Nat × Bool × Claim) :=
  [(0, ownerMarked d.lost z, ⟨.lost, .major⟩),
   (1, d.deaf && z == busZone, ⟨.bus, .major⟩),
   (2, d.mute && z == busZone, ⟨.bus, .minor⟩),
   (3, d.bitFault && z == busZone, ⟨.bus, .major⟩),
   (4, d.duplicate && z == busZone, ⟨.bus, .major⟩),
   (5, ownerMarked d.implausible z, ⟨.implausible, .minor⟩),
   (6, d.stale && z == stationZone self, ⟨.stale, .minor⟩)]

/-- R67: what the standing derivations accuse a zone of. -/
def derivedClaims (d : Derived) (self : Station) (z : Zone) : List Claim :=
  (derivations d self z).filterMap fun x => if x.2.1 then some x.2.2 else none

/-- R68: this station's own accusation of a zone. -/
def ownClaim (s : State) (z : Zone) : Option Claim :=
  strongest ((localAccusation s.lft z).toList ++ derivedClaims s.ziu.derived s.ctl.station z)

/-- R70: a peer's accusation of a zone counts while its record is JOINING or PRESENT. -/
def PeerRecord.claim (r : PeerRecord) (z : Zone) : Option Claim :=
  if r.presence = .joining ∨ r.presence = .present then (r.list.find? (·.zone == z)).map (·.claim) else none

/-- R70: the members of A(z) in order of station number, none of them marked. -/
def accusersOf (s : State) (own : Option Claim) (z : Zone) : List Accuser :=
  (List.finRange 8).filterMap fun p =>
    (if p = s.ctl.station then own else (s.pv.peers[p]).claim z).map fun c => ⟨p, c, false⟩

/-- R71: the all-accuser list with the lone accuser of a dispute in force marked discounted. -/
def markDiscounted (d : Dispute) (l : List Accuser) : List Accuser :=
  l.map fun a => { a with discounted := d == .inForce a.station }

/-- R71: the raw confirming set K0(z). -/
def rawConfirming (l : List Accuser) : List Accuser := l.filter fun a => a.claim.cls != .implausible

/-- R71: the confirming set K(z). -/
def confirming (l : List Accuser) : List Accuser := (rawConfirming l).filter fun a => !a.discounted

/-- R71: the suspicion set. -/
def suspicion (l : List Accuser) : List Accuser := l.filter fun a => !a.discounted

/-- R72, R75: some member of K(z) accuses at CRITICAL. -/
def criticalAmong (l : List Accuser) : Bool := (confirming l).any fun a => a.claim.severity == .critical

/-- R72: the confirmation condition. -/
def confirmationHolds (quorum : Nat) (z : Zone) (l : List Accuser) : Bool :=
  (confirming l).any (fun a => zoneOwner z == some a.station && a.claim.severity != .minor)
    || criticalAmong l
    || decide (quorum ≤ (confirming l).length)

/-- R79: the accuser bitmap. -/
def accuserBitmap (l : List Accuser) : Nat := ((confirming l).map fun a => 2 ^ a.station.val).sum

/-- R79: the isolation stamp, from the count after its rise. -/
def isolationStamp (z : Zone) (count : Nat) (l : List Accuser) : Half :=
  BitVec.ofNat 16 (z.val * 4096 + count % 16 * 256 + accuserBitmap l)

/-- R81, R85: the owner is PRESENT and its latest STATUS attests; for this station its own attest condition stands for both. -/
def ownerDenies (s : State) (o : Station) : Bool :=
  if o = s.ctl.station then s.attests
  else (s.pv.peers[o]).presence == .present && ((s.pv.peers[o]).status.any (·.attest))

/-- R81: the lone accuser, when a dispute exists on the zone. -/
def disputedBy (s : State) (z : Zone) (l : List Accuser) : Option Station :=
  match zoneOwner z, rawConfirming l with
  | some o, [a] =>
    if ownerDenies s o && a.station != o && a.claim.severity != .critical then some a.station else none
  | _, _ => none

end Sys2Proof.Machine
end

