-- ==== Sys2Proof/Machine/Resolve.lean ====
section
/-! DEFINITION. From zone states and peer records to the lines: the Level Resolver (R100 to R110), the Permission Unit
(R118 to R125) and the Output Unit's GEN and LAMP (R130 to R137), as one change of their inputs runs through them. -/

namespace Sys2Proof.Machine

/-- R107: the most restrictive of several levels. -/
def maxLevel (l : List Level) : Level := l.foldr max 0

/-- R96: the base cap B(L). -/
def baseCap (c : Store) (l : Level) : Nat := if h : l.val < 4 then c.baseCaps[l.val] else 0

/-- R96: the speed cap V(L). -/
def speedCapOf (c : Store) (l : Level) : Nat := if h : l.val < 4 then c.speedCaps[l.val] else 0

/-- R60: what the Level Resolver receives of a peer record. -/
structure Announced where
  presence : Presence
  group : Option Group
  lown : Level
  selfIsolated : Bool
  deriving DecidableEq, Repr

/-- R60: the part of a peer record that the Level Resolver reads. -/
def PeerRecord.announced (r : PeerRecord) : Announced :=
  { presence := r.presence, group := r.group
    lown := (r.status.map (·.lown)).getD 0, selfIsolated := (r.status.map (·.selfIsolated)).getD false }

/-- What the Level Resolver and the Permission Unit work from, as handed on to them. -/
structure View where
  zones : Vector ZoneState 12
  peers : Vector Announced 8
  mode : NodeMode
  trip : Bool
  floor : Level
  stress : Byte
  deriving DecidableEq, Repr

/-- The inputs as they stand in the owning blocks. -/
def View.of (s : State) : View :=
  { zones := Vector.ofFn fun z => (s.ziu.zones[z]).state
    peers := Vector.ofFn fun p => (s.pv.peers[p]).announced
    mode := s.ctl.mode, trip := s.out.tripLatch, floor := s.lvl.floor, stress := s.perm.stress }

/-- R100: what a zone contributes. -/
def contribution (c : Store) (self : Station) (z : Zone) (st : ZoneState) : Level :=
  match st with
  | .clear => 0
  | .suspect => (c.zones[z]).suspectLevel
  | .confirmed => (c.zones[z]).confirmedLevel
  | .isolated | .pinned => if z = stationZone self then 5 else (c.zones[z]).isolatedLevel

/-- R102: Lown, the highest of the twelve contributions and the host floor. -/
def ownCauseLevel (c : Store) (self : Station) (v : View) : Level :=
  maxLevel (v.floor :: (List.finRange 12).map fun z => contribution c self z v.zones[z])

/-- R104: whether this station follows peer `p`. -/
def follows (c : Store) (self : Station) (v : View) (p : Station) : Bool :=
  c.group != 0 && p != self && (v.peers[p]).presence == .present && (v.peers[p]).group == some c.group
    && (v.zones[stationZone p] == .clear || v.zones[stationZone p] == .suspect)
    && !(v.peers[p]).selfIsolated

/-- R104: the follow level. -/
def followLevel (c : Store) (self : Station) (v : View) : Level :=
  maxLevel (((List.finRange 8).filter (follows c self v)).map fun p => (v.peers[p]).lown)

/-- R106: the mode floor. -/
def modeFloor (m : NodeMode) : Level := if m = .running then 0 else 5

/-- R106: the trip floor. -/
def tripFloor (trip : Bool) : Level := if trip then 5 else 0

/-- R107: Lapp. -/
def appliedLevel (c : Store) (self : Station) (v : View) : Level :=
  maxLevel [ownCauseLevel c self v, followLevel c self v, modeFloor v.mode, tripFloor v.trip]

/-- R110: regeneration permission at an applied level. -/
def regenPermitted (c : Store) (v : View) (lapp : Level) : Bool :=
  decide (lapp.val ≤ 4) && (List.finRange 12).all fun z => !((c.zones[z]).regenInhibit && v.zones[z].suspectOrWorse)

/-- R118: the foldback factor. -/
def foldbackOf (slo shi stress : Nat) : Nat :=
  if stress ≤ slo then 1000 else if stress < shi then 1000 * (shi - stress) / (shi - slo) else 0

/-- R119: the target cap that a view gives. -/
def targetOf (c : Store) (self : Station) (v : View) : Nat :=
  baseCap c (appliedLevel c self v) * foldbackOf c.slo c.shi v.stress.toNat / 1000

/-- R125: the duty that encodes an output cap. -/
def dutyOf (output : Nat) : Nat := 50 + 9 * output / 10

/-- R137: the LAMP pattern of an applied level. -/
def lampOf (lapp : Level) : Lamp :=
  if lapp.val = 0 then .off else if lapp.val ≤ 2 then .blink1Hz else if lapp.val ≤ 4 then .blink4Hz else .steady

/-- R122: a timer whose time may be 0, which then never runs. -/
def startTimer (time : Nat) : Timer := if time = 0 then none else some time

/-- R125, R134: a change of O hands its duty on; it becomes the pending duty. -/
def setOutput (o : Nat) (s : State) : State :=
  if o = s.perm.output then s else { s with perm.output := o, out.pendingDuty := dutyOf o }

/-- R119, R121: a new target cap. A fall brings O down with it and restarts the dwell; a rise does neither. -/
def setTarget (t : Nat) (s : State) : State :=
  if t < s.perm.target then
    setOutput (min t s.perm.output) { s with perm.target := t, perm.dwell := startTimer s.cfg.dwell }
  else { s with perm.target := t }

/-- R130 to R132, R124: GEN as it should be. A fall makes O 0 and discards the re-arm timer; a rise starts it. -/
def setGen (g : Bool) (s : State) : State :=
  match s.out.gen, g with
  | true, false => setOutput 0 { s with out.gen := false, out.rearm := none }
  | false, true => { s with out.gen := true, out.rearm := some s.cfg.rearmTime }
  | _, _ => s

/-- R102, R104, R107, R109, R110: the levels that a view gives; LEVEL is raised at a change of Lapp. -/
def setLevels (v : View) (s : State) : State :=
  let lapp := appliedLevel s.cfg s.ctl.station v
  raiseIf (lapp != s.lvl.lapp) .level
    { s with lvl.lown := ownCauseLevel s.cfg s.ctl.station v
             lvl.follow := followLevel s.cfg s.ctl.station v
             lvl.lapp := lapp
             lvl.speedCap := speedCapOf s.cfg lapp
             lvl.regen := regenPermitted s.cfg v lapp }

/-- R118, R119: the foldback factor and the target cap for the applied level and a stress value. -/
def setCaps (stress : Byte) (s : State) : State :=
  let f := foldbackOf s.cfg.slo s.cfg.shi stress.toNat
  setTarget (baseCap s.cfg s.lvl.lapp * f / 1000) { s with perm.foldback := f }

/-- R130, R137: GEN and LAMP for the applied level and a trip latch. -/
def setLines (trip : Bool) (s : State) : State :=
  let t := setGen (decide (s.lvl.lapp.val < 5) && !trip) s
  { t with out.lamp := lampOf t.lvl.lapp }

/-- One set of inputs taken by the Level Resolver, the Permission Unit and the Output Unit. -/
def resolve (v : View) (s : State) : State := setLines v.trip (setCaps v.stress (setLevels v s))

/-- The inputs that one event may change. -/
inductive HandOn where
  | records | zones | mode | trip | floor | stress
  deriving DecidableEq, Repr

/-- A view with one of its inputs brought up to date. -/
def View.take (k : HandOn) (v w : View) : View :=
  match k with
  | .records => { v with peers := w.peers }
  | .zones => { v with zones := w.zones }
  | .mode => { v with mode := w.mode }
  | .trip => { v with trip := w.trip }
  | .floor => { v with floor := w.floor }
  | .stress => { v with stress := w.stress }

/-- The inputs in which two views differ. -/
def View.changes (v w : View) : List HandOn :=
  [HandOn.records, .zones, .mode, .trip, .floor, .stress].filter fun k => View.take k v w != v

/-- The inputs taken one after another, each change running through the units before the next is taken. -/
def takeInTurn (w : View) : List HandOn → View → State → State
  | [], _, s => s
  | k :: rest, v, s => takeInTurn w rest (View.take k v w) (resolve (View.take k v w) s)

/-- R105, R107, R120: one event may change several inputs, and they arrive in either order. The order is an open choice; the
last resolve works from all inputs as they then stand. -/
def handOn (v : View) (s : State) : State :=
  match View.changes v (View.of s) with
  | [] => resolve (View.of s) s
  | [_] => resolve (View.of s) s
  | several =>
    let t := takeInTurn (View.of s) (freeOrder s.choices several) v s
    resolve (View.of s) { t with choices := s.choices + 1 }

end Sys2Proof.Machine
end

