-- ==== Sys2Proof/Machine/Ops.lean ====
section
/-! DEFINITION. The shared operations: what follows, within one event, from a change in the tables. Peer derivations (R55,
R56), the early end of the join (R58), disputes (R81 to R84), zone states (R75 to R80), flags, the contactor's drop
(R143), the levels and lines (Machine/Resolve.lean), and urgent STATUS triggers (R34). A meaning changes its own block
and then calls `settle`. -/

namespace Sys2Proof.Machine

/-- A command that is no host request: it reaches no block while the chip is held in power-on reset (R146, R150). -/
def event (s : State) (f : State → State) : Result := .next (if s.ctl.held then s else f s)

/-! ### Peer View -/

/-- R58: every expected peer is PRESENT, and there is at least one. The own number is never marked expected. -/
def joinComplete (s : State) : Bool :=
  (List.finRange 8).any (fun p => (s.pv.peers[p]).expected)
    && (List.finRange 8).all fun p => !(s.pv.peers[p]).expected || (s.pv.peers[p]).presence == .present

/-- R57, R58, R159: the join ends. -/
def endJoin (s : State) : State := { s with pv.joinTimer := none, ctl.mode := .running }

/-- R58: the early end of the join. -/
def checkJoin (s : State) : State := if s.ctl.mode = .joining && joinComplete s then endJoin s else s

/-- R56: every peer record is ABSENT or SILENT and at least one is SILENT. -/
def deafCondition (s : State) : Bool :=
  (List.finRange 8).all (fun p => p == s.ctl.station || (s.pv.peers[p]).presence == .absent
      || (s.pv.peers[p]).presence == .silent)
    && (List.finRange 8).any fun p => p != s.ctl.station && (s.pv.peers[p]).presence == .silent

/-- R55: a LOST derivation stands exactly while the peer's record is SILENT. -/
def lostMarks (s : State) : Vector Bool 8 := Vector.ofFn fun p => (s.pv.peers[p]).presence == .silent

/-- R55, R56: the Peer View reports LOST and deaf as they now stand. -/
def peerDerivations (s : State) : State :=
  { s with ziu.derived.lost := lostMarks s, ziu.derived.deaf := deafCondition s }

/-! ### Zone Isolation Unit -/

/-- R82, R84: the dispute after its condition is examined again; a new lone accuser begins a new dispute. -/
def nextDispute (window : Nat) (accuser : Option Station) (d : Dispute) (t : Timer) : Dispute × Timer :=
  match accuser, d with
  | none, _ => (.none, none)
  | some a, .none => (.pending a, some window)
  | some a, .pending b => if a = b then (d, t) else (.pending a, some window)
  | some a, .inForce b => if a = b then (d, t) else (.pending a, some window)

/-- R68, R70, R71, R82: a zone's own accusation, all-accuser list and dispute, formed again. -/
def supportZone (s : State) (z : Zone) : ZoneRecord :=
  let r := s.ziu.zones[z]
  let own := ownClaim s z
  let l := accusersOf s own z
  let d := nextDispute s.cfg.disputeWindow (disputedBy s z l) r.dispute r.disputeTimer
  { r with own := own, accusers := markDiscounted d.1 l, dispute := d.1, disputeTimer := d.2 }

/-- The same for every zone. -/
def supportPass (s : State) : State := { s with ziu.zones := Vector.ofFn (supportZone s) }

/-- R83, R84: IMPLAUSIBLE stands against Za while a dispute in force names station a. -/
def implausibleMarks (zones : Vector ZoneRecord 12) : Vector Bool 8 :=
  Vector.ofFn fun a => (List.finRange 12).any fun z => (zones[z]).dispute == .inForce a

/-- R73, R84: passes until the disputes and the IMPLAUSIBLE derivations agree. Only the end of a dispute in force can ask
for another pass, so the bound is never met. -/
def settleSupport : Nat → State → State
  | 0, s => s
  | n + 1, s =>
    let t := supportPass s
    let marks := implausibleMarks t.ziu.zones
    if marks = t.ziu.derived.implausible then t else settleSupport n { t with ziu.derived.implausible := marks }

/-- R78, R79, R89: the entry to ISOLATED, or to PINNED if released-since-clean is set. -/
def isolate (z : Zone) (r : ZoneRecord) : ZoneRecord :=
  let count := min 15 (r.count + 1)
  { r with state := if r.released then .pinned else .isolated, count := count
           stamp := some (isolationStamp z count r.accusers), delay := none, clean := none }

/-- R88: the clean timer of a zone that enters CLEAR. -/
def cleanStart (c : Store) (r : ZoneRecord) : Timer := if r.released then some (1000 * c.cleanInterval) else none

/-- R75, R76: SUSPECT or CLEAR, as the suspicion set says. A zone that stays CLEAR keeps its clean timer. -/
def unconfirmed (c : Store) (r : ZoneRecord) : ZoneRecord :=
  if (suspicion r.accusers).isEmpty then
    if r.state = .clear then r else { r with state := .clear, delay := none, clean := cleanStart c r }
  else { r with state := .suspect, delay := none, clean := none }

/-- R75, R76, R80: a zone's state after its support is examined. -/
def zoneNext (c : Store) (z : Zone) (r : ZoneRecord) : ZoneRecord :=
  match r.state with
  | .clear | .suspect =>
    if confirmationHolds c.quorum z r.accusers then
      if criticalAmong r.accusers || (c.zones[z]).delay == 0 then isolate z r
      else { r with state := .confirmed, delay := some (c.zones[z]).delay, clean := none }
    else unconfirmed c r
  | .confirmed =>
    if confirmationHolds c.quorum z r.accusers then if criticalAmong r.accusers then isolate z r else r
    else unconfirmed c r
  | .isolated | .pinned => r

/-- The state rules applied to every zone. -/
def settleZones (s : State) : State :=
  { s with ziu.zones := Vector.ofFn fun z => zoneNext s.cfg z s.ziu.zones[z] }

/-- R92: the self-isolated flag. -/
def State.selfIsolated (s : State) : Bool := (s.ziu.zones[stationZone s.ctl.station]).state.isIsolated

/-! ### Flags and the contactor -/

/-- R143: a CLOSED contactor enters DROPPING; in any other state nothing happens. -/
def startDrop (s : State) : State :=
  if s.out.contactor = .closed then
    raise .contactor { s with out.contactor := .dropping, out.contactorTimer := some s.cfg.contactorDelay }
  else s

/-- R74: some zone's state differs. -/
def zonesMoved (before s : State) : Bool :=
  (List.finRange 12).any fun z => (before.ziu.zones[z]).state != (s.ziu.zones[z]).state

/-- R59: some peer record's presence state differs. -/
def presenceMoved (before s : State) : Bool :=
  (List.finRange 8).any fun p => (before.pv.peers[p]).presence != (s.pv.peers[p]).presence

/-- R78, R143: a contactor-drop zone has entered ISOLATED or PINNED. -/
def dropZoneEntered (before s : State) : Bool :=
  (List.finRange 12).any fun z => (s.cfg.zones[z]).contactorDrop && (s.ziu.zones[z]).state.isIsolated
    && !(before.ziu.zones[z]).state.isIsolated

/-- R59, R74, R143: ZONE and PEER for what has changed, and the contactor's drop. -/
def noteChanges (before s : State) : State :=
  let t := raiseIf (presenceMoved before s) .peer (raiseIf (zonesMoved before s) .zone s)
  if dropZoneEntered before s then startDrop t else t

/-! ### Urgent STATUS -/

/-- R27, R37: a STATUS request; the mute timer starts when none was in the set. -/
def requestStatus (s : State) : State :=
  if s.sbc.requests.status then s
  else { s with sbc.requests.status := true, sbc.mute := some s.cfg.silenceTimeout }

/-- R34, R35: an urgent trigger sets a STATUS request, or the renewal mark while a STATUS of this station is on the line. -/
def urgent (s : State) : State :=
  if s.ctl.mode = .joining ∨ s.ctl.mode = .running then
    if (s.sbc.inFlight.map Frame.kind) = some .status then { s with sbc.renewal := true } else requestStatus s
  else s

/-- R69: an own accusation appears or rises to a higher severity. -/
def claimRose (old new : Option Claim) : Bool :=
  match old, new with
  | _, none => false
  | none, some _ => true
  | some o, some n => decide (o.severity.code < n.severity.code)

/-- R34: the three triggers. -/
def triggered (before s : State) : Bool :=
  ((List.finRange 12).any fun z => claimRose (before.ziu.zones[z]).own (s.ziu.zones[z]).own)
    || decide (before.lvl.lown < s.lvl.lown)
    || (s.selfIsolated && !before.selfIsolated)

/-- R34: an urgent STATUS if a trigger came about. -/
def raiseTriggers (before s : State) : State := if triggered before s then urgent s else s

/-! ### The whole of an event -/

/-- The tables brought into line: the join, the derivations, the disputes and the zone states. -/
def settleTables (s : State) : State := settleZones (settleSupport 10 (peerDerivations (checkJoin s)))

/-- All that follows from a change of the tables within its event; `before` is the state that the event found. -/
def settle (before s : State) : State :=
  let t := noteChanges before (settleTables s)
  raiseTriggers before (handOn (View.of before) t)

end Sys2Proof.Machine
end

