-- ==== Sys2Proof/Machine/Configure.lean ====
section
/-! DEFINITION. The five configuration commands (R154 to R156) and the cross-item corrections of START (R158). -/

namespace Sys2Proof.Machine

/-- R155: SET-TIMING with a known item number. -/
def loadTiming (item : Fin 16) (value : Half) (s : State) : Answer :=
  accept (timingClamped item value.toNat) { s with cfg := Store.setTiming s.cfg item (timingValue item value.toNat) }

/-- R155: SET-TIMING. -/
def execSetTiming (item : Byte) (value : Half) (tail : Tail) (s : State) : Result :=
  hostRequest 0x01 (item :: argBytes value) tail 0 (fun s =>
    whenUnconfigured s (if h : item.toNat < 16 then loadTiming ⟨item.toNat, h⟩ value s else refuse .range s)) s

/-- R98, R156: whether SET-ZONE brings a level or the delay into range. -/
def zoneClamped (suspect confirmed isolated : Byte) (delay : Half) : Bool :=
  decide (5 < suspect.toNat) || decide (5 < confirmed.toNat) || decide (5 < isolated.toNat)
    || decide (5000 < delay.toNat)

/-- R156: SET-ZONE. -/
def execSetZone (zone suspect confirmed isolated : Byte) (delay : Half) (attrs : Byte) (tail : Tail)
    (s : State) : Result :=
  hostRequest 0x02 ([zone, suspect, confirmed, isolated] ++ argBytes delay ++ [attrs]) tail 0 (fun s =>
    whenUnconfigured s (match zoneArg zone with
      | some z =>
        accept (zoneClamped suspect confirmed isolated delay)
          { s with cfg.zones := s.cfg.zones.set z (zoneConfigArg suspect confirmed isolated delay attrs) }
      | none => refuse .range s)) s

/-- R156: SET-INPUT. It loads attributes and is no event of the input's line (R138). -/
def execSetInput (input flags qualify heal cls severity zone : Byte) (tail : Tail) (s : State) : Result :=
  hostRequest 0x03 [input, flags, qualify, heal, cls, severity, zone] tail 0 (fun s =>
    whenUnconfigured s (match eightArg input, inputConfigArg flags qualify heal cls severity zone with
      | some n, some c => accept false { s with cfg.inputs := s.cfg.inputs.set n c }
      | _, _ => refuse .range s)) s

/-- R96: four loaded values brought to a bound. -/
def clampFour (bound : Nat) (v : Vector Half 4) : Vector Nat 4 := Vector.ofFn fun i => min (v[i]).toNat bound

/-- R96: whether one of four loaded values is above its bound. -/
def anyAbove (bound : Nat) (v : Vector Half 4) : Bool := (List.finRange 4).any fun i => decide (bound < (v[i]).toNat)

/-- R96, R156: SET-LEVELS. -/
def execSetLevels (b0 b1 b2 b3 v0 v1 v2 v3 : Half) (tail : Tail) (s : State) : Result :=
  hostRequest 0x04 ([b0, b1, b2, b3, v0, v1, v2, v3].flatMap argBytes) tail 0 (fun s =>
    whenUnconfigured s (accept (anyAbove 1000 #v[b0, b1, b2, b3] || anyAbove 500 #v[v0, v1, v2, v3])
      { s with cfg.baseCaps := clampFour 1000 #v[b0, b1, b2, b3]
               cfg.speedCaps := clampFour 500 #v[v0, v1, v2, v3] })) s

/-- R156: whether SET-PEERS brings the group or the quorum into range. -/
def peersClamped (group quorum : Byte) : Bool :=
  decide (3 < group.toNat) || decide (quorum.toNat = 0) || decide (3 < quorum.toNat)

/-- R156: SET-PEERS. -/
def execSetPeers (expected group quorum : Byte) (tail : Tail) (s : State) : Result :=
  hostRequest 0x05 [expected, group, quorum] tail 0 (fun s =>
    whenUnconfigured s (accept (peersClamped group quorum)
      { s with cfg.expected := expected, cfg.group := groupArg group, cfg.quorum := clampTo 1 3 quorum.toNat })) s

/-! ### The corrections of START -/

/-- R97: a table of L0 to L3 made non-increasing; each entry is lowered to the lowest of those up to it. -/
def nonIncreasing (t : Vector Nat 4) : Vector Nat 4 :=
  #v[t[0], min t[1] t[0], min t[2] (min t[1] t[0]), min t[3] (min t[2] (min t[1] t[0]))]

/-- R99: the three levels of a zone put into order; levels are only raised. -/
def orderedLevels (z : ZoneConfig) : ZoneConfig :=
  let confirmed := max z.confirmedLevel z.suspectLevel
  { z with confirmedLevel := confirmed, isolatedLevel := max z.isolatedLevel confirmed }

/-- R115: the thresholds with Shi above Slo. -/
def orderedThresholds (slo shi : Nat) : Nat × Nat :=
  if slo < shi then (slo, shi) else if slo ≤ 254 then (slo, slo + 1) else (254, 255)

/-- R158: the store brought into line at START. -/
def Store.corrected (c : Store) : Store :=
  { c with baseCaps := nonIncreasing c.baseCaps, speedCaps := nonIncreasing c.speedCaps
           zones := Vector.ofFn fun z => orderedLevels c.zones[z]
           slo := (orderedThresholds c.slo c.shi).1, shi := (orderedThresholds c.slo c.shi).2
           silenceTimeout := max c.silenceTimeout (2 * c.statusPeriod) }

end Sys2Proof.Machine
end

