-- ==== Sys2Proof/Machine/Inputs.lean ====
section
/-! DEFINITION. The Local Fault Table: input events and timers (R3 to R11), declarations (R12 to R18), READ-FAULT (R21), and
the trip path of an input event (R138). -/

namespace Sys2Proof.Machine

/-! ### Lines and the trip latch -/

/-- R3: the line of FIn is at its active level. -/
def State.lineAsserted (s : State) (n : Input) : Bool := s.pins.faultLines[n] != (s.cfg.inputs[n]).activeLow

/-- R3: the shortest pulse that is an event, in nanoseconds. -/
def minimumPulse : Nat := 200

/-- The line of FIn at its active or its inactive level. -/
def setLine (n : Input) (asserted : Bool) (s : State) : State :=
  { s with pins.faultLines := s.pins.faultLines.set n (asserted != (s.cfg.inputs[n]).activeLow) }

/-- R124, R138: the trip latch is set, O becomes 0 and TRIP is raised; a latch already set is left as it is. -/
def setTrip (s : State) : State :=
  if s.out.tripLatch then s else raise .trip (setOutput 0 { s with out.tripLatch := true })

/-- R138, R139: some trip input is asserted. -/
def State.tripAsserted (s : State) : Bool :=
  (List.finRange 8).any fun n => (s.cfg.inputs[n]).trip && s.lineAsserted n

/-- R140: the latch is set if a trip input is asserted at this moment. -/
def sampleTrip (s : State) : State := if s.tripAsserted then setTrip s else s

/-! ### Entries -/

/-- R4, R9: a count that saturates at 15. -/
def countUp (c : Option Nat) : Option Nat := some (min 15 (c.getD 0 + 1))

/-- R11: the escalation check. -/
def escalate (e : Nat) (x : Entry) : Entry :=
  if e ≠ 0 ∧ x.escalated = false ∧ e ≤ x.count.getD 0 then { x with current := x.current.up, escalated := true } else x

/-- R7, R14: an entry first becomes ACTIVE, with count 1. -/
def activate (e : Nat) (now : Time) (x : Entry) : Entry :=
  escalate e { x with state := .active, count := some 1, firstActive := some now }

/-- R9, R13: an entry returns to ACTIVE, its count raised. -/
def reactivate (e : Nat) (x : Entry) : Entry := escalate e { x with state := .active, count := countUp x.count }

/-- R6: the entry that an assertion creates. -/
def qualifyingEntry (n : Input) (c : InputConfig) : Entry :=
  { source := .input n, cls := c.cls, zone := c.zone, configured := c.severity, current := c.severity
    state := .qualifying, count := none, escalated := false, firstActive := none, latching := c.latching }

/-- R6, R9: an input's slot after an assertion. -/
def assertSlot (e : Nat) (now : Time) (n : Input) (c : InputConfig) (sl : Slot) : Slot :=
  match sl.entry with
  | none =>
    if c.qualify = 0 then { sl with entry := some (activate e now (qualifyingEntry n c)) }
    else { sl with entry := some (qualifyingEntry n c), qualify := some c.qualify }
  | some x =>
    match x.state with
    | .healing | .latched => { sl with entry := some (reactivate e x), heal := none }
    | .qualifying | .active => sl

/-- R8: an input's slot after a release. -/
def releaseSlot (c : InputConfig) (sl : Slot) : Slot :=
  match sl.entry with
  | none => sl
  | some x =>
    match x.state with
    | .qualifying => { sl with entry := none, qualify := none }
    | .active =>
      if x.latching then { sl with entry := some { x with state := .latched } }
      else if c.heal = 0 then { sl with entry := none }
      else { sl with entry := some { x with state := .healing }, heal := some c.heal }
    | .healing | .latched => sl

/-- R7: an input's slot after its qualify timer expires. -/
def qualifySlot (e : Nat) (now : Time) (sl : Slot) : Slot :=
  match sl.entry with
  | some x => if x.state = .qualifying then { sl with entry := some (activate e now x), qualify := none } else sl
  | none => sl

/-- R10, R16: a slot after its heal timer expires. -/
def healSlot (sl : Slot) : Slot :=
  match sl.entry with
  | some x => if x.state = .healing then { sl with entry := none, heal := none } else sl
  | none => sl

/-- One input slot changed. -/
def setInputSlot (n : Input) (sl : Slot) (s : State) : State := { s with lft.inputs := s.lft.inputs.set n sl }

/-- One declared slot changed. -/
def setDeclaredSlot (d : DeclSlot) (sl : Slot) (s : State) : State :=
  { s with lft.declared := s.lft.declared.set d sl }

/-- R2, R3, R6, R9: the LFT block takes an assertion of FIn, outside UNCONFIGURED and if the input is enabled. -/
def takeAssertion (n : Input) (s : State) : State :=
  if s.ctl.mode ≠ .unconfigured ∧ (s.cfg.inputs[n]).enabled = true then
    setInputSlot n (assertSlot s.cfg.escalation s.ctl.nodeTime n (s.cfg.inputs[n]) (s.lft.inputs[n])) s
  else s

/-- R2, R3, R8: the LFT block takes a release of FIn. -/
def takeRelease (n : Input) (s : State) : State :=
  if s.ctl.mode ≠ .unconfigured ∧ (s.cfg.inputs[n]).enabled = true then
    setInputSlot n (releaseSlot (s.cfg.inputs[n]) (s.lft.inputs[n])) s
  else s

/-- R138: the trip path of an assertion; the enabled attribute plays no part. -/
def takeTrip (n : Input) (s : State) : State := if (s.cfg.inputs[n]).trip then setTrip s else s

/-- R3: each enabled input whose line is active is taken as asserted, when the LFT block starts watching. -/
def watchInputs (s : State) : State :=
  (List.finRange 8).foldl (fun t n => if t.lineAsserted n then takeAssertion n t else t) s

/-- R3, R6, R9, R138: ASSERTION. While the chip is held in reset the line moves and nothing takes notice. -/
def execAssertion (input : Input) (held : Nat) (s : State) : Result :=
  if held < minimumPulse ∨ s.lineAsserted input = true then .next s
  else if s.ctl.held then .next (setLine input true s)
  else .next (settle s (takeTrip input (takeAssertion input (setLine input true s))))

/-- R3, R8: INPUT_RELEASE. -/
def execInputRelease (input : Input) (held : Nat) (s : State) : Result :=
  if held < minimumPulse ∨ s.lineAsserted input = false then .next s
  else if s.ctl.held then .next (setLine input false s)
  else .next (settle s (takeRelease input (setLine input false s)))

/-- R7: QUALIFY_EXPIRY. A timer that is not running does not expire (R1). -/
def execQualifyExpiry (input : Input) (s : State) : Result :=
  event s fun s =>
    if (s.lft.inputs[input]).qualify.isSome then
      settle s (setInputSlot input (qualifySlot s.cfg.escalation s.ctl.nodeTime (s.lft.inputs[input])) s)
    else s

/-- R10: HEAL_EXPIRY. -/
def execHealExpiry (input : Input) (s : State) : Result :=
  event s fun s =>
    if (s.lft.inputs[input]).heal.isSome then settle s (setInputSlot input (healSlot (s.lft.inputs[input])) s) else s

/-- R16: DECLARED_HEAL_EXPIRY; the pointer does not move. -/
def execDeclaredHealExpiry (slot : DeclSlot) (s : State) : Result :=
  event s fun s =>
    if (s.lft.declared[slot]).heal.isSome then
      settle s (setDeclaredSlot slot (healSlot (s.lft.declared[slot])) s)
    else s

/-! ### Declarations -/

/-- The first declared slot at or after the pointer that satisfies a test, D7 being followed by D0 (R14). -/
def findFrom (pointer : DeclSlot) (test : DeclSlot → Bool) : Option DeclSlot :=
  ((List.finRange 8).map fun i => pointer + i).find? test

/-- R12, R15: the declared slot that holds this class and zone. -/
def declaredSlot (l : Lft) (c : FaultClass) (z : Zone) : Option DeclSlot :=
  (List.finRange 8).find? fun d =>
    match (l.declared[d]).entry with
    | some x => x.cls == c && x.zone == z
    | none => false

/-- A declared slot that is empty. -/
def isEmptySlot (l : Lft) (d : DeclSlot) : Bool := (l.declared[d]).entry.isNone

/-- A declared slot whose entry is HEALING. -/
def isHealingSlot (l : Lft) (d : DeclSlot) : Bool :=
  match (l.declared[d]).entry with
  | some x => x.state == .healing
  | none => false

/-- R14: where a new declaration goes: the first empty slot from the pointer, else the first HEALING one. -/
def placementSlot (l : Lft) : Option DeclSlot :=
  match findFrom l.pointer (isEmptySlot l) with
  | some d => some d
  | none => findFrom l.pointer (isHealingSlot l)

/-- R14: the entry that a new declaration places. -/
def declaredEntry (e : Nat) (now : Time) (c : FaultClass) (z : Zone) (v : Severity) : Entry :=
  activate e now
    { source := .declared, cls := c, zone := z, configured := v, current := v, state := .active, count := none
      escalated := false, firstActive := none, latching := false }

/-- R13: an entry whose severity a DECLARE replaces; a HEALING one returns to ACTIVE. -/
def redeclared (e : Nat) (v : Severity) (x : Entry) : Entry :=
  let y := { x with configured := v, current := if x.escalated then v.up else v }
  if x.state = .healing then reactivate e y else y

/-- R13: the slot that a DECLARE updates; the heal timer of a HEALING entry is discarded, an ACTIVE one has none. -/
def redeclareSlot (e : Nat) (v : Severity) (x : Entry) (sl : Slot) : Slot :=
  { sl with entry := some (redeclared e v x), heal := if x.state = .healing then none else sl.heal }

/-- R12 to R14: a DECLARE with valid arguments in an accepting mode. -/
def declareFault (c : FaultClass) (z : Zone) (v : Severity) (s : State) : Answer :=
  match declaredSlot s.lft c z with
  | some d =>
    match (s.lft.declared[d]).entry with
    | some x => accept false (settle s (setDeclaredSlot d (redeclareSlot s.cfg.escalation v x (s.lft.declared[d])) s))
    | none => refuse .notFound s
  | none =>
    match placementSlot s.lft with
    | some d =>
      let t := setDeclaredSlot d ⟨some (declaredEntry s.cfg.escalation s.ctl.nodeTime c z v), none, none⟩ s
      accept false (settle s { t with lft.pointer := d + 1 })
    | none => refuse .full s

/-- R12: DECLARE. The arguments are checked before the node mode (R167). -/
def execDeclare (cls zone severity : Byte) (tail : Tail) (s : State) : Result :=
  hostRequest 0x11 [cls, zone, severity] tail 0 (fun s =>
    match classArg cls, zoneArg zone, severityArg severity with
    | some c, some z, some v => whenStarted s (declareFault c z v s)
    | _, _, _ => refuse .range s) s

/-- R15: an ACTIVE declared entry becomes HEALING, or is removed at a declared heal time of 0. -/
def withdrawSlot (heal : Nat) (x : Entry) (sl : Slot) : Slot :=
  if x.state = .healing then sl
  else if heal = 0 then { sl with entry := none, heal := none }
  else { sl with entry := some { x with state := .healing }, heal := some heal }

/-- R15: a WITHDRAW with valid arguments in an accepting mode. -/
def withdrawFault (c : FaultClass) (z : Zone) (s : State) : Answer :=
  match declaredSlot s.lft c z with
  | some d =>
    match (s.lft.declared[d]).entry with
    | some x => accept false (settle s (setDeclaredSlot d (withdrawSlot s.cfg.declaredHeal x (s.lft.declared[d])) s))
    | none => refuse .notFound s
  | none => refuse .notFound s

/-- R15: WITHDRAW. The arguments are checked before the node mode (R167). -/
def execWithdraw (cls zone : Byte) (tail : Tail) (s : State) : Result :=
  hostRequest 0x12 [cls, zone] tail 0 (fun s =>
    match classArg cls, zoneArg zone with
    | some c, some z => whenStarted s (withdrawFault c z s)
    | _, _ => refuse .range s) s

/-- R4: what a slot number names: I0 to I7 are 0 to 7, D0 to D7 are 8 to 15. -/
inductive SlotName where
  | input (n : Input) | declared (d : DeclSlot)
  deriving DecidableEq, Repr

/-- R4, R17: a slot number above 15 names nothing. -/
def slotArg (b : Byte) : Option SlotName :=
  if h : b.toNat < 8 then some (.input ⟨b.toNat, h⟩)
  else if h : b.toNat - 8 < 8 then some (.declared ⟨b.toNat - 8, h⟩)
  else none

/-- R17: the input of a QUALIFYING or ACTIVE entry is asserted. -/
def Entry.stillAsserted (x : Entry) : Bool := x.state == .qualifying || x.state == .active

/-- R17: CLEAR-FAULT of a named slot. -/
def clearSlot (name : SlotName) (s : State) : Answer :=
  match name with
  | .input n =>
    match (s.lft.inputs[n]).entry with
    | none => refuse .notFound s
    | some x => if x.stillAsserted then refuse .stillAsserted s else accept false (settle s (setInputSlot n Slot.empty s))
  | .declared d =>
    match (s.lft.declared[d]).entry with
    | none => refuse .notFound s
    | some _ => accept false (settle s (setDeclaredSlot d Slot.empty s))

/-- R17: CLEAR-FAULT. -/
def execClearFault (slot : Byte) (tail : Tail) (s : State) : Result :=
  hostRequest 0x13 [slot] tail 0 (fun s =>
    whenStarted s (match slotArg slot with
      | some name => clearSlot name s
      | none => refuse .range s)) s

/-- R18: the table after CLEAR-ALL; the input area is untouched. -/
def clearDeclared (l : Lft) : Lft := { l with declared := Vector.ofFn fun _ => Slot.empty, pointer := 0 }

/-- R18: CLEAR-ALL. -/
def execClearAll (tail : Tail) (s : State) : Result :=
  hostRequest 0x14 [] tail 0 (fun s => whenStarted s (accept false (settle s { s with lft := clearDeclared s.lft }))) s

/-! ### Reading the table -/

/-- R181: bytes 0 to 7 of a READ-FAULT reply; an empty slot reads 0. -/
def entryBytes (entry : Option Entry) : List Byte :=
  match entry with
  | none => List.replicate 8 0
  | some x =>
    let declared := x.source == .declared
    let number := match x.source with
      | .input n => n.val
      | .declared => 0
    [packByte [(7, 1), (4, x.state.code), (3, declared.toNat), (0, number)],
     packByte [(4, x.cls.code), (0, x.zone.val)],
     packByte [(6, x.configured.code), (4, x.current.code), (3, x.escalated.toNat), (2, x.latching.toNat),
       (1, x.firstActive.isSome.toNat)],
     packByte [(0, x.count.getD 0)]] ++ timeBytes (x.firstActive.getD 0)

/-- R21, R181: the data of a READ-FAULT reply. -/
def faultData (s : State) (name : SlotName) : List Byte :=
  match name with
  | .input n =>
    entryBytes (s.lft.inputs[n]).entry
      ++ [packByte [(1, (s.lineAsserted n).toNat), (0, (s.cfg.inputs[n]).enabled.toNat)]]
  | .declared d => entryBytes (s.lft.declared[d]).entry ++ [packByte [(4, s.lft.pointer.val)]]

/-- R21: READ-FAULT. -/
def execReadFault (slot : Byte) (tail : Tail) (s : State) : Result :=
  hostRequest 0x23 [slot] tail 9 (fun s =>
    match slotArg slot with
    | some name => ⟨s, .ok, faultData s name⟩
    | none => refuse .range s) s

end Sys2Proof.Machine
end

