-- ==== Sys2Proof/Machine/Modes.lean ====
section
/-! DEFINITION. The node modes and the two resets: START, DEPART, REJOIN (R157 to R161), host reset (R151, with each
block's answer), power-on reset and its release (R149, R150), RST_N (R151, R170), and node time (R162). -/

namespace Sys2Proof.Machine

/-- R153: the entry to JOINING, whatever causes it. -/
def enterJoining (s : State) : State :=
  { s with ctl.mode := .joining, sbc.requests.hello := true, sbc.statusTimer := some s.cfg.statusPeriod
           pv.joinTimer := some s.cfg.joinDeadline }

/-- R42, R117: the receiver, which begins its idle detection (R26), the transmitter and the stress timer of a station that
begins. -/
def switchOn (s : State) : State :=
  { s with sbc.receiverOn := true, sbc.line := .enabled, sbc.transmitterOn := true, perm.stressTimer := startTimer s.cfg.stressTimeout }

/-- R62, R63: the expected flags; the own record's stays clear. -/
def expectPeers (s : State) : State :=
  { s with pv.peers := Vector.ofFn fun p =>
      { s.pv.peers[p] with expected := s.cfg.expected.getLsbD p.val && p != s.ctl.station } }

/-- R157: START in UNCONFIGURED. -/
def startUnit (s : State) : Answer :=
  let c := Store.corrected s.cfg
  let configured := { s with cfg := c, ctl.started := true }
  let noted := raiseIf (c != s.cfg) .notice configured
  accept (c != s.cfg) (settle s (watchInputs (switchOn (enterJoining (sampleTrip (expectPeers noted))))))

/-- R151: START was accepted at the moment of a host reset from RST_N, and the reset was taken first. -/
def State.meetsReset (s : State) (tail : Tail) : Bool :=
  tail.select == .atReset && s.pins.rstLow && !s.ctl.held && crc8 [0x06] == tail.crc

/-- R157: START. After a host reset that it came together with it is taken normally (R151); its reply is lost with the transaction
(R170). -/
def execStart (tail : Tail) (s : State) : Result :=
  if s.meetsReset tail then .next { (whenUnconfigured s (startUnit s)).state with port.reply := some [] }
  else hostRequest 0x06 [] tail 0 (fun s => whenUnconfigured s (startUnit s)) s

/-- R43: the SBC at DEPART; a HELLO or STATUS on the line is abandoned. -/
def departBus (b : Sbc) : Sbc :=
  { b with requests := ⟨false, false, true⟩, inFlight := b.inFlight.filter fun f => f.kind == .leave
           statusTimer := none, mute := none, renewal := false }

/-- R160: DEPART in JOINING or RUNNING. -/
def departUnit (s : State) : Answer :=
  accept false (settle s { s with ctl.mode := .departed, sbc := departBus s.sbc, pv.joinTimer := none })

/-- R160: DEPART. -/
def execDepart (tail : Tail) (s : State) : Result :=
  hostRequest 0x1A [] tail 0 (fun s =>
    match s.ctl.mode with
    | .unconfigured => refuse .wrongMode s
    | .departed => accept false s
    | .joining | .running => departUnit s) s

/-- R44: the SBC at REJOIN; a LEAVE on the line is abandoned. -/
def rejoinBus (b : Sbc) : Sbc :=
  { b with requests.leave := false, inFlight := b.inFlight.filter fun f => f.kind != .leave, transmitterOn := true }

/-- R161: REJOIN in DEPARTED. The join may end at the entry itself (R58). -/
def rejoinUnit (s : State) : Answer := accept false (settle s (enterJoining { s with sbc := rejoinBus s.sbc }))

/-- R161: REJOIN. -/
def execRejoin (tail : Tail) (s : State) : Result :=
  hostRequest 0x1B [] tail 0 (fun s => if s.ctl.mode = .departed then rejoinUnit s else refuse .wrongMode s) s

/-- R162: READ-TIME. -/
def execReadTime (tail : Tail) (s : State) : Result :=
  hostRequest 0x24 [] tail 4 (fun s => ⟨s, .ok, timeBytes s.ctl.nodeTime⟩) s

/-! ### Host reset -/

/-- R95: a zone record at host reset. -/
def resetZone (c : Store) (r : ZoneRecord) : ZoneRecord :=
  if r.state = .pinned then
    { r with accusers := [], own := none, delay := none, dispute := .none, disputeTimer := none, clean := none }
  else { ZoneRecord.initial with clean := cleanStart c r, count := r.count, released := r.released }

/-- R46, R64, R95, R129, R148, R177: every block but the Level Resolver at host reset. The contactor, its timer, the active
duty, the configuration, the straps and node time are kept. -/
def resetBlocks (s : State) : State :=
  { s with lft := Lft.empty
           sbc := Sbc.initial
           pv := ⟨Vector.ofFn fun p => PeerRecord.absent (s.pv.peers[p]).expected, none⟩
           ziu := ⟨Vector.ofFn fun z => resetZone s.cfg s.ziu.zones[z], Derived.empty⟩
           perm := Permission.initial
           out := { s.out with gen := false, tripLatch := false, rearm := none, pendingDuty := 50, lamp := .steady }
           port.flags := 0
           port.enable := 0xFF
           ctl.mode := if s.ctl.started then .joining else .unconfigured }

/-- R113: the Level Resolver at host reset. The floor falls before Lown is formed again. -/
def resetLevels (s : State) : State :=
  { s with lvl := { Levels.initial with
      lown := ownCauseLevel s.cfg s.ctl.station { View.of s with floor := 0 } } }

/-- R3, R153: what a started station does at once after a host reset. -/
def resumeStation (s : State) : State :=
  if s.ctl.started then settle s (watchInputs (switchOn (enterJoining s))) else s

/-- R140, R177: the flags after a host reset: TRIP if the latch was found set again, and no other. -/
def flagsAfterReset (s : State) : State :=
  { s with port.flags := if s.out.tripLatch then Flag.mask .trip else 0 }

/-- R151: a host reset. -/
def hostResetState (s : State) : State :=
  flagsAfterReset (resumeStation (sampleTrip (resetLevels (resetBlocks s))))

/-- R151: how long RST_N must be low, in nanoseconds. -/
def minimumResetPulse : Nat := 1000

/-- R170: a transaction in progress ends: it takes no request, and of its reply nothing more is shifted out. -/
def cutReply (s : State) : State := { s with port.reply := some [] }

/-- R150, R151, R170: HOST_RESET. RST_N that has stayed low since the last one gives no other; the transaction in progress ends. A chip
in power-on reset takes no host reset; RST_N low holds it there. -/
def execHostReset (low : Nat) (s : State) : Result :=
  .next (if low < minimumResetPulse ∨ s.pins.rstLow = true then s
    else if s.ctl.held then { s with pins.rstLow := true }
    else { cutReply (hostResetState s) with pins.rstLow := true })

/-- R150, R151, R170: RST_N_RETURNS_HIGH. A transaction in progress overlaps the low level, and the port takes nothing in it. -/
def execRstNReturnsHigh (s : State) : Result :=
  .next (if s.pins.rstLow then { cutReply s with pins.rstLow := false } else s)

/-- R170: RESET. The reply is formed at acceptance and outlives the reset. -/
def execReset (tail : Tail) (s : State) : Result :=
  hostRequest 0x3C [] tail 0 (fun s => accept false (hostResetState s)) s

/-! ### Power-on reset -/

/-- R146: the Output Unit while the chip is held in reset: every line low, the PWM stopped, LAMP off. -/
def Outputs.inReset : Outputs := { Outputs.initial with activeDuty := 0, pendingDuty := 0, lamp := .off }

/-- R146, R150: the chip held in reset; all it knew is lost. The levels of the input lines are not its own. -/
def heldInReset (s : State) : State :=
  let t := State.powerOn s.ctl.station s.ctl.role s.pins.faultLines s.pending s.choices
  { t with ctl.held := true, pins := s.pins, out := Outputs.inReset }

/-- R150: POWER_ON_RESET. -/
def execPowerOnReset (s : State) : Result := .next (heldInReset s)

/-- R150: how long VDD must be above the threshold and RST_N high, in microseconds. -/
def releaseDelay : Nat := 2000

/-- R149: the station number and role that the straps give. -/
def releaseStation (straps : Straps) (s : State) : State :=
  State.powerOn ⟨straps.id.toNat, straps.id.isLt⟩ (Role.ofCode straps.role.toNat) s.pins.faultLines s.pending s.choices

/-- R150: RELEASE_FROM_RESET; a chip that is not held in reset is not released from it, nor is one whose RST_N is low. -/
def execReleaseFromReset (straps : Straps) (ready : Nat) (s : State) : Result :=
  .next (if s.ctl.held && !s.pins.rstLow && decide (releaseDelay ≤ ready) then releaseStation straps s else s)

end Sys2Proof.Machine
end

