-- ==== Sys2Proof/Machine/Bus.lean ====
section
/-! DEFINITION. The Status Bus Controller: which request is served and what its frame carries (R27 to R29, R91, R108), the
outcomes of a frame on the line (R30 to R32), and the SBC's timers (R33, R36, R37). -/

namespace Sys2Proof.Machine

/-- R36: the spacing of STATUS frames, in milliseconds. -/
def spacingTime : Nat := 5

/-- R27: the request that the SBC serves: HELLO before LEAVE before STATUS, and STATUS only outside the spacing. -/
def eligibleKind (b : Sbc) : Option Kind :=
  if b.requests.hello then some .hello
  else if b.requests.leave then some .leave
  else if b.requests.status && b.spacing.isNone then some .status
  else none

/-- R91: the zones this station accuses with this severity, in order of their index. -/
def accusedAt (s : State) (v : Severity) : List Accusation :=
  (List.finRange 12).filterMap fun z =>
    match (s.ziu.zones[z]).own with
    | some c => if c.severity = v then some ⟨z, c⟩ else none
    | none => none

/-- R91: the own accusations, the highest severity first and the lowest zone first within one. -/
def ownAccusations (s : State) : List Accusation :=
  accusedAt s .critical ++ accusedAt s .major ++ accusedAt s .minor

/-- R29, R91, R108: the frame of a kind, built from the state at its start bit. -/
def buildFrame (k : Kind) (s : State) : Frame :=
  match k with
  | .hello => .hello s.ctl.station s.ctl.role s.cfg.group
  | .leave => .leave s.ctl.station
  | .status =>
    .status s.ctl.station (s.ctl.mode == .joining) s.attests s.selfIsolated (4 < (ownAccusations s).length)
      s.cfg.group s.lvl.lown s.lvl.lapp ((ownAccusations s).take 4)

/-- R28: the frame that starts at this bit time, if any. -/
def startingFrame (s : State) : Option Frame :=
  if s.sbc.transmitterOn = true ∧ s.sbc.line = .idle ∧ s.sbc.inFlight = none then
    (eligibleKind s.sbc).map fun k => buildFrame k s
  else none

/-- R28: the start bit of a frame of this station, if one starts; the line is then no longer idle. -/
def startFrame (s : State) : State :=
  match startingFrame s with
  | some f => { s with sbc.inFlight := some f, sbc.line := .frame [false] }
  | none => s

/-- R30, R31, R35: this station's frame `f` leaves the line with its request kept, and the renewal mark is cleared. Bit `k` read
`level`; the frame on the line is received from the bits read back. -/
def stopDriving (f : Frame) (k : Nat) (level : Bool) (s : State) : State :=
  { s with sbc.inFlight := none, sbc.renewal := false, sbc.line := Line.readBack f k level }

/-- R30: LOST_CONTENTION. -/
def execLostContention (bit : Nat) (s : State) : Result :=
  event s fun s =>
    match s.sbc.inFlight with
    | some f => if f.mismatch bit = some .lostContention then stopDriving f bit false s else s
    | none => s

/-- R31: the consecutive bit-fault count after one more, and the derivation that stands at 2. -/
def countBitFault (s : State) : State :=
  let n := min 2 (s.sbc.bitFaults + 1)
  { s with sbc.bitFaults := n, ziu.derived.bitFault := s.ziu.derived.bitFault || n == 2 }

/-- R31: BIT_FAULT. -/
def execBitFault (bit : Nat) (s : State) : Result :=
  event s fun s =>
    match s.sbc.inFlight with
    | some f =>
      if f.mismatch bit = some .bitFault then settle s (countBitFault (stopDriving f bit (f.wire[bit]? == some false) s))
      else s
    | none => s

/-- R32: what the completion of any frame does; its last end bit is the frame's end (R26). -/
def frameDone (k : Kind) (s : State) : State :=
  { s with sbc.inFlight := none
           sbc.line := .ended
           sbc.requests := match k with
             | .hello => { s.sbc.requests with hello := false }
             | .status => { s.sbc.requests with status := false }
             | .leave => { s.sbc.requests with leave := false }
           sbc.bitFaults := 0
           ziu.derived.bitFault := false }

/-- R32, R33, R36, R37: what the completion of a STATUS does besides. -/
def statusDone (s : State) : State :=
  { s with sbc.statusTimer := some s.cfg.statusPeriod, sbc.spacing := some spacingTime, sbc.mute := none
           ziu.derived.mute := false }

/-- R35: a renewal mark becomes a new request. -/
def renew (s : State) : State :=
  if s.sbc.renewal then requestStatus { s with sbc.renewal := false } else s

/-- R32, R43: a frame of this station completes. -/
def completeFrame (k : Kind) (s : State) : State :=
  match k with
  | .hello => frameDone .hello s
  | .status => renew (statusDone (frameDone .status s))
  | .leave =>
    let t := frameDone .leave s
    if t.ctl.mode = .departed then { t with sbc.transmitterOn := false } else t

/-- R32: COMPLETES. -/
def execCompletes (s : State) : Result :=
  event s fun s =>
    match s.sbc.inFlight with
    | some f => settle s (completeFrame f.kind s)
    | none => s

/-- R33: STATUS_TIMER_EXPIRY. -/
def execStatusTimerExpiry (s : State) : Result :=
  event s fun s =>
    if s.sbc.statusTimer.isSome then requestStatus { s with sbc.statusTimer := none } else s

/-- R36: SPACING_TIMER_EXPIRY. -/
def execSpacingTimerExpiry (s : State) : Result := event s fun s => { s with sbc.spacing := none }

/-- R37: MUTE_TIMER_EXPIRY. -/
def execMuteTimerExpiry (s : State) : Result :=
  event s fun s =>
    if s.sbc.mute.isSome then settle s { s with sbc.mute := none, ziu.derived.mute := true } else s

end Sys2Proof.Machine
end

