-- ==== Sys2Proof/WellFormed.lean ====
section
/-! DEFINITION. Which commands are well formed: the row a command stands under agrees with what its operands say.
A frame's row is the kind its samples spell, if they pass the receiver's checks at all; UNKNOWN_COMMAND carries a byte
that names no command. Indices are bounded by their types. -/

namespace Sys2Proof

/-- The samples spell no valid frame of another kind than `k` (samples that spell none are a discarded frame, R38). -/
def framesAs (k : Kind) (bits : List Bool) : Bool := (receive bits).all (fun f => f.kind == k)

/-- Whether a command is one that can reach the machine. -/
def Instr.wf : Instr → Bool
  | .hello _ bits => framesAs .hello bits
  | .status _ bits => framesAs .status bits
  | .leave _ bits => framesAs .leave bits
  | .unknownCommand byte _ => (argCount byte).isNone
  | .assertion _ _ | .inputRelease _ _ | .qualifyExpiry _ | .healExpiry _ | .declaredHealExpiry _
  | .setTiming _ _ _ | .setZone _ _ _ _ _ _ _ | .setInput _ _ _ _ _ _ _ _ | .setLevels _ _ _ _ _ _ _ _ _
  | .setPeers _ _ _ _ | .start _ | .stress _ _ | .declare _ _ _ _ | .withdraw _ _ _ | .clearFault _ _
  | .clearAll _ | .floor _ _ | .release _ _ _ | .tripClear _ | .contactorClose _ | .contactorOpen _
  | .depart _ | .rejoin _ | .readSummary _ | .readZone _ _ | .readPeer _ _ | .readFault _ _ | .readTime _
  | .ack _ _ | .flagTest _ _ _ | .enable _ _ | .reset _ | .requestDiscarded _ | .hostReset _ | .powerOnReset
  | .releaseFromReset _ _ | .rstNReturnsHigh | .frameStart _ | .lostContention _ | .bitFault _ | .completes
  | .statusTimerExpiry | .spacingTimerExpiry | .muteTimerExpiry | .silenceTimerExpiry _
  | .leaveTimerExpiry _ | .joinDeadlineExpiry | .isolationDelayExpiry _ | .disputeTimerExpiry _
  | .cleanTimerExpiry _ | .stressTimerExpiry | .dwellTimerExpiry | .rampExpiry | .reArmTimerExpiry
  | .pwmPeriodStart | .contactorDelayExpiry => true

end Sys2Proof
end

