-- ==== Sys2Proof/Machine/Peers.lean ====
section
/-! DEFINITION. Reception and the Peer View: what becomes of the samples of the line (R38 to R40), the recessive bit times before a
frame of this station (R28), the records that HELLO, STATUS and LEAVE leave (R50 to R52), the record timers (R53, R54), the join
deadline (R57) and READ-PEER (R62). -/

namespace Sys2Proof.Machine

/-- R50: a record after a HELLO. -/
def heardHello (c : Store) (now : Time) (role : Role) (group : Group) (r : PeerRecord) : PeerRecord :=
  { r with presence := .joining, role := some role, group := some group, status := none, list := []
           lastHeard := some now, silence := some c.silenceTimeout, leave := none }

/-- R51: a record after a STATUS. -/
def heardStatus (c : Store) (now : Time) (join : Bool) (group : Group) (fields : StatusFields)
    (list : List Accusation) (r : PeerRecord) : PeerRecord :=
  { r with presence := if join then .joining else .present, group := some group, status := some fields
           list := list, lastHeard := some now, silence := some c.silenceTimeout, leave := none }

/-- R52: a record after a LEAVE. -/
def heardLeave (c : Store) (now : Time) (r : PeerRecord) : PeerRecord :=
  { r with presence := .leaving, list := [], lastHeard := some now, silence := none, leave := some c.leaveGrace }

/-- One peer record changed. -/
def setPeer (p : Station) (r : PeerRecord) (s : State) : State := { s with pv.peers := s.pv.peers.set p r }

/-- R50 to R52, R59: the Peer View takes a frame of another station. -/
def takePeerFrame (f : Frame) (s : State) : State :=
  match f with
  | .hello p role group =>
    settle s (setPeer p (heardHello s.cfg s.ctl.nodeTime role group (s.pv.peers[p]))
      (raiseIf (!(s.pv.peers[p]).expected) .notice s))
  | .status p join attest selfIsolated more group lown lapp list =>
    settle s (setPeer p
      (heardStatus s.cfg s.ctl.nodeTime join group ⟨lown, lapp, attest, selfIsolated, more⟩ list (s.pv.peers[p])) s)
  | .leave p => settle s (setPeer p (heardLeave s.cfg s.ctl.nodeTime (s.pv.peers[p])) s)

/-- R40: another station uses this station's number. -/
def duplicateId (s : State) : State :=
  settle s (raise .notice { s with sbc.duplicateLatch := true, ziu.derived.duplicate := true })

/-- R39, R40: a frame of this station that is on the line is its own; one with its number that is not, a duplicate. DESIGN CHOICE (log
entry 23): so is the frame that this station has abandoned in its end field (R43), which reads valid on the line all the same. -/
def deliver (f : Frame) (s : State) : State :=
  if s.sbc.inFlight = some f then s
  else if f.id = s.ctl.station then duplicateId s
  else takePeerFrame f s

/-- R24, R38, R39: one sample of the line, which the receiver takes while it is enabled, and what becomes of the valid frame that it
completes, if it completes one. -/
def receiveSample (b : Bool) (s : State) : State :=
  if s.sbc.receiverOn then
    match s.sbc.line.sample b with
    | (m, some f) => deliver f { s with sbc.line := m }
    | (m, none) => { s with sbc.line := m }
  else s

/-- R24, R39: samples of the line, one after another. -/
def receiveSamples : List Bool → State → State
  | [], s => s
  | b :: bs, s => receiveSamples bs (receiveSample b s)

/-- R38, R39: the samples that stand under a row of this kind. -/
def receiveAs (k : Kind) (idle : Nat) (bits : List Bool) (s : State) : Result :=
  if framesAs k bits then event s (receiveSamples (List.replicate idle true ++ bits)) else .refused .mislabelled

/-- R50: HELLO. -/
def execHello (idle : Nat) (bits : List Bool) (s : State) : Result := receiveAs .hello idle bits s

/-- R51: STATUS. -/
def execStatus (idle : Nat) (bits : List Bool) (s : State) : Result := receiveAs .status idle bits s

/-- R52: LEAVE. -/
def execLeave (idle : Nat) (bits : List Bool) (s : State) : Result := receiveAs .leave idle bits s

/-- R28: FRAME_START, after the recessive bit times before it. -/
def execFrameStart (idle : Nat) (s : State) : Result :=
  event s fun s => startFrame (receiveSamples (List.replicate idle true) s)

/-- R54, R57: a record that becomes SILENT. -/
def silenced (r : PeerRecord) : PeerRecord := { r with presence := .silent, list := [], silence := none }

/-- R53: a record whose leave grace is over. -/
def departedRecord (r : PeerRecord) : PeerRecord := { r with presence := .absent, leave := none }

/-- R54: SILENCE_TIMER_EXPIRY. -/
def execSilenceTimerExpiry (peer : Station) (s : State) : Result :=
  event s fun s =>
    if (s.pv.peers[peer]).silence.isSome then settle s (setPeer peer (silenced (s.pv.peers[peer])) s) else s

/-- R53: LEAVE_TIMER_EXPIRY. -/
def execLeaveTimerExpiry (peer : Station) (s : State) : Result :=
  event s fun s =>
    if (s.pv.peers[peer]).leave.isSome then settle s (setPeer peer (departedRecord (s.pv.peers[peer])) s) else s

/-- R57: a record at the join deadline. DESIGN CHOICE (log entry 24): an expected peer that was heard and has left is ABSENT like one that
was never heard, and R57 makes no difference between them. -/
def atDeadline (r : PeerRecord) : PeerRecord :=
  if r.expected = true ∧ r.presence = .absent then silenced r else r

/-- R57: JOIN_DEADLINE_EXPIRY; the timer runs in JOINING alone. -/
def execJoinDeadlineExpiry (s : State) : Result :=
  event s fun s =>
    if s.pv.joinTimer.isSome ∧ s.ctl.mode = .joining then
      settle s (endJoin { s with pv.peers := Vector.ofFn fun p => atDeadline s.pv.peers[p] })
    else s

/-! ### Reading a record -/

/-- R181: two bytes of a list entry. -/
def listEntryBytes (a : Accusation) : List Byte :=
  [packByte [(0, a.zone.val)], packByte [(4, a.claim.severity.code), (0, a.claim.cls.code)]]

/-- R62, R181: the data of a READ-PEER reply. -/
def peerData (s : State) (p : Station) : List Byte :=
  let r := s.pv.peers[p]
  let entries := (r.list.take 4).flatMap listEntryBytes
  [packByte [(5, s.ziu.derived.deaf.toNat), (4, (s.ziu.derived.lost[p]).toNat), (3, r.expected.toNat),
     (0, r.presence.code)],
   packByte [(7, r.role.isSome.toNat), (5, (r.role.map Role.code).getD 0), (4, r.group.isSome.toNat),
     (2, (r.group.map Fin.val).getD 0), (1, r.status.isSome.toNat), (0, r.lastHeard.isSome.toNat)],
   packByte [(3, (r.status.map fun f => f.lown.val).getD 0), (0, (r.status.map fun f => f.lapp.val).getD 0)],
   packByte [(5, r.list.length), (2, (r.status.any (·.more)).toNat), (1, (r.status.any (·.selfIsolated)).toNat),
     (0, (r.status.any (·.attest)).toNat)]]
    ++ timeBytes (r.lastHeard.getD 0) ++ entries ++ List.replicate (8 - entries.length) 0

/-- R62: READ-PEER. -/
def execReadPeer (station : Byte) (tail : Tail) (s : State) : Result :=
  hostRequest 0x22 [station] tail 16 (fun s =>
    match eightArg station with
    | some p => ⟨s, .ok, peerData s p⟩
    | none => refuse .range s) s

end Sys2Proof.Machine
end

