-- ==== Sys2Proof/Machine/Drive.lean ====
section
/-! DEFINITION. The host floor (R101), the stress value and the caps' timers (R116, R117, R122, R123), the trip latch's
release (R139), the re-arm hold (R132), the PWM (R133, R134), the contactor (R141 to R144), and the output lines as
levels (R130 to R137, R146). -/

namespace Sys2Proof.Machine

/-- R101: FLOOR. A floor above L5 is L5. -/
def execFloor (level : Byte) (tail : Tail) (s : State) : Result :=
  hostRequest 0x15 [level] tail 0 (fun s =>
    whenStarted s (accept (decide (5 < level.toNat)) (settle s { s with lvl.floor := levelArg level }))) s

/-- R116: a stress value written; the timer restarts and STALE is withdrawn. -/
def writeStress (value : Byte) (s : State) : State :=
  { s with perm.stress := value, perm.stressTimer := startTimer s.cfg.stressTimeout, ziu.derived.stale := false }

/-- R116: STRESS. -/
def execStress (value : Byte) (tail : Tail) (s : State) : Result :=
  hostRequest 0x10 [value] tail 0 (fun s => whenStarted s (accept false (settle s (writeStress value s)))) s

/-- R117: STRESS_TIMER_EXPIRY. -/
def execStressTimerExpiry (s : State) : Result :=
  event s fun s =>
    if s.perm.stressTimer.isSome then
      settle s (raise .stale { s with perm.stressTimer := none, ziu.derived.stale := true })
    else s

/-- R122: DWELL_TIMER_EXPIRY. -/
def execDwellTimerExpiry (s : State) : Result := event s fun s => { s with perm.dwell := none }

/-- R123: the four conditions of a ramp step. -/
def rampReady (s : State) : Bool :=
  decide (s.perm.output < s.perm.target) && s.out.gen && s.out.rearm.isNone && s.perm.dwell.isNone

/-- R123: RAMP_EXPIRY. -/
def execRampExpiry (s : State) : Result :=
  event s fun s =>
    if rampReady s then setOutput (min s.perm.target (s.perm.output + s.cfg.rampStep)) s else s

/-- R139: TRIP-CLEAR. -/
def execTripClear (tail : Tail) (s : State) : Result :=
  hostRequest 0x17 [] tail 0 (fun s =>
    if s.tripAsserted then refuse .tripActive s
    else if s.out.tripLatch then accept false (settle s { s with out.tripLatch := false })
    else accept false s) s

/-- R132: RE_ARM_TIMER_EXPIRY. -/
def execReArmTimerExpiry (s : State) : Result := event s fun s => { s with out.rearm := none }

/-- R134: PWM_PERIOD_START. -/
def execPwmPeriodStart (s : State) : Result := event s fun s => { s with out.activeDuty := s.out.pendingDuty }

/-! ### The contactor -/

/-- R142: some contactor-drop zone is SUSPECT or worse. -/
def dropZoneDoubted (s : State) : Bool :=
  (List.finRange 12).any fun z => (s.cfg.zones[z]).contactorDrop && (s.ziu.zones[z]).state.suspectOrWorse

/-- R142: CONTACTOR-CLOSE on a station with the contactor fitted; the contactor state is judged before the node mode. -/
def closeContactor (s : State) : Answer :=
  match s.out.contactor with
  | .closed => accept false s
  | .dropping => refuse .busy s
  | .opened =>
    if s.ctl.mode = .running then
      if s.out.tripLatch || dropZoneDoubted s then refuse .blocked s
      else accept false { s with out.contactor := .closed }
    else refuse .wrongMode s

/-- R141, R142: CONTACTOR-CLOSE. -/
def execContactorClose (tail : Tail) (s : State) : Result :=
  hostRequest 0x18 [] tail 0 (fun s => if s.cfg.contactorFitted then closeContactor s else refuse .wrongMode s) s

/-- R143: CONTACTOR-OPEN on a station with the contactor fitted. -/
def openContactor (s : State) : Answer :=
  match s.out.contactor with
  | .closed => accept false (startDrop s)
  | .opened => accept false s
  | .dropping => refuse .busy s

/-- R141, R143: CONTACTOR-OPEN. -/
def execContactorOpen (tail : Tail) (s : State) : Result :=
  hostRequest 0x19 [] tail 0 (fun s => if s.cfg.contactorFitted then openContactor s else refuse .wrongMode s) s

/-- R144: CONTACTOR_DELAY_EXPIRY. -/
def execContactorDelayExpiry (s : State) : Result :=
  event s fun s =>
    if s.out.contactorTimer.isSome then { s with out.contactor := .opened, out.contactorTimer := none } else s

/-! ### The lines -/

/-- GEN (R130, R146). -/
def State.genLine (s : State) : Bool := !s.ctl.held && s.out.gen

/-- RGN (R136, R146). -/
def State.rgnLine (s : State) : Bool := !s.ctl.held && s.out.gen && s.lvl.regen

/-- CTR (R141, R146). -/
def State.ctrLine (s : State) : Bool := !s.ctl.held && s.out.contactor != .opened

/-- CAP at a microsecond count of the present PWM period (R133, R135). -/
def State.capLine (s : State) (count : Nat) : Bool := !s.ctl.held && decide (count < s.out.activeDuty)

/-- LAMP at the present node time (R137, R146). -/
def State.lampLine (s : State) : Bool :=
  !s.ctl.held && match s.out.lamp with
    | .off => false
    | .blink1Hz => decide (s.ctl.nodeTime.toNat % 1000 < 500)
    | .blink4Hz => decide (s.ctl.nodeTime.toNat % 250 < 125)
    | .steady => true

end Sys2Proof.Machine
end

