-- ==== Sys2Proof/Machine/Port.lean ====
section
/-! DEFINITION. What the Host Port owns: READ-SUMMARY (R169), ACK, FLAG-TEST and ENABLE (R172 to R174), a command byte that
names no command (R166), and SDO (R163, R164). -/

namespace Sys2Proof.Machine

/-- R169, R181: the data of a READ-SUMMARY reply. -/
def summaryData (s : State) : List Byte :=
  [packByte [(6, s.ctl.mode.code), (3, s.ctl.station.val), (1, s.ctl.role.code), (0, s.lvl.regen.toNat)],
   packByte [(6, s.out.contactor.code), (3, s.lvl.lown.val), (0, s.lvl.follow.val)],
   packByte [(7, s.out.tripLatch.toNat), (6, s.rgnLine.toNat), (5, s.genLine.toNat), (0, s.lvl.lapp.val)]]
    ++ halfBytes s.lvl.speedCap ++ halfBytes s.perm.target ++ halfBytes s.perm.output ++ halfBytes s.out.pendingDuty
    ++ [s.port.flags, s.port.enable]

/-- R169: READ-SUMMARY. -/
def execReadSummary (tail : Tail) (s : State) : Result :=
  hostRequest 0x20 [] tail 13 (fun s => ⟨s, .ok, summaryData s⟩) s

/-- The state with its pending flags replaced. -/
def withFlags (flags : Byte) (s : State) : State := { s with port.flags := flags }

/-- R172: ACK. -/
def execAck (mask : Byte) (tail : Tail) (s : State) : Result :=
  hostRequest 0x30 [mask] tail 1 (fun s =>
    ⟨withFlags (ackFlags s.port.flags mask) s, .ok, [ackFlags s.port.flags mask]⟩) s

/-- R173: FLAG-TEST. -/
def execFlagTest (setMask clearMask : Byte) (tail : Tail) (s : State) : Result :=
  hostRequest 0x31 [setMask, clearMask] tail 1 (fun s =>
    ⟨withFlags (testFlags s.port.flags setMask clearMask) s, .ok, [testFlags s.port.flags setMask clearMask]⟩) s

/-- R174: ENABLE. -/
def execEnable (mask : Byte) (tail : Tail) (s : State) : Result :=
  hostRequest 0x32 [mask] tail 2 (fun s => ⟨{ s with port.enable := mask }, .ok, [mask, s.port.flags]⟩) s

/-- R166: UNKNOWN_COMMAND. -/
def execUnknownCommand (byte : Byte) (tail : Tail) (s : State) : Result :=
  if (argCount byte).isNone then hostRequest byte [] tail 0 (fun s => ⟨raise .spi s, .unknown, []⟩) s
  else .refused .mislabelled

/-! ### SDO -/

/-- R163, R176: where CS_N and the clocks of SCK stand. -/
inductive SpiPhase where
  /-- CS_N is high. -/
  | high
  /-- R176: CS_N was low at the release from power-on reset and has not risen since, which is no transaction. -/
  | lowSinceRelease
  /-- A transaction is in progress: CS_N has fallen since the release and is low, and no request has been accepted since it fell. -/
  | asking
  /-- CS_N is low, `n` clocks after the eighth clock of the CRC byte. -/
  | replying (n : Nat)
  deriving DecidableEq, Repr

/-- R163: bit `n` of a reply, most significant bit first; every later bit is that of 0xFF. -/
def replyBit (reply : List Byte) (n : Nat) : Bool :=
  match reply[n / 8]? with
  | some b => b.getMsbD (n % 8)
  | none => true

/-- R163, R164, R170, R176: the level of SDO; none for high impedance. -/
def State.sdo (s : State) (phase : SpiPhase) : Option Bool :=
  if s.ctl.held then none
  else
    match phase with
    | .high => none
    | .lowSinceRelease => none
    | .asking => some true
    | .replying n => some (replyBit (s.port.reply.getD []) n)

end Sys2Proof.Machine
end

