-- ==== Sys2Proof/Machine/Zones.lean ====
section
/-! DEFINITION. The Zone Table's own events: isolation delay, dispute and clean timers (R77, R83, R88), RELEASE (R86, R87)
and READ-ZONE (R93). -/

namespace Sys2Proof.Machine

/-- One zone record changed. -/
def setZoneRecord (z : Zone) (r : ZoneRecord) (s : State) : State := { s with ziu.zones := s.ziu.zones.set z r }

/-- R77: ISOLATION_DELAY_EXPIRY. -/
def execIsolationDelayExpiry (zone : Zone) (s : State) : Result :=
  event s fun s =>
    if (s.ziu.zones[zone]).delay.isSome ∧ (s.ziu.zones[zone]).state = .confirmed then
      settle s (setZoneRecord zone (isolate zone (s.ziu.zones[zone])) s)
    else s

/-- R83: a dispute whose window is over. -/
def putInForce (d : Dispute) : Dispute :=
  match d with
  | .pending a => .inForce a
  | .none => .none
  | .inForce a => .inForce a

/-- R83: DISPUTE_TIMER_EXPIRY. -/
def execDisputeTimerExpiry (zone : Zone) (s : State) : Result :=
  event s fun s =>
    if (s.ziu.zones[zone]).disputeTimer.isSome then
      settle s (setZoneRecord zone
        { s.ziu.zones[zone] with dispute := putInForce (s.ziu.zones[zone]).dispute, disputeTimer := none } s)
    else s

/-- R88: CLEAN_TIMER_EXPIRY. -/
def execCleanTimerExpiry (zone : Zone) (s : State) : Result :=
  event s fun s =>
    if (s.ziu.zones[zone]).clean.isSome then
      setZoneRecord zone { s.ziu.zones[zone] with released := false, clean := none } s
    else s

/-- R87: the record of a zone whose RELEASE is accepted. -/
def releasedRecord (c : Store) (r : ZoneRecord) : ZoneRecord :=
  { r with state := .clear, stamp := none, released := true, clean := some (1000 * c.cleanInterval) }

/-- R86: the checks of a RELEASE in their order, and its effect when all pass. -/
def releaseZone (z : Zone) (stamp : Half) (s : State) : Answer :=
  let r := s.ziu.zones[z]
  match r.state with
  | .clear | .suspect | .confirmed => refuse .notIsolated s
  | .pinned => refuse .pinned s
  | .isolated =>
    if r.stamp = some stamp then
      if (suspicion r.accusers).isEmpty then accept false (settle s (setZoneRecord z (releasedRecord s.cfg r) s))
      else refuse .accused s
    else refuse .stamp s

/-- R86: RELEASE. -/
def execRelease (zone : Byte) (stamp : Half) (tail : Tail) (s : State) : Result :=
  hostRequest 0x16 (zone :: argBytes stamp) tail 0 (fun s =>
    whenStarted s (match zoneArg zone with
      | some z => releaseZone z stamp s
      | none => refuse .range s)) s

/-! ### Reading a zone -/

/-- R181: an accusation's severity in bits from `high` and its class in bits 3-0; all 0 when it is absent. -/
def claimFields (high : Nat) (c : Option Claim) : List (Nat × Nat) :=
  match c with
  | some c => [(high, c.severity.code), (0, c.cls.code)]
  | none => []

/-- R181: the byte of one station in a READ-ZONE reply. -/
def memberByte (l : List Accuser) (p : Station) : Byte :=
  match l.find? (·.station == p) with
  | some a => packByte ([(7, 1), (6, a.discounted.toNat)] ++ claimFields 4 (some a.claim))
  | none => 0

/-- R181: the dispute byte of a READ-ZONE reply. -/
def disputeByte (d : Dispute) : Byte :=
  match d with
  | .none => 0
  | .pending a => packByte [(2, a.val), (0, 1)]
  | .inForce a => packByte [(2, a.val), (0, 2)]

/-- R93, R181: the data of a READ-ZONE reply. -/
def zoneData (s : State) (z : Zone) : List Byte :=
  let r := s.ziu.zones[z]
  [packByte [(4, (confirming r.accusers).length), (3, (confirmationHolds s.cfg.quorum z r.accusers).toNat),
     (0, r.state.code)],
   packByte (claimFields 6 r.own),
   packByte (claimFields 6 (localAccusation s.lft z))]
    ++ halfBytes (accusingSlots s.lft z)
    ++ [packByte ((derivations s.ziu.derived s.ctl.station z).map fun x => (x.1, x.2.1.toNat)),
        disputeByte r.dispute,
        packByte [(5, r.stamp.isSome.toNat), (4, r.released.toNat), (0, r.count)]]
    ++ halfBytes ((r.stamp.map BitVec.toNat).getD 0)
    ++ (List.finRange 8).map (memberByte r.accusers)

/-- R93: READ-ZONE. -/
def execReadZone (zone : Byte) (tail : Tail) (s : State) : Result :=
  hostRequest 0x21 [zone] tail 18 (fun s =>
    match zoneArg zone with
    | some z => ⟨s, .ok, zoneData s z⟩
    | none => refuse .range s) s

end Sys2Proof.Machine
end

