-- ==== Sys2Proof/Machine/Requests.lean ====
section
/-! DEFINITION. A transaction that ends: what becomes of the bits clocked in when CS_N rises (R163, R164). -/

namespace Sys2Proof.Machine

/-- R167: a request at the block that owns it; any other command is no request. -/
def runRequest (i : Instr) (s : State) : Result :=
  match i with
  | .setTiming item value tail => execSetTiming item value tail s
  | .setZone zone suspect confirmed isolated delay attrs tail => execSetZone zone suspect confirmed isolated delay attrs tail s
  | .setInput input flags qualify heal cls severity zone tail => execSetInput input flags qualify heal cls severity zone tail s
  | .setLevels b0 b1 b2 b3 v0 v1 v2 v3 tail => execSetLevels b0 b1 b2 b3 v0 v1 v2 v3 tail s
  | .setPeers expected group quorum tail => execSetPeers expected group quorum tail s
  | .start tail => execStart tail s
  | .stress value tail => execStress value tail s
  | .declare cls zone severity tail => execDeclare cls zone severity tail s
  | .withdraw cls zone tail => execWithdraw cls zone tail s
  | .clearFault slot tail => execClearFault slot tail s
  | .clearAll tail => execClearAll tail s
  | .floor level tail => execFloor level tail s
  | .release zone stamp tail => execRelease zone stamp tail s
  | .tripClear tail => execTripClear tail s
  | .contactorClose tail => execContactorClose tail s
  | .contactorOpen tail => execContactorOpen tail s
  | .depart tail => execDepart tail s
  | .rejoin tail => execRejoin tail s
  | .readSummary tail => execReadSummary tail s
  | .readZone zone tail => execReadZone zone tail s
  | .readPeer station tail => execReadPeer station tail s
  | .readFault slot tail => execReadFault slot tail s
  | .readTime tail => execReadTime tail s
  | .ack mask tail => execAck mask tail s
  | .flagTest setMask clearMask tail => execFlagTest setMask clearMask tail s
  | .enable mask tail => execEnable mask tail s
  | .reset tail => execReset tail s
  | .unknownCommand byte tail => execUnknownCommand byte tail s
  | .assertion _ _ | .inputRelease _ _ | .qualifyExpiry _ | .healExpiry _ | .declaredHealExpiry _
  | .requestDiscarded _ | .hostReset _ | .powerOnReset | .hello _ _ | .status _ _ | .leave _ _
  | .frameStart _ | .lostContention _ | .bitFault _ | .completes | .statusTimerExpiry | .spacingTimerExpiry
  | .muteTimerExpiry | .silenceTimerExpiry _ | .leaveTimerExpiry _ | .joinDeadlineExpiry
  | .isolationDelayExpiry _ | .disputeTimerExpiry _ | .cleanTimerExpiry _ | .stressTimerExpiry
  | .dwellTimerExpiry | .rampExpiry | .reArmTimerExpiry | .pwmPeriodStart | .contactorDelayExpiry
  | .releaseFromReset _ _ | .rstNReturnsHigh => .next s

/-- R163, R164: what the port does at the clocks of a transaction. Bits that reach the eighth clock of the CRC byte are a request, which
is handled there; fewer bits have no effect on any block. -/
def takeBits (select : Select) (bits : List Bool) (s : State) : Result :=
  match readRequest select (bytesOf bits) with
  | some i => runRequest i s
  | none => .next s

/-- R164: REQUEST_DISCARDED. CS_N rises: no reply is shifted out any more, and the next fall begins a transaction. Where a request had
been accepted in the transaction, its effects stand. -/
def execRequestDiscarded (clocked : Clocked) (s : State) : Result :=
  match takeBits clocked.select clocked.bits s with
  | .next t => .next { t with port.reply := none }
  | .fault e => .fault e
  | .refused r => .refused r

end Sys2Proof.Machine
end

