-- ==== Sys2Proof/Machine/Time.lean ====
section
/-! DEFINITION. The passing of one millisecond, which is what a step does when no command waits and no event is due (DESIGN
CHOICE, log entry 3): node time rises (R162), every running timer has one millisecond less to run, and the events that fall due
wait for their turn: expiries (R1), the PWM period (R133) and the ramp expiry (R123). -/

namespace Sys2Proof.Machine

/-- R1: a running timer after one millisecond. -/
def Timer.elapse (t : Timer) : Timer := t.map (· - 1)

/-- R1: a timer whose time has run out. -/
def Timer.due (t : Timer) : Bool := t == some 0

/-- R123: the ramp period, in milliseconds. -/
def rampPeriod : Nat := 50

/-- R1: a slot after one millisecond. -/
def Slot.elapse (sl : Slot) : Slot := { sl with qualify := Timer.elapse sl.qualify, heal := Timer.elapse sl.heal }

/-- R1: the SBC after one millisecond. -/
def Sbc.elapse (b : Sbc) : Sbc :=
  { b with statusTimer := Timer.elapse b.statusTimer, spacing := Timer.elapse b.spacing, mute := Timer.elapse b.mute }

/-- R1: a peer record after one millisecond. -/
def PeerRecord.elapse (r : PeerRecord) : PeerRecord :=
  { r with silence := Timer.elapse r.silence, leave := Timer.elapse r.leave }

/-- R1: a zone record after one millisecond. -/
def ZoneRecord.elapse (r : ZoneRecord) : ZoneRecord :=
  { r with delay := Timer.elapse r.delay, disputeTimer := Timer.elapse r.disputeTimer, clean := Timer.elapse r.clean }

/-- R1, R162: every timer and node time after one millisecond. -/
def elapse (s : State) : State :=
  { s with ctl.nodeTime := s.ctl.nodeTime + 1
           lft.inputs := Vector.ofFn fun n => Slot.elapse s.lft.inputs[n]
           lft.declared := Vector.ofFn fun d => Slot.elapse s.lft.declared[d]
           sbc := Sbc.elapse s.sbc
           pv := ⟨Vector.ofFn fun p => PeerRecord.elapse s.pv.peers[p], Timer.elapse s.pv.joinTimer⟩
           ziu.zones := Vector.ofFn fun z => ZoneRecord.elapse s.ziu.zones[z]
           perm.dwell := Timer.elapse s.perm.dwell
           perm.stressTimer := Timer.elapse s.perm.stressTimer
           out.rearm := Timer.elapse s.out.rearm
           out.contactorTimer := Timer.elapse s.out.contactorTimer }

/-- An event if it falls due. -/
def dueIf (c : Bool) (i : Instr) : List Instr := if c then [i] else []

/-- R123: a ramp expiry falls at each node time that is a non-zero multiple of 50 ms. -/
def rampDue (now : Time) : Bool := now != 0 && now.toNat % rampPeriod == 0

/-- The events that fall due at the present node time. -/
def dueEvents (s : State) : List Instr :=
  [.pwmPeriodStart] ++ dueIf (rampDue s.ctl.nodeTime) .rampExpiry
    ++ (List.finRange 8).flatMap (fun n => dueIf (Timer.due (s.lft.inputs[n]).qualify) (.qualifyExpiry n)
      ++ dueIf (Timer.due (s.lft.inputs[n]).heal) (.healExpiry n))
    ++ (List.finRange 8).flatMap (fun d => dueIf (Timer.due (s.lft.declared[d]).heal) (.declaredHealExpiry d))
    ++ dueIf (Timer.due s.sbc.statusTimer) .statusTimerExpiry ++ dueIf (Timer.due s.sbc.spacing) .spacingTimerExpiry
    ++ dueIf (Timer.due s.sbc.mute) .muteTimerExpiry
    ++ (List.finRange 8).flatMap (fun p => dueIf (Timer.due (s.pv.peers[p]).silence) (.silenceTimerExpiry p)
      ++ dueIf (Timer.due (s.pv.peers[p]).leave) (.leaveTimerExpiry p))
    ++ dueIf (Timer.due s.pv.joinTimer) .joinDeadlineExpiry
    ++ (List.finRange 12).flatMap (fun z => dueIf (Timer.due (s.ziu.zones[z]).delay) (.isolationDelayExpiry z)
      ++ dueIf (Timer.due (s.ziu.zones[z]).disputeTimer) (.disputeTimerExpiry z)
      ++ dueIf (Timer.due (s.ziu.zones[z]).clean) (.cleanTimerExpiry z))
    ++ dueIf (Timer.due s.perm.stressTimer) .stressTimerExpiry ++ dueIf (Timer.due s.perm.dwell) .dwellTimerExpiry
    ++ dueIf (Timer.due s.out.rearm) .reArmTimerExpiry ++ dueIf (Timer.due s.out.contactorTimer) .contactorDelayExpiry

/-- The events that fall due wait in an order that is an open choice; a single event asks for none. -/
def setDue (events : List Instr) (s : State) : State :=
  match events with
  | [] => { s with due := [] }
  | [i] => { s with due := [i] }
  | several => { s with due := freeOrder s.choices several, choices := s.choices + 1 }

/-- One millisecond passes. While the chip is held in power-on reset nothing runs. -/
def tick (s : State) : State := if s.ctl.held then s else setDue (dueEvents (elapse s)) (elapse s)

/-- R1, R122: an event that fell due happens when its turn comes, unless its timer has been discarded or restarted since. -/
def stillDue (s : State) (i : Instr) : Bool := (dueEvents s).contains i

end Sys2Proof.Machine
end

