-- ==== Sys2Proof/Machine/Dispatch.lean ====
section
/-! DEFINITION. Which meaning each command has: one arm for each row of spec/opcode_table.json. -/

namespace Sys2Proof.Machine

/-- The effect of a command on everything but the queue. -/
def exec (i : Instr) (s : State) : Host.Outcome State Fault Refusal :=
  match i with
  | .assertion input held => Sys2Proof.Machine.execAssertion input held s
  | .inputRelease input held => Sys2Proof.Machine.execInputRelease input held s
  | .qualifyExpiry input => Sys2Proof.Machine.execQualifyExpiry input s
  | .healExpiry input => Sys2Proof.Machine.execHealExpiry input s
  | .declaredHealExpiry slot => Sys2Proof.Machine.execDeclaredHealExpiry slot s
  | .setTiming item value tail => Sys2Proof.Machine.execSetTiming item value tail s
  | .setZone zone suspect confirmed isolated delay attrs tail => Sys2Proof.Machine.execSetZone zone suspect confirmed isolated delay attrs tail s
  | .setInput input flags qualify heal cls severity zone tail => Sys2Proof.Machine.execSetInput input flags qualify heal cls severity zone tail s
  | .setLevels b0 b1 b2 b3 v0 v1 v2 v3 tail => Sys2Proof.Machine.execSetLevels b0 b1 b2 b3 v0 v1 v2 v3 tail s
  | .setPeers expected group quorum tail => Sys2Proof.Machine.execSetPeers expected group quorum tail s
  | .start tail => Sys2Proof.Machine.execStart tail s
  | .stress value tail => Sys2Proof.Machine.execStress value tail s
  | .declare cls zone severity tail => Sys2Proof.Machine.execDeclare cls zone severity tail s
  | .withdraw cls zone tail => Sys2Proof.Machine.execWithdraw cls zone tail s
  | .clearFault slot tail => Sys2Proof.Machine.execClearFault slot tail s
  | .clearAll tail => Sys2Proof.Machine.execClearAll tail s
  | .floor level tail => Sys2Proof.Machine.execFloor level tail s
  | .release zone stamp tail => Sys2Proof.Machine.execRelease zone stamp tail s
  | .tripClear tail => Sys2Proof.Machine.execTripClear tail s
  | .contactorClose tail => Sys2Proof.Machine.execContactorClose tail s
  | .contactorOpen tail => Sys2Proof.Machine.execContactorOpen tail s
  | .depart tail => Sys2Proof.Machine.execDepart tail s
  | .rejoin tail => Sys2Proof.Machine.execRejoin tail s
  | .readSummary tail => Sys2Proof.Machine.execReadSummary tail s
  | .readZone zone tail => Sys2Proof.Machine.execReadZone zone tail s
  | .readPeer station tail => Sys2Proof.Machine.execReadPeer station tail s
  | .readFault slot tail => Sys2Proof.Machine.execReadFault slot tail s
  | .readTime tail => Sys2Proof.Machine.execReadTime tail s
  | .ack mask tail => Sys2Proof.Machine.execAck mask tail s
  | .flagTest setMask clearMask tail => Sys2Proof.Machine.execFlagTest setMask clearMask tail s
  | .enable mask tail => Sys2Proof.Machine.execEnable mask tail s
  | .reset tail => Sys2Proof.Machine.execReset tail s
  | .unknownCommand byte tail => Sys2Proof.Machine.execUnknownCommand byte tail s
  | .requestDiscarded clocked => Sys2Proof.Machine.execRequestDiscarded clocked s
  | .hostReset low => Sys2Proof.Machine.execHostReset low s
  | .powerOnReset => Sys2Proof.Machine.execPowerOnReset s
  | .hello idle bits => Sys2Proof.Machine.execHello idle bits s
  | .status idle bits => Sys2Proof.Machine.execStatus idle bits s
  | .leave idle bits => Sys2Proof.Machine.execLeave idle bits s
  | .frameStart idle => Sys2Proof.Machine.execFrameStart idle s
  | .lostContention bit => Sys2Proof.Machine.execLostContention bit s
  | .bitFault bit => Sys2Proof.Machine.execBitFault bit s
  | .completes => Sys2Proof.Machine.execCompletes s
  | .statusTimerExpiry => Sys2Proof.Machine.execStatusTimerExpiry s
  | .spacingTimerExpiry => Sys2Proof.Machine.execSpacingTimerExpiry s
  | .muteTimerExpiry => Sys2Proof.Machine.execMuteTimerExpiry s
  | .silenceTimerExpiry peer => Sys2Proof.Machine.execSilenceTimerExpiry peer s
  | .leaveTimerExpiry peer => Sys2Proof.Machine.execLeaveTimerExpiry peer s
  | .joinDeadlineExpiry => Sys2Proof.Machine.execJoinDeadlineExpiry s
  | .isolationDelayExpiry zone => Sys2Proof.Machine.execIsolationDelayExpiry zone s
  | .disputeTimerExpiry zone => Sys2Proof.Machine.execDisputeTimerExpiry zone s
  | .cleanTimerExpiry zone => Sys2Proof.Machine.execCleanTimerExpiry zone s
  | .stressTimerExpiry => Sys2Proof.Machine.execStressTimerExpiry s
  | .dwellTimerExpiry => Sys2Proof.Machine.execDwellTimerExpiry s
  | .rampExpiry => Sys2Proof.Machine.execRampExpiry s
  | .reArmTimerExpiry => Sys2Proof.Machine.execReArmTimerExpiry s
  | .pwmPeriodStart => Sys2Proof.Machine.execPwmPeriodStart s
  | .contactorDelayExpiry => Sys2Proof.Machine.execContactorDelayExpiry s
  | .releaseFromReset straps ready => Sys2Proof.Machine.execReleaseFromReset straps ready s
  | .rstNReturnsHigh => Sys2Proof.Machine.execRstNReturnsHigh s

end Sys2Proof.Machine
end

