-- ==== Sys2Proof/Machine/Idle.lean ====
section
/-! DEFINITION. What a step does when no command waits (DESIGN CHOICE, log entry 3): the events that fell due in the present
millisecond have their turn, and then the next millisecond passes. -/

namespace Sys2Proof.Machine

/-- The next event that fell due, if it still is; with none left, one millisecond. -/
def idle (s : State) : Result :=
  match s.due with
  | [] => .next (tick s)
  | i :: rest => if stillDue s i then exec i { s with due := rest } else .next { s with due := rest }

end Sys2Proof.Machine
end

