-- ==== Sys2Proof/Safety.lean ====
section
/-! DEFINITION. What the claims speak of: the bytes of a request, the parts of the state that the effects of one event on
other blocks leave alone, and what holds of each block in every state the machine reaches (each predicate is stated as
kept by every step). -/

namespace Sys2Proof.Machine

/-! ### Requests and frames of reference -/

/-- R180: the command and argument bytes of a request that names a command, and its end. -/
def requestOf : Instr → Option (List Byte × Tail)
  | .setTiming item value tail => some (0x01 :: item :: argBytes value, tail)
  | .setZone zone l1 l2 l3 delay attrs tail => some ([0x02, zone, l1, l2, l3] ++ argBytes delay ++ [attrs], tail)
  | .setInput input flags qualify heal cls severity zone tail =>
    some ([0x03, input, flags, qualify, heal, cls, severity, zone], tail)
  | .setLevels b0 b1 b2 b3 v0 v1 v2 v3 tail =>
    some (0x04 :: [b0, b1, b2, b3, v0, v1, v2, v3].flatMap argBytes, tail)
  | .setPeers expected group quorum tail => some ([0x05, expected, group, quorum], tail)
  | .start tail => some ([0x06], tail)
  | .stress value tail => some ([0x10, value], tail)
  | .declare cls zone severity tail => some ([0x11, cls, zone, severity], tail)
  | .withdraw cls zone tail => some ([0x12, cls, zone], tail)
  | .clearFault slot tail => some ([0x13, slot], tail)
  | .clearAll tail => some ([0x14], tail)
  | .floor level tail => some ([0x15, level], tail)
  | .release zone stamp tail => some (0x16 :: zone :: argBytes stamp, tail)
  | .tripClear tail => some ([0x17], tail)
  | .contactorClose tail => some ([0x18], tail)
  | .contactorOpen tail => some ([0x19], tail)
  | .depart tail => some ([0x1A], tail)
  | .rejoin tail => some ([0x1B], tail)
  | .readSummary tail => some ([0x20], tail)
  | .readZone zone tail => some ([0x21, zone], tail)
  | .readPeer station tail => some ([0x22, station], tail)
  | .readFault slot tail => some ([0x23, slot], tail)
  | .readTime tail => some ([0x24], tail)
  | .ack mask tail => some ([0x30, mask], tail)
  | .flagTest setMask clearMask tail => some ([0x31, setMask, clearMask], tail)
  | .enable mask tail => some ([0x32, mask], tail)
  | .reset tail => some ([0x3C], tail)
  | .unknownCommand _ _ | .requestDiscarded _ | .assertion _ _ | .inputRelease _ _ | .qualifyExpiry _
  | .healExpiry _ | .declaredHealExpiry _ | .hostReset _ | .powerOnReset | .hello _ _ | .status _ _
  | .leave _ _ | .frameStart _ | .lostContention _ | .bitFault _ | .completes | .statusTimerExpiry
  | .spacingTimerExpiry | .muteTimerExpiry | .silenceTimerExpiry _ | .leaveTimerExpiry _
  | .joinDeadlineExpiry | .isolationDelayExpiry _ | .disputeTimerExpiry _ | .cleanTimerExpiry _
  | .stressTimerExpiry | .dwellTimerExpiry | .rampExpiry | .reArmTimerExpiry | .pwmPeriodStart
  | .contactorDelayExpiry | .releaseFromReset _ _ | .rstNReturnsHigh => none

/-- R163, R164: the request that the bits of a transaction carry, for the row that carries bits; any other command is itself. -/
def carried : Instr → Instr
  | .requestDiscarded clocked => (readRequest clocked.select (bytesOf clocked.bits)).getD (.requestDiscarded clocked)
  | c => c

/-- The request reaches its owner: the port takes requests, in a transaction that has not had one, and the CRC byte matches (R163, R165,
R170). -/
abbrev Taken (s : State) (bytes : List Byte) (tail : Tail) : Prop := s.takes tail.select = true ∧ crc8 bytes = tail.crc

/-- What the effects of an event on other blocks never touch: `t` has, as `u` has, the held and started marks, the straps,
node time, the input lines, the configuration, the Local Fault Table, every peer record, the bus controller but for its
STATUS request, mute timer and renewal mark, the host floor, the stress value and its timer, the trip latch, the active
duty, the enable mask, the queue and the events that have fallen due. -/
structure TablesKept (u t : State) : Prop where
  ctl : t.ctl = { u.ctl with mode := t.ctl.mode }
  pins : t.pins = u.pins
  cfg : t.cfg = u.cfg
  lft : t.lft = u.lft
  peers : t.pv.peers = u.pv.peers
  sbc : t.sbc = { u.sbc with requests.status := t.sbc.requests.status, mute := t.sbc.mute, renewal := t.sbc.renewal }
  floor : t.lvl.floor = u.lvl.floor
  stress : t.perm.stress = u.perm.stress
  stressTimer : t.perm.stressTimer = u.perm.stressTimer
  tripLatch : t.out.tripLatch = u.out.tripLatch
  activeDuty : t.out.activeDuty = u.out.activeDuty
  enable : t.port.enable = u.port.enable
  pending : t.pending = u.pending
  due : t.due = u.due

/-- The events that fall due in a millisecond: the expiries of the timers that have run out (R1), the start of a PWM period
(R133), and at a non-zero multiple of 50 ms of node time a ramp expiry (R123). -/
def FallsDue (s : State) : Instr → Prop
  | .pwmPeriodStart => True
  | .rampExpiry => s.ctl.nodeTime ≠ 0 ∧ s.ctl.nodeTime.toNat % 50 = 0
  | .qualifyExpiry n => (s.lft.inputs[n]).qualify = some 0
  | .healExpiry n => (s.lft.inputs[n]).heal = some 0
  | .declaredHealExpiry d => (s.lft.declared[d]).heal = some 0
  | .statusTimerExpiry => s.sbc.statusTimer = some 0
  | .spacingTimerExpiry => s.sbc.spacing = some 0
  | .muteTimerExpiry => s.sbc.mute = some 0
  | .silenceTimerExpiry p => (s.pv.peers[p]).silence = some 0
  | .leaveTimerExpiry p => (s.pv.peers[p]).leave = some 0
  | .joinDeadlineExpiry => s.pv.joinTimer = some 0
  | .isolationDelayExpiry z => (s.ziu.zones[z]).delay = some 0
  | .disputeTimerExpiry z => (s.ziu.zones[z]).disputeTimer = some 0
  | .cleanTimerExpiry z => (s.ziu.zones[z]).clean = some 0
  | .stressTimerExpiry => s.perm.stressTimer = some 0
  | .dwellTimerExpiry => s.perm.dwell = some 0
  | .reArmTimerExpiry => s.out.rearm = some 0
  | .contactorDelayExpiry => s.out.contactorTimer = some 0
  | _ => False

/-! ### What holds of each block -/

/-- R22, R45, R63, R94, R112, R128: through UNCONFIGURED every block but the lines' keeps its power-on values, and a station
is started exactly when it is not UNCONFIGURED (R152). -/
structure IdleUntilStart (s : State) : Prop where
  started : s.ctl.started = false ↔ s.ctl.mode = .unconfigured
  held : s.ctl.held = true → s.ctl.mode = .unconfigured
  lft : s.ctl.mode = .unconfigured → s.lft = Lft.empty
  sbc : s.ctl.mode = .unconfigured → s.sbc = Sbc.initial
  pv : s.ctl.mode = .unconfigured → s.pv = PeerView.initial
  ziu : s.ctl.mode = .unconfigured → s.ziu = Ziu.initial
  lvl : s.ctl.mode = .unconfigured → s.lvl = Levels.initial
  perm : s.ctl.mode = .unconfigured → s.perm = Permission.initial
  contactor : s.ctl.mode = .unconfigured → s.out.contactor = .opened
  quorum : 1 ≤ s.cfg.quorum

/-- R155, R156: every item lies in its range; R158: on a started station the items also stand in their relations. -/
structure ConfigInRange (s : State) : Prop where
  statusPeriod : 20 ≤ s.cfg.statusPeriod ∧ s.cfg.statusPeriod ≤ 200 ∧ s.cfg.statusPeriod % 10 = 0
  silenceTimeout : 100 ≤ s.cfg.silenceTimeout ∧ s.cfg.silenceTimeout ≤ 2000
  leaveGrace : 100 ≤ s.cfg.leaveGrace ∧ s.cfg.leaveGrace ≤ 2000
  joinDeadline : 200 ≤ s.cfg.joinDeadline ∧ s.cfg.joinDeadline ≤ 5000
  escalation : s.cfg.escalation = 0 ∨ (2 ≤ s.cfg.escalation ∧ s.cfg.escalation ≤ 15)
  declaredHeal : s.cfg.declaredHeal ≤ 5000
  disputeWindow : 200 ≤ s.cfg.disputeWindow ∧ s.cfg.disputeWindow ≤ 5000
  cleanInterval : 5 ≤ s.cfg.cleanInterval ∧ s.cfg.cleanInterval ≤ 600
  thresholds : s.cfg.slo ≤ 255 ∧ s.cfg.shi ≤ 255
  rampStep : 1 ≤ s.cfg.rampStep ∧ s.cfg.rampStep ≤ 1000
  dwell : s.cfg.dwell ≤ 10000
  stressTimeout : s.cfg.stressTimeout = 0 ∨ (100 ≤ s.cfg.stressTimeout ∧ s.cfg.stressTimeout ≤ 5000)
  rearmTime : 20 ≤ s.cfg.rearmTime ∧ s.cfg.rearmTime ≤ 1000
  contactorDelay : 20 ≤ s.cfg.contactorDelay ∧ s.cfg.contactorDelay ≤ 500
  delays : ∀ z : Zone, (s.cfg.zones[z]).delay ≤ 5000
  inputs : ∀ n : Input, (s.cfg.inputs[n]).qualify ≤ 255 ∧ (s.cfg.inputs[n]).heal ≤ 2550
    ∧ (s.cfg.inputs[n]).heal % 10 = 0 ∧ (s.cfg.inputs[n]).cls.code ≤ 6
  caps : ∀ i : Fin 4, s.cfg.baseCaps[i] ≤ 1000 ∧ s.cfg.speedCaps[i] ≤ 500
  quorum : 1 ≤ s.cfg.quorum ∧ s.cfg.quorum ≤ 3
  ladder : s.ctl.started = true → ∀ i j : Fin 4, i ≤ j →
    s.cfg.baseCaps[j] ≤ s.cfg.baseCaps[i] ∧ s.cfg.speedCaps[j] ≤ s.cfg.speedCaps[i]
  levels : s.ctl.started = true → ∀ z : Zone, (s.cfg.zones[z]).suspectLevel ≤ (s.cfg.zones[z]).confirmedLevel
    ∧ (s.cfg.zones[z]).confirmedLevel ≤ (s.cfg.zones[z]).isolatedLevel
  band : s.ctl.started = true → s.cfg.slo < s.cfg.shi
  silence : s.ctl.started = true → 2 * s.cfg.statusPeriod ≤ s.cfg.silenceTimeout

/-- R4, R5, R11: the fields of an entry agree with its state and its escalated flag. -/
structure EntryConsistent (x : Entry) : Prop where
  cls : x.cls.code ≤ 6
  count : match x.count with
    | none => x.state = .qualifying
    | some c => x.state ≠ .qualifying ∧ 1 ≤ c ∧ c ≤ 15
  firstActive : x.firstActive = none ↔ x.state = .qualifying
  severity : x.current = if x.escalated then x.configured.up else x.configured
  latched : x.state = .latched → x.latching = true

/-- R4, R5, R12 to R14, section 1.3: the Local Fault Table; a timer runs exactly in the state it belongs to, and no class and
zone are declared twice. -/
structure FaultTableConsistent (s : State) : Prop where
  input : ∀ (n : Input) (x : Entry), (s.lft.inputs[n]).entry = some x → EntryConsistent x ∧ x.source = .input n
  qualify : ∀ n : Input, (s.lft.inputs[n]).qualify.isSome = true ↔
    ∃ x, (s.lft.inputs[n]).entry = some x ∧ x.state = .qualifying
  heal : ∀ n : Input, (s.lft.inputs[n]).heal.isSome = true ↔
    ∃ x, (s.lft.inputs[n]).entry = some x ∧ x.state = .healing
  declared : ∀ (d : DeclSlot) (x : Entry), (s.lft.declared[d]).entry = some x →
    EntryConsistent x ∧ x.source = .declared ∧ (x.state = .active ∨ x.state = .healing) ∧ x.latching = false
  declaredQualify : ∀ d : DeclSlot, (s.lft.declared[d]).qualify = none
  declaredHeal : ∀ d : DeclSlot, (s.lft.declared[d]).heal.isSome = true ↔
    ∃ x, (s.lft.declared[d]).entry = some x ∧ x.state = .healing
  distinct : ∀ (d e : DeclSlot) (x y : Entry), (s.lft.declared[d]).entry = some x → (s.lft.declared[e]).entry = some y →
    x.cls = y.cls → x.zone = y.zone → d = e

/-- R27 to R46: the Status Bus Controller. -/
structure BusConsistent (s : State) : Prop where
  helloOrLeave : ¬(s.sbc.requests.hello = true ∧ s.sbc.requests.leave = true)
  onBus : s.sbc.requests.hello = true ∨ s.sbc.requests.status = true ∨ s.sbc.statusTimer.isSome = true →
    s.ctl.mode = .joining ∨ s.ctl.mode = .running
  leaving : s.sbc.requests.leave = true → s.ctl.mode = .departed
  inFlight : ∀ f, s.sbc.inFlight = some f → match f.kind with
    | .hello => s.sbc.requests.hello = true
    | .status => s.sbc.requests.status = true
    | .leave => s.sbc.requests.leave = true
  renewal : s.sbc.renewal = true → s.sbc.inFlight.map Frame.kind = some .status
  mute : s.sbc.mute.isSome = true → s.sbc.requests.status = true
  bitFaults : s.sbc.bitFaults ≤ 2 ∧ (s.ziu.derived.bitFault = true ↔ s.sbc.bitFaults = 2)
  duplicate : s.ziu.derived.duplicate = s.sbc.duplicateLatch
  receiver : s.sbc.receiverOn = s.ctl.started
  transmitter : s.ctl.mode = .joining ∨ s.ctl.mode = .running → s.sbc.transmitterOn = true
  started : s.ctl.started = true ↔ s.ctl.mode ≠ .unconfigured

/-- R47, R49, R52 to R58: the Peer View; a timer runs exactly in the states it belongs to, LOST and deaf stand exactly as the records
say, and a station that is JOINING still waits for an expected peer. -/
structure PeerTableConsistent (s : State) : Prop where
  silence : ∀ p : Station, (s.pv.peers[p]).silence.isSome = true ↔
    ((s.pv.peers[p]).presence = .joining ∨ (s.pv.peers[p]).presence = .present)
  leave : ∀ p : Station, (s.pv.peers[p]).leave.isSome = true ↔ (s.pv.peers[p]).presence = .leaving
  list : ∀ p : Station, (s.pv.peers[p]).presence ≠ .joining → (s.pv.peers[p]).presence ≠ .present →
    (s.pv.peers[p]).list = []
  listBound : ∀ p : Station, (s.pv.peers[p]).list.length ≤ 4 ∧ ((s.pv.peers[p]).list.map (·.zone)).Nodup
  status : ∀ p : Station, (s.pv.peers[p]).presence = .present → (s.pv.peers[p]).status.isSome = true
  own : s.pv.peers[s.ctl.station] = PeerRecord.absent false
  lost : ∀ p : Station, (s.ziu.derived.lost[p]) = true ↔ (s.pv.peers[p]).presence = .silent
  deaf : s.ziu.derived.deaf = true ↔
    (∀ p : Station, p ≠ s.ctl.station → (s.pv.peers[p]).presence = .absent ∨ (s.pv.peers[p]).presence = .silent)
      ∧ ∃ p : Station, p ≠ s.ctl.station ∧ (s.pv.peers[p]).presence = .silent
  join : s.pv.joinTimer.isSome = true ↔ s.ctl.mode = .joining
  awaited : s.ctl.mode = .joining → joinComplete s = false

/-- R65, R74, R78, R79, R82, R88, R89: one record of the Zone Table agrees with its own state. -/
structure ZoneConsistent (z : Zone) (r : ZoneRecord) : Prop where
  stamp : r.stamp.isSome = true ↔ (r.state = .isolated ∨ r.state = .pinned)
  stampValue : ∀ w, r.stamp = some w → w.toNat / 256 = 16 * z.val + r.count
  delay : r.delay.isSome = true ↔ r.state = .confirmed
  clean : r.clean.isSome = true ↔ (r.state = .clear ∧ r.released = true)
  disputeTimer : r.disputeTimer.isSome = true ↔ ∃ a, r.dispute = .pending a
  dispute : r.dispute ≠ .none → z.val < 8
  count : r.count ≤ 15
  pinned : r.state = .pinned → r.released = true
  accusers : r.accusers.Pairwise (fun a b => a.station < b.station)

/-- Every record of the Zone Table agrees with its own state. -/
def ZoneTableConsistent (s : State) : Prop := ∀ z : Zone, ZoneConsistent z s.ziu.zones[z]

/-- R67, R68, R70, R71, R74 to R76, R81 to R84: the Zone Table says what the other tables say of each zone; an accusation at
CRITICAL in the confirming set leaves no zone CONFIRMED. -/
structure SupportCurrent (s : State) : Prop where
  own : ∀ z : Zone, (s.ziu.zones[z]).own = ownClaim s z
  accusers : ∀ z : Zone, (s.ziu.zones[z]).accusers
    = markDiscounted (s.ziu.zones[z]).dispute (accusersOf s (ownClaim s z) z)
  dispute : ∀ z : Zone, match disputedBy s z (accusersOf s (ownClaim s z) z) with
    | none => (s.ziu.zones[z]).dispute = .none
    | some a => (s.ziu.zones[z]).dispute = .pending a ∨ (s.ziu.zones[z]).dispute = .inForce a
  implausible : ∀ a : Station, s.ziu.derived.implausible[a] = true ↔ ∃ z : Zone, (s.ziu.zones[z]).dispute = .inForce a
  state : ∀ z : Zone, match (s.ziu.zones[z]).state with
    | .clear => suspicion (s.ziu.zones[z]).accusers = []
    | .suspect => suspicion (s.ziu.zones[z]).accusers ≠ []
      ∧ confirmationHolds s.cfg.quorum z (s.ziu.zones[z]).accusers = false
    | .confirmed => confirmationHolds s.cfg.quorum z (s.ziu.zones[z]).accusers = true
      ∧ criticalAmong (s.ziu.zones[z]).accusers = false
    | .isolated | .pinned => True

/-- R100, R102, R104, R106, R107, R109, R110, R118, R119, R130, R137: levels, caps and lines are those that the tables give. -/
structure DriveCurrent (s : State) : Prop where
  lown : s.lvl.floor ≤ s.lvl.lown
    ∧ (∀ z : Zone, contribution s.cfg s.ctl.station z (s.ziu.zones[z]).state ≤ s.lvl.lown)
    ∧ (s.lvl.lown = s.lvl.floor
      ∨ ∃ z : Zone, s.lvl.lown = contribution s.cfg s.ctl.station z (s.ziu.zones[z]).state)
  follow : (∀ p : Station, follows s.cfg s.ctl.station (View.of s) p = true →
      (s.pv.peers[p]).announced.lown ≤ s.lvl.follow)
    ∧ (s.lvl.follow = 0 ∨ ∃ p : Station, follows s.cfg s.ctl.station (View.of s) p = true
      ∧ s.lvl.follow = (s.pv.peers[p]).announced.lown)
  lapp : s.lvl.lapp = max (max s.lvl.lown s.lvl.follow) (max (modeFloor s.ctl.mode) (tripFloor s.out.tripLatch))
  speedCap : s.lvl.speedCap = speedCapOf s.cfg s.lvl.lapp
  regen : s.lvl.regen = true ↔ (s.lvl.lapp.val ≤ 4 ∧ ∀ z : Zone, (s.cfg.zones[z]).regenInhibit = true →
    (s.ziu.zones[z]).state = .clear)
  foldback : s.perm.foldback = foldbackOf s.cfg.slo s.cfg.shi s.perm.stress.toNat
  target : s.perm.target = baseCap s.cfg s.lvl.lapp * s.perm.foldback / 1000
  gen : s.out.gen = true ↔ (s.lvl.lapp.val ≤ 4 ∧ s.out.tripLatch = false)
  lamp : s.ctl.held = false → s.out.lamp = lampOf s.lvl.lapp

/-- R121, R124, R125, R132 to R134, R141, R144: the output cap, the re-arm hold, the duties and the contactor. -/
structure OutputsConsistent (s : State) : Prop where
  capped : s.perm.output ≤ s.perm.target ∧ s.perm.target ≤ 1000
  zero : s.out.gen = false ∨ s.out.tripLatch = true ∨ s.out.rearm.isSome = true → s.perm.output = 0
  trip : s.out.tripLatch = true → s.out.gen = false
  hold : s.out.rearm.isSome = true → s.out.gen = true
  pendingDuty : s.ctl.held = false → s.out.pendingDuty = 50 + 9 * s.perm.output / 10
  activeDuty : s.ctl.held = false → 50 ≤ s.out.activeDuty ∧ s.out.activeDuty ≤ 950
  drop : s.out.contactorTimer.isSome = true ↔ s.out.contactor = .dropping
  fitted : s.cfg.contactorFitted = false → s.out.contactor = .opened

/-! ### What follows from a change within its event -/

/-- R92: this station's own zone is ISOLATED or PINNED. -/
abbrev SelfIsolated (s : State) : Prop := (s.ziu.zones[stationZone s.ctl.station]).state.isIsolated = true

/-- R34, R69: between `b` and `t` an own accusation has appeared or risen in severity, Lown has risen, or the self-isolated
flag has become set. -/
def Urgent (b t : State) : Prop :=
  (∃ (z : Zone) (c : Claim), (t.ziu.zones[z]).own = some c ∧ ((b.ziu.zones[z]).own = none
      ∨ ∃ o, (b.ziu.zones[z]).own = some o ∧ o.severity.code < c.severity.code))
    ∨ b.lvl.lown < t.lvl.lown ∨ (SelfIsolated t ∧ ¬SelfIsolated b)

/-- R13: an occupied slot of the Local Fault Table holds this entry. -/
def Lft.holds (l : Lft) (x : Entry) : Prop :=
  (∃ n : Input, (l.inputs[n]).entry = some x) ∨ ∃ d : DeclSlot, (l.declared[d]).entry = some x

/-- R75, R76, R78, R79, R80, R88: what a support change can make of the record `r` of zone `z` under the store `c`. The
accusers are those of the new record. -/
structure ZoneFollows (c : Store) (z : Zone) (r q : ZoneRecord) : Prop where
  released : q.released = r.released
  held : r.state.isIsolated = true → q.state = r.state ∧ q.stamp = r.stamp ∧ q.count = r.count ∧ q.delay = r.delay
    ∧ q.clean = r.clean
  entered : r.state.isIsolated = false → q.state.isIsolated = true →
    q.state = (if r.released then .pinned else .isolated) ∧ q.count = min 15 (r.count + 1) ∧ q.delay = none
      ∧ q.clean = none ∧ q.stamp = some (isolationStamp z q.count q.accusers)
      ∧ confirmationHolds c.quorum z q.accusers = true
      ∧ (criticalAmong q.accusers = true ∨ ((c.zones[z]).delay = 0 ∧ r.state ≠ .confirmed))
  free : q.state.isIsolated = false → q.count = r.count ∧ q.stamp = r.stamp
  confirmed : q.state = .confirmed → criticalAmong q.accusers = false
    ∧ if r.state = .confirmed then q.delay = r.delay ∧ q.clean = r.clean
      else q.delay = some (c.zones[z]).delay ∧ q.clean = none ∧ (c.zones[z]).delay ≠ 0
  suspect : q.state = .suspect → q.delay = none ∧ q.clean = none
  clear : q.state = .clear → q.delay = (if r.state = .clear then r.delay else none)
    ∧ q.clean = if r.state = .clear then r.clean else if r.released then some (1000 * c.cleanInterval) else none

/-- R81: the lone accuser of the dispute on a zone, as the tables stand. -/
def loneAccuser (s : State) (z : Zone) : Option Station := disputedBy s z (accusersOf s (ownClaim s z) z)

/-- R82: the accuser that a dispute names. -/
def Dispute.accuser : Dispute → Option Station
  | .none => Option.none
  | .pending a | .inForce a => some a

/-- R68, R73, R84: within one event this station becomes IMPLAUSIBLE, so that its accusation of its own zone, STALE until then, turns
IMPLAUSIBLE and leaves the raw confirming set. -/
def OwnClaimYields (u t : State) (z : Zone) : Prop :=
  z = stationZone u.ctl.station ∧ u.ziu.derived.stale = true ∧ u.ziu.derived.implausible[u.ctl.station] = false
    ∧ t.ziu.derived.implausible[u.ctl.station] = true

/-- R81 to R84: the dispute on a zone and its timer, after an event that had made `u` of the state before it. With no lone accuser
there is no dispute; a dispute whose lone accuser stays the same is left alone; any other lone accuser begins a new one. -/
def DisputeFollows (u t : State) (z : Zone) : Prop :=
  match loneAccuser t z with
  | none => (t.ziu.zones[z]).dispute = .none ∧ (t.ziu.zones[z]).disputeTimer = none
  | some a =>
    ((u.ziu.zones[z]).dispute.accuser = some a → ¬OwnClaimYields u t z →
        (t.ziu.zones[z]).dispute = (u.ziu.zones[z]).dispute
          ∧ (t.ziu.zones[z]).disputeTimer = (u.ziu.zones[z]).disputeTimer)
      ∧ ((u.ziu.zones[z]).dispute.accuser ≠ some a ∨ OwnClaimYields u t z →
        (t.ziu.zones[z]).dispute = .pending a ∧ (t.ziu.zones[z]).disputeTimer = some u.cfg.disputeWindow)

/-- R121, R122, R124, R125, R131, R132, R134: what a change of levels, stress, floor, trip latch or node mode can make of the
output cap, the dwell, the re-arm hold and the duty. The inputs of one event may pass through the units one after another. -/
structure LinesFollow (u t : State) : Prop where
  high : t.out.gen = true → (t.out.rearm = some u.cfg.rearmTime ∧ (u.out.gen = true → t.perm.output = 0))
    ∨ (u.out.gen = true ∧ t.out.rearm = u.out.rearm)
  low : t.out.gen = false → (t.out.rearm = none ∧ t.perm.output = 0) ∨ (u.out.gen = false ∧ t.out.rearm = u.out.rearm)
  cap : (t.perm.dwell = (if u.cfg.dwell = 0 then none else some u.cfg.dwell) ∧ t.perm.output ≤ t.perm.target)
    ∨ (t.perm.dwell = u.perm.dwell ∧ u.perm.target ≤ t.perm.target
      ∧ (t.perm.output = u.perm.output ∨ t.perm.output = 0))
  fall : t.perm.output ≤ u.perm.output
  duty : (t.perm.output = u.perm.output ∧ t.out.pendingDuty = u.out.pendingDuty)
    ∨ t.out.pendingDuty = 50 + 9 * t.perm.output / 10

/-- R121, R124: what one change of the target cap makes of the output cap and the dwell. A fall brings the output cap down with it
and restarts the dwell, a rise does neither; a fall of GEN makes the output cap 0. -/
structure CapMoves (s t : State) : Prop where
  fall : t.perm.target < s.perm.target → t.perm.dwell = (if s.cfg.dwell = 0 then none else some s.cfg.dwell)
    ∧ t.perm.output = if s.out.gen = true ∧ t.out.gen = false then 0 else min t.perm.target s.perm.output
  rise : s.perm.target ≤ t.perm.target → t.perm.dwell = s.perm.dwell
    ∧ t.perm.output = if s.out.gen = true ∧ t.out.gen = false then 0 else s.perm.output

/-- R105, R107, R120: the inputs `w` of the Level Resolver and the Permission Unit as they stand in turn while those of `v` that an
event changed arrive in an order, and at its end. -/
def viewsInTurn (w : View) : List HandOn → View → List View
  | [], _ => [w]
  | k :: rest, v => View.take k v w :: viewsInTurn w rest (View.take k v w)

/-- R107, R120, R121, R124: what inputs that stand in turn make of the output cap, the dwell and the LEVEL flag. The output cap comes
down to the least target cap among them, the dwell restarts if one of them is a fall, and LEVEL is raised if Lapp moves. -/
structure FollowsInTurn (u t : State) (views : List View) : Prop where
  output : u.perm.output ≤ u.perm.target →
    t.perm.output = (views.map (targetOf u.cfg u.ctl.station)).foldl min u.perm.output
  dwell : t.perm.dwell = if (u.perm.target :: views.map (targetOf u.cfg u.ctl.station)).Pairwise (· ≤ ·) then u.perm.dwell
    else if u.cfg.dwell = 0 then none else some u.cfg.dwell
  level : t.isPending .level = true ↔
    (u.isPending .level = true ∨ ∃ v ∈ views, appliedLevel u.cfg u.ctl.station v ≠ u.lvl.lapp)

/-- All that may follow, within one event, from a change of one block: `b` is the state the event found, `u` the state with the
block's own change made, and `t` the state after the event. -/
structure Follows (b u t : State) : Prop where
  kept : TablesKept u t
  mode : if u.ctl.mode = .joining ∧ joinComplete u = true then t.ctl.mode = .running ∧ t.pv.joinTimer = none
    else t.ctl.mode = u.ctl.mode ∧ t.pv.joinTimer = u.pv.joinTimer
  derived : t.ziu.derived = { u.ziu.derived with
    lost := t.ziu.derived.lost, deaf := t.ziu.derived.deaf, implausible := t.ziu.derived.implausible }
  lost : ∀ p : Station, t.ziu.derived.lost[p] = true ↔ (t.pv.peers[p]).presence = .silent
  zones : ∀ z : Zone, ZoneFollows u.cfg z u.ziu.zones[z] t.ziu.zones[z]
  disputes : (∀ x, t.lft.holds x → x.cls.code ≤ 6) → ∀ z : Zone, DisputeFollows u t z
  support : SupportCurrent t
  drive : DriveCurrent t
  lines : LinesFollow u t
  inTurn : ∃ order : List HandOn, order.Perm (View.changes (View.of b) (View.of t))
    ∧ FollowsInTurn u t (viewsInTurn (View.of t) order (View.of b))
  oneChange : (View.changes (View.of b) (View.of t)).length ≤ 1 →
    CapMoves u t ∧ (t.isPending .level = true ↔ (u.isPending .level = true ∨ t.lvl.lapp ≠ u.lvl.lapp))
  contactor : if u.out.contactor = .closed ∧ ∃ z : Zone, (u.cfg.zones[z]).contactorDrop = true
      ∧ (t.ziu.zones[z]).state.isIsolated = true ∧ (b.ziu.zones[z]).state.isIsolated = false then
      t.out.contactor = .dropping ∧ t.out.contactorTimer = some u.cfg.contactorDelay
    else t.out.contactor = u.out.contactor ∧ t.out.contactorTimer = u.out.contactorTimer
  level : (u.isPending .level = true ∨ t.lvl.lapp ≠ u.lvl.lapp) → t.isPending .level = true
  zone : t.isPending .zone = true ↔ (u.isPending .zone = true ∨ ∃ z : Zone, (t.ziu.zones[z]).state ≠ (b.ziu.zones[z]).state)
  peer : t.isPending .peer = true ↔
    (u.isPending .peer = true ∨ ∃ p : Station, (t.pv.peers[p]).presence ≠ (b.pv.peers[p]).presence)
  drop : t.isPending .contactor = true ↔ (u.isPending .contactor = true ∨ t.out.contactor ≠ u.out.contactor)
  others : ∀ f : Flag, f = .trip ∨ f = .stale ∨ f = .notice ∨ f = .spi → t.isPending f = u.isPending f
  urgent : Urgent b t → t.ctl.mode = .joining ∨ t.ctl.mode = .running →
    t.sbc = if u.sbc.inFlight.map Frame.kind = some .status then { u.sbc with renewal := true }
      else if u.sbc.requests.status = true then u.sbc
      else { u.sbc with requests.status := true, mute := some u.cfg.silenceTimeout }
  quiet : ¬Urgent b t ∨ (t.ctl.mode ≠ .joining ∧ t.ctl.mode ≠ .running) → t.sbc = u.sbc

/-! ### Words of the claims -/

/-- A state with the reply of a request in SDO (R167). -/
def State.answering (s : State) (code : ReplyCode) (data : List Byte := []) : State :=
  { s with port.reply := some (replyFrame code data) }

/-- R154, R167: the reply of a configuration command with or without a clamp. -/
def State.stored (s : State) (c : Store) (clamped : Bool) : State :=
  { s with cfg := c }.answering (if clamped then .clamped else .ok)

/-- R14: `d` is the first slot with a property at or after the pointer, D7 being followed by D0. -/
def FirstFrom (pointer d : DeclSlot) (P : DeclSlot → Prop) : Prop := P d ∧ ∀ e : DeclSlot, e - pointer < d - pointer → ¬P e

/-- R9, R11, R13: `y` is the entry `x` returned to ACTIVE, its count raised and the escalation check made. -/
structure Recurred (e : Nat) (x y : Entry) : Prop where
  state : y.state = .active
  count : y.count = some (min 15 (x.count.getD 0 + 1))
  escalated : y.escalated = true ↔ (x.escalated = true ∨ (e ≠ 0 ∧ e ≤ min 15 (x.count.getD 0 + 1)))
  current : y.current = if x.escalated = false ∧ y.escalated = true then x.current.up else x.current
  rest : y = { x with state := y.state, count := y.count, escalated := y.escalated, current := y.current }

/-- R124, R134, R138: the trip latch set, with the output cap at 0, its duty handed on and TRIP raised, if it was clear. -/
def State.tripped (s : State) : State :=
  if s.out.tripLatch then s
  else { s with
    out.tripLatch := true, perm.output := 0
    out.pendingDuty := if s.perm.output = 0 then s.out.pendingDuty else 50
    port.flags := s.port.flags ||| 0x08#8 }

/-- R68, R19: `c` is the strongest of the accusations that satisfy `P`: of the highest severity, and within it of the lowest
class code. -/
def Strongest (P : Claim → Prop) (c : Claim) : Prop :=
  P c ∧ ∀ d, P d → d.severity.code < c.severity.code ∨ (d.severity = c.severity ∧ c.cls.code ≤ d.cls.code)

/-- R181: bits `hi` to `lo` of byte `i` of a reply's data. -/
def fieldAt (d : List Byte) (i hi lo : Nat) : Nat := (d.getD i 0).toNat / 2 ^ lo % 2 ^ (hi - lo + 1)

/-- R180: the 16-bit value at bytes `i` and `i + 1` of a reply's data, most significant byte first. -/
def wordAt (d : List Byte) (i : Nat) : Nat := 256 * (d.getD i 0).toNat + (d.getD (i + 1) 0).toNat

/-- R182: a code that is 0 where its value is absent. -/
def codeOf {α : Type} (code : α → Nat) (x : Option α) : Nat := (x.map code).getD 0

/-- R150, R151: power-on reset, its release, and the two causes of a host reset. -/
def IsReset (c : Instr) : Prop :=
  (∃ tail, c = .reset tail) ∨ (∃ low, c = .hostReset low) ∨ c = .powerOnReset
    ∨ ∃ straps ready, c = .releaseFromReset straps ready

/-- R154, R157, R15, R18, R86, R101, R116, R160, R161: the node modes in which a command is refused WRONG-MODE whatever its
arguments. -/
def RefusedIn (m : NodeMode) : Instr → Prop
  | .setTiming _ _ _ | .setZone _ _ _ _ _ _ _ | .setInput _ _ _ _ _ _ _ _ | .setLevels _ _ _ _ _ _ _ _ _
  | .setPeers _ _ _ _ | .start _ => m ≠ .unconfigured
  | .stress _ _ | .clearFault _ _ | .clearAll _ | .floor _ _ | .release _ _ _ | .depart _ => m = .unconfigured
  | .rejoin _ => m ≠ .departed
  | _ => False

/-- R30: bit `k` of a frame belongs to its ID field: the three ID bits, and the stuff bit after start and ID 000. -/
def InIdField (f : Frame) (k : Nat) : Prop := k ≤ 3 ∨ (k = 4 ∧ f.id = 0)

end Sys2Proof.Machine
end

