-- ==== Sys2Proof/Certificates/Slice0/Obligations.lean ====
section
/-! DEFINITION. The statements about the 4130 that wait for proofs. `Follows s u t` (Sys2Proof/Safety.lean) says everything that
may follow, within one event, from the change `u` of one block of the state `s`. -/

open Sys2Proof Sys2Proof.Machine

/-! ### The machine -/

/-- A step takes the command at the front of the queue and runs it with the rest of the queue in place. -/
def Obligations.StepRunsTheFrontCommand : Prop :=
  ∀ (s : State) (c : Instr) (rest : List Instr), s.pending = c :: rest → step s = exec c { s with pending := rest }

/-- On an empty queue a step takes the next of the events that have fallen due and not had their turn (the model's choice, log
entries 3 and 4). The event runs if it still falls due; one whose timer has been discarded or restarted since is dropped. With
none left, and the chip not held in reset, the step is one millisecond: node time rises by 1, every running timer has one
millisecond less to run, and the events that then fall due are, each once and in an order left open, those that have yet to have
their turn. All else is as it was. With none left and the chip held in reset nothing happens. -/
def Obligations.EmptyQueuePassesAMillisecond : Prop :=
  ∀ s : State, s.pending = [] →
    (∀ (c : Instr) (rest : List Instr), s.due = c :: rest →
      (FallsDue s c → step s = exec c { s with due := rest })
      ∧ (¬FallsDue s c → step s = .next { s with due := rest }))
    ∧ (s.due = [] → s.ctl.held = true → step s = .next s)
    ∧ (s.due = [] → s.ctl.held = false → ∃ t, step s = .next t
      ∧ t.ctl = { s.ctl with nodeTime := s.ctl.nodeTime + 1 } ∧ t.pins = s.pins ∧ t.cfg = s.cfg ∧ t.lvl = s.lvl
      ∧ t.port = s.port
      ∧ (∀ n : Input, t.lft.inputs[n] = { s.lft.inputs[n] with
          qualify := (s.lft.inputs[n]).qualify.map (· - 1), heal := (s.lft.inputs[n]).heal.map (· - 1) })
      ∧ (∀ d : DeclSlot, t.lft.declared[d] = { s.lft.declared[d] with
          qualify := (s.lft.declared[d]).qualify.map (· - 1), heal := (s.lft.declared[d]).heal.map (· - 1) })
      ∧ t.lft.pointer = s.lft.pointer
      ∧ t.sbc = { s.sbc with
          statusTimer := s.sbc.statusTimer.map (· - 1), spacing := s.sbc.spacing.map (· - 1)
          mute := s.sbc.mute.map (· - 1) }
      ∧ (∀ p : Station, t.pv.peers[p] = { s.pv.peers[p] with
          silence := (s.pv.peers[p]).silence.map (· - 1), leave := (s.pv.peers[p]).leave.map (· - 1) })
      ∧ t.pv.joinTimer = s.pv.joinTimer.map (· - 1)
      ∧ (∀ z : Zone, t.ziu.zones[z] = { s.ziu.zones[z] with
          delay := (s.ziu.zones[z]).delay.map (· - 1), disputeTimer := (s.ziu.zones[z]).disputeTimer.map (· - 1)
          clean := (s.ziu.zones[z]).clean.map (· - 1) })
      ∧ t.ziu.derived = s.ziu.derived
      ∧ t.perm = { s.perm with dwell := s.perm.dwell.map (· - 1), stressTimer := s.perm.stressTimer.map (· - 1) }
      ∧ t.out = { s.out with rearm := s.out.rearm.map (· - 1), contactorTimer := s.out.contactorTimer.map (· - 1) }
      ∧ t.pending = [] ∧ t.due.Nodup ∧ ∀ c : Instr, c ∈ t.due ↔ FallsDue t c)

/-- Every well-formed command completes from every state; a command that is not well formed is refused (the model's choice, log
entry 8). -/
def Obligations.WellFormedCommandsComplete : Prop :=
  ∀ (c : Instr) (s : State), (c.wf = true → ∃ t, exec c s = .next t) ∧ (c.wf = false → exec c s = .refused .mislabelled)

/-- The configuration changes in UNCONFIGURED alone, or with power-on reset; station number, role and node time with power-on
reset alone; a contactor closes at CONTACTOR-CLOSE alone; a set trip latch is cleared by TRIP-CLEAR or a reset alone; the output
cap rises at a ramp expiry alone, by at most one ramp step and not past the target cap; the host floor changes at FLOOR or a
reset alone. A rise of CS_N counts as the request that its bits carry, if they carry one (log entry 11). No command touches the
queue, and the events that have fallen due and not had their turn are forgotten with power-on reset alone: these two clauses are
about the model's own fields (log entries 3 and 16). -/
def Obligations.OnlyNamedCommandsChangeProtectedState : Prop :=
  ∀ (c : Instr) (s t : State), exec c s = .next t →
    t.pending = s.pending
    ∧ (t.due ≠ s.due → c = .powerOnReset ∨ ∃ straps ready, c = .releaseFromReset straps ready)
    ∧ (t.cfg ≠ s.cfg → s.ctl.mode = .unconfigured ∨ c = .powerOnReset
      ∨ ∃ straps ready, c = .releaseFromReset straps ready)
    ∧ (t.ctl.station ≠ s.ctl.station ∨ t.ctl.role ≠ s.ctl.role ∨ t.ctl.nodeTime ≠ s.ctl.nodeTime →
      c = .powerOnReset ∨ ∃ straps ready, c = .releaseFromReset straps ready)
    ∧ (t.out.contactor = .closed → s.out.contactor ≠ .closed → ∃ tail, carried c = .contactorClose tail)
    ∧ (s.out.tripLatch = true → t.out.tripLatch = false → (∃ tail, carried c = .tripClear tail) ∨ IsReset (carried c))
    ∧ (s.perm.output < t.perm.output →
      c = .rampExpiry ∧ t.perm.output ≤ s.perm.output + s.cfg.rampStep ∧ t.perm.output ≤ s.perm.target)
    ∧ (t.lvl.floor ≠ s.lvl.floor → (∃ level tail, carried c = .floor level tail) ∨ IsReset (carried c))

/-- The node mode changes at the events of the mode table alone: to JOINING at START, REJOIN or the host reset of a started station;
to RUNNING at the join deadline's expiry or the early end of the join, at a change of a peer's presence or at the entry to JOINING
itself (a station that is JOINING has not got every expected peer PRESENT: `PeerTableConsistent`); to DEPARTED at DEPART; to UNCONFIGURED
with power-on reset alone. Where a command brings samples of the line, the frame that ends the join may be one among them (log entry 2). A
rise of CS_N counts as the request that its bits carry, if they carry one (log entry 11). -/
def Obligations.NodeModeChangesOnlyAsTabled : Prop :=
  ∀ (c : Instr) (s t : State), IdleUntilStart s → exec c s = .next t → t.ctl.mode ≠ s.ctl.mode →
    match t.ctl.mode with
    | .unconfigured => c = .powerOnReset
    | .joining => (s.ctl.mode = .unconfigured ∧ ∃ tail, carried c = .start tail)
      ∨ (s.ctl.mode = .departed ∧ ∃ tail, carried c = .rejoin tail)
      ∨ (s.ctl.started = true ∧ ((∃ tail, carried c = .reset tail) ∨ ∃ low, c = .hostReset low))
    | .running => (s.ctl.mode = .joining ∧ (c = .joinDeadlineExpiry ∨ ∃ u : State, joinComplete u = true
        ∧ (joinComplete s = false → ∃ p : Station, (u.pv.peers[p]).presence ≠ (s.pv.peers[p]).presence)
        ∧ (u = t ∨ ∃ (idle : Nat) (bits before after : List Bool),
          (c = .hello idle bits ∨ c = .status idle bits ∨ c = .leave idle bits ∨ (c = .frameStart idle ∧ bits = []))
          ∧ List.replicate idle true ++ bits = before ++ after ∧ u = receiveSamples before s)))
      ∨ (s.ctl.mode = .departed ∧ joinComplete s = true ∧ ∃ tail, carried c = .rejoin tail)
    | .departed => (s.ctl.mode = .joining ∨ s.ctl.mode = .running) ∧ ∃ tail, carried c = .depart tail

/-- Whatever the straps and the levels on FI0 to FI7, the state after power-on reset meets every invariant of the blocks.
`State.reset` is that state with station S0, role AUX and every line low (the model's choice, log entry 1). -/
def Obligations.ResetMeetsEveryInvariant : Prop :=
  (∀ (station : Station) (role : Role) (lines : Vector Bool 8) (pending : List Instr) (choices : Nat),
    let s := State.powerOn station role lines pending choices
    IdleUntilStart s ∧ ConfigInRange s ∧ FaultTableConsistent s ∧ BusConsistent s ∧ PeerTableConsistent s
      ∧ ZoneTableConsistent s ∧ SupportCurrent s ∧ DriveCurrent s ∧ OutputsConsistent s)
  ∧ State.reset = State.powerOn 0 .aux (Vector.replicate 8 false) [] 0

/-! ### What every step keeps -/

/-- Through UNCONFIGURED the blocks stay at their power-on values, and the started flag says whether the mode has been left. -/
def Obligations.StepsKeepBlocksIdleUntilStart : Prop :=
  ∀ s t : State, IdleUntilStart s → step s = .next t → IdleUntilStart t

/-- Every configuration item stays in its range, and on a started station in its relations to the others. -/
def Obligations.StepsKeepConfigurationInRange : Prop :=
  ∀ s t : State, IdleUntilStart s → ConfigInRange s → step s = .next t → ConfigInRange t

/-- Every entry of the Local Fault Table keeps agreeing with its state, and a slot's timers run exactly in the states they
belong to. -/
def Obligations.StepsKeepFaultTableConsistent : Prop :=
  ∀ s t : State, ConfigInRange s → FaultTableConsistent s → step s = .next t → FaultTableConsistent t

/-- The requests, the frame in flight, the timers, the bit-fault count and the derivations of the SBC keep agreeing. -/
def Obligations.StepsKeepBusConsistent : Prop :=
  ∀ s t : State, IdleUntilStart s → BusConsistent s → step s = .next t → BusConsistent t

/-- Every peer record keeps agreeing with its presence state, LOST and deaf with the records, and a station that is JOINING still waits
for an expected peer or expects none. -/
def Obligations.StepsKeepPeerTableConsistent : Prop :=
  ∀ s t : State, PeerTableConsistent s → step s = .next t → PeerTableConsistent t

/-- Every zone record keeps agreeing with its state: its stamp, its timers, its dispute and its count. -/
def Obligations.StepsKeepZoneTableConsistent : Prop :=
  ∀ s t : State, ZoneTableConsistent s → step s = .next t → ZoneTableConsistent t

/-- Own accusations, accuser lists, disputes and zone states stay what the fault table, the peer records and the derivations
make them. -/
def Obligations.StepsKeepSupportCurrent : Prop :=
  ∀ s t : State, IdleUntilStart s → SupportCurrent s → step s = .next t → SupportCurrent t

/-- Lown, the follow level, Lapp, the speed cap, regeneration permission, the foldback factor, the target cap, GEN and LAMP stay
what the zone states, the peer records, the host floor, the stress value, the node mode and the trip latch make them. -/
def Obligations.StepsKeepDriveCurrent : Prop :=
  ∀ s t : State, IdleUntilStart s → DriveCurrent s → step s = .next t → DriveCurrent t

/-- The output cap never exceeds the target cap and is 0 while GEN is low, the trip latch is set or the re-arm hold runs; the duty
is the one that encodes it and the active duty stays between 50 and 950; the contactor's timer runs exactly while it drops. -/
def Obligations.StepsKeepOutputsConsistent : Prop :=
  ∀ s t : State, IdleUntilStart s → ConfigInRange s → DriveCurrent s → OutputsConsistent s → step s = .next t →
    OutputsConsistent t

/-! ### Frames and codes -/

/-- The receiver reads from the bits of every frame that a 4130 may send exactly that frame. On an idle line it takes the frame at its
last end bit, which ends it; a frame that begins within ten bit times of the receiver's being enabled is not taken. Ten recessive
bit times after the receiver is enabled, or after a frame's end, the line is idle, a dominant one beginning the wait afresh; a frame
that has broken off with a stuff error ends after seven recessive bit times. -/
def Obligations.ReceiverReadsBackEveryFrame : Prop :=
  (∀ f : Frame, f.wf = true → receive f.wire = some f
    ∧ Line.idle.hear f.wire = (Line.ended, some f)
    ∧ ∀ n < 10, (Line.enabled.hear (List.replicate n true ++ f.wire)).2 = none)
  ∧ (∀ (l : Line) (n : Nat), l = Line.enabled ∨ l = Line.ended →
    ((l.hear (List.replicate n true)).1 = .idle ↔ 10 ≤ n) ∧ (l.hear (List.replicate n true)).2 = none
    ∧ (n < 10 → ((l.hear (List.replicate n true ++ [false] ++ List.replicate 9 true)).1 ≠ .idle)))
  ∧ ∀ bits : List Bool, List.replicate 5 false <:+: bits →
    (Line.frame (bits ++ [false])).hear (List.replicate 7 true) = (Line.ended, none)

/-- The stuffed region holds no run of five equal bits, removing its stuff bits gives back what was stuffed, a region with a run
of five equal bits is a stuff error, and the end field of seven recessive bits is not stuffed. -/
def Obligations.StuffingLeavesNoRunOfFive : Prop :=
  (∀ (bits : List Bool) (b : Bool), ¬List.replicate 5 b <:+: stuff bits)
    ∧ (∀ bits : List Bool, destuff (stuff bits) = some bits)
    ∧ (∀ (bits : List Bool) (b : Bool), List.replicate 5 b <:+: bits → destuff bits = none)
    ∧ ∀ f : Frame, f.wire = stuff f.body ++ List.replicate 7 true

/-- The codes of classes, severities, roles, node modes, presence states, zone states, entry states, contactor states, reply
statuses and flags, and the check values of the two CRCs. -/
def Obligations.CodesAndCheckValues : Prop :=
  [FaultClass.overcurrent, .overvoltage, .undervoltage, .overtemp, .sensor, .mechanical, .lost, .implausible, .bus, .stale].map
      FaultClass.code = [1, 2, 3, 4, 5, 6, 7, 8, 9, 10]
    ∧ [Severity.minor, .major, .critical].map Severity.code = [1, 2, 3]
    ∧ [Role.aux, .battery, .drive, .controls].map Role.code = [0, 1, 2, 3]
    ∧ [NodeMode.unconfigured, .joining, .running, .departed].map NodeMode.code = [0, 1, 2, 3]
    ∧ [Presence.absent, .joining, .present, .silent, .leaving].map Presence.code = [0, 1, 2, 3, 4]
    ∧ [ZoneState.clear, .suspect, .confirmed, .isolated, .pinned].map ZoneState.code = [0, 1, 2, 3, 4]
    ∧ [EntryState.qualifying, .active, .healing, .latched].map EntryState.code = [0, 1, 2, 3]
    ∧ [Contactor.opened, .closed, .dropping].map Contactor.code = [0, 1, 2]
    ∧ [ReplyCode.ok, .clamped, .badCrc, .unknown, .wrongMode, .range, .full, .notFound, .stamp, .accused, .pinned, .notIsolated,
        .tripActive, .stillAsserted, .busy, .blocked].map ReplyCode.code = List.range 16
    ∧ [Flag.level, .zone, .peer, .trip, .contactor, .stale, .notice, .spi].map Flag.bit = List.range 8
    ∧ crc8 [0x20] = 0x31 ∧ crc8 [0x00] = 0x42 ∧ crc8 [0x02] = 0x1C
    ∧ crc16 ([0x31, 0x32, 0x33, 0x34, 0x35, 0x36, 0x37, 0x38, 0x39].flatMap (natBits 8)) = 0x29B1

/-! ### The host port -/

/-- A request whose CRC does not match is not executed: SPI is raised, the reply is BAD-CRC, and nothing else changes. The port takes
a request outside power-on reset and while RST_N is not held low, in a transaction that has not had one; after one is taken, any other
of that transaction is ignored. While RST_N is held low after a host reset a transaction is discarded, with no reply; START
accepted at the moment of that reset is the exception, which section 8.2 makes (log entry 18). SDO is high-impedance while CS_N is high, while
the chip is held in power-on reset and from its release until CS_N falls, carries 0xFF until a request has been accepted, then the reply most significant bit first, and
0xFF after it. -/
def Obligations.BadRequestsAreNotExecuted : Prop :=
  (∀ (c : Instr) (bytes : List Byte) (tail : Tail) (s : State), requestOf c = some (bytes, tail) →
    (s.takes tail.select = true ↔ s.ctl.held = false ∧ s.pins.rstLow = false ∧ (tail.select = .fresh ∨ s.port.reply = none))
    ∧ (s.takes tail.select = true → crc8 bytes ≠ tail.crc →
      exec c s = .next ({ s with port.flags := s.port.flags ||| 0x80#8 }.answering .badCrc))
    ∧ (s.takes tail.select = true → ∃ t, exec c s = .next t
      ∧ ∀ (d : Instr) (more : List Byte) (next : Tail), requestOf d = some (more, next) → next.select = .same → exec d t = .next t)
    ∧ (s.takes tail.select = false →
      ¬(c = .start tail ∧ tail.select = .atReset ∧ s.ctl.held = false ∧ s.pins.rstLow = true ∧ crc8 bytes = tail.crc) →
      exec c s = .next (if s.ctl.held = false ∧ s.pins.rstLow = true then { s with port.reply := some [] } else s)))
  ∧ ∀ s : State, s.sdo .high = none ∧ s.sdo .lowSinceRelease = none
    ∧ (s.ctl.held = true → ∀ phase, s.sdo phase = none)
    ∧ (s.ctl.held = false → s.sdo .asking = some true
      ∧ ∀ reply : List Byte, s.port.reply = some reply →
        (∀ (i : Nat) (b : Byte) (n : Fin 8), reply[i]? = some b → s.sdo (.replying (8 * i + n.val)) = some (b.getMsbD n.val))
        ∧ ∀ n : Nat, 8 * reply.length ≤ n → s.sdo (.replying n) = some true)

/-- A command byte that names no command is answered UNKNOWN with SPI raised, or BAD-CRC if its CRC byte does not match; exactly
the 27 command bytes of the manual name one. The bytes that come in a transaction are those of its bits, most significant first, with
a partial last byte dropped; they carry the request that the command byte names, with its argument bytes and the CRC byte after them, whatever
follows, and none before the CRC byte has come. When CS_N rises, a request broken off has no effect and no reply; one that was whole has
had its effect; either way no reply is shifted out any more. -/
def Obligations.UnknownAndBrokenOffRequests : Prop :=
  (∀ (byte : Byte) (tail : Tail) (s : State), argCount byte = none →
    (s.takes tail.select = true → exec (.unknownCommand byte tail) s
      = .next ({ s with port.flags := s.port.flags ||| 0x80#8 }.answering
          (if crc8 [byte] = tail.crc then .unknown else .badCrc)))
    ∧ (s.takes tail.select = false → exec (.unknownCommand byte tail) s
      = .next (if s.ctl.held = false ∧ s.pins.rstLow = true then { s with port.reply := some [] } else s)))
  ∧ (∀ byte : Byte, argCount byte = none ↔ byte ∉ ([0x01, 0x02, 0x03, 0x04, 0x05, 0x06, 0x10, 0x11, 0x12, 0x13, 0x14, 0x15, 0x16,
      0x17, 0x18, 0x19, 0x1A, 0x1B, 0x20, 0x21, 0x22, 0x23, 0x24, 0x30, 0x31, 0x32, 0x3C] : List Byte))
  ∧ (∀ (bytes : List Byte) (part : List Bool), part.length < 8 →
      bytesOf (bytes.flatMap (fun b => natBits 8 b.toNat) ++ part) = bytes)
  ∧ (∀ (c : Instr) (bytes more : List Byte) (tail : Tail), requestOf c = some (bytes, tail) →
      readRequest tail.select (bytes ++ tail.crc :: more) = some c)
  ∧ (∀ (byte crc : Byte) (more : List Byte) (select : Select), argCount byte = none →
      readRequest select (byte :: crc :: more) = some (.unknownCommand byte ⟨crc, select⟩))
  ∧ (∀ select : Select, readRequest select [] = none)
  ∧ (∀ (command : Byte) (rest : List Byte) (select : Select), rest.length < (argCount command).getD 0 + 1 →
      readRequest select (command :: rest) = none)
  ∧ ∀ (select : Select) (bits : List Bool) (s : State), match readRequest select (bytesOf bits) with
    | none => exec (.requestDiscarded ⟨select, bits⟩) s = .next { s with port.reply := none }
    | some c => ∃ t, exec c s = .next t ∧ exec (.requestDiscarded ⟨select, bits⟩) s = .next { t with port.reply := none }

/-- ACK clears every named flag that is pending and touches no other; its reply carries the pending flags after it. A cause that
comes after the ACK raises its flag again, and one that comes before it is cleared with it. -/
def Obligations.AckClearsNamedFlags : Prop :=
  ∀ (mask : Byte) (tail : Tail) (s : State), Taken s [0x30, mask] tail →
    ∃ f : Byte, exec (.ack mask tail) s = .next ({ s with port.flags := f }.answering .ok [f])
      ∧ (∀ i : Fin 8, f.getLsbD i = true ↔ (s.port.flags.getLsbD i = true ∧ mask.getLsbD i = false))
      ∧ ∀ g : Flag, mask.getLsbD g.bit = true →
        (raise g ({ s with port.flags := f }.answering .ok [f])).isPending g = true
        ∧ ∃ t, exec (.ack mask tail) (raise g s) = .next t ∧ t.isPending g = false

/-- FLAG-TEST makes every flag of the set mask pending, clears every other flag of the clear mask, and touches no flag named in
neither and nothing else; INT_N follows the flags, and the reply carries them. A cause that comes after it raises its flag again; a flag
whose cause comes before it is pending afterwards exactly if the set mask names it or the clear mask does not. -/
def Obligations.FlagTestSetsAndClearsFlags : Prop :=
  ∀ (setMask clearMask : Byte) (tail : Tail) (s : State), Taken s [0x31, setMask, clearMask] tail →
    ∃ f : Byte, exec (.flagTest setMask clearMask tail) s = .next ({ s with port.flags := f }.answering .ok [f])
      ∧ (∀ i : Fin 8, f.getLsbD i = true ↔
        (setMask.getLsbD i = true ∨ (s.port.flags.getLsbD i = true ∧ clearMask.getLsbD i = false)))
      ∧ (({ s with port.flags := f }.answering .ok [f]).intLow = true ↔
        ∃ i : Fin 8, f.getLsbD i = true ∧ s.port.enable.getLsbD i = true)
      ∧ ∀ g : Flag, (raise g ({ s with port.flags := f }.answering .ok [f])).isPending g = true
        ∧ ∃ t, exec (.flagTest setMask clearMask tail) (raise g s) = .next t
          ∧ (t.isPending g = true ↔ (setMask.getLsbD g.bit = true ∨ clearMask.getLsbD g.bit = false))

/-- ENABLE replaces the whole enable mask, leaves the pending flags, and acts on INT_N at once; its reply carries the mask and
the flags. -/
def Obligations.EnableReplacesTheMask : Prop :=
  ∀ (mask : Byte) (tail : Tail) (s : State), Taken s [0x32, mask] tail →
    exec (.enable mask tail) s = .next ({ s with port.enable := mask }.answering .ok [mask, s.port.flags])
      ∧ (({ s with port.enable := mask }.answering .ok [mask, s.port.flags]).intLow = true ↔
        ∃ i : Fin 8, s.port.flags.getLsbD i = true ∧ mask.getLsbD i = true)

/-- A pending flag stops being pending only by an ACK that names it, a FLAG-TEST whose clear mask alone names it, or a reset. A rise
of CS_N counts as the request that its bits carry, if they carry one (log entry 11). -/
def Obligations.FlagsLeaveOnlyByAckTestOrReset : Prop :=
  ∀ (c : Instr) (s t : State) (f : Flag), exec c s = .next t → s.isPending f = true → t.isPending f = false →
    (∃ mask tail, carried c = .ack mask tail ∧ mask.getLsbD f.bit = true)
      ∨ (∃ setMask clearMask tail, carried c = .flagTest setMask clearMask tail ∧ clearMask.getLsbD f.bit = true
        ∧ setMask.getLsbD f.bit = false)
      ∨ IsReset (carried c)

/-- In the node modes that lock it out, a request with a good CRC is refused WRONG-MODE and changes nothing. -/
def Obligations.LockedOutRequestsAreRefused : Prop :=
  ∀ (c : Instr) (bytes : List Byte) (tail : Tail) (s : State), requestOf c = some (bytes, tail) → Taken s bytes tail →
    RefusedIn s.ctl.mode c → exec c s = .next (s.answering .wrongMode)

/-! ### The reads -/

/-- READ-SUMMARY answers with thirteen bytes that carry the state of the station at their places; fields that the layout does not
fill read 0, and nothing changes. -/
def Obligations.ReadSummaryShowsTheStation : Prop :=
  ∀ (tail : Tail) (s : State), Taken s [0x20] tail →
    ∃ d : List Byte, exec (.readSummary tail) s = .next (s.answering .ok d) ∧ d.length = 13
      ∧ fieldAt d 0 7 6 = s.ctl.mode.code ∧ fieldAt d 0 5 3 = s.ctl.station.val ∧ fieldAt d 0 2 1 = s.ctl.role.code
      ∧ (fieldAt d 0 0 0 = 1 ↔ s.lvl.regen = true)
      ∧ fieldAt d 1 7 6 = s.out.contactor.code ∧ fieldAt d 1 5 3 = s.lvl.lown.val ∧ fieldAt d 1 2 0 = s.lvl.follow.val
      ∧ (fieldAt d 2 7 7 = 1 ↔ s.out.tripLatch = true)
      ∧ (fieldAt d 2 6 6 = 1 ↔ (s.out.gen = true ∧ s.lvl.regen = true))
      ∧ (fieldAt d 2 5 5 = 1 ↔ s.out.gen = true) ∧ fieldAt d 2 4 3 = 0 ∧ fieldAt d 2 2 0 = s.lvl.lapp.val
      ∧ wordAt d 3 = s.lvl.speedCap % 65536 ∧ wordAt d 5 = s.perm.target % 65536 ∧ wordAt d 7 = s.perm.output % 65536
      ∧ wordAt d 9 = s.out.pendingDuty % 65536 ∧ d[11]? = some s.port.flags ∧ d[12]? = some s.port.enable

/-- READ-ZONE answers with eighteen bytes that carry the zone record at their places: the support with its confirming count and
condition, the own and the local accusation with the accusing slots and the derivations that stand, the dispute, the pinned
memory, the stamp, and a byte for each station. A zone of 12 or above is refused RANGE. Nothing changes. -/
def Obligations.ReadZoneShowsTheZoneRecord : Prop :=
  ∀ (zone : Byte) (tail : Tail) (s : State), Taken s [0x21, zone] tail →
    (12 ≤ zone.toNat → exec (.readZone zone tail) s = .next (s.answering .range (List.replicate 18 0)))
    ∧ ∀ z : Zone, zone.toNat = z.val → ZoneConsistent z s.ziu.zones[z] →
      ∃ d : List Byte, exec (.readZone zone tail) s = .next (s.answering .ok d) ∧ d.length = 18
        ∧ fieldAt d 0 7 4 = (confirming (s.ziu.zones[z]).accusers).length
        ∧ (fieldAt d 0 3 3 = 1 ↔ confirmationHolds s.cfg.quorum z (s.ziu.zones[z]).accusers = true)
        ∧ fieldAt d 0 2 0 = (s.ziu.zones[z]).state.code
        ∧ fieldAt d 1 7 6 = codeOf (·.severity.code) (s.ziu.zones[z]).own
        ∧ fieldAt d 1 3 0 = codeOf (·.cls.code) (s.ziu.zones[z]).own
        ∧ fieldAt d 2 7 6 = codeOf (·.severity.code) (localAccusation s.lft z)
        ∧ fieldAt d 2 3 0 = codeOf (·.cls.code) (localAccusation s.lft z)
        ∧ (∀ n : Input, (wordAt d 3).testBit n.val = true ↔ ∃ x, (s.lft.inputs[n]).entry = some x ∧ x.zone = z
          ∧ x.state ≠ .qualifying)
        ∧ (∀ e : DeclSlot, (wordAt d 3).testBit (8 + e.val) = true ↔ ∃ x, (s.lft.declared[e]).entry = some x ∧ x.zone = z
          ∧ x.state ≠ .qualifying)
        ∧ (fieldAt d 5 0 0 = 1 ↔ ∃ p : Station, stationZone p = z ∧ s.ziu.derived.lost[p] = true)
        ∧ (fieldAt d 5 1 1 = 1 ↔ (z = 11 ∧ s.ziu.derived.deaf = true))
        ∧ (fieldAt d 5 2 2 = 1 ↔ (z = 11 ∧ s.ziu.derived.mute = true))
        ∧ (fieldAt d 5 3 3 = 1 ↔ (z = 11 ∧ s.ziu.derived.bitFault = true))
        ∧ (fieldAt d 5 4 4 = 1 ↔ (z = 11 ∧ s.ziu.derived.duplicate = true))
        ∧ (fieldAt d 5 5 5 = 1 ↔ ∃ p : Station, stationZone p = z ∧ s.ziu.derived.implausible[p] = true)
        ∧ (fieldAt d 5 6 6 = 1 ↔ (z = stationZone s.ctl.station ∧ s.ziu.derived.stale = true)) ∧ fieldAt d 5 7 7 = 0
        ∧ (match (s.ziu.zones[z]).dispute with
          | .none => d[6]? = some 0
          | .pending a => fieldAt d 6 4 2 = a.val ∧ fieldAt d 6 1 0 = 1 ∧ fieldAt d 6 7 5 = 0
          | .inForce a => fieldAt d 6 4 2 = a.val ∧ fieldAt d 6 1 0 = 2 ∧ fieldAt d 6 7 5 = 0)
        ∧ (fieldAt d 7 5 5 = 1 ↔ (s.ziu.zones[z]).stamp.isSome = true)
        ∧ (fieldAt d 7 4 4 = 1 ↔ (s.ziu.zones[z]).released = true) ∧ fieldAt d 7 3 0 = (s.ziu.zones[z]).count
        ∧ fieldAt d 7 7 6 = 0 ∧ wordAt d 8 = codeOf BitVec.toNat (s.ziu.zones[z]).stamp
        ∧ ∀ p : Station, (∀ a ∈ (s.ziu.zones[z]).accusers, a.station = p →
            fieldAt d (10 + p.val) 7 7 = 1 ∧ (fieldAt d (10 + p.val) 6 6 = 1 ↔ a.discounted = true)
              ∧ fieldAt d (10 + p.val) 5 4 = a.claim.severity.code ∧ fieldAt d (10 + p.val) 3 0 = a.claim.cls.code)
          ∧ ((∀ a ∈ (s.ziu.zones[z]).accusers, a.station ≠ p) → d[10 + p.val]? = some 0)

/-- READ-PEER answers with sixteen bytes that carry the peer record at their places, absent fields and unused entries reading 0.
A station number above 7 is refused RANGE. Nothing changes. -/
def Obligations.ReadPeerShowsThePeerRecord : Prop :=
  ∀ (station : Byte) (tail : Tail) (s : State), Taken s [0x22, station] tail →
    (8 ≤ station.toNat → exec (.readPeer station tail) s = .next (s.answering .range (List.replicate 16 0)))
    ∧ ∀ p : Station, station.toNat = p.val → (s.pv.peers[p]).list.length ≤ 4 →
      ∃ d : List Byte, exec (.readPeer station tail) s = .next (s.answering .ok d) ∧ d.length = 16
        ∧ fieldAt d 0 7 6 = 0 ∧ (fieldAt d 0 5 5 = 1 ↔ s.ziu.derived.deaf = true)
        ∧ (fieldAt d 0 4 4 = 1 ↔ s.ziu.derived.lost[p] = true) ∧ (fieldAt d 0 3 3 = 1 ↔ (s.pv.peers[p]).expected = true)
        ∧ fieldAt d 0 2 0 = (s.pv.peers[p]).presence.code
        ∧ (fieldAt d 1 7 7 = 1 ↔ (s.pv.peers[p]).role.isSome = true) ∧ fieldAt d 1 6 5 = codeOf Role.code (s.pv.peers[p]).role
        ∧ (fieldAt d 1 4 4 = 1 ↔ (s.pv.peers[p]).group.isSome = true) ∧ fieldAt d 1 3 2 = codeOf Fin.val (s.pv.peers[p]).group
        ∧ (fieldAt d 1 1 1 = 1 ↔ (s.pv.peers[p]).status.isSome = true)
        ∧ (fieldAt d 1 0 0 = 1 ↔ (s.pv.peers[p]).lastHeard.isSome = true)
        ∧ fieldAt d 2 7 6 = 0 ∧ fieldAt d 2 5 3 = codeOf (·.lown.val) (s.pv.peers[p]).status
        ∧ fieldAt d 2 2 0 = codeOf (·.lapp.val) (s.pv.peers[p]).status
        ∧ fieldAt d 3 7 5 = (s.pv.peers[p]).list.length ∧ fieldAt d 3 4 3 = 0
        ∧ fieldAt d 3 2 2 = codeOf (·.more.toNat) (s.pv.peers[p]).status
        ∧ fieldAt d 3 1 1 = codeOf (·.selfIsolated.toNat) (s.pv.peers[p]).status
        ∧ fieldAt d 3 0 0 = codeOf (·.attest.toNat) (s.pv.peers[p]).status
        ∧ 65536 * wordAt d 4 + wordAt d 6 = codeOf BitVec.toNat (s.pv.peers[p]).lastHeard
        ∧ ∀ i : Fin 4, match (s.pv.peers[p]).list[i.val]? with
          | some a => d[8 + 2 * i.val]? = some (BitVec.ofNat 8 a.zone.val) ∧ fieldAt d (9 + 2 * i.val) 7 6 = 0
            ∧ fieldAt d (9 + 2 * i.val) 5 4 = a.claim.severity.code ∧ fieldAt d (9 + 2 * i.val) 3 0 = a.claim.cls.code
          | none => d[8 + 2 * i.val]? = some 0 ∧ d[9 + 2 * i.val]? = some 0

/-- READ-FAULT answers with nine bytes that carry the slot at their places: an empty slot reads 0 in the first eight, an input
slot shows its line and its enabled attribute in the ninth whether or not it is occupied, and a declared slot the pointer. A slot
number above 15 is refused RANGE. READ-TIME answers with node time in four bytes. Nothing changes. -/
def Obligations.ReadFaultAndTimeShowTheSlotAndClock : Prop :=
  (∀ (tail : Tail) (s : State), Taken s [0x24] tail →
    ∃ d : List Byte, exec (.readTime tail) s = .next (s.answering .ok d) ∧ d.length = 4
      ∧ 65536 * wordAt d 0 + wordAt d 2 = s.ctl.nodeTime.toNat)
  ∧ ∀ (slot : Byte) (tail : Tail) (s : State), Taken s [0x23, slot] tail →
    (16 ≤ slot.toNat → exec (.readFault slot tail) s = .next (s.answering .range (List.replicate 9 0)))
    ∧ ∀ (entry : Option Entry) (input : Option Input), (match input with
        | some n => slot.toNat = n.val ∧ entry = (s.lft.inputs[n]).entry
        | none => ∃ e : DeclSlot, slot.toNat = 8 + e.val ∧ entry = (s.lft.declared[e]).entry) →
      ∃ d : List Byte, exec (.readFault slot tail) s = .next (s.answering .ok d) ∧ d.length = 9
        ∧ (match entry with
          | none => d.take 8 = List.replicate 8 0
          | some x => fieldAt d 0 7 7 = 1 ∧ fieldAt d 0 6 4 = x.state.code
            ∧ (match x.source with
              | .input m => fieldAt d 0 3 3 = 0 ∧ fieldAt d 0 2 0 = m.val
              | .declared => fieldAt d 0 3 3 = 1 ∧ fieldAt d 0 2 0 = 0)
            ∧ fieldAt d 1 7 4 = x.cls.code ∧ fieldAt d 1 3 0 = x.zone.val
            ∧ fieldAt d 2 7 6 = x.configured.code ∧ fieldAt d 2 5 4 = x.current.code
            ∧ (fieldAt d 2 3 3 = 1 ↔ x.escalated = true) ∧ (fieldAt d 2 2 2 = 1 ↔ x.latching = true)
            ∧ (fieldAt d 2 1 1 = 1 ↔ x.firstActive.isSome = true) ∧ fieldAt d 2 0 0 = 0
            ∧ d[3]? = some (BitVec.ofNat 8 (x.count.getD 0))
            ∧ 65536 * wordAt d 4 + wordAt d 6 = codeOf BitVec.toNat x.firstActive)
        ∧ (match input with
          | some n => fieldAt d 8 7 2 = 0 ∧ (fieldAt d 8 1 1 = 1 ↔ s.pins.faultLines[n] ≠ (s.cfg.inputs[n]).activeLow)
            ∧ (fieldAt d 8 0 0 = 1 ↔ (s.cfg.inputs[n]).enabled = true)
          | none => fieldAt d 8 7 7 = 0 ∧ fieldAt d 8 6 4 = s.lft.pointer.val ∧ fieldAt d 8 3 0 = 0)

/-! ### Configuration and START -/

/-- SET-TIMING in UNCONFIGURED loads the named item, brought to its range; the reply is CLAMPED exactly if the value stored is not
the value sent, items 8 and 9 taking the low byte alone. That item 14 above 1 is stored as 1 and replied CLAMPED is the model's reading
(log entry 20). An item above 15 is refused RANGE. The power-on defaults are those of the table. -/
def Obligations.SetTimingLoadsTheNamedItem : Prop :=
  (∀ (item : Byte) (value : Half) (tail : Tail) (s : State), Taken s (0x01 :: item :: argBytes value) tail →
    s.ctl.mode = .unconfigured → exec (.setTiming item value tail) s = .next (
      let v := value.toNat
      let c := s.cfg
      match item.toNat with
      | 0 => s.stored { c with statusPeriod := max 20 (min 200 v) / 10 * 10 } (max 20 (min 200 v) / 10 * 10 != v)
      | 1 => s.stored { c with silenceTimeout := max 100 (min 2000 v) } (max 100 (min 2000 v) != v)
      | 2 => s.stored { c with leaveGrace := max 100 (min 2000 v) } (max 100 (min 2000 v) != v)
      | 3 => s.stored { c with joinDeadline := max 200 (min 5000 v) } (max 200 (min 5000 v) != v)
      | 4 => s.stored { c with escalation := if v = 1 then 2 else min 15 v } (v == 1 || 15 < v)
      | 5 => s.stored { c with declaredHeal := min 5000 v } (5000 < v)
      | 6 => s.stored { c with disputeWindow := max 200 (min 5000 v) } (max 200 (min 5000 v) != v)
      | 7 => s.stored { c with cleanInterval := max 5 (min 600 v) } (max 5 (min 600 v) != v)
      | 8 => s.stored { c with slo := v % 256 } false
      | 9 => s.stored { c with shi := v % 256 } false
      | 10 => s.stored { c with rampStep := max 1 (min 1000 v) } (max 1 (min 1000 v) != v)
      | 11 => s.stored { c with dwell := min 10000 v } (10000 < v)
      | 12 => s.stored { c with stressTimeout := if v = 0 then 0 else max 100 (min 5000 v) }
          (v != 0 && max 100 (min 5000 v) != v)
      | 13 => s.stored { c with rearmTime := max 20 (min 1000 v) } (max 20 (min 1000 v) != v)
      | 14 => s.stored { c with contactorFitted := v != 0 } (1 < v)
      | 15 => s.stored { c with contactorDelay := max 20 (min 500 v) } (max 20 (min 500 v) != v)
      | _ => s.answering .range))
  ∧ ∀ (station : Station) (role : Role), let c := Store.initial station role
    c.statusPeriod = 50 ∧ c.silenceTimeout = 200 ∧ c.leaveGrace = 500 ∧ c.joinDeadline = 1000 ∧ c.escalation = 3
      ∧ c.declaredHeal = 500 ∧ c.disputeWindow = 1000 ∧ c.cleanInterval = 60 ∧ c.slo = 120 ∧ c.shi = 200 ∧ c.rampStep = 25
      ∧ c.dwell = 2000 ∧ c.stressTimeout = 500 ∧ c.rearmTime = 100 ∧ (c.contactorFitted = true ↔ role = .battery)
      ∧ c.contactorDelay = 100

/-- SET-ZONE, SET-INPUT, SET-LEVELS and SET-PEERS in UNCONFIGURED replace every item of their group, with a value out of range
brought to the nearer bound and the reply CLAMPED; one whose zone, input, class or severity names nothing is refused RANGE and
stores nothing. The power-on defaults of these groups are those of the tables. -/
def Obligations.SetCommandsLoadTheirGroups : Prop :=
  (∀ (s : State) (tail : Tail), s.ctl.mode = .unconfigured →
    (∀ (zone l1 l2 l3 : Byte) (delay : Half) (attrs : Byte),
      Taken s (0x02 :: ([zone, l1, l2, l3] ++ argBytes delay ++ [attrs])) tail →
      (12 ≤ zone.toNat → exec (.setZone zone l1 l2 l3 delay attrs tail) s = .next (s.answering .range))
      ∧ ∀ z : Zone, zone.toNat = z.val → ∃ k : ZoneConfig,
        exec (.setZone zone l1 l2 l3 delay attrs tail) s = .next (s.stored { s.cfg with zones := s.cfg.zones.set z k }
          (5 < l1.toNat || 5 < l2.toNat || 5 < l3.toNat || 5000 < delay.toNat))
        ∧ k.suspectLevel.val = min 5 l1.toNat ∧ k.confirmedLevel.val = min 5 l2.toNat ∧ k.isolatedLevel.val = min 5 l3.toNat
        ∧ k.delay = min 5000 delay.toNat ∧ k.regenInhibit = attrs.getLsbD 0 ∧ k.contactorDrop = attrs.getLsbD 1)
    ∧ (∀ input flags qualify heal cls severity zone : Byte,
      Taken s [0x03, input, flags, qualify, heal, cls, severity, zone] tail →
      (8 ≤ input.toNat ∨ cls.toNat = 0 ∨ 7 ≤ cls.toNat ∨ severity.toNat = 0 ∨ 4 ≤ severity.toNat ∨ 12 ≤ zone.toNat →
        exec (.setInput input flags qualify heal cls severity zone tail) s = .next (s.answering .range))
      ∧ ∀ (n : Input) (z : Zone), input.toNat = n.val → 1 ≤ cls.toNat → cls.toNat ≤ 6 → 1 ≤ severity.toNat →
        severity.toNat ≤ 3 → zone.toNat = z.val → ∃ k : InputConfig,
          exec (.setInput input flags qualify heal cls severity zone tail) s
            = .next (s.stored { s.cfg with inputs := s.cfg.inputs.set n k } false)
          ∧ k.enabled = flags.getLsbD 0 ∧ k.activeLow = flags.getLsbD 1 ∧ k.latching = flags.getLsbD 2
          ∧ k.trip = flags.getLsbD 3 ∧ k.qualify = qualify.toNat ∧ k.heal = 10 * heal.toNat ∧ k.cls.code = cls.toNat
          ∧ k.severity.code = severity.toNat ∧ k.zone = z)
    ∧ (∀ b v : Vector Half 4,
      Taken s (0x04 :: [b[0], b[1], b[2], b[3], v[0], v[1], v[2], v[3]].flatMap argBytes) tail → ∃ B V : Vector Nat 4,
        exec (.setLevels b[0] b[1] b[2] b[3] v[0] v[1] v[2] v[3] tail) s
          = .next (s.stored { s.cfg with baseCaps := B, speedCaps := V }
              (decide ((∃ i : Fin 4, 1000 < (b[i]).toNat) ∨ ∃ i : Fin 4, 500 < (v[i]).toNat)))
        ∧ ∀ i : Fin 4, B[i] = min 1000 (b[i]).toNat ∧ V[i] = min 500 (v[i]).toNat)
    ∧ ∀ expected group quorum : Byte, Taken s [0x05, expected, group, quorum] tail → ∃ g : Group,
      exec (.setPeers expected group quorum tail) s
        = .next (s.stored { s.cfg with expected := expected, group := g, quorum := max 1 (min 3 quorum.toNat) }
            (3 < group.toNat || quorum.toNat == 0 || 3 < quorum.toNat))
      ∧ g.val = min 3 group.toNat)
  ∧ ∀ (station : Station) (role : Role), let c := Store.initial station role
    (∀ z : Zone, c.zones[z] = { suspectLevel := if z.val = 8 ∨ z.val = 11 then 2 else 1
                                confirmedLevel := if z.val < 8 ∨ z.val = 10 then 2 else 3
                                isolatedLevel := if z.val < 8 then 2 else if z.val = 8 then 5 else 3
                                delay := if z.val = 8 then 200 else 300
                                regenInhibit := z.val == 8, contactorDrop := z.val == 8 })
      ∧ (∀ n : Input, (c.inputs[n]).enabled = false ∧ (c.inputs[n]).activeLow = false ∧ (c.inputs[n]).qualify = 10
        ∧ (c.inputs[n]).heal = 500 ∧ (c.inputs[n]).cls = .sensor ∧ (c.inputs[n]).severity = .major
        ∧ (c.inputs[n]).zone.val = station.val ∧ (c.inputs[n]).latching = false ∧ (c.inputs[n]).trip = false)
      ∧ c.baseCaps = #v[1000, 750, 450, 150] ∧ c.speedCaps = #v[250, 250, 150, 60] ∧ c.expected = 0x00
      ∧ c.group.val = (if role = .drive then 1 else 0) ∧ c.quorum = 2

/-- START in UNCONFIGURED brings the store into line. Each entry of the B and V tables above the entry of the level before it, as
already lowered, is lowered to it, so that the ladder with B and V 0 at L4 and L5 is non-increasing. A zone's confirmed level below
its suspect level is raised to it, and then an isolated level below the confirmed level to that. Shi at or below Slo is raised to
Slo + 1, or, at a Slo of 255, the pair becomes 254 and 255, so that the difference is from 1 to 255. Where any of them is changed,
NOTICE is raised and the reply is CLAMPED. -/
def Obligations.StartBringsTheStoreIntoLine : Prop :=
  ∀ (tail : Tail) (s : State), Taken s [0x06] tail → s.ctl.mode = .unconfigured →
    ∃ (t : State) (code : ReplyCode), exec (.start tail) s = .next t ∧ t.port.reply = some (replyFrame code [])
      ∧ t.cfg.baseCaps[0] = s.cfg.baseCaps[0] ∧ t.cfg.speedCaps[0] = s.cfg.speedCaps[0]
      ∧ (∀ i j : Fin 4, j.val = i.val + 1 → t.cfg.baseCaps[j] = min s.cfg.baseCaps[j] t.cfg.baseCaps[i]
        ∧ t.cfg.speedCaps[j] = min s.cfg.speedCaps[j] t.cfg.speedCaps[i])
      ∧ (∀ l : Level, 4 ≤ l.val → baseCap t.cfg l = 0 ∧ speedCapOf t.cfg l = 0)
      ∧ (∀ l m : Level, l ≤ m → baseCap t.cfg m ≤ baseCap t.cfg l ∧ speedCapOf t.cfg m ≤ speedCapOf t.cfg l)
      ∧ (∀ z : Zone, (t.cfg.zones[z]).suspectLevel = (s.cfg.zones[z]).suspectLevel
        ∧ (t.cfg.zones[z]).confirmedLevel = max (s.cfg.zones[z]).confirmedLevel (s.cfg.zones[z]).suspectLevel
        ∧ (t.cfg.zones[z]).isolatedLevel = max (s.cfg.zones[z]).isolatedLevel (t.cfg.zones[z]).confirmedLevel
        ∧ (t.cfg.zones[z]).suspectLevel ≤ (t.cfg.zones[z]).confirmedLevel
        ∧ (t.cfg.zones[z]).confirmedLevel ≤ (t.cfg.zones[z]).isolatedLevel)
      ∧ (s.cfg.slo < s.cfg.shi → t.cfg.slo = s.cfg.slo ∧ t.cfg.shi = s.cfg.shi)
      ∧ (s.cfg.shi ≤ s.cfg.slo → s.cfg.slo ≤ 254 → t.cfg.slo = s.cfg.slo ∧ t.cfg.shi = s.cfg.slo + 1)
      ∧ (s.cfg.shi ≤ s.cfg.slo → s.cfg.slo = 255 → t.cfg.slo = 254 ∧ t.cfg.shi = 255)
      ∧ t.cfg.slo < t.cfg.shi ∧ (s.cfg.shi ≤ 255 → t.cfg.shi ≤ t.cfg.slo + 255)
      ∧ (t.cfg ≠ s.cfg → code = .clamped ∧ t.isPending .notice = true)

/-- START in UNCONFIGURED brings the store into line, sets the started flag and enters JOINING: HELLO is requested, the status,
join-deadline and stress timers start, receiver and transmitter are on and idle detection begins, the expected flags come from the
expected set, the trip latch is set if a trip input is asserted, TRIP being raised if it was clear, each enabled input whose line is active gets a new entry, and Lapp is
L5 with GEN low. The reply is CLAMPED and NOTICE is raised exactly if an item was corrected. A START that came together with a host
reset from RST_N, which was taken first, is taken normally; its reply is lost with its transaction (log entry 18). -/
def Obligations.StartEntersJoining : Prop :=
  ∀ (tail : Tail) (s : State), (Taken s [0x06] tail
      ∨ (tail.select = .atReset ∧ s.pins.rstLow = true ∧ s.ctl.held = false ∧ crc8 [0x06] = tail.crc)) →
    s.ctl.mode = .unconfigured → IdleUntilStart s → ConfigInRange s →
    ∃ t, exec (.start tail) s = .next t
      ∧ t.port.reply = some (if s.pins.rstLow then [] else replyFrame (if t.cfg = s.cfg then .ok else .clamped) [])
      ∧ (t.isPending .notice = true ↔ (s.isPending .notice = true ∨ t.cfg ≠ s.cfg))
      ∧ t.cfg.silenceTimeout = max s.cfg.silenceTimeout (2 * s.cfg.statusPeriod)
      ∧ t.cfg.inputs = s.cfg.inputs ∧ t.cfg.statusPeriod = s.cfg.statusPeriod ∧ t.cfg.joinDeadline = s.cfg.joinDeadline
      ∧ t.ctl = { s.ctl with mode := .joining, started := true } ∧ t.pins = s.pins
      ∧ t.sbc.requests.hello = true ∧ t.sbc.requests.leave = false ∧ t.sbc.statusTimer = some s.cfg.statusPeriod
      ∧ t.sbc.receiverOn = true ∧ t.sbc.line = Line.enabled ∧ t.sbc.transmitterOn = true
      ∧ t.pv.joinTimer = some s.cfg.joinDeadline
      ∧ (∀ p : Station, t.pv.peers[p] = PeerRecord.absent (s.cfg.expected.getLsbD p.val && p != s.ctl.station))
      ∧ (t.out.tripLatch = true ↔ (s.out.tripLatch = true
        ∨ ∃ n : Input, (s.cfg.inputs[n]).trip = true ∧ s.lineAsserted n = true))
      ∧ (t.isPending .trip = true ↔ (s.isPending .trip = true ∨ (s.out.tripLatch = false ∧ t.out.tripLatch = true)))
      ∧ t.perm.stressTimer = (if s.cfg.stressTimeout = 0 then none else some s.cfg.stressTimeout)
      ∧ (∀ n : Input, if (s.cfg.inputs[n]).enabled = true ∧ s.lineAsserted n = true then
          ∃ x, (t.lft.inputs[n]).entry = some x ∧ x.source = .input n
            ∧ x.state = (if (s.cfg.inputs[n]).qualify = 0 then .active else .qualifying)
            ∧ (t.lft.inputs[n]).qualify
              = if (s.cfg.inputs[n]).qualify = 0 then none else some (s.cfg.inputs[n]).qualify
        else t.lft.inputs[n] = Slot.empty)
      ∧ t.lvl.lapp = 5 ∧ t.out.gen = false ∧ SupportCurrent t ∧ DriveCurrent t

/-! ### Local faults -/

/-- An assertion of FIn. Held for less than 200 ns, or of a line that is active already, it is no event. Otherwise the line is at
its active level, a trip input sets the trip latch, and an enabled input outside UNCONFIGURED acts on its slot: an empty one gets
a QUALIFYING entry with its timer (an ACTIVE one at a qualify time of 0), a HEALING or LATCHED entry returns to ACTIVE with its
count raised. The rest follows within the event. -/
def Obligations.AssertionActsOnItsSlotAndTheLatch : Prop :=
  ∀ (n : Input) (held : Nat) (s : State),
    (held < 200 ∨ s.lineAsserted n = true → exec (.assertion n held) s = .next s)
    ∧ (s.ctl.held = false → 200 ≤ held → s.lineAsserted n = false → ConfigInRange s → FaultTableConsistent s →
      ∃ (t : State) (sl : Slot), exec (.assertion n held) s = .next t ∧ t.port.reply = s.port.reply
        ∧ Follows s (let u := { s with
              pins.faultLines := s.pins.faultLines.set n (!(s.cfg.inputs[n]).activeLow)
              lft.inputs := s.lft.inputs.set n sl }
            if (s.cfg.inputs[n]).trip then u.tripped else u) t
        ∧ if s.ctl.mode ≠ .unconfigured ∧ (s.cfg.inputs[n]).enabled = true then
            match (s.lft.inputs[n]).entry with
            | none => ∃ x, sl.entry = some x ∧ sl.heal = none
              ∧ sl.qualify = (if (s.cfg.inputs[n]).qualify = 0 then none else some (s.cfg.inputs[n]).qualify)
              ∧ x = { source := .input n, cls := (s.cfg.inputs[n]).cls, zone := (s.cfg.inputs[n]).zone
                      configured := (s.cfg.inputs[n]).severity, current := (s.cfg.inputs[n]).severity
                      state := if (s.cfg.inputs[n]).qualify = 0 then .active else .qualifying
                      count := if (s.cfg.inputs[n]).qualify = 0 then some 1 else none
                      escalated := false
                      firstActive := if (s.cfg.inputs[n]).qualify = 0 then some s.ctl.nodeTime else none
                      latching := (s.cfg.inputs[n]).latching }
            | some x => if x.state = .healing ∨ x.state = .latched then
                ∃ y, Recurred s.cfg.escalation x y ∧ sl = ⟨some y, none, none⟩
              else sl = s.lft.inputs[n]
          else sl = s.lft.inputs[n])

/-- A release of FIn. Held for less than 200 ns, or of a line that is inactive already, it is no event. Otherwise the line is at
its inactive level, and an enabled input outside UNCONFIGURED acts on its entry: a QUALIFYING one is removed, an ACTIVE one becomes
LATCHED if latching, is removed at a heal time of 0, and else becomes HEALING with its timer. The rest follows within the event. -/
def Obligations.InputReleaseActsOnItsEntry : Prop :=
  ∀ (n : Input) (held : Nat) (s : State),
    (held < 200 ∨ s.lineAsserted n = false → exec (.inputRelease n held) s = .next s)
    ∧ (s.ctl.held = false → 200 ≤ held → s.lineAsserted n = true → FaultTableConsistent s →
      ∃ (t : State) (sl : Slot), exec (.inputRelease n held) s = .next t ∧ t.port.reply = s.port.reply
        ∧ Follows s { s with
              pins.faultLines := s.pins.faultLines.set n (s.cfg.inputs[n]).activeLow
              lft.inputs := s.lft.inputs.set n sl } t
        ∧ if s.ctl.mode ≠ .unconfigured ∧ (s.cfg.inputs[n]).enabled = true then
            match (s.lft.inputs[n]).entry with
            | none => sl = s.lft.inputs[n]
            | some x => match x.state with
              | .qualifying => sl = ⟨none, none, none⟩
              | .active => sl = if x.latching then ⟨some { x with state := .latched }, none, none⟩
                else if (s.cfg.inputs[n]).heal = 0 then ⟨none, none, none⟩
                else ⟨some { x with state := .healing }, none, some (s.cfg.inputs[n]).heal⟩
              | .healing | .latched => sl = s.lft.inputs[n]
          else sl = s.lft.inputs[n])

/-- At the expiry of a qualify timer the QUALIFYING entry becomes ACTIVE with count 1 and the present node time; at the expiry of
a heal timer, of an input's slot or a declared one, the HEALING entry is removed and the pointer stays. The rest follows within the
event. A timer that is not running does not expire (the model's reading, log entry 7). -/
def Obligations.FaultTimersExpire : Prop :=
  ∀ s : State, s.ctl.held = false → ConfigInRange s → FaultTableConsistent s →
    (∀ n : Input, if (s.lft.inputs[n]).qualify.isSome = true then
        ∃ (t : State) (x : Entry), (s.lft.inputs[n]).entry = some x ∧ exec (.qualifyExpiry n) s = .next t
          ∧ t.port.reply = s.port.reply
          ∧ Follows s (setInputSlot n
            ⟨some { x with state := .active, count := some 1, firstActive := some s.ctl.nodeTime }, none, none⟩ s) t
      else exec (.qualifyExpiry n) s = .next s)
    ∧ (∀ n : Input, if (s.lft.inputs[n]).heal.isSome = true then
        ∃ t, exec (.healExpiry n) s = .next t ∧ t.port.reply = s.port.reply
          ∧ Follows s (setInputSlot n ⟨none, none, none⟩ s) t
      else exec (.healExpiry n) s = .next s)
    ∧ ∀ d : DeclSlot, if (s.lft.declared[d]).heal.isSome = true then
        ∃ t, exec (.declaredHealExpiry d) s = .next t ∧ t.port.reply = s.port.reply
          ∧ Follows s (setDeclaredSlot d ⟨none, none, none⟩ s) t
      else exec (.declaredHealExpiry d) s = .next s

/-- DECLARE. Arguments that name no class, zone or severity are refused RANGE, and valid ones WRONG-MODE in UNCONFIGURED. Otherwise
an entry of the same class and zone is updated in its slot, a HEALING one returning to ACTIVE; else a new ACTIVE entry with count 1
goes into the first empty slot at or after the pointer, or failing that the first HEALING one, and the pointer moves past it; else
the declaration is refused FULL. The rest follows within the event. -/
def Obligations.DeclareUpdatesPlacesOrRefuses : Prop :=
  ∀ (cls zone severity : Byte) (tail : Tail) (s : State), Taken s [0x11, cls, zone, severity] tail →
    (cls.toNat = 0 ∨ 7 ≤ cls.toNat ∨ severity.toNat = 0 ∨ 4 ≤ severity.toNat ∨ 12 ≤ zone.toNat →
      exec (.declare cls zone severity tail) s = .next (s.answering .range))
    ∧ ∀ (c : FaultClass) (z : Zone) (v : Severity), c.code = cls.toNat → c.code ≤ 6 → z.val = zone.toNat →
      v.code = severity.toNat →
      (s.ctl.mode = .unconfigured → exec (.declare cls zone severity tail) s = .next (s.answering .wrongMode))
      ∧ (s.ctl.mode ≠ .unconfigured → ConfigInRange s → FaultTableConsistent s →
        (∀ (d : DeclSlot) (x : Entry), (s.lft.declared[d]).entry = some x → x.cls = c → x.zone = z →
          ∃ (t : State) (y : Entry), exec (.declare cls zone severity tail) s = .next t ∧ t.port.reply = some (replyFrame .ok [])
            ∧ Follows s (setDeclaredSlot d ⟨some y, none, none⟩ s) t
            ∧ if x.state = .healing then
                Recurred s.cfg.escalation { x with configured := v, current := if x.escalated then v.up else v } y
              else y = { x with configured := v, current := if x.escalated then v.up else v })
        ∧ ((∀ (d : DeclSlot) (x : Entry), (s.lft.declared[d]).entry = some x → x.cls ≠ c ∨ x.zone ≠ z) →
          (∀ d : DeclSlot, (FirstFrom s.lft.pointer d (fun e => (s.lft.declared[e]).entry = none)
              ∨ ((∀ e : DeclSlot, (s.lft.declared[e]).entry ≠ none)
                ∧ FirstFrom s.lft.pointer d fun e => ∃ x, (s.lft.declared[e]).entry = some x ∧ x.state = .healing)) →
            ∃ t, exec (.declare cls zone severity tail) s = .next t ∧ t.port.reply = some (replyFrame .ok [])
              ∧ Follows s (let x : Entry :=
                    { source := .declared, cls := c, zone := z, configured := v, current := v, state := .active
                      count := some 1, escalated := false, firstActive := some s.ctl.nodeTime, latching := false }
                  { s with lft.declared := s.lft.declared.set d ⟨some x, none, none⟩, lft.pointer := d + 1 }) t)
          ∧ ((∀ d : DeclSlot, ∃ x, (s.lft.declared[d]).entry = some x ∧ x.state ≠ .healing) →
            exec (.declare cls zone severity tail) s = .next (s.answering .full))))

/-- WITHDRAW. Arguments that name no class or zone are refused RANGE, and valid ones WRONG-MODE in UNCONFIGURED. Otherwise the
declared entry of that class and zone, if ACTIVE, becomes HEALING with the declared heal time, or is removed at a heal time of 0;
a HEALING one is left as it is; with none the request is refused NOT-FOUND. The rest follows within the event. -/
def Obligations.WithdrawHealsDeclaredEntries : Prop :=
  ∀ (cls zone : Byte) (tail : Tail) (s : State), Taken s [0x12, cls, zone] tail →
    (cls.toNat = 0 ∨ 7 ≤ cls.toNat ∨ 12 ≤ zone.toNat → exec (.withdraw cls zone tail) s = .next (s.answering .range))
    ∧ ∀ (c : FaultClass) (z : Zone), c.code = cls.toNat → c.code ≤ 6 → z.val = zone.toNat →
      (s.ctl.mode = .unconfigured → exec (.withdraw cls zone tail) s = .next (s.answering .wrongMode))
      ∧ (s.ctl.mode ≠ .unconfigured → FaultTableConsistent s →
        (∀ (d : DeclSlot) (x : Entry), (s.lft.declared[d]).entry = some x → x.cls = c → x.zone = z →
          ∃ t, exec (.withdraw cls zone tail) s = .next t ∧ t.port.reply = some (replyFrame .ok [])
            ∧ Follows s (setDeclaredSlot d
                (if x.state = .healing then s.lft.declared[d]
                else if s.cfg.declaredHeal = 0 then ⟨none, none, none⟩
                else ⟨some { x with state := .healing }, none, some s.cfg.declaredHeal⟩) s) t)
        ∧ ((∀ (d : DeclSlot) (x : Entry), (s.lft.declared[d]).entry = some x → x.cls ≠ c ∨ x.zone ≠ z) →
          exec (.withdraw cls zone tail) s = .next (s.answering .notFound)))

/-- CLEAR-FAULT on a started station. A slot number above 15 is refused RANGE and an empty slot NOT-FOUND; a QUALIFYING or ACTIVE
input entry is refused STILL-ASSERTED; every other entry is removed with its timers, and the pointer stays. The rest follows within
the event. -/
def Obligations.ClearFaultRemovesOneEntry : Prop :=
  ∀ (slot : Byte) (tail : Tail) (s : State), Taken s [0x13, slot] tail → s.ctl.mode ≠ .unconfigured →
    (16 ≤ slot.toNat → exec (.clearFault slot tail) s = .next (s.answering .range))
    ∧ (∀ n : Input, slot.toNat = n.val → match (s.lft.inputs[n]).entry with
      | none => exec (.clearFault slot tail) s = .next (s.answering .notFound)
      | some x => if x.state = .qualifying ∨ x.state = .active then
          exec (.clearFault slot tail) s = .next (s.answering .stillAsserted)
        else ∃ t, exec (.clearFault slot tail) s = .next t ∧ t.port.reply = some (replyFrame .ok [])
          ∧ Follows s (setInputSlot n ⟨none, none, none⟩ s) t)
    ∧ ∀ d : DeclSlot, slot.toNat = 8 + d.val → match (s.lft.declared[d]).entry with
      | none => exec (.clearFault slot tail) s = .next (s.answering .notFound)
      | some _ => ∃ t, exec (.clearFault slot tail) s = .next t ∧ t.port.reply = some (replyFrame .ok [])
        ∧ Follows s (setDeclaredSlot d ⟨none, none, none⟩ s) t

/-- CLEAR-ALL on a started station empties every declared slot, discards every declared heal timer, sets the pointer to 0 and leaves
the input area; the reply is OK. The accusations of all the removed entries are withdrawn in the one event: afterwards every own
accusation is the one that the remaining entries and the derivations make. -/
def Obligations.ClearAllEmptiesTheDeclaredArea : Prop :=
  ∀ (tail : Tail) (s : State), Taken s [0x14] tail → s.ctl.mode ≠ .unconfigured →
    ∃ t, exec (.clearAll tail) s = .next t ∧ t.port.reply = some (replyFrame .ok []) ∧ t.lft.inputs = s.lft.inputs
      ∧ (∀ d : DeclSlot, t.lft.declared[d] = ⟨none, none, none⟩) ∧ t.lft.pointer = 0
      ∧ (∀ z : Zone, (t.ziu.zones[z]).own = ownClaim t z)
      ∧ Follows s { s with lft := { s.lft with declared := t.lft.declared, pointer := 0 } } t

/-- The local accusation of a zone is the strongest of its ACTIVE, HEALING and LATCHED entries, each at its current severity, and
absent without one; the station attests exactly while no entry in any state accuses its own zone. -/
def Obligations.LocalAccusationAndAttest : Prop :=
  (∀ (l : Lft) (z : Zone), match localAccusation l z with
    | none => ∀ x, l.holds x → x.zone = z → x.state = .qualifying
    | some c => Strongest (fun k => ∃ x, l.holds x ∧ x.zone = z ∧ x.state ≠ .qualifying ∧ k = ⟨x.cls, x.current⟩) c)
  ∧ ∀ s : State, s.attests = true ↔ ∀ x, s.lft.holds x → x.zone ≠ stationZone s.ctl.station

/-! ### Accusations and support -/

/-- The own accusation of a zone is the strongest of its sources, and absent without one. The sources are the local accusation and
the derivations that stand against the zone: LOST and IMPLAUSIBLE against a station's zone, deaf, mute, bit-fault and duplicate-ID
against Z11, and STALE against the station's own zone, each with its class and severity. -/
def Obligations.OwnAccusationIsTheStrongestSource : Prop :=
  ∀ (s : State) (z : Zone),
    let source : Claim → Prop := fun k => localAccusation s.lft z = some k
      ∨ ((∃ p : Station, stationZone p = z ∧ s.ziu.derived.lost[p] = true) ∧ k = ⟨.lost, .major⟩)
      ∨ (z = 11 ∧ s.ziu.derived.deaf = true ∧ k = ⟨.bus, .major⟩)
      ∨ (z = 11 ∧ s.ziu.derived.mute = true ∧ k = ⟨.bus, .minor⟩)
      ∨ (z = 11 ∧ s.ziu.derived.bitFault = true ∧ k = ⟨.bus, .major⟩)
      ∨ (z = 11 ∧ s.ziu.derived.duplicate = true ∧ k = ⟨.bus, .major⟩)
      ∨ ((∃ p : Station, stationZone p = z ∧ s.ziu.derived.implausible[p] = true) ∧ k = ⟨.implausible, .minor⟩)
      ∨ (z = stationZone s.ctl.station ∧ s.ziu.derived.stale = true ∧ k = ⟨.stale, .minor⟩)
    match ownClaim s z with
    | none => ∀ k, ¬source k
    | some c => Strongest source c

/-- The all-accuser set of a zone holds this station with its own accusation, and every JOINING or PRESENT peer whose list names the
zone with the accusation listed there, in order of station number; the confirming set leaves out the class IMPLAUSIBLE and the
discounted accuser, and the suspicion set the discounted accuser alone. The confirmation condition holds exactly if the zone's owner
confirms it at MAJOR or CRITICAL, some member of the confirming set accuses at CRITICAL, or that set has Q members or more. -/
def Obligations.SupportSetsAndConfirmation : Prop :=
  (∀ (s : State) (own : Option Claim) (z : Zone), PeerTableConsistent s →
    (accusersOf s own z).Pairwise (fun a b => a.station < b.station)
    ∧ ∀ a : Accuser, a ∈ accusersOf s own z ↔ a.discounted = false ∧ if a.station = s.ctl.station then own = some a.claim
      else ((s.pv.peers[a.station]).presence = .joining ∨ (s.pv.peers[a.station]).presence = .present)
        ∧ ⟨z, a.claim⟩ ∈ (s.pv.peers[a.station]).list)
  ∧ (∀ (l : List Accuser) (a : Accuser), (a ∈ rawConfirming l ↔ a ∈ l ∧ a.claim.cls ≠ .implausible)
    ∧ (a ∈ confirming l ↔ a ∈ l ∧ a.claim.cls ≠ .implausible ∧ a.discounted = false)
    ∧ (a ∈ suspicion l ↔ a ∈ l ∧ a.discounted = false))
  ∧ ∀ (q : Nat) (z : Zone) (l : List Accuser), confirmationHolds q z l = true ↔
    (∃ a ∈ confirming l, stationZone a.station = z ∧ a.claim.severity ≠ .minor)
      ∨ (∃ a ∈ confirming l, a.claim.severity = .critical) ∨ q ≤ (confirming l).length

/-- At a support change a CLEAR or SUSPECT zone is isolated at once, confirmed with its delay timer, SUSPECT or CLEAR, as its
confirming and suspicion sets say. A CONFIRMED zone whose confirmation condition no longer holds loses its delay timer and becomes
SUSPECT or CLEAR; one that is now accused at CRITICAL is isolated at once; any other stays CONFIRMED and its timer runs on. A zone
isolated with released-since-clean set becomes PINNED. A zone that stays CLEAR keeps its clean timer, and one that becomes CLEAR
with released-since-clean set starts it. ISOLATED and PINNED zones stay as they are. -/
def Obligations.ZoneStatesFollowSupport : Prop :=
  ∀ (c : Store) (z : Zone) (r : ZoneRecord),
    let isolated := { r with
      state := if r.released then ZoneState.pinned else .isolated, count := min 15 (r.count + 1), delay := none, clean := none
      stamp := some (isolationStamp z (min 15 (r.count + 1)) r.accusers) }
    let critical := ∃ a ∈ confirming r.accusers, a.claim.severity = .critical
    let unsupported := if suspicion r.accusers ≠ [] then { r with state := .suspect, delay := none, clean := none }
      else if r.state = .clear then r
      else { r with state := .clear, delay := none, clean := if r.released then some (1000 * c.cleanInterval) else none }
    zoneNext c z r = match r.state with
      | .clear | .suspect =>
        if confirmationHolds c.quorum z r.accusers = true then
          if critical ∨ (c.zones[z]).delay = 0 then isolated
          else { r with state := .confirmed, delay := some (c.zones[z]).delay, clean := none }
        else unsupported
      | .confirmed =>
        if confirmationHolds c.quorum z r.accusers = true then if critical then isolated else r else unsupported
      | .isolated | .pinned => r

/-- The isolation stamp is zone × 4096 + (count mod 16) × 256 + accuser bitmap, the bitmap having bit s exactly for each station s
of the confirming set; the largest is 49,151. -/
def Obligations.StampIdentifiesTheIsolation : Prop :=
  ∀ (z : Zone) (count : Nat) (l : List Accuser), l.Pairwise (fun a b => a.station < b.station) →
    ∃ bitmap, bitmap < 256 ∧ (isolationStamp z count l).toNat = z.val * 4096 + count % 16 * 256 + bitmap
      ∧ (∀ p : Station, bitmap.testBit p.val = true ↔ ∃ a ∈ confirming l, a.station = p)
      ∧ (isolationStamp z count l).toNat ≤ 49151

/-! ### The Status Bus Controller -/

/-- At a bit time that finds the transmitter on, the line idle and no frame of its own on the line, the SBC starts a frame: HELLO if
one is requested, else LEAVE, else STATUS if one is requested and the spacing is over; the line is then no longer idle. Otherwise the
receiver alone hears the recessive bit times before it. Where another frame ends among these and is valid, the command does what it
would do after they have been received (ReceivedFramesUpdateTheirPeer says what that does). The frame's fields are those of its owners at that moment. A STATUS lists the
first four of the own accusations, ordered by falling severity and within one severity by rising zone, and its more flag says whether
there are others. -/
def Obligations.FrameStartServesTheRequests : Prop :=
  ∀ (idle : Nat) (s : State), s.ctl.held = false →
    let line := if s.sbc.receiverOn then (s.sbc.line.hear (List.replicate idle true)).1 else s.sbc.line
    let quiet := s.sbc.receiverOn = false ∨ (s.sbc.line.hear (List.replicate idle true)).2 = none
    let may := s.sbc.transmitterOn = true ∧ line = .idle ∧ s.sbc.inFlight = none
    exec (.frameStart idle) s = exec (.frameStart 0) (receiveSamples (List.replicate idle true) s)
    ∧ (quiet → may → s.sbc.requests.hello = true → exec (.frameStart idle) s = .next { s with
      sbc.inFlight := some (.hello s.ctl.station s.ctl.role s.cfg.group), sbc.line := .frame [false] })
    ∧ (quiet → may → s.sbc.requests.hello = false → s.sbc.requests.leave = true → exec (.frameStart idle) s = .next { s with
      sbc.inFlight := some (.leave s.ctl.station), sbc.line := .frame [false] })
    ∧ (quiet → may → s.sbc.requests.hello = false → s.sbc.requests.leave = false → s.sbc.requests.status = true →
      s.sbc.spacing = none → ∃ (all : List Accusation) (join selfIsolated : Bool),
        (∀ a : Accusation, a ∈ all ↔ (s.ziu.zones[a.zone]).own = some a.claim)
        ∧ all.Pairwise (fun a b => b.claim.severity.code < a.claim.severity.code
          ∨ (a.claim.severity = b.claim.severity ∧ a.zone < b.zone))
        ∧ (join = true ↔ s.ctl.mode = .joining) ∧ (selfIsolated = true ↔ SelfIsolated s)
        ∧ exec (.frameStart idle) s = .next { s with
            sbc.inFlight := some (.status s.ctl.station join s.attests selfIsolated (decide (4 < all.length)) s.cfg.group
              s.lvl.lown s.lvl.lapp (all.take 4))
            sbc.line := .frame [false] })
    ∧ (quiet → ¬may ∨ (s.sbc.requests.hello = false ∧ s.sbc.requests.leave = false
        ∧ (s.sbc.requests.status = false ∨ s.sbc.spacing ≠ none)) → exec (.frameStart idle) s = .next { s with sbc.line := line })

/-- Dominant read where recessive was driven in the ID field is lost contention: the frame leaves the line, its request stays, and
the renewal mark is cleared. Any other difference is a bit fault, which besides raises the consecutive count, at most to 2, and
at 2 adds the bit-fault derivation. Either way the receiver goes on with the bits read back, the last of them the one that differed. A
difference at a bit that was not driven so is no event. -/
def Obligations.LostContentionAndBitFaultsAbort : Prop :=
  ∀ (bit : Nat) (s : State), s.ctl.held = false →
    (∀ f : Frame, s.sbc.inFlight = some f → f.wire[bit]? = some true → InIdField f bit →
      exec (.lostContention bit) s = .next { s with
        sbc.inFlight := none, sbc.renewal := false, sbc.line := (Line.idle.hear (f.wire.take bit ++ [false])).1 })
    ∧ ((∀ f : Frame, s.sbc.inFlight = some f → f.wire[bit]? = some true → ¬InIdField f bit) →
      exec (.lostContention bit) s = .next s)
    ∧ (∀ (f : Frame) (driven : Bool), s.sbc.inFlight = some f → f.wire[bit]? = some driven →
      ¬(driven = true ∧ InIdField f bit) →
      ∃ t, exec (.bitFault bit) s = .next t ∧ t.port.reply = s.port.reply
        ∧ Follows s { s with
            sbc := { s.sbc with
              inFlight := none, renewal := false, bitFaults := min 2 (s.sbc.bitFaults + 1)
              line := (Line.idle.hear (f.wire.take bit ++ [!driven])).1 }
            ziu.derived.bitFault := s.ziu.derived.bitFault || decide (1 ≤ s.sbc.bitFaults) } t)
    ∧ ((∀ (f : Frame) (driven : Bool), s.sbc.inFlight = some f → f.wire[bit]? = some driven →
        driven = true ∧ InIdField f bit) → exec (.bitFault bit) s = .next s)

/-- A frame of this station that completes removes its request, sets the consecutive bit-fault count to 0 and withdraws the bit-fault
derivation. A STATUS besides restarts the status timer, starts the spacing timer, discards the mute timer, withdraws the mute
derivation, and turns a renewal mark into a new request with its mute timer; a LEAVE in DEPARTED turns the transmitter off. The frame's
end begins the wait for an idle line. The rest follows within the event. With no frame on the line nothing completes. -/
def Obligations.CompletionServesTheRequest : Prop :=
  ∀ s : State, s.ctl.held = false → match s.sbc.inFlight with
    | none => exec .completes s = .next s
    | some f => ∃ t, exec .completes s = .next t ∧ t.port.reply = s.port.reply ∧ Follows s (match f.kind with
      | .hello => { s with
          sbc := { s.sbc with inFlight := none, requests.hello := false, bitFaults := 0, line := .ended }, ziu.derived.bitFault := false }
      | .status => { s with
          sbc := { s.sbc with
            inFlight := none, requests.status := s.sbc.renewal, renewal := false, bitFaults := 0, line := .ended
            statusTimer := some s.cfg.statusPeriod, spacing := some 5
            mute := if s.sbc.renewal then some s.cfg.silenceTimeout else none }
          ziu.derived.bitFault := false, ziu.derived.mute := false }
      | .leave => { s with
          sbc := { s.sbc with
            inFlight := none, requests.leave := false, bitFaults := 0, line := .ended
            transmitterOn := if s.ctl.mode = .departed then false else s.sbc.transmitterOn }
          ziu.derived.bitFault := false }) t

/-- The status timer's expiry sets a STATUS request, with the mute timer if none was set; the spacing timer's makes a request
eligible again; the mute timer's adds the mute derivation. The expiry of a peer's silence timer makes its record SILENT with an
empty list; that of its leave timer makes the record ABSENT; that of the join deadline makes every expected ABSENT record SILENT, one that
was heard and has left among them (the model's reading of R57, log entry 24), and ends the join. The rest follows within the event. A timer that is not running does not expire, and a join deadline expires in
JOINING alone (the model's reading, log entry 7). -/
def Obligations.BusAndPeerTimersExpire : Prop :=
  ∀ s : State, s.ctl.held = false →
    (if s.sbc.statusTimer.isSome = true then exec .statusTimerExpiry s = .next { s with
        sbc := { s.sbc with
          statusTimer := none, requests.status := true
          mute := if s.sbc.requests.status then s.sbc.mute else some s.cfg.silenceTimeout } }
      else exec .statusTimerExpiry s = .next s)
    ∧ exec .spacingTimerExpiry s = .next { s with sbc.spacing := none }
    ∧ (if s.sbc.mute.isSome = true then ∃ t, exec .muteTimerExpiry s = .next t ∧ t.port.reply = s.port.reply
          ∧ Follows s { s with sbc.mute := none, ziu.derived.mute := true } t
      else exec .muteTimerExpiry s = .next s)
    ∧ (∀ p : Station, if (s.pv.peers[p]).silence.isSome = true then
        ∃ t, exec (.silenceTimerExpiry p) s = .next t ∧ t.port.reply = s.port.reply
          ∧ Follows s (setPeer p { s.pv.peers[p] with presence := .silent, list := [], silence := none } s) t
      else exec (.silenceTimerExpiry p) s = .next s)
    ∧ (∀ p : Station, if (s.pv.peers[p]).leave.isSome = true then
        ∃ t, exec (.leaveTimerExpiry p) s = .next t ∧ t.port.reply = s.port.reply
          ∧ Follows s (setPeer p { s.pv.peers[p] with presence := .absent, leave := none } s) t
      else exec (.leaveTimerExpiry p) s = .next s)
    ∧ if s.pv.joinTimer.isSome = true ∧ s.ctl.mode = .joining then
        ∃ t, exec .joinDeadlineExpiry s = .next t ∧ t.port.reply = s.port.reply
          ∧ Follows s { s with
              ctl.mode := .running, pv.joinTimer := none
              pv.peers := Vector.ofFn fun p =>
                if (s.pv.peers[p]).expected = true ∧ (s.pv.peers[p]).presence = .absent then
                  { s.pv.peers[p] with presence := .silent, list := [], silence := none }
                else s.pv.peers[p] } t
      else exec .joinDeadlineExpiry s = .next s

/-! ### Peers -/

/-- A valid frame of another station, heard by an enabled receiver, updates that station's record; the samples of a command continue
those before it, so that the frame may have begun among them, as the one that wins a contention does (the bits read back), and a whole
frame on an idle line, or after the recessive bit times that make it idle, is one that is heard: a HELLO makes it JOINING with role and group and raises NOTICE if the station is not expected; a STATUS makes it
JOINING or PRESENT with its status fields and its list; a LEAVE makes it LEAVING. The rest follows within the event, and the wait for an
idle line begins. A frame with this station's number that is not the frame it is sending (the model's reading of R39 and R40, log entries
14 and 23) sets the duplicate latch and derivation and raises NOTICE. This station's own frame, and samples in which the receiver finds no
valid frame, change nothing but what the receiver makes of the line; a receiver that is off hears nothing. The samples after a valid
frame are received as from the state that it leaves. -/
def Obligations.ReceivedFramesUpdateTheirPeer : Prop :=
  ∀ (idle : Nat) (bits : List Bool) (s : State), s.ctl.held = false →
    let command (k : Kind) : Instr := match k with
      | .hello => .hello idle bits
      | .status => .status idle bits
      | .leave => .leave idle bits
    let samples := List.replicate idle true ++ bits
    (∀ f : Frame, receive bits = some f →
      (s.sbc.line = .idle ∨ ∃ left again, s.sbc.line = .wait left again ∧ 1 ≤ left ∧ left ≤ idle) →
      s.sbc.line.hear samples = (Line.ended, some f) ∧ (s.sbc.line.hear samples.dropLast).2 = none)
    ∧ (∀ (k : Kind) (f : Frame), (∀ g : Frame, receive bits = some g → g.kind = k) → s.sbc.receiverOn = true →
      (s.sbc.line.hear samples).2 = some f →
      ∃ (before after : List Bool) (t : State), samples = before ++ after ∧ (s.sbc.line.hear before).2 = some f
        ∧ (s.sbc.line.hear before.dropLast).2 = none ∧ exec (command k) s = .next (receiveSamples after t)
        ∧ if s.sbc.inFlight = some f then t = { s with sbc.line := Line.ended } else
          t.port.reply = s.port.reply ∧ Follows s (let s := { s with sbc.line := Line.ended }
          if f.id = s.ctl.station then
            { s with
              sbc.duplicateLatch := true, ziu.derived.duplicate := true, port.flags := s.port.flags ||| 0x40#8 }
          else match f with
            | .hello p role group => setPeer p { s.pv.peers[p] with
                presence := .joining, role := some role, group := some group, status := none, list := []
                lastHeard := some s.ctl.nodeTime, silence := some s.cfg.silenceTimeout, leave := none }
              (if (s.pv.peers[p]).expected then s else { s with port.flags := s.port.flags ||| 0x40#8 })
            | .status p join attest selfIsolated more group lown lapp list => setPeer p { s.pv.peers[p] with
                presence := if join then .joining else .present, group := some group
                status := some ⟨lown, lapp, attest, selfIsolated, more⟩, list := list
                lastHeard := some s.ctl.nodeTime, silence := some s.cfg.silenceTimeout, leave := none } s
            | .leave p => setPeer p { s.pv.peers[p] with
                presence := .leaving, list := [], lastHeard := some s.ctl.nodeTime, silence := none
                leave := some s.cfg.leaveGrace } s) t)
    ∧ ∀ k : Kind, (∀ f : Frame, receive bits = some f → f.kind = k) →
      exec (command k) s = .next (receiveSamples samples s)
      ∧ (s.sbc.receiverOn = false → exec (command k) s = .next s)
      ∧ (s.sbc.receiverOn = true → (s.sbc.line.hear samples).2 = none →
        exec (command k) s = .next { s with sbc.line := (s.sbc.line.hear samples).1 })

/-! ### Zones -/

/-- At the expiry of its isolation delay timer a CONFIRMED zone becomes ISOLATED, or PINNED if released-since-clean is set, with its
count raised and its stamp computed; at the expiry of a dispute timer the pending dispute goes in force, and where the tables are
current it stays in force and its lone accuser is IMPLAUSIBLE; at the expiry of a clean timer released-since-clean clears and nothing
else changes. The rest follows within the event. A timer that is not running does not expire (the model's reading, log entry 7). -/
def Obligations.ZoneTimersExpire : Prop :=
  ∀ (z : Zone) (s : State), s.ctl.held = false → ZoneTableConsistent s →
    (if (s.ziu.zones[z]).delay.isSome = true then
      ∃ t, exec (.isolationDelayExpiry z) s = .next t ∧ t.port.reply = s.port.reply
        ∧ Follows s (setZoneRecord z { s.ziu.zones[z] with
            state := if (s.ziu.zones[z]).released then .pinned else .isolated
            count := min 15 ((s.ziu.zones[z]).count + 1), delay := none, clean := none
            stamp := some (isolationStamp z (min 15 ((s.ziu.zones[z]).count + 1)) (s.ziu.zones[z]).accusers) } s) t
      else exec (.isolationDelayExpiry z) s = .next s)
    ∧ (if (s.ziu.zones[z]).disputeTimer.isSome = true then
      ∃ (t : State) (a : Station), (s.ziu.zones[z]).dispute = .pending a ∧ exec (.disputeTimerExpiry z) s = .next t
        ∧ t.port.reply = s.port.reply
        ∧ Follows s (setZoneRecord z { s.ziu.zones[z] with dispute := .inForce a, disputeTimer := none } s) t
        ∧ (SupportCurrent s → PeerTableConsistent s → FaultTableConsistent s →
          (t.ziu.zones[z]).dispute = .inForce a ∧ t.ziu.derived.implausible[a] = true)
      else exec (.disputeTimerExpiry z) s = .next s)
    ∧ exec (.cleanTimerExpiry z) s = .next (if (s.ziu.zones[z]).clean.isSome = true then
        setZoneRecord z { s.ziu.zones[z] with released := false, clean := none } s else s)

/-- RELEASE on a started station. A zone of 12 or above is refused RANGE; then the checks are made in their order: NOT-ISOLATED for a
CLEAR, SUSPECT or CONFIRMED zone, PINNED for a PINNED one, STAMP if the quoted stamp is not the zone's, ACCUSED if its suspicion
set is not empty. A refusal changes nothing. Accepted, the zone becomes CLEAR with its stamp absent, released-since-clean set, its
clean timer started and its count kept, and the rest follows; where the tables are current it stays CLEAR and ZONE is pending. In
UNCONFIGURED the request is refused WRONG-MODE. -/
def Obligations.ReleaseChecksInOrder : Prop :=
  ∀ (zone : Byte) (stamp : Half) (tail : Tail) (s : State), Taken s (0x16 :: zone :: argBytes stamp) tail →
    (s.ctl.mode = .unconfigured → exec (.release zone stamp tail) s = .next (s.answering .wrongMode))
    ∧ (s.ctl.mode ≠ .unconfigured →
      (12 ≤ zone.toNat → exec (.release zone stamp tail) s = .next (s.answering .range))
      ∧ ∀ z : Zone, zone.toNat = z.val →
        if (s.ziu.zones[z]).state = .clear ∨ (s.ziu.zones[z]).state = .suspect ∨ (s.ziu.zones[z]).state = .confirmed then
          exec (.release zone stamp tail) s = .next (s.answering .notIsolated)
        else if (s.ziu.zones[z]).state = .pinned then exec (.release zone stamp tail) s = .next (s.answering .pinned)
        else if (s.ziu.zones[z]).stamp ≠ some stamp then exec (.release zone stamp tail) s = .next (s.answering .stamp)
        else if suspicion (s.ziu.zones[z]).accusers ≠ [] then exec (.release zone stamp tail) s = .next (s.answering .accused)
        else ∃ t, exec (.release zone stamp tail) s = .next t ∧ t.port.reply = some (replyFrame .ok [])
          ∧ Follows s (setZoneRecord z { s.ziu.zones[z] with
              state := .clear, stamp := none, released := true, clean := some (1000 * s.cfg.cleanInterval) } s) t
          ∧ (SupportCurrent s → PeerTableConsistent s → 1 ≤ s.cfg.quorum →
            (t.ziu.zones[z]).state = .clear ∧ t.isPending .zone = true))

/-! ### Levels, caps and lines -/

/-- What a zone contributes in each of its states, whom a station follows, and the foldback factor over the stress value: 1000 up to
Slo, 0 from Shi on, and between them the rounded share, from 3 to 999. What one change of the target cap does: a fall brings the output
cap down to the lesser of the two and restarts the dwell, a rise does neither, and a fall of GEN makes the output cap 0. Outside
power-on reset GEN, RGN and CTR stand as the Output Unit and the Level Resolver say, CTR being high while the contactor is CLOSED or DROPPING; CAP is
high for the first microseconds of its period, as many as the active duty says; and LAMP is off at L0, blinks at 1 Hz at L1 and L2 and at 4 Hz
at L3 and L4, each with its phases of node time, and is steady at L5. -/
def Obligations.LevelAndFoldbackTables : Prop :=
  (∀ (c : Store) (self : Station) (z : Zone) (st : ZoneState), contribution c self z st = match st with
    | .clear => 0
    | .suspect => (c.zones[z]).suspectLevel
    | .confirmed => (c.zones[z]).confirmedLevel
    | .isolated | .pinned => if z = stationZone self then 5 else (c.zones[z]).isolatedLevel)
  ∧ (∀ (s : State) (p : Station), follows s.cfg s.ctl.station (View.of s) p = true ↔
      (s.cfg.group ≠ 0 ∧ p ≠ s.ctl.station ∧ (s.pv.peers[p]).presence = .present ∧ (s.pv.peers[p]).group = some s.cfg.group
        ∧ ((s.ziu.zones[stationZone p]).state = .clear ∨ (s.ziu.zones[stationZone p]).state = .suspect)
        ∧ (s.pv.peers[p]).status.any (·.selfIsolated) = false))
  ∧ (∀ slo shi stress : Nat, slo < shi → shi ≤ 255 →
    (stress ≤ slo → foldbackOf slo shi stress = 1000)
    ∧ (shi ≤ stress → foldbackOf slo shi stress = 0)
    ∧ (slo < stress → stress < shi → foldbackOf slo shi stress = 1000 * (shi - stress) / (shi - slo)
      ∧ 3 ≤ foldbackOf slo shi stress ∧ foldbackOf slo shi stress < 1000))
  ∧ (∀ (v : View) (s : State), CapMoves s (resolve v s))
  ∧ ∀ s : State, s.ctl.held = false →
    (s.genLine = true ↔ s.out.gen = true) ∧ (s.rgnLine = true ↔ s.out.gen = true ∧ s.lvl.regen = true)
    ∧ (s.ctrLine = true ↔ s.out.contactor = .closed ∨ s.out.contactor = .dropping)
    ∧ (∀ count : Nat, s.capLine count = true ↔ count < s.out.activeDuty)
    ∧ (s.out.lamp = lampOf s.lvl.lapp →
      (s.lvl.lapp = 0 → s.lampLine = false)
      ∧ (s.lvl.lapp = 1 ∨ s.lvl.lapp = 2 → (s.lampLine = true ↔ s.ctl.nodeTime.toNat % 1000 < 500))
      ∧ (s.lvl.lapp = 3 ∨ s.lvl.lapp = 4 → (s.lampLine = true ↔ s.ctl.nodeTime.toNat % 250 < 125))
      ∧ (s.lvl.lapp = 5 → s.lampLine = true))

/-- FLOOR on a started station sets the host floor, a value above 5 being L5 with the reply CLAMPED; the present floor again, from a state
that meets the invariants, changes nothing but the reply. STRESS replaces the stress value, restarts the
stress timer unless the timeout is 0 and withdraws STALE. In UNCONFIGURED both are refused WRONG-MODE. The stress timer's expiry keeps
the value, raises the STALE flag and adds the STALE derivation. The rest follows within the event. A timer that is not running does not
expire (the model's reading, log entry 7). -/
def Obligations.FloorAndStressAreTaken : Prop :=
  (∀ (level : Byte) (tail : Tail) (s : State), Taken s [0x15, level] tail →
    (s.ctl.mode = .unconfigured → exec (.floor level tail) s = .next (s.answering .wrongMode))
    ∧ (s.ctl.mode ≠ .unconfigured → ∃ (t : State) (l : Level), l.val = min 5 level.toNat
      ∧ exec (.floor level tail) s = .next t ∧ t.port.reply = some (replyFrame (if 5 < level.toNat then .clamped else .ok) [])
      ∧ Follows s { s with lvl.floor := l } t
      ∧ (l = s.lvl.floor → SupportCurrent s → PeerTableConsistent s → DriveCurrent s → ZoneTableConsistent s → 1 ≤ s.cfg.quorum →
        t = s.answering (if 5 < level.toNat then .clamped else .ok))))
  ∧ (∀ (value : Byte) (tail : Tail) (s : State), Taken s [0x10, value] tail →
    (s.ctl.mode = .unconfigured → exec (.stress value tail) s = .next (s.answering .wrongMode))
    ∧ (s.ctl.mode ≠ .unconfigured → ∃ t, exec (.stress value tail) s = .next t ∧ t.port.reply = some (replyFrame .ok [])
      ∧ Follows s { s with
          perm.stress := value
          perm.stressTimer := if s.cfg.stressTimeout = 0 then none else some s.cfg.stressTimeout
          ziu.derived.stale := false } t))
  ∧ ∀ s : State, s.ctl.held = false → if s.perm.stressTimer.isSome = true then
      ∃ t, exec .stressTimerExpiry s = .next t ∧ t.port.reply = s.port.reply
        ∧ Follows s { s with
            perm.stressTimer := none, ziu.derived.stale := true, port.flags := s.port.flags ||| 0x20#8 } t
    else exec .stressTimerExpiry s = .next s

/-- A ramp expiry brings the output cap up by the ramp step, at most to the target cap, and hands on its duty, exactly if the target
is above it, GEN is high, the re-arm hold does not run and the dwell is over. The dwell's expiry, the re-arm timer's, and the start of
a PWM period, at which the pending duty becomes active, change nothing else. The contactor delay's expiry opens a DROPPING
contactor and raises no flag; a timer that is not running does not expire (the model's reading, log entry 7). -/
def Obligations.OutputTimersAct : Prop :=
  ∀ s : State, s.ctl.held = false →
    (s.perm.output < s.perm.target ∧ s.out.gen = true ∧ s.out.rearm = none ∧ s.perm.dwell = none → 1 ≤ s.cfg.rampStep →
      exec .rampExpiry s = .next { s with
        perm.output := min s.perm.target (s.perm.output + s.cfg.rampStep)
        out.pendingDuty := 50 + 9 * min s.perm.target (s.perm.output + s.cfg.rampStep) / 10 })
    ∧ (¬(s.perm.output < s.perm.target ∧ s.out.gen = true ∧ s.out.rearm = none ∧ s.perm.dwell = none) →
      exec .rampExpiry s = .next s)
    ∧ exec .dwellTimerExpiry s = .next { s with perm.dwell := none }
    ∧ exec .reArmTimerExpiry s = .next { s with out.rearm := none }
    ∧ exec .pwmPeriodStart s = .next { s with out.activeDuty := s.out.pendingDuty }
    ∧ exec .contactorDelayExpiry s = .next (if s.out.contactorTimer.isSome = true then
        { s with out.contactor := .opened, out.contactorTimer := none } else s)

/-- An assertion of a trip input, in every node mode and whether or not the input is enabled, leaves the trip latch set, Lapp at L5
and GEN low; if the latch was clear it also makes the output cap 0 and raises TRIP. TRIP-CLEAR, in every node mode, is refused
TRIP-ACTIVE while a trip input is asserted; otherwise it clears a set latch, from which Lapp and GEN follow, a rise of GEN starting
the re-arm hold, and leaves the TRIP flag; with the latch clear it changes nothing. -/
def Obligations.TripLatchSetsAndClears : Prop :=
  (∀ (n : Input) (held : Nat) (s : State), s.ctl.held = false → 200 ≤ held → s.lineAsserted n = false →
    (s.cfg.inputs[n]).trip = true →
    ∃ t, exec (.assertion n held) s = .next t ∧ t.out.tripLatch = true ∧ t.lvl.lapp = 5 ∧ t.out.gen = false
      ∧ (s.out.tripLatch = false → t.perm.output = 0 ∧ t.isPending .trip = true)
      ∧ (s.out.tripLatch = true → t.isPending .trip = s.isPending .trip)
      ∧ ((s.cfg.inputs[n]).enabled = false → t.lft = s.lft))
  ∧ ∀ (tail : Tail) (s : State), Taken s [0x17] tail →
    if ∃ n : Input, (s.cfg.inputs[n]).trip = true ∧ s.lineAsserted n = true then
      exec (.tripClear tail) s = .next (s.answering .tripActive)
    else if s.out.tripLatch = true then
      ∃ t, exec (.tripClear tail) s = .next t ∧ t.port.reply = some (replyFrame .ok []) ∧ t.isPending .trip = s.isPending .trip
        ∧ Follows s { s with out.tripLatch := false } t
        ∧ (s.out.gen = false → t.out.gen = true → t.out.rearm = some s.cfg.rearmTime)
    else exec (.tripClear tail) s = .next (s.answering .ok)

/-- CONTACTOR-CLOSE and CONTACTOR-OPEN on a station without the contactor are refused WRONG-MODE. With it, CLOSE closes an OPEN
contactor in RUNNING with the trip latch clear and every contactor-drop zone CLEAR, is refused BLOCKED in RUNNING otherwise and
WRONG-MODE outside it, replies OK to a CLOSED one and BUSY to a DROPPING one; OPEN begins the drop of a CLOSED one, with its timer
and the CONTACTOR flag, replies OK to an OPEN one and BUSY to a DROPPING one. -/
def Obligations.ContactorCommandsFollowTheTable : Prop :=
  ∀ (tail : Tail) (s : State),
    (Taken s [0x18] tail → exec (.contactorClose tail) s = .next (
      if s.cfg.contactorFitted = false then s.answering .wrongMode
      else match s.out.contactor with
        | .opened => if s.ctl.mode ≠ .running then s.answering .wrongMode
          else if s.out.tripLatch = true ∨ ∃ z : Zone, (s.cfg.zones[z]).contactorDrop = true
            ∧ (s.ziu.zones[z]).state ≠ .clear then s.answering .blocked
          else { s with out.contactor := .closed }.answering .ok
        | .closed => s.answering .ok
        | .dropping => s.answering .busy))
    ∧ (Taken s [0x19] tail → exec (.contactorOpen tail) s = .next (
      if s.cfg.contactorFitted = false then s.answering .wrongMode
      else match s.out.contactor with
        | .opened => s.answering .ok
        | .closed => { s with
            out.contactor := .dropping, out.contactorTimer := some s.cfg.contactorDelay
            port.flags := s.port.flags ||| 0x10#8 }.answering .ok
        | .dropping => s.answering .busy))

/-! ### Modes and resets -/

/-- DEPART in JOINING or RUNNING enters DEPARTED: HELLO and STATUS are cancelled and LEAVE is requested, a HELLO or STATUS on the
line is abandoned, the status, mute and join-deadline timers are discarded and the renewal mark is cleared; in DEPARTED it replies
OK and changes nothing. REJOIN in DEPARTED enters JOINING: LEAVE is cancelled or abandoned, the transmitter is on, HELLO is
requested, and the status and join-deadline timers start. With every expected peer PRESENT, and at least one
expected, the join ends at once: the station is RUNNING and the join-deadline timer discarded. The rest follows within the event. -/
def Obligations.DepartAndRejoinChangeTheMode : Prop :=
  ∀ (tail : Tail) (s : State),
    (Taken s [0x1A] tail → s.ctl.mode = .joining ∨ s.ctl.mode = .running →
      ∃ t, exec (.depart tail) s = .next t ∧ t.port.reply = some (replyFrame .ok [])
        ∧ Follows s { s with
            ctl.mode := .departed, pv.joinTimer := none
            sbc := { s.sbc with
              requests := ⟨false, false, true⟩, statusTimer := none, mute := none, renewal := false
              inFlight := match s.sbc.inFlight with
                | some f => if f.kind = .leave then some f else none
                | none => none } } t
        ∧ t.ctl.mode = .departed ∧ t.lvl.lapp = 5 ∧ t.out.gen = false)
    ∧ (Taken s [0x1A] tail → s.ctl.mode = .departed → exec (.depart tail) s = .next (s.answering .ok))
    ∧ (Taken s [0x1B] tail → s.ctl.mode = .departed →
      ∃ t, exec (.rejoin tail) s = .next t ∧ t.port.reply = some (replyFrame .ok [])
        ∧ Follows s { s with
            ctl.mode := .joining, pv.joinTimer := some s.cfg.joinDeadline
            sbc := { s.sbc with
              requests := { s.sbc.requests with hello := true, leave := false }, transmitterOn := true
              statusTimer := some s.cfg.statusPeriod
              inFlight := match s.sbc.inFlight with
                | some f => if f.kind = .leave then none else some f
                | none => none } } t
        ∧ (joinComplete s = true → t.ctl.mode = .running ∧ t.pv.joinTimer = none)
        ∧ (joinComplete s = false → t.ctl.mode = .joining ∧ t.pv.joinTimer = some s.cfg.joinDeadline))

/-- RST_N low for 1 µs, once until it returns high, and RESET each take a host reset. Configuration, straps, started flag, node
time, fault lines, active duty and released-since-clean stay, and every PINNED zone stays PINNED with its stamp and count. The
fault table is empty but for a new entry of each enabled input of a started station whose line is active, QUALIFYING for its full
qualify time, or at a qualify time of 0 ACTIVE with count 1 from now; every dispute, dispute timer and isolation delay timer is gone,
but for the delay of a zone that such an ACTIVE entry confirms anew, and the clean timer of every released CLEAR zone starts. Every
peer record is ABSENT, the host floor is L0, Lown what the zones contribute, Lapp L5, the stress value and the output cap 0, GEN low,
the enable mask all set, and of the flags at most TRIP is pending, exactly if a trip input is asserted (the model's reading of R177,
log entry 10). A started station is JOINING with HELLO requested, its timers started and its receiver beginning idle detection; an
unstarted one is UNCONFIGURED with its bus off. No other request is left and no mute timer, but for the STATUS that an ACTIVE entry
asks for. A reset from RST_N ends the transaction in progress and cuts its reply short, and RESET's own reply outlives it. An expiry of the
join deadline that had fallen due does not happen any more. If no enabled asserted input has a qualify time of 0, every zone
that was not PINNED is CLEAR, with its clean timer where released-since-clean is set, Lown is L0 or what a PINNED zone contributes,
and the contactor is as it was. -/
def Obligations.HostResetClearsAllButPinnedMemory : Prop :=
  ∀ (c : Instr) (s : State), (∃ tail, c = .reset tail ∧ Taken s [0x3C] tail)
      ∨ (∃ low, c = .hostReset low ∧ 1000 ≤ low ∧ s.pins.rstLow = false ∧ s.ctl.held = false) →
    ∃ t, exec c s = .next t
      ∧ t.port.reply = (match c with
        | .reset _ => some (replyFrame .ok [])
        | _ => some [])
      ∧ (t.pins.rstLow = true ↔ (s.pins.rstLow = true ∨ ∃ low, c = .hostReset low)) ∧ t.pins.faultLines = s.pins.faultLines
      ∧ t.cfg = s.cfg
      ∧ t.ctl = { s.ctl with mode := if s.ctl.started then .joining else .unconfigured }
      ∧ (∀ n : Input, let i := s.cfg.inputs[n]
        if s.ctl.started = true ∧ i.enabled = true ∧ s.lineAsserted n = true then
          ∃ x, t.lft.inputs[n] = ⟨some x, if i.qualify = 0 then none else some i.qualify, none⟩
            ∧ x.source = .input n ∧ x.cls = i.cls ∧ x.zone = i.zone ∧ x.configured = i.severity ∧ x.latching = i.latching
            ∧ x.state = (if i.qualify = 0 then .active else .qualifying)
            ∧ x.count = (if i.qualify = 0 then some 1 else none)
            ∧ x.firstActive = (if i.qualify = 0 then some s.ctl.nodeTime else none)
            ∧ (ConfigInRange s → x.escalated = false ∧ x.current = i.severity)
        else t.lft.inputs[n] = Slot.empty)
      ∧ (∀ d : DeclSlot, t.lft.declared[d] = Slot.empty) ∧ t.lft.pointer = 0
      ∧ (∀ p : Station, t.pv.peers[p] = PeerRecord.absent (s.pv.peers[p]).expected)
      ∧ t.pv.joinTimer = (if s.ctl.started then some s.cfg.joinDeadline else none)
      ∧ t.sbc.requests.hello = s.ctl.started ∧ t.sbc.requests.leave = false ∧ t.sbc.inFlight = none
      ∧ t.sbc.mute = (if t.sbc.requests.status = true then some s.cfg.silenceTimeout else none)
      ∧ (ConfigInRange s → (t.sbc.requests.status = true ↔ s.ctl.started = true
        ∧ ∃ n : Input, (s.cfg.inputs[n]).enabled = true ∧ s.lineAsserted n = true ∧ (s.cfg.inputs[n]).qualify = 0))
      ∧ t.due = s.due ∧ (ConfigInRange s → ¬FallsDue t .joinDeadlineExpiry)
      ∧ t.sbc.line = Line.enabled ∧ t.sbc.receiverOn = s.ctl.started ∧ t.sbc.transmitterOn = s.ctl.started ∧ t.sbc.renewal = false
      ∧ t.sbc.statusTimer = (if s.ctl.started then some s.cfg.statusPeriod else none) ∧ t.sbc.spacing = none
      ∧ t.sbc.bitFaults = 0 ∧ t.sbc.duplicateLatch = false ∧ t.ziu.derived = Derived.empty
      ∧ (∀ z : Zone, (t.ziu.zones[z]).released = (s.ziu.zones[z]).released
        ∧ ((s.ziu.zones[z]).state = .pinned → (t.ziu.zones[z]).state = .pinned ∧ (t.ziu.zones[z]).stamp = (s.ziu.zones[z]).stamp
          ∧ (t.ziu.zones[z]).count = (s.ziu.zones[z]).count))
      ∧ (∀ z : Zone, (t.ziu.zones[z]).dispute = .none ∧ (t.ziu.zones[z]).disputeTimer = none
        ∧ (t.ziu.zones[z]).delay = (if (t.ziu.zones[z]).state = .confirmed then some (s.cfg.zones[z]).delay else none)
        ∧ (t.ziu.zones[z]).clean = if (t.ziu.zones[z]).state = .clear ∧ (t.ziu.zones[z]).released = true then
            some (1000 * s.cfg.cleanInterval) else none)
      ∧ SupportCurrent t ∧ DriveCurrent t
      ∧ t.lvl.floor = 0 ∧ t.lvl.follow = 0 ∧ t.lvl.lapp = 5 ∧ t.lvl.speedCap = 0 ∧ t.lvl.regen = false
      ∧ t.perm = { Permission.initial with
          stressTimer := if s.ctl.started = true ∧ s.cfg.stressTimeout ≠ 0 then some s.cfg.stressTimeout else none }
      ∧ (t.out.tripLatch = true ↔ ∃ n : Input, (s.cfg.inputs[n]).trip = true ∧ s.lineAsserted n = true)
      ∧ t.out.gen = false ∧ t.out.rearm = none ∧ t.out.pendingDuty = 50 ∧ t.out.activeDuty = s.out.activeDuty
      ∧ t.out.lamp = .steady
      ∧ t.port.enable = 0xFF ∧ (∀ f : Flag, t.isPending f = true ↔ (f = .trip ∧ t.out.tripLatch = true))
      ∧ (ConfigInRange s →
        (∀ n : Input, (s.cfg.inputs[n]).enabled = true → s.lineAsserted n = true → (s.cfg.inputs[n]).qualify ≠ 0) →
        t.out.contactor = s.out.contactor ∧ t.out.contactorTimer = s.out.contactorTimer
        ∧ (t.lvl.lown = 0 ∨ ∃ z : Zone, (s.ziu.zones[z]).state = .pinned
          ∧ t.lvl.lown = if z = stationZone s.ctl.station then 5 else (s.cfg.zones[z]).isolatedLevel)
        ∧ ∀ z : Zone, (s.ziu.zones[z]).state ≠ .pinned → (t.ziu.zones[z]).state = .clear ∧ (t.ziu.zones[z]).stamp = none
          ∧ (t.ziu.zones[z]).count = (s.ziu.zones[z]).count
          ∧ (t.ziu.zones[z]).clean
            = if (s.ziu.zones[z]).released then some (1000 * s.cfg.cleanInterval) else none)

/-- Power-on reset holds the chip in reset: every output line is low and SDO high-impedance. While it is held, the movements of the fault
lines and of RST_N are all that it follows, and every other command, each request among them, leaves all as it was (what the hold keeps is
log entry 13). It is released when VDD has been good and RST_N high for 2 ms. At its release the straps give station number and role,
node time is 0, every block holds its power-on values, and in a CS_N low period already begun the port takes nothing, SDO staying
high-impedance; a chip that is not
held is not released (the model's reading, log entry 7). RST_N that returns high ends its hold of the port, but for the transaction in
progress. A low pulse shorter than 1 µs, and RST_N still low after a host reset, cause nothing. -/
def Obligations.PowerOnResetAndItsRelease : Prop :=
  ∀ s : State,
    (∃ t, exec .powerOnReset s = .next t ∧ t.ctl.held = true ∧ t.pins = s.pins
      ∧ t.genLine = false ∧ t.rgnLine = false ∧ t.ctrLine = false ∧ (∀ n, t.capLine n = false) ∧ t.lampLine = false
      ∧ t.intLow = false ∧ ∀ phase, t.sdo phase = none)
    ∧ (s.ctl.held = true → s.pins.rstLow = false → ∀ (straps : Straps) (ready : Nat), 2000 ≤ ready →
      ∃ t, exec (.releaseFromReset straps ready) s = .next t
      ∧ t.ctl.held = false ∧ t.ctl.station.val = straps.id.toNat ∧ t.ctl.role.code = straps.role.toNat ∧ t.ctl.nodeTime = 0
      ∧ t.ctl.mode = .unconfigured ∧ t.ctl.started = false
      ∧ t = State.powerOn t.ctl.station t.ctl.role s.pins.faultLines s.pending s.choices
      ∧ t.takes .fresh = true ∧ t.takes .same = false ∧ t.sdo .high = none ∧ t.sdo .lowSinceRelease = none
      ∧ t.genLine = false ∧ t.rgnLine = false ∧ t.ctrLine = false ∧ t.lampLine = true
      ∧ (∀ n, t.capLine n = true ↔ n < 50) ∧ t.intLow = false)
    ∧ (∀ (straps : Straps) (ready : Nat),
      s.ctl.held = false ∨ s.pins.rstLow = true ∨ ready < 2000 → exec (.releaseFromReset straps ready) s = .next s)
    ∧ (s.ctl.held = true → ∀ c : Instr, c.wf = true → (∀ clocked, c ≠ .requestDiscarded clocked) →
      (∀ n ns, c ≠ .assertion n ns) → (∀ n ns, c ≠ .inputRelease n ns) → (∀ low, c ≠ .hostReset low) →
      c ≠ .rstNReturnsHigh → c ≠ .powerOnReset → (∀ straps ready, c ≠ .releaseFromReset straps ready) → exec c s = .next s)
    ∧ (s.ctl.held = true → ∀ clocked : Clocked, exec (.requestDiscarded clocked) s = .next { s with port.reply := none })
    ∧ (s.ctl.held = true → ∀ low : Nat, 1000 ≤ low → exec (.hostReset low) s = .next { s with pins.rstLow := true })
    ∧ (s.ctl.held = true → ∀ (n : Input) (ns : Nat), 200 ≤ ns →
      (s.lineAsserted n = false → exec (.assertion n ns) s = .next { s with
        pins.faultLines := s.pins.faultLines.set n (!(s.cfg.inputs[n]).activeLow) })
      ∧ (s.lineAsserted n = true → exec (.inputRelease n ns) s = .next { s with
        pins.faultLines := s.pins.faultLines.set n (s.cfg.inputs[n]).activeLow }))
    ∧ (s.pins.rstLow = false → exec .rstNReturnsHigh s = .next s)
    ∧ (s.pins.rstLow = true → ∃ t, exec .rstNReturnsHigh s = .next t ∧ t = { s with pins.rstLow := false, port.reply := some [] }
      ∧ (s.ctl.held = false → t.takes .fresh = true ∧ t.takes .same = false))
    ∧ ∀ low : Nat, low < 1000 ∨ s.pins.rstLow = true → exec (.hostReset low) s = .next s
end

