-- ==== Sys2Proof/Laws/State.lean ====
section
/-! SUPPORT. What the plain updates of State leave alone: one lemma for each field an update does not write. -/

namespace Sys2Proof.Machine

/-! ### Raising a flag -/

@[simp] theorem raise_ctl (f : Flag) (s : State) : (raise f s).ctl = s.ctl := rfl
@[simp] theorem raise_pins (f : Flag) (s : State) : (raise f s).pins = s.pins := rfl
@[simp] theorem raise_cfg (f : Flag) (s : State) : (raise f s).cfg = s.cfg := rfl
@[simp] theorem raise_lft (f : Flag) (s : State) : (raise f s).lft = s.lft := rfl
@[simp] theorem raise_sbc (f : Flag) (s : State) : (raise f s).sbc = s.sbc := rfl
@[simp] theorem raise_pv (f : Flag) (s : State) : (raise f s).pv = s.pv := rfl
@[simp] theorem raise_ziu (f : Flag) (s : State) : (raise f s).ziu = s.ziu := rfl
@[simp] theorem raise_lvl (f : Flag) (s : State) : (raise f s).lvl = s.lvl := rfl
@[simp] theorem raise_perm (f : Flag) (s : State) : (raise f s).perm = s.perm := rfl
@[simp] theorem raise_out (f : Flag) (s : State) : (raise f s).out = s.out := rfl
@[simp] theorem raise_enable (f : Flag) (s : State) : (raise f s).port.enable = s.port.enable := rfl
@[simp] theorem raise_reply (f : Flag) (s : State) : (raise f s).port.reply = s.port.reply := rfl
@[simp] theorem raise_flags (f : Flag) (s : State) : (raise f s).port.flags = s.port.flags ||| Flag.mask f := rfl
@[simp] theorem raise_pending (f : Flag) (s : State) : (raise f s).pending = s.pending := rfl
@[simp] theorem raise_due (f : Flag) (s : State) : (raise f s).due = s.due := rfl
@[simp] theorem raise_choices (f : Flag) (s : State) : (raise f s).choices = s.choices := rfl

@[simp] theorem raiseIf_false (f : Flag) (s : State) : raiseIf false f s = s := rfl
@[simp] theorem raiseIf_true (f : Flag) (s : State) : raiseIf true f s = raise f s := rfl

/-! ### One record of a table -/

@[simp] theorem setInputSlot_ctl (n : Input) (sl : Slot) (s : State) : (setInputSlot n sl s).ctl = s.ctl := rfl
@[simp] theorem setInputSlot_pins (n : Input) (sl : Slot) (s : State) : (setInputSlot n sl s).pins = s.pins := rfl
@[simp] theorem setInputSlot_cfg (n : Input) (sl : Slot) (s : State) : (setInputSlot n sl s).cfg = s.cfg := rfl
@[simp] theorem setInputSlot_declared (n : Input) (sl : Slot) (s : State) :
    (setInputSlot n sl s).lft.declared = s.lft.declared := rfl
@[simp] theorem setInputSlot_pointer (n : Input) (sl : Slot) (s : State) :
    (setInputSlot n sl s).lft.pointer = s.lft.pointer := rfl
@[simp] theorem setInputSlot_inputs (n : Input) (sl : Slot) (s : State) :
    (setInputSlot n sl s).lft.inputs = s.lft.inputs.set n sl := rfl
@[simp] theorem setInputSlot_sbc (n : Input) (sl : Slot) (s : State) : (setInputSlot n sl s).sbc = s.sbc := rfl
@[simp] theorem setInputSlot_pv (n : Input) (sl : Slot) (s : State) : (setInputSlot n sl s).pv = s.pv := rfl
@[simp] theorem setInputSlot_ziu (n : Input) (sl : Slot) (s : State) : (setInputSlot n sl s).ziu = s.ziu := rfl
@[simp] theorem setInputSlot_lvl (n : Input) (sl : Slot) (s : State) : (setInputSlot n sl s).lvl = s.lvl := rfl
@[simp] theorem setInputSlot_perm (n : Input) (sl : Slot) (s : State) : (setInputSlot n sl s).perm = s.perm := rfl
@[simp] theorem setInputSlot_out (n : Input) (sl : Slot) (s : State) : (setInputSlot n sl s).out = s.out := rfl
@[simp] theorem setInputSlot_port (n : Input) (sl : Slot) (s : State) : (setInputSlot n sl s).port = s.port := rfl
@[simp] theorem setInputSlot_pending (n : Input) (sl : Slot) (s : State) :
    (setInputSlot n sl s).pending = s.pending := rfl
@[simp] theorem setInputSlot_due (n : Input) (sl : Slot) (s : State) :
    (setInputSlot n sl s).due = s.due := rfl

@[simp] theorem setDeclaredSlot_ctl (d : DeclSlot) (sl : Slot) (s : State) :
    (setDeclaredSlot d sl s).ctl = s.ctl := rfl
@[simp] theorem setDeclaredSlot_pins (d : DeclSlot) (sl : Slot) (s : State) :
    (setDeclaredSlot d sl s).pins = s.pins := rfl
@[simp] theorem setDeclaredSlot_cfg (d : DeclSlot) (sl : Slot) (s : State) :
    (setDeclaredSlot d sl s).cfg = s.cfg := rfl
@[simp] theorem setDeclaredSlot_inputs (d : DeclSlot) (sl : Slot) (s : State) :
    (setDeclaredSlot d sl s).lft.inputs = s.lft.inputs := rfl
@[simp] theorem setDeclaredSlot_pointer (d : DeclSlot) (sl : Slot) (s : State) :
    (setDeclaredSlot d sl s).lft.pointer = s.lft.pointer := rfl
@[simp] theorem setDeclaredSlot_declared (d : DeclSlot) (sl : Slot) (s : State) :
    (setDeclaredSlot d sl s).lft.declared = s.lft.declared.set d sl := rfl
@[simp] theorem setDeclaredSlot_sbc (d : DeclSlot) (sl : Slot) (s : State) :
    (setDeclaredSlot d sl s).sbc = s.sbc := rfl
@[simp] theorem setDeclaredSlot_pv (d : DeclSlot) (sl : Slot) (s : State) : (setDeclaredSlot d sl s).pv = s.pv := rfl
@[simp] theorem setDeclaredSlot_ziu (d : DeclSlot) (sl : Slot) (s : State) :
    (setDeclaredSlot d sl s).ziu = s.ziu := rfl
@[simp] theorem setDeclaredSlot_lvl (d : DeclSlot) (sl : Slot) (s : State) :
    (setDeclaredSlot d sl s).lvl = s.lvl := rfl
@[simp] theorem setDeclaredSlot_perm (d : DeclSlot) (sl : Slot) (s : State) :
    (setDeclaredSlot d sl s).perm = s.perm := rfl
@[simp] theorem setDeclaredSlot_out (d : DeclSlot) (sl : Slot) (s : State) :
    (setDeclaredSlot d sl s).out = s.out := rfl
@[simp] theorem setDeclaredSlot_port (d : DeclSlot) (sl : Slot) (s : State) :
    (setDeclaredSlot d sl s).port = s.port := rfl
@[simp] theorem setDeclaredSlot_pending (d : DeclSlot) (sl : Slot) (s : State) :
    (setDeclaredSlot d sl s).pending = s.pending := rfl
@[simp] theorem setDeclaredSlot_due (d : DeclSlot) (sl : Slot) (s : State) :
    (setDeclaredSlot d sl s).due = s.due := rfl

@[simp] theorem setPeer_ctl (p : Station) (r : PeerRecord) (s : State) : (setPeer p r s).ctl = s.ctl := rfl
@[simp] theorem setPeer_pins (p : Station) (r : PeerRecord) (s : State) : (setPeer p r s).pins = s.pins := rfl
@[simp] theorem setPeer_cfg (p : Station) (r : PeerRecord) (s : State) : (setPeer p r s).cfg = s.cfg := rfl
@[simp] theorem setPeer_lft (p : Station) (r : PeerRecord) (s : State) : (setPeer p r s).lft = s.lft := rfl
@[simp] theorem setPeer_sbc (p : Station) (r : PeerRecord) (s : State) : (setPeer p r s).sbc = s.sbc := rfl
@[simp] theorem setPeer_peers (p : Station) (r : PeerRecord) (s : State) :
    (setPeer p r s).pv.peers = s.pv.peers.set p r := rfl
@[simp] theorem setPeer_joinTimer (p : Station) (r : PeerRecord) (s : State) :
    (setPeer p r s).pv.joinTimer = s.pv.joinTimer := rfl
@[simp] theorem setPeer_ziu (p : Station) (r : PeerRecord) (s : State) : (setPeer p r s).ziu = s.ziu := rfl
@[simp] theorem setPeer_lvl (p : Station) (r : PeerRecord) (s : State) : (setPeer p r s).lvl = s.lvl := rfl
@[simp] theorem setPeer_perm (p : Station) (r : PeerRecord) (s : State) : (setPeer p r s).perm = s.perm := rfl
@[simp] theorem setPeer_out (p : Station) (r : PeerRecord) (s : State) : (setPeer p r s).out = s.out := rfl
@[simp] theorem setPeer_port (p : Station) (r : PeerRecord) (s : State) : (setPeer p r s).port = s.port := rfl
@[simp] theorem setPeer_pending (p : Station) (r : PeerRecord) (s : State) : (setPeer p r s).pending = s.pending := rfl
@[simp] theorem setPeer_due (p : Station) (r : PeerRecord) (s : State) : (setPeer p r s).due = s.due := rfl

@[simp] theorem setZoneRecord_ctl (z : Zone) (r : ZoneRecord) (s : State) : (setZoneRecord z r s).ctl = s.ctl := rfl
@[simp] theorem setZoneRecord_pins (z : Zone) (r : ZoneRecord) (s : State) : (setZoneRecord z r s).pins = s.pins := rfl
@[simp] theorem setZoneRecord_cfg (z : Zone) (r : ZoneRecord) (s : State) : (setZoneRecord z r s).cfg = s.cfg := rfl
@[simp] theorem setZoneRecord_lft (z : Zone) (r : ZoneRecord) (s : State) : (setZoneRecord z r s).lft = s.lft := rfl
@[simp] theorem setZoneRecord_sbc (z : Zone) (r : ZoneRecord) (s : State) : (setZoneRecord z r s).sbc = s.sbc := rfl
@[simp] theorem setZoneRecord_pv (z : Zone) (r : ZoneRecord) (s : State) : (setZoneRecord z r s).pv = s.pv := rfl
@[simp] theorem setZoneRecord_zones (z : Zone) (r : ZoneRecord) (s : State) :
    (setZoneRecord z r s).ziu.zones = s.ziu.zones.set z r := rfl
@[simp] theorem setZoneRecord_derived (z : Zone) (r : ZoneRecord) (s : State) :
    (setZoneRecord z r s).ziu.derived = s.ziu.derived := rfl
@[simp] theorem setZoneRecord_lvl (z : Zone) (r : ZoneRecord) (s : State) : (setZoneRecord z r s).lvl = s.lvl := rfl
@[simp] theorem setZoneRecord_perm (z : Zone) (r : ZoneRecord) (s : State) : (setZoneRecord z r s).perm = s.perm := rfl
@[simp] theorem setZoneRecord_out (z : Zone) (r : ZoneRecord) (s : State) : (setZoneRecord z r s).out = s.out := rfl
@[simp] theorem setZoneRecord_port (z : Zone) (r : ZoneRecord) (s : State) : (setZoneRecord z r s).port = s.port := rfl
@[simp] theorem setZoneRecord_pending (z : Zone) (r : ZoneRecord) (s : State) :
    (setZoneRecord z r s).pending = s.pending := rfl
@[simp] theorem setZoneRecord_due (z : Zone) (r : ZoneRecord) (s : State) :
    (setZoneRecord z r s).due = s.due := rfl

/-! ### A table of records reads back what was put into it -/

/-- Reading a table after one record was replaced. -/
theorem getElem_set_fin {α : Type} {n : Nat} (v : Vector α n) (i j : Fin n) (x : α) :
    (v.set i x)[j] = if i = j then x else v[j] := by
  simp only [Fin.getElem_fin, Vector.getElem_set, Fin.ext_iff]

/-- Reading a table that is given by a function. -/
@[simp] theorem getElem_ofFn_fin {α : Type} {n : Nat} (f : Fin n → α) (i : Fin n) : (Vector.ofFn f)[i] = f i := by
  simp

end Sys2Proof.Machine
end

