-- ==== Sys2Proof/Laws/Resolve.lean ====
section
/-! SUPPORT. What the Level Resolver, the Permission Unit and the Output Unit do at a change of their inputs: what they leave
alone, and what levels, caps and lines they leave behind. -/

namespace Sys2Proof.Machine

/-- What a resolve may not touch: all but the levels, the caps, the dwell, GEN, the re-arm hold, the pending duty, LAMP, the
pending flags and the count of open choices. -/
structure LinesOnly (u t : State) : Prop where
  ctl : t.ctl = u.ctl
  pins : t.pins = u.pins
  cfg : t.cfg = u.cfg
  lft : t.lft = u.lft
  sbc : t.sbc = u.sbc
  pv : t.pv = u.pv
  ziu : t.ziu = u.ziu
  floor : t.lvl.floor = u.lvl.floor
  stress : t.perm.stress = u.perm.stress
  stressTimer : t.perm.stressTimer = u.perm.stressTimer
  tripLatch : t.out.tripLatch = u.out.tripLatch
  activeDuty : t.out.activeDuty = u.out.activeDuty
  contactor : t.out.contactor = u.out.contactor
  contactorTimer : t.out.contactorTimer = u.out.contactorTimer
  enable : t.port.enable = u.port.enable
  reply : t.port.reply = u.port.reply
  pending : t.pending = u.pending
  due : t.due = u.due

theorem LinesOnly.refl (s : State) : LinesOnly s s := by constructor <;> rfl

theorem LinesOnly.trans {a b c : State} (h : LinesOnly a b) (k : LinesOnly b c) : LinesOnly a c :=
  ⟨k.ctl.trans h.ctl, k.pins.trans h.pins, k.cfg.trans h.cfg, k.lft.trans h.lft, k.sbc.trans h.sbc, k.pv.trans h.pv,
    k.ziu.trans h.ziu, k.floor.trans h.floor, k.stress.trans h.stress, k.stressTimer.trans h.stressTimer,
    k.tripLatch.trans h.tripLatch, k.activeDuty.trans h.activeDuty, k.contactor.trans h.contactor,
    k.contactorTimer.trans h.contactorTimer, k.enable.trans h.enable, k.reply.trans h.reply, k.pending.trans h.pending,
    k.due.trans h.due⟩

/-- R60, R92: the inputs of a resolve depend on nothing that a resolve changes. -/
theorem LinesOnly.view {a b : State} (h : LinesOnly a b) : View.of b = View.of a := by
  simp [View.of, h.ctl, h.pv, h.ziu, h.floor, h.stress, h.tripLatch]

theorem setOutput_linesOnly (o : Nat) (s : State) : LinesOnly s (setOutput o s) := by
  unfold setOutput; split <;> constructor <;> rfl

theorem setTarget_linesOnly (t : Nat) (s : State) : LinesOnly s (setTarget t s) := by
  unfold setTarget
  split
  · exact LinesOnly.trans (by constructor <;> rfl) (setOutput_linesOnly _ _)
  · constructor <;> rfl

theorem setGen_linesOnly (g : Bool) (s : State) : LinesOnly s (setGen g s) := by
  unfold setGen
  split
  · exact LinesOnly.trans (by constructor <;> rfl) (setOutput_linesOnly _ _)
  · constructor <;> rfl
  · exact LinesOnly.refl s

theorem raiseIf_linesOnly (c : Bool) (f : Flag) (s : State) : LinesOnly s (raiseIf c f s) := by
  cases c <;> constructor <;> rfl

theorem setLevels_linesOnly (v : View) (s : State) : LinesOnly s (setLevels v s) := by
  unfold setLevels
  exact LinesOnly.trans (by constructor <;> rfl) (raiseIf_linesOnly _ _ _)

theorem setCaps_linesOnly (x : Byte) (s : State) : LinesOnly s (setCaps x s) := by
  unfold setCaps
  exact LinesOnly.trans (by constructor <;> rfl) (setTarget_linesOnly _ _)

theorem setLines_linesOnly (g : Bool) (s : State) : LinesOnly s (setLines g s) := by
  unfold setLines
  exact LinesOnly.trans (setGen_linesOnly _ _) (by constructor <;> rfl)

/-- A resolve changes levels, caps and lines alone. -/
theorem resolve_linesOnly (v : View) (s : State) : LinesOnly s (resolve v s) :=
  LinesOnly.trans (setLevels_linesOnly _ _) (LinesOnly.trans (setCaps_linesOnly _ _) (setLines_linesOnly _ _))

theorem takeInTurn_linesOnly (w : View) (l : List HandOn) :
    ∀ (v : View) (s : State), LinesOnly s (takeInTurn w l v s) := by
  induction l with
  | nil => intro v s; exact LinesOnly.refl s
  | cons k l ih => intro v s; exact LinesOnly.trans (resolve_linesOnly _ _) (ih _ _)

/-- However an event's inputs are ordered, the last thing done is a resolve of the inputs as they stand, of a state that
differs from the one before in levels, caps and lines alone. -/
theorem handOn_eq (v : View) (s : State) :
    ∃ u, LinesOnly s u ∧ handOn v s = resolve (View.of u) u
      ∧ (u = s ∨ ∃ l, u = { takeInTurn (View.of s) l v s with choices := s.choices + 1 }) := by
  unfold handOn
  split
  · exact ⟨s, LinesOnly.refl s, rfl, .inl rfl⟩
  · exact ⟨s, LinesOnly.refl s, rfl, .inl rfl⟩
  · have h : LinesOnly s { takeInTurn (View.of s) (freeOrder s.choices (View.changes v (View.of s))) v s with
        choices := s.choices + 1 } :=
      LinesOnly.trans (takeInTurn_linesOnly _ _ _ _) (by constructor <;> rfl)
    exact ⟨_, h, by rw [h.view], .inr ⟨_, rfl⟩⟩

theorem handOn_linesOnly (v : View) (s : State) : LinesOnly s (handOn v s) := by
  obtain ⟨u, h, e, -⟩ := handOn_eq v s
  rw [e]; exact h.trans (resolve_linesOnly _ _)

/-! ### What a resolve leaves behind -/

theorem setOutput_output (o : Nat) (s : State) : (setOutput o s).perm.output = o := by
  unfold setOutput; split <;> simp_all

theorem setOutput_target (o : Nat) (s : State) : (setOutput o s).perm.target = s.perm.target := by
  unfold setOutput; split <;> rfl

theorem setOutput_foldback (o : Nat) (s : State) : (setOutput o s).perm.foldback = s.perm.foldback := by
  unfold setOutput; split <;> rfl

theorem setOutput_lvl (o : Nat) (s : State) : (setOutput o s).lvl = s.lvl := by unfold setOutput; split <;> rfl

theorem setOutput_gen (o : Nat) (s : State) : (setOutput o s).out.gen = s.out.gen := by unfold setOutput; split <;> rfl

theorem setOutput_rearm (o : Nat) (s : State) : (setOutput o s).out.rearm = s.out.rearm := by
  unfold setOutput; split <;> rfl

theorem setTarget_lvl (t : Nat) (s : State) : (setTarget t s).lvl = s.lvl := by
  unfold setTarget; split <;> simp [setOutput_lvl]

theorem setTarget_target (t : Nat) (s : State) : (setTarget t s).perm.target = t := by
  unfold setTarget; split <;> simp [setOutput_target]

theorem setTarget_foldback (t : Nat) (s : State) : (setTarget t s).perm.foldback = s.perm.foldback := by
  unfold setTarget; split <;> simp [setOutput_foldback]

/-- R121: a fall of the target brings the output cap down with it; a rise leaves it. -/
theorem setTarget_output (t : Nat) (s : State) :
    (setTarget t s).perm.output = if t < s.perm.target then min t s.perm.output else s.perm.output := by
  unfold setTarget; split <;> simp [setOutput_output]

theorem setTarget_gen (t : Nat) (s : State) : (setTarget t s).out.gen = s.out.gen := by
  unfold setTarget; split <;> simp [setOutput_gen]

theorem setTarget_rearm (t : Nat) (s : State) : (setTarget t s).out.rearm = s.out.rearm := by
  unfold setTarget; split <;> simp [setOutput_rearm]

theorem setGen_gen (g : Bool) (s : State) : (setGen g s).out.gen = g := by
  cases g <;> cases h : s.out.gen <;> simp [setGen, h, setOutput_gen]

theorem setGen_lvl (g : Bool) (s : State) : (setGen g s).lvl = s.lvl := by
  unfold setGen; split <;> simp [setOutput_lvl]

theorem setGen_target (g : Bool) (s : State) : (setGen g s).perm.target = s.perm.target := by
  unfold setGen; split <;> simp [setOutput_target]

theorem setGen_foldback (g : Bool) (s : State) : (setGen g s).perm.foldback = s.perm.foldback := by
  unfold setGen; split <;> simp [setOutput_foldback]

/-- R124: GEN's change never raises the output cap. -/
theorem setGen_output_le (g : Bool) (s : State) : (setGen g s).perm.output ≤ s.perm.output := by
  unfold setGen; split <;> simp [setOutput_output]

/-- The levels that a view gives over a host floor. -/
def levelsFrom (c : Store) (n : Station) (v : View) (floor : Level) : Levels :=
  { floor := floor, lown := ownCauseLevel c n v, follow := followLevel c n v, lapp := appliedLevel c n v
    speedCap := speedCapOf c (appliedLevel c n v), regen := regenPermitted c v (appliedLevel c n v) }

theorem setLevels_lvl (v : View) (s : State) :
    (setLevels v s).lvl = levelsFrom s.cfg s.ctl.station v s.lvl.floor := by
  unfold setLevels raiseIf; dsimp only; split <;> rfl

theorem setLevels_perm (v : View) (s : State) : (setLevels v s).perm = s.perm := by
  unfold setLevels raiseIf; dsimp only; split <;> rfl

theorem setLevels_out (v : View) (s : State) : (setLevels v s).out = s.out := by
  unfold setLevels raiseIf; dsimp only; split <;> rfl

/-- R102, R104, R107, R109, R110: the levels after a resolve. -/
theorem resolve_lvl (v : View) (s : State) : (resolve v s).lvl = (setLevels v s).lvl := by
  simp [resolve, setLines, setGen_lvl, setCaps, setTarget_lvl]

/-- R118: the foldback factor after a resolve. -/
theorem resolve_foldback (v : View) (s : State) :
    (resolve v s).perm.foldback = foldbackOf s.cfg.slo s.cfg.shi v.stress.toNat := by
  simp [resolve, setLines, setGen_foldback, setCaps, setTarget_foldback, (setLevels_linesOnly v s).cfg]

/-- R119: the target cap after a resolve. -/
theorem resolve_target (v : View) (s : State) : (resolve v s).perm.target
    = baseCap s.cfg (appliedLevel s.cfg s.ctl.station v) * foldbackOf s.cfg.slo s.cfg.shi v.stress.toNat / 1000 := by
  simp [resolve, setLines, setGen_target, setCaps, setTarget_target, setLevels_lvl, levelsFrom, (setLevels_linesOnly v s).cfg]

/-- R130: GEN after a resolve. -/
theorem resolve_gen (v : View) (s : State) :
    (resolve v s).out.gen = (decide ((appliedLevel s.cfg s.ctl.station v).val < 5) && !v.trip) := by
  simp [resolve, setLines, setGen_gen, setCaps, setTarget_lvl, setLevels_lvl, levelsFrom]

/-- R137: LAMP after a resolve. -/
theorem resolve_lamp (v : View) (s : State) :
    (resolve v s).out.lamp = lampOf (appliedLevel s.cfg s.ctl.station v) := by
  simp [resolve, setLines, setGen_lvl, setCaps, setTarget_lvl, setLevels_lvl, levelsFrom]

/-- R121, R124: a resolve never raises the output cap. -/
theorem resolve_output_le (v : View) (s : State) : (resolve v s).perm.output ≤ s.perm.output := by
  have h : (setCaps v.stress (setLevels v s)).perm.output ≤ s.perm.output := by
    unfold setCaps
    rw [setTarget_output]
    split <;> simp [setLevels_perm]
  exact (setGen_output_le _ _).trans h

theorem takeInTurn_output_le (w : View) (l : List HandOn) :
    ∀ (v : View) (s : State), (takeInTurn w l v s).perm.output ≤ s.perm.output := by
  induction l with
  | nil => intro v s; exact le_refl _
  | cons k l ih => intro v s; exact (ih _ _).trans (resolve_output_le _ _)

/-- R120, R121, R124: however an event's inputs are ordered, the output cap does not rise. -/
theorem handOn_output_le (v : View) (s : State) : (handOn v s).perm.output ≤ s.perm.output := by
  obtain ⟨u, -, e, h⟩ := handOn_eq v s
  rw [e]
  refine (resolve_output_le _ _).trans ?_
  rcases h with rfl | ⟨l, rfl⟩
  · exact le_refl _
  · exact takeInTurn_output_le _ _ _ _

end Sys2Proof.Machine
end

