-- ==== Sys2Proof/Laws/Settle.lean ====
section
/-! SUPPORT. What follows from a change of the tables within its event: one lemma for each stage of `settle` that says what the
stage leaves alone, and one for the whole. -/

namespace Sys2Proof.Machine

/-! ### The tables -/

/-- R57, R58: the check of the join either leaves the state or ends the join. -/
theorem checkJoin_cases (s : State) :
    (checkJoin s = s ∧ ¬(s.ctl.mode = .joining ∧ joinComplete s = true))
      ∨ (checkJoin s = endJoin s ∧ s.ctl.mode = .joining ∧ joinComplete s = true) := by
  unfold checkJoin
  split
  · next h => simp at h; exact .inr ⟨rfl, h⟩
  · next h => simp at h; exact .inl ⟨rfl, fun k => by simp_all⟩

/-- What the work on the tables may not touch. The parts of `ctl`, `pv` and `ziu` it leaves are named one by one. -/
structure TableWork (u t : State) : Prop where
  ctl : t.ctl = { u.ctl with mode := t.ctl.mode }
  pins : t.pins = u.pins
  cfg : t.cfg = u.cfg
  lft : t.lft = u.lft
  sbc : t.sbc = u.sbc
  peers : t.pv.peers = u.pv.peers
  derived : t.ziu.derived = { u.ziu.derived with
    lost := t.ziu.derived.lost, deaf := t.ziu.derived.deaf, implausible := t.ziu.derived.implausible }
  lvl : t.lvl = u.lvl
  perm : t.perm = u.perm
  out : t.out = u.out
  port : t.port = u.port
  pending : t.pending = u.pending
  due : t.due = u.due
  choices : t.choices = u.choices

theorem TableWork.refl (s : State) : TableWork s s := by constructor <;> rfl

theorem TableWork.trans {a b c : State} (h : TableWork a b) (k : TableWork b c) : TableWork a c := by
  refine ⟨?_, k.pins.trans h.pins, k.cfg.trans h.cfg, k.lft.trans h.lft, k.sbc.trans h.sbc, k.peers.trans h.peers,
    ?_, k.lvl.trans h.lvl, k.perm.trans h.perm, k.out.trans h.out, k.port.trans h.port, k.pending.trans h.pending,
    k.due.trans h.due, k.choices.trans h.choices⟩
  · have e := k.ctl; rw [h.ctl] at e; exact e
  · have e := k.derived; rw [h.derived] at e; exact e

theorem checkJoin_work (s : State) : TableWork s (checkJoin s) := by
  rcases checkJoin_cases s with ⟨e, -⟩ | ⟨e, -⟩ <;> rw [e] <;> constructor <;> rfl

theorem peerDerivations_work (s : State) : TableWork s (peerDerivations s) := by constructor <;> rfl

theorem supportPass_work (s : State) : TableWork s (supportPass s) := by constructor <;> rfl

theorem settleSupport_work (n : Nat) : ∀ s : State, TableWork s (settleSupport n s) := by
  induction n with
  | zero => intro s; exact TableWork.refl s
  | succ n ih =>
    intro s
    unfold settleSupport
    dsimp only
    split
    · exact supportPass_work s
    · exact TableWork.trans (supportPass_work s) (TableWork.trans (by constructor <;> rfl) (ih _))

theorem settleZones_work (s : State) : TableWork s (settleZones s) := by constructor <;> rfl

/-- The work on the tables: the join, the derivations, the disputes and the zone states. -/
theorem settleTables_work (s : State) : TableWork s (settleTables s) :=
  (checkJoin_work s).trans ((peerDerivations_work _).trans ((settleSupport_work _ _).trans (settleZones_work _)))

theorem settleSupport_mode (n : Nat) : ∀ s : State, (settleSupport n s).ctl = s.ctl := by
  induction n with
  | zero => intro s; rfl
  | succ n ih => intro s; unfold settleSupport; dsimp only; split <;> simp [supportPass, ih]

theorem settleSupport_pv (n : Nat) : ∀ s : State, (settleSupport n s).pv = s.pv := by
  induction n with
  | zero => intro s; rfl
  | succ n ih => intro s; unfold settleSupport; dsimp only; split <;> simp [supportPass, ih]

theorem settleSupport_lost (n : Nat) : ∀ s : State, (settleSupport n s).ziu.derived.lost = s.ziu.derived.lost := by
  induction n with
  | zero => intro s; rfl
  | succ n ih => intro s; unfold settleSupport; dsimp only; split <;> simp [supportPass, ih]

theorem settleSupport_deaf (n : Nat) : ∀ s : State, (settleSupport n s).ziu.derived.deaf = s.ziu.derived.deaf := by
  induction n with
  | zero => intro s; rfl
  | succ n ih => intro s; unfold settleSupport; dsimp only; split <;> simp [supportPass, ih]

/-- R58, R159: the node mode after the work on the tables. -/
theorem settleTables_ctl (s : State) : (settleTables s).ctl = (checkJoin s).ctl := by
  simp [settleTables, settleZones, settleSupport_mode, peerDerivations]

/-- R57, R58: the Peer View after the work on the tables. -/
theorem settleTables_pv (s : State) : (settleTables s).pv = (checkJoin s).pv := by
  simp [settleTables, settleZones, settleSupport_pv, peerDerivations]

theorem checkJoin_peers (s : State) : (checkJoin s).pv.peers = s.pv.peers := (checkJoin_work s).peers

/-- R55: the LOST derivations after the work on the tables are those that the records give. -/
theorem settleTables_lost (s : State) : (settleTables s).ziu.derived.lost = lostMarks s := by
  simp [settleTables, settleZones, settleSupport_lost, peerDerivations, lostMarks, checkJoin_peers]

/-- R56: so is the deaf derivation. -/
theorem settleTables_deaf (s : State) : (settleTables s).ziu.derived.deaf = deafCondition s := by
  have h : (checkJoin s).ctl.station = s.ctl.station := by rw [(checkJoin_work s).ctl]
  simp [settleTables, settleZones, settleSupport_deaf, peerDerivations, deafCondition, checkJoin_peers, h]

/-! ### Flags, the contactor and the requests -/

theorem startDrop_linesOnly_or (s : State) :
    startDrop s = s ∨ (s.out.contactor = .closed ∧ startDrop s
      = raise .contactor { s with out.contactor := .dropping, out.contactorTimer := some s.cfg.contactorDelay }) := by
  unfold startDrop; split
  · next h => exact .inr ⟨h, rfl⟩
  · exact .inl rfl

/-- What the flags and the contactor's drop may not touch. -/
structure NoteWork (u t : State) : Prop where
  ctl : t.ctl = u.ctl
  pins : t.pins = u.pins
  cfg : t.cfg = u.cfg
  lft : t.lft = u.lft
  sbc : t.sbc = u.sbc
  pv : t.pv = u.pv
  ziu : t.ziu = u.ziu
  lvl : t.lvl = u.lvl
  perm : t.perm = u.perm
  out : t.out = { u.out with contactor := t.out.contactor, contactorTimer := t.out.contactorTimer }
  enable : t.port.enable = u.port.enable
  reply : t.port.reply = u.port.reply
  pending : t.pending = u.pending
  due : t.due = u.due
  choices : t.choices = u.choices

theorem NoteWork.trans {a b c : State} (h : NoteWork a b) (k : NoteWork b c) : NoteWork a c := by
  refine ⟨k.ctl.trans h.ctl, k.pins.trans h.pins, k.cfg.trans h.cfg, k.lft.trans h.lft, k.sbc.trans h.sbc,
    k.pv.trans h.pv, k.ziu.trans h.ziu, k.lvl.trans h.lvl, k.perm.trans h.perm, ?_, k.enable.trans h.enable,
    k.reply.trans h.reply, k.pending.trans h.pending, k.due.trans h.due, k.choices.trans h.choices⟩
  have e := k.out; rw [h.out] at e; exact e

theorem raiseIf_note (c : Bool) (f : Flag) (s : State) : NoteWork s (raiseIf c f s) := by
  cases c <;> constructor <;> rfl

theorem startDrop_note (s : State) : NoteWork s (startDrop s) := by
  unfold startDrop; split <;> constructor <;> rfl

theorem noteChanges_note (b s : State) : NoteWork s (noteChanges b s) := by
  have h : NoteWork s (raiseIf (presenceMoved b s) .peer (raiseIf (zonesMoved b s) .zone s)) :=
    (raiseIf_note _ _ _).trans (raiseIf_note _ _ _)
  unfold noteChanges
  dsimp only
  split
  · exact h.trans (startDrop_note _)
  · exact h

/-- R143: a contactor is DROPPING exactly while its delay timer runs; the drop keeps that so. -/
theorem startDrop_contactor (s : State) (h : s.out.contactorTimer.isSome = true ↔ s.out.contactor = .dropping) :
    (startDrop s).out.contactorTimer.isSome = true ↔ (startDrop s).out.contactor = .dropping := by
  unfold startDrop; split
  · simp
  · exact h

theorem noteChanges_contactor (b s : State) (h : s.out.contactorTimer.isSome = true ↔ s.out.contactor = .dropping) :
    (noteChanges b s).out.contactorTimer.isSome = true ↔ (noteChanges b s).out.contactor = .dropping := by
  have e : ∀ (c d : Bool) (f g : Flag), (raiseIf c f (raiseIf d g s)).out = s.out := by
    intro c d f g; cases c <;> cases d <;> rfl
  unfold noteChanges
  dsimp only
  split
  · exact startDrop_contactor _ (by rw [e]; exact h)
  · rw [e]; exact h

/-- R142, R143: an OPEN contactor is left OPEN by all that follows from an event. -/
theorem noteChanges_opened (b s : State) (h : s.out.contactor = .opened) : (noteChanges b s).out.contactor = .opened := by
  have e : ∀ (c d : Bool) (f g : Flag), (raiseIf c f (raiseIf d g s)).out = s.out := by
    intro c d f g; cases c <;> cases d <;> rfl
  unfold noteChanges startDrop
  dsimp only
  split <;> simp [e, h]

/-- R143: a contactor that is not CLOSED is left as it is by all that follows from an event. -/
theorem noteChanges_not_closed (b s : State) (h : s.out.contactor ≠ .closed) : (noteChanges b s).out = s.out := by
  have e : ∀ (c d : Bool) (f g : Flag), (raiseIf c f (raiseIf d g s)).out = s.out := by
    intro c d f g; cases c <;> cases d <;> rfl
  unfold noteChanges startDrop
  dsimp only
  split <;> simp [e, h]

/-- What the urgent STATUS may not touch: all but the STATUS request, the mute timer and the renewal mark. -/
structure TriggerWork (u t : State) : Prop where
  sbc : t.sbc = { u.sbc with requests.status := t.sbc.requests.status, mute := t.sbc.mute, renewal := t.sbc.renewal }
  rest : t = { u with sbc := t.sbc }

theorem requestStatus_work (s : State) : TriggerWork s (requestStatus s) := by
  unfold requestStatus; split <;> constructor <;> rfl

theorem urgent_work (s : State) : TriggerWork s (urgent s) := by
  unfold urgent
  split
  · split
    · constructor <;> rfl
    · exact requestStatus_work s
  · constructor <;> rfl

theorem raiseTriggers_work (b s : State) : TriggerWork s (raiseTriggers b s) := by
  unfold raiseTriggers
  split
  · exact urgent_work s
  · constructor <;> rfl

theorem raiseTriggers_eq (b s : State) : raiseTriggers b s = { s with sbc := (raiseTriggers b s).sbc } :=
  (raiseTriggers_work b s).rest

/-! ### The whole of an event -/

/-- The stages of an event: `a` after the tables, `b` after the flags and the contactor, `c` after the levels and lines. -/
theorem settle_stages (before s : State) :
    ∃ a b c, a = settleTables s ∧ b = noteChanges before a ∧ c = handOn (View.of before) b
      ∧ settle before s = { c with sbc := (settle before s).sbc }
      ∧ TableWork s a ∧ NoteWork a b ∧ LinesOnly b c ∧ TriggerWork c (settle before s) :=
  ⟨_, _, _, rfl, rfl, rfl, raiseTriggers_eq _ _, settleTables_work _, noteChanges_note _ _, handOn_linesOnly _ _,
    raiseTriggers_work _ _⟩

/-- What no event touches beyond its own block, the reply in SDO included. -/
theorem settle_kept (before s : State) :
    TablesKept s (settle before s) ∧ (settle before s).port.reply = s.port.reply := by
  obtain ⟨a, b, c, -, -, -, e, h1, h2, h3, h4⟩ := settle_stages before s
  have hc : (settle before s).ctl = c.ctl := by rw [e]
  have hs := h4.sbc
  rw [h3.sbc, h2.sbc, h1.sbc] at hs
  refine ⟨⟨?_, ?_, ?_, ?_, ?_, hs, ?_, ?_, ?_, ?_, ?_, ?_, ?_, ?_⟩, ?_⟩
  · rw [hc, h3.ctl, h2.ctl]; exact h1.ctl
  · rw [e]; exact h3.pins.trans (h2.pins.trans h1.pins)
  · rw [e]; exact h3.cfg.trans (h2.cfg.trans h1.cfg)
  · rw [e]; exact h3.lft.trans (h2.lft.trans h1.lft)
  · rw [e]; exact (congrArg PeerView.peers (h3.pv.trans h2.pv)).trans h1.peers
  · rw [e]; exact h3.floor.trans (congrArg Levels.floor (h2.lvl.trans h1.lvl))
  · rw [e]; exact h3.stress.trans (congrArg Permission.stress (h2.perm.trans h1.perm))
  · rw [e]; exact h3.stressTimer.trans (congrArg Permission.stressTimer (h2.perm.trans h1.perm))
  · rw [e]; refine h3.tripLatch.trans ?_; rw [h2.out, h1.out]
  · rw [e]; refine h3.activeDuty.trans ?_; rw [h2.out, h1.out]
  · rw [e]; exact h3.enable.trans (h2.enable.trans (congrArg Port.enable h1.port))
  · rw [e]; exact h3.pending.trans (h2.pending.trans h1.pending)
  · rw [e]; exact h3.due.trans (h2.due.trans h1.due)
  · rw [e]; exact h3.reply.trans (h2.reply.trans (congrArg Port.reply h1.port))

theorem settle_ctl (b s : State) : (settle b s).ctl = (checkJoin s).ctl := by
  obtain ⟨x, y, z, rfl, -, -, e, h1, h2, h3, h4⟩ := settle_stages b s
  rw [e]; exact h3.ctl.trans (h2.ctl.trans (settleTables_ctl s))

theorem settle_pv (b s : State) : (settle b s).pv = (checkJoin s).pv := by
  obtain ⟨x, y, z, rfl, -, -, e, h1, h2, h3, h4⟩ := settle_stages b s
  rw [e]; exact h3.pv.trans (h2.pv.trans (settleTables_pv s))

theorem settle_ziu (b s : State) : (settle b s).ziu = (settleTables s).ziu := by
  obtain ⟨x, y, z, rfl, -, -, e, h1, h2, h3, h4⟩ := settle_stages b s
  rw [e]; exact h3.ziu.trans h2.ziu

@[simp] theorem settle_pins (b s : State) : (settle b s).pins = s.pins := (settle_kept b s).1.pins
@[simp] theorem settle_cfg (b s : State) : (settle b s).cfg = s.cfg := (settle_kept b s).1.cfg
@[simp] theorem settle_lft (b s : State) : (settle b s).lft = s.lft := (settle_kept b s).1.lft
@[simp] theorem settle_peers (b s : State) : (settle b s).pv.peers = s.pv.peers := (settle_kept b s).1.peers
@[simp] theorem settle_floor (b s : State) : (settle b s).lvl.floor = s.lvl.floor := (settle_kept b s).1.floor
@[simp] theorem settle_stress (b s : State) : (settle b s).perm.stress = s.perm.stress := (settle_kept b s).1.stress
@[simp] theorem settle_stressTimer (b s : State) : (settle b s).perm.stressTimer = s.perm.stressTimer :=
  (settle_kept b s).1.stressTimer
@[simp] theorem settle_tripLatch (b s : State) : (settle b s).out.tripLatch = s.out.tripLatch :=
  (settle_kept b s).1.tripLatch
@[simp] theorem settle_activeDuty (b s : State) : (settle b s).out.activeDuty = s.out.activeDuty :=
  (settle_kept b s).1.activeDuty
@[simp] theorem settle_enable (b s : State) : (settle b s).port.enable = s.port.enable := (settle_kept b s).1.enable
@[simp] theorem settle_pending (b s : State) : (settle b s).pending = s.pending := (settle_kept b s).1.pending
@[simp] theorem settle_due (b s : State) : (settle b s).due = s.due := (settle_kept b s).1.due
@[simp] theorem settle_reply (b s : State) : (settle b s).port.reply = s.port.reply := (settle_kept b s).2

theorem settle_held (b s : State) : (settle b s).ctl.held = s.ctl.held := by rw [(settle_kept b s).1.ctl]
theorem settle_started (b s : State) : (settle b s).ctl.started = s.ctl.started := by rw [(settle_kept b s).1.ctl]
theorem settle_station (b s : State) : (settle b s).ctl.station = s.ctl.station := by rw [(settle_kept b s).1.ctl]
theorem settle_role (b s : State) : (settle b s).ctl.role = s.ctl.role := by rw [(settle_kept b s).1.ctl]
theorem settle_nodeTime (b s : State) : (settle b s).ctl.nodeTime = s.ctl.nodeTime := by rw [(settle_kept b s).1.ctl]

/-- R58, R159: all that an event can do to the node mode beyond its own block is to end the join. -/
theorem settle_mode (b s : State) : (settle b s).ctl.mode = s.ctl.mode
    ∨ (s.ctl.mode = .joining ∧ (settle b s).ctl.mode = .running ∧ (settle b s).pv.joinTimer = none) := by
  rw [settle_ctl, settle_pv]
  rcases checkJoin_cases s with ⟨e, -⟩ | ⟨e, h, -⟩
  · exact .inl (by rw [e])
  · exact .inr ⟨h, by rw [e]; rfl, by rw [e]; rfl⟩

theorem settle_joinTimer (b s : State) : (settle b s).pv.joinTimer = s.pv.joinTimer
    ∨ (s.ctl.mode = .joining ∧ (settle b s).ctl.mode = .running ∧ (settle b s).pv.joinTimer = none) := by
  rw [settle_ctl, settle_pv]
  rcases checkJoin_cases s with ⟨e, -⟩ | ⟨e, h, -⟩
  · exact .inl (by rw [e])
  · exact .inr ⟨h, by rw [e]; rfl, by rw [e]; rfl⟩

/-- R120, R121, R124: nothing that follows from an event raises the output cap. -/
theorem settle_output_le (b s : State) : (settle b s).perm.output ≤ s.perm.output := by
  obtain ⟨x, y, z, -, -, hz, e, h1, h2, -, -⟩ := settle_stages b s
  have hp : y.perm.output = s.perm.output := by rw [h2.perm, h1.perm]
  have hs : (settle b s).perm = z.perm := by rw [e]
  have hh := handOn_output_le (View.of b) y
  rw [hs, ← hp]
  exact hz ▸ hh

/-- The levels, caps and lines after an event are those of one last resolve from the inputs as they stand. -/
theorem settle_resolved (b s : State) : ∃ u, LinesOnly (noteChanges b (settleTables s)) u
    ∧ (settle b s).lvl = (resolve (View.of u) u).lvl ∧ (settle b s).perm = (resolve (View.of u) u).perm
    ∧ (settle b s).out = (resolve (View.of u) u).out ∧ View.of (settle b s) = View.of u
    ∧ (settle b s).cfg = u.cfg ∧ (settle b s).ctl = u.ctl := by
  obtain ⟨x, y, z, hx, hy, hz, e, -, -, -, -⟩ := settle_stages b s
  obtain ⟨u, hu, he, -⟩ := handOn_eq (View.of b) y
  have hr := resolve_linesOnly (View.of u) u
  have hzr : z = resolve (View.of u) u := hz.trans he
  have hl : (settle b s).lvl = z.lvl := by rw [e]
  have hp : (settle b s).perm = z.perm := by rw [e]
  have ho : (settle b s).out = z.out := by rw [e]
  have hc : (settle b s).cfg = z.cfg := by rw [e]
  have ht : (settle b s).ctl = z.ctl := by rw [e]
  have hv : View.of (settle b s) = View.of z := by rw [e]; simp only [View.of]
  subst hy hx
  rw [hl, hp, ho, hv, hc, ht, hzr]
  exact ⟨u, hu, rfl, rfl, rfl, hr.view, hr.cfg, hr.ctl⟩

end Sys2Proof.Machine
end

