-- ==== Sys2Proof/Laws/Levels.lean ====
section
/-! SUPPORT. The level arithmetic, and that after any event levels, caps and lines are those that the tables give (R96 to
R137). -/

namespace Sys2Proof.Machine

theorem le_maxLevel {l : List Level} {a : Level} (h : a ∈ l) : a ≤ maxLevel l := by
  induction l with
  | nil => simp at h
  | cons b l ih =>
    simp only [maxLevel, List.foldr_cons]
    rcases List.mem_cons.mp h with rfl | h
    · exact le_max_left _ _
    · exact (ih h).trans (le_max_right _ _)

theorem maxLevel_mem (l : List Level) : maxLevel l = 0 ∨ maxLevel l ∈ l := by
  induction l with
  | nil => exact .inl rfl
  | cons b l ih =>
    simp only [maxLevel, List.foldr_cons]
    rcases le_total b (List.foldr max 0 l) with h | h
    · rw [max_eq_right h]
      rcases ih with e | m
      · exact .inl e
      · exact .inr (List.mem_cons_of_mem _ m)
    · rw [max_eq_left h]; exact .inr (by simp)

theorem appliedLevel_eq (c : Store) (n : Station) (v : View) : appliedLevel c n v
    = max (max (ownCauseLevel c n v) (followLevel c n v)) (max (modeFloor v.mode) (tripFloor v.trip)) := by
  simp only [appliedLevel, maxLevel, List.foldr_cons, List.foldr_nil]
  have h : max (tripFloor v.trip) 0 = tripFloor v.trip := max_eq_left (Fin.zero_le _)
  rw [h, max_assoc]

/-- R102: the own-cause level is the highest of the contributions and the floor. -/
theorem ownCauseLevel_spec (c : Store) (n : Station) (v : View) :
    v.floor ≤ ownCauseLevel c n v
      ∧ (∀ z : Zone, contribution c n z v.zones[z] ≤ ownCauseLevel c n v)
      ∧ (ownCauseLevel c n v = v.floor ∨ ∃ z : Zone, ownCauseLevel c n v = contribution c n z v.zones[z]) := by
  refine ⟨le_maxLevel (by simp), fun z => le_maxLevel (by simp), ?_⟩
  rcases maxLevel_mem (v.floor :: (List.finRange 12).map fun z => contribution c n z v.zones[z]) with h | h
  · left
    have hf : v.floor ≤ ownCauseLevel c n v := le_maxLevel (by simp)
    have : ownCauseLevel c n v = 0 := h
    rw [this] at hf ⊢
    exact (le_antisymm hf (Fin.zero_le _)).symm
  · rcases List.mem_cons.mp h with h | h
    · exact .inl h
    · obtain ⟨z, -, hz⟩ := List.mem_map.mp h
      exact .inr ⟨z, hz.symm⟩

/-- R104: the follow level is the highest announced Lown among the peers followed. -/
theorem followLevel_spec (c : Store) (n : Station) (v : View) :
    (∀ p : Station, follows c n v p = true → (v.peers[p]).lown ≤ followLevel c n v)
      ∧ (followLevel c n v = 0 ∨ ∃ p : Station, follows c n v p = true ∧ followLevel c n v = (v.peers[p]).lown) := by
  refine ⟨fun p hp => le_maxLevel (List.mem_map.mpr ⟨p, by simp [hp], rfl⟩), ?_⟩
  rcases maxLevel_mem (((List.finRange 8).filter (follows c n v)).map fun p => (v.peers[p]).lown) with h | h
  · exact .inl h
  · obtain ⟨p, hp, he⟩ := List.mem_map.mp h
    exact .inr ⟨p, (List.mem_filter.mp hp).2, he.symm⟩

/-- R110: what regeneration permission asks for. -/
theorem regenPermitted_iff (c : Store) (v : View) (l : Level) : regenPermitted c v l = true ↔
    (l.val ≤ 4 ∧ ∀ z : Zone, (c.zones[z]).regenInhibit = true → v.zones[z] = .clear) := by
  simp only [regenPermitted, Bool.and_eq_true, decide_eq_true_eq, List.all_eq_true, List.mem_finRange, true_implies,
    Bool.not_eq_true', Bool.and_eq_false_iff, ZoneState.suspectOrWorse]
  refine and_congr_right fun _ => forall_congr' fun z => ?_
  cases (c.zones[z]).regenInhibit <;> simp

theorem view_zones (s : State) (z : Zone) : (View.of s).zones[z] = (s.ziu.zones[z]).state := by simp [View.of]

theorem view_peers (s : State) (p : Station) : (View.of s).peers[p] = (s.pv.peers[p]).announced := by simp [View.of]

/-- Levels that are those of the view, with caps and lines to match, are those that the tables give. -/
theorem driveCurrent_of {s : State} (lvl : s.lvl = levelsFrom s.cfg s.ctl.station (View.of s) s.lvl.floor)
    (foldback : s.perm.foldback = foldbackOf s.cfg.slo s.cfg.shi s.perm.stress.toNat)
    (target : s.perm.target = baseCap s.cfg s.lvl.lapp * s.perm.foldback / 1000)
    (gen : s.out.gen = (decide (s.lvl.lapp.val < 5) && !s.out.tripLatch))
    (lamp : s.ctl.held = false → s.out.lamp = lampOf s.lvl.lapp) : DriveCurrent s := by
  have ho := ownCauseLevel_spec s.cfg s.ctl.station (View.of s)
  have hf := followLevel_spec s.cfg s.ctl.station (View.of s)
  simp only [view_zones, view_peers] at ho hf
  have e1 : s.lvl.lown = ownCauseLevel s.cfg s.ctl.station (View.of s) := by rw [lvl]; rfl
  have e2 : s.lvl.follow = followLevel s.cfg s.ctl.station (View.of s) := by rw [lvl]; rfl
  have e3 : s.lvl.lapp = appliedLevel s.cfg s.ctl.station (View.of s) := by rw [lvl]; rfl
  have e4 : s.lvl.speedCap = speedCapOf s.cfg s.lvl.lapp := by rw [e3, lvl]; rfl
  have e5 : s.lvl.regen = regenPermitted s.cfg (View.of s) s.lvl.lapp := by rw [e3, lvl]; rfl
  refine ⟨?_, ?_, ?_, e4, ?_, foldback, target, ?_, lamp⟩
  · rw [e1]; exact ho
  · rw [e2]; exact hf
  · rw [e3, appliedLevel_eq, ← e1, ← e2]; rfl
  · rw [e5, regenPermitted_iff]; simp only [view_zones]
  · rw [gen, Bool.and_eq_true, decide_eq_true_eq, Bool.not_eq_true', Nat.lt_succ_iff]

/-- R102 to R137: after any event levels, caps and lines are those that the tables give. -/
theorem settle_drive (b s : State) : DriveCurrent (settle b s) := by
  obtain ⟨u, -, hl, hp, ho, hv, hc, ht⟩ := settle_resolved b s
  have hf : (settle b s).perm.stress = (View.of u).stress := by rw [← hv]; simp only [View.of]
  have htr : (settle b s).out.tripLatch = (View.of u).trip := by rw [← hv]; simp only [View.of]
  have hfl : (View.of u).floor = (settle b s).lvl.floor := by rw [← hv]; simp only [View.of]
  have hfu : u.lvl.floor = (settle b s).lvl.floor := hfl
  have hlv : (settle b s).lvl
      = levelsFrom (settle b s).cfg (settle b s).ctl.station (View.of (settle b s)) (settle b s).lvl.floor := by
    rw [hv, hc, ht, ← hfu, hl, resolve_lvl, setLevels_lvl]
  have hla : (settle b s).lvl.lapp = appliedLevel u.cfg u.ctl.station (View.of u) := by
    rw [hl, resolve_lvl, setLevels_lvl]; rfl
  refine driveCurrent_of hlv ?_ ?_ ?_ ?_
  · rw [hf, hp, resolve_foldback, hc]
  · rw [hla, hp, resolve_target, resolve_foldback, hc]
  · rw [hla, htr, ho, resolve_gen]
  · intro _; rw [hla, ho, resolve_lamp]

end Sys2Proof.Machine
end

