-- ==== Sys2Proof/Laws/Port.lean ====
section
/-! SUPPORT. How a command reaches its block: everything that `hostRequest`, `event`, `whenStarted` and `whenUnconfigured`
can do. -/

namespace Sys2Proof.Machine

/-- R163 to R168, R170: the three ways a whole request can end. -/
theorem hostRequest_cases (command : Byte) (args : List Byte) (tail : Tail) (n : Nat) (owner : State → Answer)
    (s : State) :
    (s.takes tail.select = false ∧ hostRequest command args tail n owner s = .next (turnAway s))
      ∨ (s.takes tail.select = true ∧ crc8 (command :: args) ≠ tail.crc
          ∧ hostRequest command args tail n owner s = .next (badCrc s))
      ∨ (Taken s (command :: args) tail ∧ hostRequest command args tail n owner s
          = .next { (owner s).state with port.reply := some (replyFrame (owner s).code (replyData n (owner s))) }) := by
  unfold hostRequest Taken
  by_cases h : s.takes tail.select = true
  · by_cases k : crc8 (command :: args) = tail.crc
    · exact .inr (.inr ⟨⟨h, k⟩, by simp [h, k]⟩)
    · exact .inr (.inl ⟨h, k, by simp [h, k]⟩)
  · exact .inl ⟨by simpa using h, by simp [h]⟩

/-- A request that reaches its owner. -/
theorem hostRequest_taken {command : Byte} {args : List Byte} {tail : Tail} {s : State}
    (h : Taken s (command :: args) tail) (n : Nat) (owner : State → Answer) :
    hostRequest command args tail n owner s
      = .next { (owner s).state with port.reply := some (replyFrame (owner s).code (replyData n (owner s))) } := by
  simp [hostRequest, h.1, h.2]

/-- A request that is not taken leaves all but the reply. -/
theorem turnAway_reply (s : State) : ∃ r, turnAway s = { s with port.reply := r } := by
  unfold turnAway
  split
  · exact ⟨s.port.reply, rfl⟩
  · exact ⟨_, rfl⟩

/-- A request is always answered with a next state. -/
theorem hostRequest_next (command : Byte) (args : List Byte) (tail : Tail) (n : Nat) (owner : State → Answer)
    (s : State) : ∃ t, hostRequest command args tail n owner s = .next t := by
  rcases hostRequest_cases command args tail n owner s with ⟨-, h⟩ | ⟨-, -, h⟩ | ⟨-, h⟩ <;> exact ⟨_, h⟩

/-- What a request can leave, whichever way it ends: the state as it was, the state with SPI raised, or what its owner
leaves, each but for the reply. -/
theorem hostRequest_state {command : Byte} {args : List Byte} {tail : Tail} {n : Nat} {owner : State → Answer}
    {s t : State} (h : hostRequest command args tail n owner s = .next t) :
    t = turnAway s ∨ t = badCrc s
      ∨ t = { (owner s).state with port.reply := some (replyFrame (owner s).code (replyData n (owner s))) } := by
  rcases hostRequest_cases command args tail n owner s with ⟨-, k⟩ | ⟨-, -, k⟩ | ⟨-, k⟩ <;>
    (rw [k] at h; injection h with h; simp [h])

/-- A property that no reply and no SPI flag can break is kept by a request if its owner keeps it. -/
theorem hostRequest_keeps {P : State → Prop} {command : Byte} {args : List Byte} {tail : Tail} {n : Nat}
    {owner : State → Answer} {s t : State} (reply : ∀ u r, P u → P { u with port.reply := r })
    (spi : P s → P (raise .spi s)) (hs : P s) (ho : P (owner s).state)
    (h : hostRequest command args tail n owner s = .next t) : P t := by
  rcases hostRequest_state h with rfl | rfl | rfl
  · obtain ⟨r, e⟩ := turnAway_reply s
    rw [e]; exact reply _ _ hs
  · exact reply _ _ (spi hs)
  · exact reply _ _ ho

/-- R146, R150: an event either finds the chip held in reset and does nothing, or has its effect. -/
theorem event_cases (s : State) (f : State → State) :
    (s.ctl.held = true ∧ event s f = .next s) ∨ (s.ctl.held = false ∧ event s f = .next (f s)) := by
  unfold event
  cases h : s.ctl.held <;> simp

theorem event_of_not_held {s : State} (h : s.ctl.held = false) (f : State → State) : event s f = .next (f s) := by
  simp [event, h]

/-- A property is kept by an event if the event's effect keeps it. -/
theorem event_keeps {P : State → Prop} {s t : State} {f : State → State} (hs : P s) (hf : s.ctl.held = false → P (f s))
    (h : event s f = .next t) : P t := by
  rcases event_cases s f with ⟨-, k⟩ | ⟨k', k⟩ <;> (rw [k] at h; injection h with h; subst h)
  · exact hs
  · exact hf k'

/-- Outside UNCONFIGURED a command that START unlocks reaches its owner. -/
theorem whenStarted_of {s : State} (h : s.ctl.mode ≠ .unconfigured) (a : Answer) : whenStarted s a = a := by
  simp [whenStarted, h]

/-- R167: in UNCONFIGURED it is refused. -/
theorem whenStarted_refused {s : State} (h : s.ctl.mode = .unconfigured) (a : Answer) :
    whenStarted s a = refuse .wrongMode s := by
  simp [whenStarted, h]

theorem whenUnconfigured_of {s : State} (h : s.ctl.mode = .unconfigured) (a : Answer) : whenUnconfigured s a = a := by
  simp [whenUnconfigured, h]

/-- R154: outside UNCONFIGURED a configuration command is refused. -/
theorem whenUnconfigured_refused {s : State} (h : s.ctl.mode ≠ .unconfigured) (a : Answer) :
    whenUnconfigured s a = refuse .wrongMode s := by
  simp [whenUnconfigured, h]

@[simp] theorem refuse_state (c : ReplyCode) (s : State) : (refuse c s).state = s := rfl
@[simp] theorem refuse_code (c : ReplyCode) (s : State) : (refuse c s).code = c := rfl
@[simp] theorem refuse_data (c : ReplyCode) (s : State) : (refuse c s).data = [] := rfl
@[simp] theorem accept_state (b : Bool) (s : State) : (accept b s).state = s := rfl
@[simp] theorem accept_code (b : Bool) (s : State) : (accept b s).code = if b then .clamped else .ok := rfl
@[simp] theorem accept_data (b : Bool) (s : State) : (accept b s).data = [] := rfl

end Sys2Proof.Machine
end

