-- ==== Sys2Proof/Laws/Line.lean ====
section
/-! SUPPORT. What the receiver makes of the line: recessive bit times, and the samples of a frame that passes every check, which from
an idle line it takes at their last bit and no earlier (R26, R38). -/

namespace Sys2Proof

/-! ### Recessive bit times -/

theorem Line.hear_idle (n : Nat) : Line.idle.hear (List.replicate n true) = (.idle, none) := by
  induction n with
  | zero => rfl
  | succ n ih => rw [List.replicate_succ, Line.hear]; exact ih

/-- R26: recessive bit times bring a line that is waited for nearer to idle. -/
theorem Line.hear_wait (n : Nat) : ∀ left again : Nat, 1 ≤ left → (Line.wait left again).hear (List.replicate n true)
    = (if left ≤ n then .idle else .wait (left - n) again, none) := by
  induction n with
  | zero => intro left again h; rw [if_neg (by omega)]; rfl
  | succ n ih =>
    intro left again h
    rw [List.replicate_succ, Line.hear, Line.sample]
    by_cases k : left ≤ 1
    · rw [if_pos k, if_pos (by omega)]; exact Line.hear_idle n
    · rw [if_neg k]
      dsimp only
      rw [ih (left - 1) again (by omega)]
      by_cases j : left ≤ n + 1
      · rw [if_pos j, if_pos (by omega)]
      · rw [if_neg j, if_neg (by omega), show left - 1 - n = left - (n + 1) by omega]

/-- R39: samples that complete no frame are followed by the samples after them. -/
theorem Line.hear_append {l m : Line} {a : List Bool} (h : l.hear a = (m, none)) (b : List Bool) : l.hear (a ++ b) = m.hear b := by
  induction a generalizing l with
  | nil => simp only [Line.hear, Prod.mk.injEq, and_true] at h; rw [h, List.nil_append]
  | cons x a ih =>
    rw [List.cons_append, Line.hear]
    rw [Line.hear] at h
    cases k : l.sample x with
    | mk n o =>
      cases o with
      | none => rw [k] at h; exact ih h
      | some f => rw [k] at h; cases h

/-! ### Stuffed regions -/

theorem destuffFrom_cons (last : Bool) (run : Nat) (b : Bool) (bs : List Bool) : destuffFrom last run (b :: bs) =
    if runWith last run b = 4 then
      match bs with
      | [] => none
      | c :: cs => if c = b then none else (destuffFrom c 1 cs).map (b :: ·)
    else (destuffFrom b (runWith last run b) bs).map (b :: ·) := by
  cases bs <;> rw [destuffFrom.eq_def]

theorem destuffFrom_nil (last : Bool) (run : Nat) : destuffFrom last run [] = some [] := by rw [destuffFrom.eq_def]

theorem runWith_lt {last b : Bool} {run : Nat} (h : run < 4) (k : ¬runWith last run b = 4) : runWith last run b < 4 := by
  unfold runWith at *; split at k <;> split <;> (simp_all; try omega)

theorem destuff_recessive (last : Bool) (run : Nat) (h : run < 4) (rest : List Bool) :
    destuffFrom last run (List.replicate 5 true ++ rest) = none := by
  have : run = 0 ∨ run = 1 ∨ run = 2 ∨ run = 3 := by omega
  rcases this with rfl | rfl | rfl | rfl <;> cases last <;> simp [List.replicate, destuffFrom, runWith]

/-- R25: a region with five recessive bits in a row is a stuff error. -/
theorem destuff_run {bits : List Bool} : ∀ (a : List Bool) (last : Bool) (run : Nat), run < 4 →
    destuffFrom last run (a ++ (List.replicate 5 true ++ bits)) = none
  | [], last, run, h => destuff_recessive last run h bits
  | [b], last, run, h => by
    rw [List.singleton_append, destuffFrom_cons]
    split
    · cases b <;> simp [List.replicate, destuffFrom, runWith]
    · next k => rw [destuff_recessive b _ (runWith_lt h k)]; rfl
  | b :: c :: a, last, run, h => by
    rw [List.cons_append, destuffFrom_cons]
    split
    · rw [List.cons_append]
      dsimp only
      split
      · rfl
      · rw [destuff_run a c 1 (by decide)]; rfl
    · next k => rw [destuff_run (c :: a) b _ (runWith_lt h k)]; rfl

/-- The bits of a region that goes on begin with those of its part. -/
theorem destuff_append {x : List Bool} : ∀ (q : List Bool) (last : Bool) (run : Nat) {body part : List Bool}, run < 4 →
    destuffFrom last run (q ++ x) = some body → destuffFrom last run q = some part →
      ∃ y, body = part ++ y ∧ (x ≠ [] → y ≠ [])
  | [], last, run, body, part, h, hb, hp => by
    rw [destuffFrom_nil] at hp; injection hp with hp; subst hp
    refine ⟨body, rfl, fun hx => ?_⟩
    cases x with
    | nil => exact absurd rfl hx
    | cons c x =>
      rw [List.nil_append, destuffFrom_cons] at hb
      split at hb
      · split at hb
        · cases hb
        · split at hb
          · cases hb
          · simp only [Option.map_eq_some_iff] at hb; obtain ⟨_, -, rfl⟩ := hb; simp
      · simp only [Option.map_eq_some_iff] at hb; obtain ⟨_, -, rfl⟩ := hb; simp
  | [b], last, run, body, part, h, hb, hp => by
    rw [destuffFrom_cons] at hp
    rw [List.singleton_append, destuffFrom_cons] at hb
    split at hp
    · cases hp
    · next k =>
      rw [if_neg k] at hb
      simp only [Option.map_eq_some_iff] at hb hp
      obtain ⟨l, hl, rfl⟩ := hb
      obtain ⟨m, hm, rfl⟩ := hp
      obtain ⟨y, rfl, hy⟩ := destuff_append [] b _ (runWith_lt h k) (by simpa using hl) hm
      exact ⟨y, rfl, hy⟩
  | b :: c :: q, last, run, body, part, h, hb, hp => by
    rw [destuffFrom_cons] at hp
    rw [List.cons_append, destuffFrom_cons] at hb
    split at hp
    · next k =>
      rw [if_pos k, List.cons_append] at hb
      dsimp only at hb hp
      split at hp
      · cases hp
      · next n =>
        rw [if_neg n] at hb
        simp only [Option.map_eq_some_iff] at hb hp
        obtain ⟨l, hl, rfl⟩ := hb
        obtain ⟨m, hm, rfl⟩ := hp
        obtain ⟨y, rfl, hy⟩ := destuff_append q c 1 (by decide) hl hm
        exact ⟨y, rfl, hy⟩
    · next k =>
      rw [if_neg k] at hb
      simp only [Option.map_eq_some_iff] at hb hp
      obtain ⟨l, hl, rfl⟩ := hb
      obtain ⟨m, hm, rfl⟩ := hp
      obtain ⟨y, rfl, hy⟩ := destuff_append (c :: q) b _ (runWith_lt h k) hl hm
      exact ⟨y, rfl, hy⟩

/-! ### The length of a frame -/

theorem bodyLength_append {l : List Bool} {n : Nat} (h : bodyLength l = some n) (y : List Bool) :
    bodyLength (l ++ y) = some n := by
  unfold bodyLength at h
  split at h
  · split at h
    · exact h
    · next hc => simpa [bodyLength] using h
    · exact h
    · cases h
  · cases h

theorem readEntries_length : ∀ (n : Nat) (bits : List Bool) {l : List Accusation}, readEntries n bits = some l →
    bits.length = 10 * n := by
  intro n
  induction n with
  | zero => intro bits l h; unfold readEntries at h; split at h <;> simp_all
  | succ n ih =>
    intro bits l h
    unfold readEntries at h
    split at h
    · simp_all
    · next k _ _ _ _ _ _ _ _ _ _ rest hk =>
      obtain rfl : k = n := by omega
      split at h
      · next a m _ hm => rw [show (_ :: _ : List Bool).length = rest.length + 10 by simp, ih _ hm]; omega
      · cases h
    · cases h

theorem readBody_length {body : List Bool} {f : Frame} (h : readBody body = some f) : bodyLength body = some body.length := by
  unfold readBody at h
  split at h
  · next rest =>
    dsimp only at h
    split at h
    · next hc =>
      have hl : rest.length = (rest.take (rest.length - 16)).length + 16 := by
        have := congrArg List.length hc
        rw [List.length_drop] at this
        have n16 : ∀ w n, (natBits w n).length = w := by intro w n; induction w with | zero => rfl | succ w ih => simp [natBits, ih]
        rw [n16] at this
        rw [List.length_take]; omega
      have he : rest = rest.take (rest.length - 16) ++ rest.drop (rest.length - 16) := (List.take_append_drop _ _).symm
      generalize rest.take (rest.length - 16) = covered at h hl he
      generalize rest.drop (rest.length - 16) = crc at he
      rw [List.length_cons, hl]
      subst he
      unfold readCovered at h
      split at h
      · next i2 i1 i0 k1 k0 payload =>
        dsimp only at h
        split at h
        · rfl
        · next hk =>
          unfold readStatus at h
          split at h
          · split at h
            · next hn =>
              split at h
              · next hr _ _ hl =>
                have := readEntries_length _ _ hl
                simp only [bodyLength, List.cons_append, if_pos hn, List.length_cons, this]
                congr 1
                omega
              · cases h
            · cases h
          · cases h
        · rfl
        · cases h
      · cases h
    · cases h
  · cases h

/-- R26: a frame that passes every check has the form of a whole frame. -/
theorem receive_formed {bits : List Bool} {f : Frame} (h : receive bits = some f) :
    formed bits = true ∧ ∃ region, bits = region ++ endField ∧ (∃ body, destuff region = some body) ∧ ∃ rest, region = false :: rest := by
  unfold receive at h
  split at h
  · next he =>
    cases hd : destuff (bits.take (bits.length - 7)) with
    | none => rw [hd] at h; cases h
    | some body =>
      rw [hd, Option.bind_some] at h
      have hb := readBody_length h
      refine ⟨by simp [formed, quietTail, endBits, he, hd, hb], _, ?_, ⟨body, hd⟩, ?_⟩
      · rw [← he, List.take_append_drop]
      · unfold readBody at h
        split at h
        · next rest =>
          cases hr : bits.take (bits.length - 7) with
          | nil => rw [hr] at hd; cases hd
          | cons b r =>
            rw [hr] at hd
            have e : b = false := by
              unfold destuff at hd
              rw [destuffFrom_cons] at hd
              have : ¬runWith true 0 b = 4 := by cases b <;> decide
              rw [if_neg this] at hd
              simp only [Option.map_eq_some_iff, List.cons.injEq] at hd
              obtain ⟨_, -, e, -⟩ := hd; exact e
            exact ⟨r, by rw [e]⟩
        · cases h
  · cases h

/-! ### A frame on an idle line -/

/-- R26: such a frame is not over before its last end bit. -/
theorem frameOver_prior {bits p s : List Bool} {f : Frame} (h : receive bits = some f) (e : p ++ s = bits) (hs : s ≠ []) :
    frameOver p = false := by
  obtain ⟨form, region, hr, ⟨body, hd⟩, -⟩ := receive_formed h
  cases hq : quietTail p with
  | false => simp [frameOver, hq]
  | true =>
    have hp : p = p.take (p.length - 7) ++ List.replicate 7 true := by
      have := eq_of_beq hq
      rw [endBits, endField] at this
      rw [← this, List.take_append_drop]
    generalize hqq : p.take (p.length - 7) = q at hp
    have len : p.length + s.length = region.length + 7 := by
      rw [← List.length_append, e, hr, List.length_append]; rfl
    have sl : 0 < s.length := List.length_pos_iff.mpr hs
    have pl : p.length = q.length + 7 := by rw [hp]; simp
    have ee : q ++ (List.replicate 7 true ++ s) = region ++ List.replicate 7 true := by
      rw [← List.append_assoc, ← hp, e, hr]; rfl
    -- the recessive run reaches past the region, for a region holds no such run
    have past : region.length < p.length := by
      by_contra hn
      have hx : region = q ++ (List.replicate 7 true ++ s.take (s.length - 7)) := by
        have := congrArg (List.take region.length) ee
        rw [List.take_left] at this
        rw [← this, ← List.append_assoc, List.take_append, List.take_of_length_le (by simp; omega), List.append_assoc]
        congr 2
        simp
        omega
      rw [hx, destuff, show (List.replicate 7 true : List Bool) = List.replicate 5 true ++ List.replicate 2 true from rfl,
        List.append_assoc, destuff_run q true 0 (by decide)] at hd
      cases hd
    have hsr : s = List.replicate s.length true := by
      have := congrArg (List.drop p.length) (show p ++ s = region ++ List.replicate 7 true by rw [e, hr]; rfl)
      rw [List.drop_left, List.drop_append, List.drop_of_length_le (by omega), List.nil_append, List.drop_replicate] at this
      rw [this]; simp
    have more : ((List.range endBits).all fun k => !formed (p ++ List.replicate k true)) = false := by
      rw [← Bool.not_eq_true, List.all_eq_true]
      intro hall
      have := hall s.length (by rw [List.mem_range, endBits]; omega)
      rw [← hsr, e, form] at this; cases this
    have less : formed p = false := by
      have hreg : region = q ++ List.replicate (region.length - q.length) true := by
        have := congrArg (List.take region.length) ee
        rw [List.take_left] at this
        rw [← this, List.take_append, List.take_of_length_le (by omega), hsr]
        congr 1
        rw [List.replicate_append_replicate, List.take_replicate]
        congr 1
        simp
      have ne : (List.replicate (region.length - q.length) true : List Bool) ≠ [] := by
        rw [ne_eq, List.replicate_eq_nil_iff]; omega
      unfold formed
      rw [endBits, hqq, hq, Bool.true_and]
      cases hk : destuff q with
      | none => rfl
      | some part =>
        obtain ⟨y, hy, hne⟩ := destuff_append q true 0 (by decide) (by rw [← hreg]; exact hd) hk
        rw [Option.any_some]
        by_contra hn
        have hpart : bodyLength part = some part.length := by simpa using hn
        have := bodyLength_append hpart y
        rw [← hy] at this
        have full : bodyLength body = some body.length := by
          have := form
          unfold formed at this
          rw [hr, endBits, List.length_append, show endField.length = 7 from rfl, Nat.add_sub_cancel, List.take_left, hd] at this
          simpa using (Bool.and_eq_true_iff.mp this).2
        rw [full, hy, List.length_append] at this
        injection this with this
        have := List.length_pos_iff.mpr (hne ne)
        omega
    simp [frameOver, less, more]

theorem Line.hear_rest {bits : List Bool} {f : Frame} (h : receive bits = some f) : ∀ (s p : List Bool), p ++ s = bits → s ≠ [] →
    (Line.frame p).hear s = (Line.ended, some f)
  | [], _, _, hs => absurd rfl hs
  | [b], p, e, _ => by
    have ends : frameOver (p ++ [b]) = true := by
      obtain ⟨form, -, hr, -, -⟩ := receive_formed h
      rw [e]
      have : quietTail bits = true := by unfold formed at form; exact (Bool.and_eq_true_iff.mp form).1
      simp [frameOver, this, form]
    rw [Line.hear, Line.sample, if_pos ends, e, h]
  | b :: c :: s, p, e, _ => by
    have e' : (p ++ [b]) ++ (c :: s) = bits := by simpa using e
    rw [Line.hear, Line.sample, frameOver_prior h e' (by simp), if_neg (by decide)]
    exact Line.hear_rest h (c :: s) (p ++ [b]) e' (by simp)

/-- R26, R38: from an idle line, the samples of a frame that passes every check give exactly that frame. -/
theorem Line.hear_frame {bits : List Bool} {f : Frame} (h : receive bits = some f) : Line.idle.hear bits = (Line.ended, some f) := by
  obtain ⟨-, region, hr, -, rest, hf⟩ := receive_formed h
  have e : bits = false :: (rest ++ endField) := by rw [hr, hf]; rfl
  rw [e, Line.hear, Line.sample]
  exact Line.hear_rest h (rest ++ endField) [false] (by rw [e]; rfl) (by simp [endField])

theorem Line.hear_part {bits : List Bool} {f : Frame} (h : receive bits = some f) : ∀ (s p rest : List Bool), p ++ s ++ rest = bits →
    rest ≠ [] → (Line.frame p).hear s = (.frame (p ++ s), none)
  | [], p, _, _, _ => by rw [List.append_nil]; rfl
  | b :: s, p, rest, e, hr => by
    have e' : (p ++ [b]) ++ (s ++ rest) = bits := by simpa using e
    rw [Line.hear, Line.sample, frameOver_prior h e' (by simp [hr]), if_neg (by decide)]
    dsimp only
    rw [Line.hear_part h s (p ++ [b]) rest (by simpa using e) hr, List.append_assoc, List.singleton_append]

/-- R38: such a frame is taken at its last end bit and no earlier. -/
theorem Line.hear_prior {bits : List Bool} {f : Frame} (h : receive bits = some f) : Line.idle.hear bits.dropLast = (.frame bits.dropLast, none) := by
  obtain ⟨-, region, hr, -, rest, hf⟩ := receive_formed h
  have e : bits = false :: (rest ++ List.replicate 6 true) ++ [true] := by rw [hr, hf]; simp [endField]
  rw [e, List.dropLast_concat, Line.hear, Line.sample]
  exact Line.hear_part h (rest ++ List.replicate 6 true) [false] [true] (by rw [e]; rfl) (by simp)

/-! ### A frame on a line that was not idle -/

/-- R25, R26: in a region no recessive run is long enough to make the line idle. -/
theorem Line.hear_region : ∀ (r : List Bool) (last : Bool) (run left : Nat) {body : List Bool}, run < 4 →
    destuffFrom last run r = some body → 10 - (if last then run else 0) ≤ left →
      ∃ m, 7 ≤ m ∧ (Line.wait left 10).hear r = (.wait m 10, none)
  | [], last, run, left, _, h, _, hl => ⟨left, by cases last <;> simp at hl <;> omega, rfl⟩
  | b :: bs, last, run, left, body, h, hd, hl => by
    rw [destuffFrom_cons] at hd
    have l7 : 7 ≤ left := by cases last <;> simp at hl <;> omega
    have one : (Line.wait left 10).hear (b :: bs) = (Line.wait (if b then left - 1 else 10) 10).hear bs := by
      rw [Line.hear]
      cases b
      · rfl
      · rw [Line.sample, if_neg (by omega)]; rfl
    rw [one]
    split at hd
    · next k =>
      cases bs with
      | nil => cases hd
      | cons c cs =>
        dsimp only at hd
        split at hd
        · cases hd
        · next n =>
          simp only [Option.map_eq_some_iff] at hd
          obtain ⟨_, hc, -⟩ := hd
          cases b
          · obtain rfl : c = true := by simpa using n
            exact Line.hear_region cs true 1 9 (by decide) hc (by decide)
          · obtain rfl : c = false := by simpa using n
            exact Line.hear_region cs false 1 10 (by decide) hc (by decide)
    · next k =>
      simp only [Option.map_eq_some_iff] at hd
      obtain ⟨_, hc, -⟩ := hd
      refine Line.hear_region bs b _ _ (runWith_lt h k) hc ?_
      cases b <;> cases last <;> simp_all [runWith] <;> omega

/-- R26: a frame that begins before the line is idle after the receiver has been enabled is not taken. -/
theorem Line.hear_straddling {bits : List Bool} {f : Frame} (h : receive bits = some f) {n : Nat} (hn : n < 10) :
    (Line.enabled.hear (List.replicate n true ++ bits)).2 = none := by
  obtain ⟨-, region, hr, ⟨body, hd⟩, rest, hf⟩ := receive_formed h
  have first : Line.enabled.hear (List.replicate n true) = (.wait (10 - n) 10, none) := by
    rw [Line.enabled, idleBits, Line.hear_wait n 10 10 (by decide), if_neg (by omega)]
  rw [Line.hear_append first, hr, hf]
  have start : (Line.wait (10 - n) 10).hear (false :: rest ++ endField) = (Line.wait 10 10).hear (false :: rest ++ endField) := rfl
  rw [start]
  obtain ⟨m, hm, e⟩ := Line.hear_region (false :: rest) true 0 10 (by decide) (hf ▸ hd) (by decide)
  rw [Line.hear_append e, endField, Line.hear_wait 7 m 10 (by omega)]

end Sys2Proof
end

