-- ==== Sys2Proof/Laws/Reception.lean ====
section
/-! SUPPORT. Said once, what samples of the line do: nothing to a receiver that is off; where they complete no valid frame, only what
the receiver makes of the line; where they complete one, that frame is delivered and the samples after it are taken from there on
(R24, R38, R39). -/

namespace Sys2Proof

/-- R39: a valid frame among samples is completed by one of them. -/
theorem Line.hear_split : ∀ (bits : List Bool) (l : Line) {f : Frame} {m : Line}, l.hear bits = (m, some f) →
    ∃ (a : List Bool) (b : Bool) (after : List Bool) (n : Line), bits = a ++ b :: after ∧ l.hear a = (n, none)
      ∧ n.sample b = (m, some f) ∧ l.hear (a ++ [b]) = (m, some f)
  | [], l, f, m, h => by simp [Line.hear] at h
  | b :: bs, l, f, m, h => by
    rw [Line.hear] at h
    cases k : l.sample b with
    | mk n o =>
      rw [k] at h
      cases o with
      | some g => cases h; exact ⟨[], b, bs, l, rfl, rfl, k, by simp [Line.hear, k]⟩
      | none =>
        obtain ⟨a, c, after, p, e, ha, hc, hs⟩ := Line.hear_split bs n h
        exact ⟨b :: a, c, after, p, by rw [e]; rfl, by simp [Line.hear, k, ha], hc, by simp [Line.hear, k, hs]⟩

/-- R26: after a frame that is received the wait for an idle line begins. -/
theorem Line.sample_ended {l m : Line} {b : Bool} {f : Frame} (h : l.sample b = (m, some f)) : m = .ended := by
  cases l with
  | idle => cases b <;> simp [Line.sample] at h
  | frame bits => simp only [Line.sample] at h; split at h <;> simp_all
  | wait left again => cases b <;> simp [Line.sample] at h

end Sys2Proof

namespace Sys2Proof.Machine

@[simp] theorem receiveSamples_nil (s : State) : receiveSamples [] s = s := rfl

theorem receiveSamples_append (a b : List Bool) : ∀ s : State, receiveSamples (a ++ b) s = receiveSamples b (receiveSamples a s) := by
  induction a with
  | nil => intro s; rfl
  | cons x a ih => intro s; exact ih _

theorem receiveSamples_off (bits : List Bool) {s : State} (h : s.sbc.receiverOn = false) : receiveSamples bits s = s := by
  induction bits with
  | nil => rfl
  | cons b bs ih => rw [receiveSamples, receiveSample, h, if_neg (by decide), ih]

theorem receiveSamples_none (bits : List Bool) : ∀ {s : State} {m : Line}, s.sbc.receiverOn = true →
    s.sbc.line.hear bits = (m, none) → receiveSamples bits s = { s with sbc.line := m } := by
  induction bits with
  | nil => intro s m _ h; cases h; rfl
  | cons b bs ih =>
    intro s m on h
    rw [Line.hear] at h
    rw [receiveSamples, receiveSample, if_pos on]
    cases k : s.sbc.line.sample b with
    | mk n o =>
      rw [k] at h
      cases o with
      | some f => cases h
      | none => exact ih (s := { s with sbc.line := n }) on h

theorem receiveSamples_frame {a after : List Bool} {b : Bool} {s : State} {n m : Line} {f : Frame} (on : s.sbc.receiverOn = true)
    (ha : s.sbc.line.hear a = (n, none)) (hb : n.sample b = (m, some f)) :
    receiveSamples (a ++ b :: after) s = receiveSamples after (deliver f { s with sbc.line := .ended }) := by
  rw [receiveSamples_append, receiveSamples_none a on ha, receiveSamples, receiveSample, if_pos on]
  dsimp only
  rw [hb, Line.sample_ended hb]

end Sys2Proof.Machine
end

