-- ==== Sys2Proof/Laws/Support.lean ====
section
/-! SUPPORT. The disputes settle: after at most ten passes the IMPLAUSIBLE derivations are those of the disputes in force, and
each record of the Zone Table says what the other tables say. -/

namespace Sys2Proof.Machine

/-! ### The number of marks set -/

/-- How many of the eight marks are set. -/
def marksSet (m : Vector Bool 8) : Nat := ((List.finRange 8).filter fun a => m[a]).length

theorem marksSet_le (m : Vector Bool 8) : marksSet m ≤ 8 := by
  have h := List.length_filter_le (fun a => m[a]) (List.finRange 8)
  simpa [marksSet] using h

theorem marks_ext {m k : Vector Bool 8} (h : ∀ a : Station, m[a] = k[a]) : m = k := by
  apply Vector.ext
  intro i hi
  exact h ⟨i, hi⟩

theorem marksSet_lt {m k : Vector Bool 8} (h : ∀ a : Station, m[a] = true → k[a] = true) (ne : m ≠ k) :
    marksSet m < marksSet k := by
  have hex : ∃ a : Station, m[a] = false ∧ k[a] = true := by
    by_contra hc
    apply ne
    apply marks_ext
    intro a
    cases hm : m[a] with
    | true => exact (h a hm).symm
    | false =>
      cases hk : k[a] with
      | false => rfl
      | true => exact absurd ⟨a, hm, hk⟩ hc
  obtain ⟨a, ha, hk⟩ := hex
  have hsub : ((List.finRange 8).filter fun a => m[a]).Sublist ((List.finRange 8).filter fun a => k[a]) := by
    have := List.monotone_filter_right (List.finRange 8) (p := fun a => m[a]) (q := fun a => k[a]) (fun b hb => h b hb)
    exact this
  have hle := hsub.length_le
  refine lt_of_le_of_ne hle fun heq => ?_
  have := hsub.eq_of_length heq
  have hmem : a ∈ (List.finRange 8).filter fun a => k[a] := by simpa using hk
  rw [← this] at hmem
  have hm : m[a] = true := by simpa using hmem
  rw [ha] at hm
  exact Bool.noConfusion hm

/-! ### A pass never puts a dispute in force -/

theorem nextDispute_inForce {w : Nat} {o : Option Station} {d : Dispute} {t : Timer} {a : Station}
    (h : (nextDispute w o d t).1 = .inForce a) : d = .inForce a := by
  unfold nextDispute at h
  split at h
  · simp at h
  · simp at h
  · split at h <;> simp_all
  · split at h <;> simp_all

theorem supportPass_dispute (s : State) (z : Zone) : ((supportPass s).ziu.zones[z]).dispute
    = (nextDispute s.cfg.disputeWindow (disputedBy s z (accusersOf s (ownClaim s z) z))
        (s.ziu.zones[z]).dispute (s.ziu.zones[z]).disputeTimer).1 := by
  simp [supportPass, supportZone]

theorem implausibleMarks_iff (zones : Vector ZoneRecord 12) (a : Station) :
    (implausibleMarks zones)[a] = true ↔ ∃ z : Zone, (zones[z]).dispute = .inForce a := by
  simp [implausibleMarks]

/-- The IMPLAUSIBLE derivations that the disputes give can only become fewer. -/
theorem supportPass_marks (s : State) (a : Station)
    (h : (implausibleMarks (supportPass s).ziu.zones)[a] = true) : (implausibleMarks s.ziu.zones)[a] = true := by
  rw [implausibleMarks_iff] at h ⊢
  obtain ⟨z, hz⟩ := h
  rw [supportPass_dispute] at hz
  exact ⟨z, nextDispute_inForce hz⟩

/-! ### The passes end -/

/-- What the last pass leaves: a pass over a state whose IMPLAUSIBLE derivations are already those of its disputes. -/
def Settled (t : State) : Prop := ∃ s, t = supportPass s ∧ implausibleMarks t.ziu.zones = s.ziu.derived.implausible

theorem settleSupport_settled_of (n : Nat) : ∀ s : State,
    implausibleMarks s.ziu.zones = s.ziu.derived.implausible → marksSet s.ziu.derived.implausible ≤ n →
      Settled (settleSupport (n + 1) s) := by
  induction n with
  | zero =>
    intro s hs hn
    unfold settleSupport
    dsimp only
    split
    · next h => exact ⟨s, rfl, h⟩
    · next h =>
      exfalso
      have := marksSet_lt (m := implausibleMarks (supportPass s).ziu.zones) (k := s.ziu.derived.implausible)
        (fun a ha => hs ▸ supportPass_marks s a ha) h
      omega
  | succ n ih =>
    intro s hs hn
    unfold settleSupport
    dsimp only
    split
    · next h => exact ⟨s, rfl, h⟩
    · next h =>
      have := marksSet_lt (m := implausibleMarks (supportPass s).ziu.zones) (k := s.ziu.derived.implausible)
        (fun a ha => hs ▸ supportPass_marks s a ha) h
      refine ih _ rfl ?_
      dsimp only
      omega

/-- R73, R84: the bound on the passes is never met. -/
theorem settleSupport_settled (s : State) : Settled (settleSupport 10 s) := by
  unfold settleSupport
  dsimp only
  split
  · next h => exact ⟨s, rfl, h⟩
  · exact settleSupport_settled_of 8 _ rfl (marksSet_le _)

/-! ### What a settled pass says -/

/-- The own accusation depends on the fault table, the derived set and the station number alone. -/
theorem ownClaim_congr {s t : State} (l : t.lft = s.lft) (d : t.ziu.derived = s.ziu.derived)
    (n : t.ctl.station = s.ctl.station) (z : Zone) : ownClaim t z = ownClaim s z := by
  simp [ownClaim, l, d, n]

theorem accusersOf_congr {s t : State} (p : t.pv.peers = s.pv.peers) (n : t.ctl.station = s.ctl.station)
    (own : Option Claim) (z : Zone) : accusersOf t own z = accusersOf s own z := by
  simp [accusersOf, p, n]

theorem disputedBy_congr {s t : State} (l : t.lft = s.lft) (p : t.pv.peers = s.pv.peers)
    (n : t.ctl.station = s.ctl.station) (z : Zone) (a : List Accuser) : disputedBy t z a = disputedBy s z a := by
  simp [disputedBy, ownerDenies, State.attests, l, p, n]

theorem nextDispute_spec (w : Nat) (o : Option Station) (d : Dispute) (t : Timer) :
    match o with
    | none => (nextDispute w o d t).1 = .none
    | some a => (nextDispute w o d t).1 = .pending a ∨ (nextDispute w o d t).1 = .inForce a := by
  cases o with
  | none => simp [nextDispute]
  | some a =>
    cases d with
    | none => simp [nextDispute]
    | pending b => by_cases h : a = b <;> simp [nextDispute, h]
    | inForce b => by_cases h : a = b <;> simp [nextDispute, h]

/-- A settled state's own accusations, accuser lists, disputes and IMPLAUSIBLE derivations agree with one another. -/
theorem Settled.current {t : State} (h : Settled t) (z : Zone) :
    (t.ziu.zones[z]).own = ownClaim t z
      ∧ (t.ziu.zones[z]).accusers = markDiscounted (t.ziu.zones[z]).dispute (accusersOf t (ownClaim t z) z)
      ∧ (match disputedBy t z (accusersOf t (ownClaim t z) z) with
        | none => (t.ziu.zones[z]).dispute = .none
        | some a => (t.ziu.zones[z]).dispute = .pending a ∨ (t.ziu.zones[z]).dispute = .inForce a) := by
  obtain ⟨s, rfl, -⟩ := h
  have ho : ownClaim (supportPass s) z = ownClaim s z := ownClaim_congr rfl rfl rfl z
  have ha : accusersOf (supportPass s) (ownClaim s z) z = accusersOf s (ownClaim s z) z := accusersOf_congr rfl rfl _ z
  have hd : disputedBy (supportPass s) z (accusersOf s (ownClaim s z) z)
    = disputedBy s z (accusersOf s (ownClaim s z) z) := disputedBy_congr rfl rfl rfl z _
  rw [ho, ha, hd]
  refine ⟨by simp [supportPass, supportZone], by simp [supportPass, supportZone], ?_⟩
  rw [supportPass_dispute]
  exact nextDispute_spec _ _ _ _

theorem Settled.implausible {t : State} (h : Settled t) (a : Station) :
    t.ziu.derived.implausible[a] = true ↔ ∃ z : Zone, (t.ziu.zones[z]).dispute = .inForce a := by
  obtain ⟨s, rfl, hm⟩ := h
  rw [← implausibleMarks_iff, hm]
  rfl

end Sys2Proof.Machine
end

