-- ==== Sys2Proof/Laws/Zones.lean ====
section
/-! SUPPORT. One zone record through the state rules (R75 to R80): everything `zoneNext` can do, and that the Zone Table keeps
agreeing with itself and with the other tables. -/

namespace Sys2Proof.Machine

/-- Everything the state rules can do to a record: nothing, or one of the four entries. -/
theorem zoneNext_cases (c : Store) (z : Zone) (r : ZoneRecord) :
    (zoneNext c z r = r ∧ match r.state with
      | .clear => confirmationHolds c.quorum z r.accusers = false ∧ suspicion r.accusers = []
      | .suspect => False
      | .confirmed => confirmationHolds c.quorum z r.accusers = true ∧ criticalAmong r.accusers = false
      | .isolated | .pinned => True)
    ∨ (zoneNext c z r = isolate z r ∧ r.state.isIsolated = false ∧ confirmationHolds c.quorum z r.accusers = true)
    ∨ (zoneNext c z r = { r with state := .confirmed, delay := some (c.zones[z]).delay, clean := none }
      ∧ (r.state = .clear ∨ r.state = .suspect) ∧ confirmationHolds c.quorum z r.accusers = true
      ∧ criticalAmong r.accusers = false)
    ∨ (zoneNext c z r = { r with state := .suspect, delay := none, clean := none } ∧ r.state.isIsolated = false
      ∧ confirmationHolds c.quorum z r.accusers = false ∧ suspicion r.accusers ≠ [])
    ∨ (zoneNext c z r = { r with state := .clear, delay := none, clean := cleanStart c r }
      ∧ r.state.isIsolated = false ∧ r.state ≠ .clear
      ∧ confirmationHolds c.quorum z r.accusers = false ∧ suspicion r.accusers = []) := by
  have e : (suspicion r.accusers).isEmpty = true ↔ suspicion r.accusers = [] := List.isEmpty_iff
  revert e
  unfold zoneNext unconfirmed
  generalize hq : suspicion r.accusers = q
  intro e
  by_cases m : q.isEmpty = true
  · have hq' := e.mp m
    cases h : r.state <;> cases k : confirmationHolds c.quorum z r.accusers <;>
      cases g : criticalAmong r.accusers <;> cases d : (c.zones[z]).delay == 0 <;>
      simp_all [ZoneState.isIsolated]
  · have hq' : q ≠ [] := fun k => m (e.mpr k)
    cases h : r.state <;> cases k : confirmationHolds c.quorum z r.accusers <;>
      cases g : criticalAmong r.accusers <;> cases d : (c.zones[z]).delay == 0 <;>
      simp_all [ZoneState.isIsolated]

/-- The state rules leave a record's support alone. -/
theorem zoneNext_support (c : Store) (z : Zone) (r : ZoneRecord) :
    (zoneNext c z r).own = r.own ∧ (zoneNext c z r).accusers = r.accusers ∧ (zoneNext c z r).dispute = r.dispute
      ∧ (zoneNext c z r).disputeTimer = r.disputeTimer ∧ (zoneNext c z r).released = r.released := by
  rcases zoneNext_cases c z r with ⟨e, -⟩ | ⟨e, -⟩ | ⟨e, -⟩ | ⟨e, -⟩ | ⟨e, -⟩ <;> rw [e] <;> simp [isolate]

/-- R74: the state that the state rules give is the one its meaning asks for. -/
theorem zoneNext_state (c : Store) (z : Zone) (r : ZoneRecord) : match (zoneNext c z r).state with
    | .clear => suspicion (zoneNext c z r).accusers = []
    | .suspect => suspicion (zoneNext c z r).accusers ≠ []
      ∧ confirmationHolds c.quorum z (zoneNext c z r).accusers = false
    | .confirmed => confirmationHolds c.quorum z (zoneNext c z r).accusers = true
      ∧ criticalAmong (zoneNext c z r).accusers = false
    | .isolated | .pinned => True := by
  have ha := (zoneNext_support c z r).2.1
  rw [ha]
  rcases zoneNext_cases c z r with ⟨e, h⟩ | ⟨e, h⟩ | ⟨e, h⟩ | ⟨e, h⟩ | ⟨e, h⟩ <;> rw [e]
  · cases hs : r.state <;> simp_all
  · cases hr : r.released <;> simp [isolate, hr]
  · exact h.2
  · exact ⟨h.2.2, h.2.1⟩
  · exact h.2.2.2

/-! ### The stamp -/

theorem sum_pow_lt (l : List Nat) (h : l.Pairwise (· < ·)) :
    ∀ n, (∀ x ∈ l, x < n) → (l.map fun x => 2 ^ x).sum < 2 ^ n := by
  induction l using List.reverseRecOn with
  | nil => intro n _; simp
  | append_singleton l x ih =>
    intro n hn
    have hx : x < n := hn x (by simp)
    have hp := List.pairwise_append.mp h
    have := ih hp.1 x (fun y hy => hp.2.2 y hy x (by simp))
    have h2 : 2 ^ (x + 1) ≤ 2 ^ n := Nat.pow_le_pow_right (by omega) hx
    simp only [List.map_append, List.map_cons, List.map_nil, List.sum_append, List.sum_cons, List.sum_nil]
    have : 2 ^ (x + 1) = 2 ^ x + 2 ^ x := by ring
    omega

/-- R79: the accuser bitmap of a list that names each station at most once fits its eight bits. -/
theorem accuserBitmap_lt (l : List Accuser) (h : l.Pairwise (fun a b => a.station < b.station)) :
    accuserBitmap l < 256 := by
  have hs : (confirming l).Sublist l := by
    unfold confirming rawConfirming
    exact (List.filter_sublist).trans List.filter_sublist
  have hp : ((confirming l).map fun a => a.station.val).Pairwise (· < ·) := by
    rw [List.pairwise_map]; exact (h.sublist hs).imp fun hab => hab
  have := sum_pow_lt _ hp 8 (by
    intro x hx
    obtain ⟨a, -, rfl⟩ := List.mem_map.mp hx
    exact a.station.isLt)
  simpa [accuserBitmap, List.map_map, Function.comp_def] using this

/-- R79: the zone and the count stand above the bitmap in the stamp. -/
theorem isolationStamp_high (z : Zone) (count : Nat) (l : List Accuser) (hc : count ≤ 15)
    (h : l.Pairwise (fun a b => a.station < b.station)) :
    (isolationStamp z count l).toNat / 256 = 16 * z.val + count := by
  have hb := accuserBitmap_lt l h
  have hz := z.isLt
  simp only [isolationStamp, BitVec.toNat_ofNat]
  omega

/-! ### A record agrees with its own state -/

/-- The all-accuser list is in order of station number. -/
theorem accusersOf_pairwise (s : State) (own : Option Claim) (z : Zone) :
    (accusersOf s own z).Pairwise (fun a b => a.station < b.station) := by
  unfold accusersOf
  refine (List.pairwise_lt_finRange 8).filterMap _ (fun a a' hlt b hb b' hb' => ?_)
  simp only [Option.map_eq_some_iff] at hb hb'
  obtain ⟨c, -, rfl⟩ := hb
  obtain ⟨c', -, rfl⟩ := hb'
  exact hlt

theorem markDiscounted_pairwise (d : Dispute) (l : List Accuser) (h : l.Pairwise (fun a b => a.station < b.station)) :
    (markDiscounted d l).Pairwise (fun a b => a.station < b.station) := by
  unfold markDiscounted
  rw [List.pairwise_map]
  exact h

/-- A dispute can stand on a station zone alone. -/
theorem disputedBy_station {s : State} {z : Zone} {l : List Accuser} {a : Station} (h : disputedBy s z l = some a) :
    z.val < 8 := by
  unfold disputedBy at h
  split at h
  · next o _ ho _ =>
    unfold zoneOwner at ho
    split at ho
    · assumption
    · simp at ho
  · simp at h

/-- R68 to R84: a support pass keeps a record in agreement with its state. -/
theorem supportZone_consistent (s : State) (z : Zone) (h : ZoneConsistent z s.ziu.zones[z]) :
    ZoneConsistent z (supportZone s z) := by
  have ht : (supportZone s z).disputeTimer.isSome = true ↔ ∃ a, (supportZone s z).dispute = .pending a := by
    simp only [supportZone]
    generalize disputedBy s z (accusersOf s (ownClaim s z) z) = o
    have hk := h.disputeTimer
    revert hk
    generalize (s.ziu.zones[z]).dispute = d
    generalize (s.ziu.zones[z]).disputeTimer = t
    intro hk
    cases o with
    | none => simp [nextDispute]
    | some a => cases d with
      | none => simp [nextDispute]
      | pending b => by_cases e : a = b <;> simp_all [nextDispute]
      | inForce b => by_cases e : a = b <;> simp_all [nextDispute]
  refine ⟨h.stamp, h.stampValue, h.delay, h.clean, ht, ?_, h.count, h.pinned, ?_⟩
  · intro hd
    cases ho : disputedBy s z (accusersOf s (ownClaim s z) z) with
    | none => exact absurd (by simp [supportZone, ho, nextDispute]) hd
    | some a => exact disputedBy_station ho
  · exact markDiscounted_pairwise _ _ (accusersOf_pairwise _ _ _)

/-- R78, R79, R89: an isolation leaves a record in agreement with its state. -/
theorem isolate_consistent (z : Zone) (r : ZoneRecord) (h : ZoneConsistent z r) : ZoneConsistent z (isolate z r) := by
  have hc : min 15 (r.count + 1) ≤ 15 := Nat.min_le_left _ _
  refine ⟨?_, ?_, ?_, ?_, h.disputeTimer, h.dispute, hc, ?_, h.accusers⟩
  · cases hr : r.released <;> simp [isolate, hr]
  · intro w hw
    simp only [isolate, Option.some.injEq] at hw
    subst hw
    exact isolationStamp_high z _ _ hc h.accusers
  · cases hr : r.released <;> simp [isolate, hr]
  · cases hr : r.released <;> simp [isolate, hr]
  · cases hr : r.released <;> simp [isolate, hr]

/-- R75 to R80: so do the state rules. -/
theorem zoneNext_consistent (c : Store) (z : Zone) (r : ZoneRecord) (h : ZoneConsistent z r) :
    ZoneConsistent z (zoneNext c z r) := by
  have hst : r.state.isIsolated = false → r.stamp = none := by
    intro hi
    cases hs : r.stamp with
    | none => rfl
    | some w =>
      have := h.stamp.mp (by simp [hs])
      rcases this with k | k <;> simp [k, ZoneState.isIsolated] at hi
  rcases zoneNext_cases c z r with ⟨e, -⟩ | ⟨e, hi, -⟩ | ⟨e, hi, -⟩ | ⟨e, hi, -⟩ | ⟨e, hi, hne, -⟩ <;> rw [e]
  · exact h
  · exact isolate_consistent z r h
  · have : r.stamp = none := hst (by rcases hi with k | k <;> simp [k, ZoneState.isIsolated])
    exact ⟨by simp [this], by simp [this], by simp, by simp, h.disputeTimer, h.dispute, h.count, by simp, h.accusers⟩
  · have := hst hi
    exact ⟨by simp [this], by simp [this], by simp, by simp, h.disputeTimer, h.dispute, h.count, by simp, h.accusers⟩
  · have := hst hi
    refine ⟨by simp [this], by simp [this], by simp, ?_, h.disputeTimer, h.dispute, h.count, by simp, h.accusers⟩
    cases hr : r.released <;> simp [cleanStart, hr]

theorem settleSupport_consistent (n : Nat) : ∀ s : State, ZoneTableConsistent s → ZoneTableConsistent (settleSupport n s) := by
  induction n with
  | zero => intro s h; exact h
  | succ n ih =>
    intro s h
    have hp : ZoneTableConsistent (supportPass s) := by
      intro z; simpa [supportPass] using supportZone_consistent s z (h z)
    unfold settleSupport
    dsimp only
    split
    · exact hp
    · exact ih _ hp

/-- All that follows from an event keeps the Zone Table in agreement with itself. -/
theorem settle_zoneTable (b s : State) (h : ZoneTableConsistent s) : ZoneTableConsistent (settle b s) := by
  have h1 : ZoneTableConsistent (peerDerivations (checkJoin s)) := by
    rcases checkJoin_cases s with ⟨e, -⟩ | ⟨e, -⟩ <;> rw [e] <;> exact h
  have h2 := settleSupport_consistent 10 _ h1
  intro z
  rw [settle_ziu]
  simpa [settleTables, settleZones] using zoneNext_consistent _ z _ (h2 z)

/-! ### The Zone Table says what the other tables say -/

theorem settleTables_support (s : State) : ∃ t, Settled t ∧ settleTables s = settleZones t := ⟨_, settleSupport_settled _, rfl⟩

/-- R68 to R84, R74: after any event the Zone Table agrees with the tables it is formed from. -/
theorem settleTables_current (s : State) : SupportCurrent (settleTables s) := by
  obtain ⟨t, ht, e⟩ := settleTables_support s
  rw [e]
  have hz : ∀ z : Zone, (settleZones t).ziu.zones[z] = zoneNext t.cfg z t.ziu.zones[z] := by
    intro z; simp [settleZones]
  have hs := fun z => zoneNext_support t.cfg z t.ziu.zones[z]
  have ho : ∀ z, ownClaim (settleZones t) z = ownClaim t z := fun z => ownClaim_congr rfl rfl rfl z
  have ha : ∀ o z, accusersOf (settleZones t) o z = accusersOf t o z := fun o z => accusersOf_congr rfl rfl o z
  have hd : ∀ z l, disputedBy (settleZones t) z l = disputedBy t z l := fun z l => disputedBy_congr rfl rfl rfl z l
  refine ⟨fun z => ?_, fun z => ?_, fun z => ?_, fun a => ?_, fun z => ?_⟩
  · rw [hz, (hs z).1, ho]; exact (ht.current z).1
  · rw [hz, (hs z).2.1, (hs z).2.2.1, ho, ha]; exact (ht.current z).2.1
  · rw [hz, (hs z).2.2.1, ho, ha, hd]; exact (ht.current z).2.2
  · simp only [hz, (hs _).2.2.1]; exact ht.implausible a
  · rw [hz]; exact zoneNext_state t.cfg z _

theorem SupportCurrent.congr {s t : State} (h : SupportCurrent s) (l : t.lft = s.lft) (p : t.pv.peers = s.pv.peers)
    (u : t.ziu = s.ziu) (n : t.ctl.station = s.ctl.station) (q : t.cfg.quorum = s.cfg.quorum) : SupportCurrent t := by
  have ho : ∀ z, ownClaim t z = ownClaim s z := fun z => ownClaim_congr l (by rw [u]) n z
  have ha : ∀ o z, accusersOf t o z = accusersOf s o z := fun o z => accusersOf_congr p n o z
  have hd : ∀ z k, disputedBy t z k = disputedBy s z k := fun z k => disputedBy_congr l p n z k
  refine ⟨fun z => ?_, fun z => ?_, fun z => ?_, fun a => ?_, fun z => ?_⟩
  · rw [u, ho]; exact h.own z
  · rw [u, ho, ha]; exact h.accusers z
  · rw [u, ho, ha, hd]; exact h.dispute z
  · rw [u]; exact h.implausible a
  · rw [u, q]; exact h.state z

theorem settle_current (b s : State) : SupportCurrent (settle b s) := by
  have w := settleTables_work s
  refine (settleTables_current s).congr ?_ ?_ (settle_ziu b s) ?_ ?_
  · rw [settle_lft, w.lft]
  · rw [settle_peers, w.peers]
  · rw [settle_station, w.ctl]
  · rw [settle_cfg, w.cfg]

end Sys2Proof.Machine
end

