-- ==== Sys2Proof/Laws/Effects.lean ====
section
/-! SUPPORT. Said once, everything that a command can do: which change of its own block it makes, and whether the rest of an
event follows. A property that every effect keeps is kept by every command. -/

namespace Sys2Proof.Machine

/-- The changes of tables from which the rest of an event follows (`settle`), each with the condition under which it is
made. -/
inductive Change (s : State) : State → Prop where
  | assertion (n : Input) (h : s.ctl.held = false) (l : s.lineAsserted n = false) :
    Change s (takeTrip n (takeAssertion n (setLine n true s)))
  | inputRelease (n : Input) (h : s.ctl.held = false) (l : s.lineAsserted n = true) :
    Change s (takeRelease n (setLine n false s))
  | qualify (n : Input) (h : s.ctl.held = false) (q : (s.lft.inputs[n]).qualify.isSome = true) :
    Change s (setInputSlot n (qualifySlot s.cfg.escalation s.ctl.nodeTime (s.lft.inputs[n])) s)
  | heal (n : Input) (h : s.ctl.held = false) (q : (s.lft.inputs[n]).heal.isSome = true) :
    Change s (setInputSlot n (healSlot (s.lft.inputs[n])) s)
  | declaredHeal (d : DeclSlot) (h : s.ctl.held = false) (q : (s.lft.declared[d]).heal.isSome = true) :
    Change s (setDeclaredSlot d (healSlot (s.lft.declared[d])) s)
  | redeclare (d : DeclSlot) (x : Entry) (v : Severity) (m : s.ctl.mode ≠ .unconfigured)
    (e : (s.lft.declared[d]).entry = some x) :
    Change s (setDeclaredSlot d (redeclareSlot s.cfg.escalation v x (s.lft.declared[d])) s)
  | place (d : DeclSlot) (c : FaultClass) (z : Zone) (v : Severity) (m : s.ctl.mode ≠ .unconfigured)
    (k : c.code ≤ 6) (n : declaredSlot s.lft c z = none) (p : placementSlot s.lft = some d) :
    Change s { setDeclaredSlot d ⟨some (declaredEntry s.cfg.escalation s.ctl.nodeTime c z v), none, none⟩ s with
      lft.pointer := d + 1 }
  | withdraw (d : DeclSlot) (x : Entry) (m : s.ctl.mode ≠ .unconfigured) (e : (s.lft.declared[d]).entry = some x) :
    Change s (setDeclaredSlot d (withdrawSlot s.cfg.declaredHeal x (s.lft.declared[d])) s)
  | clearInput (n : Input) (x : Entry) (m : s.ctl.mode ≠ .unconfigured) (e : (s.lft.inputs[n]).entry = some x)
    (k : x.stillAsserted = false) : Change s (setInputSlot n Slot.empty s)
  | clearDeclared (d : DeclSlot) (m : s.ctl.mode ≠ .unconfigured) : Change s (setDeclaredSlot d Slot.empty s)
  | clearAll (m : s.ctl.mode ≠ .unconfigured) : Change s { s with lft := clearDeclared s.lft }
  | floor (l : Level) (m : s.ctl.mode ≠ .unconfigured) : Change s { s with lvl.floor := l }
  | stress (v : Byte) (m : s.ctl.mode ≠ .unconfigured) : Change s (writeStress v s)
  | stressExpiry (h : s.ctl.held = false) (q : s.perm.stressTimer.isSome = true) :
    Change s (raise .stale { s with perm.stressTimer := none, ziu.derived.stale := true })
  | tripClear (h : s.ctl.held = false) (q : s.tripAsserted = false) : Change s { s with out.tripLatch := false }
  | depart (m : s.ctl.mode = .joining ∨ s.ctl.mode = .running) :
    Change s { s with ctl.mode := .departed, sbc := departBus s.sbc, pv.joinTimer := none }
  | rejoin (m : s.ctl.mode = .departed) : Change s (enterJoining { s with sbc := rejoinBus s.sbc })
  | start (h : s.ctl.held = false) (m : s.ctl.mode = .unconfigured) :
    Change s (watchInputs (switchOn (enterJoining (sampleTrip (expectPeers (raiseIf (Store.corrected s.cfg != s.cfg)
      .notice { s with cfg := Store.corrected s.cfg, ctl.started := true }))))))
  | bitFault (k : Nat) (level : Bool) (h : s.ctl.held = false) (f : Frame) (i : s.sbc.inFlight = some f) :
    Change s (countBitFault (stopDriving f k level s))
  | completes (h : s.ctl.held = false) (f : Frame) (i : s.sbc.inFlight = some f) : Change s (completeFrame f.kind s)
  | muteExpiry (h : s.ctl.held = false) (q : s.sbc.mute.isSome = true) :
    Change s { s with sbc.mute := none, ziu.derived.mute := true }
  | hello (p : Station) (role : Role) (g : Group) (h : s.ctl.held = false) (on : s.sbc.receiverOn = true)
    (ne : p ≠ s.ctl.station) :
    Change s (setPeer p (heardHello s.cfg s.ctl.nodeTime role g (s.pv.peers[p]))
      (raiseIf (!(s.pv.peers[p]).expected) .notice s))
  | status (p : Station) (join : Bool) (g : Group) (fields : StatusFields) (list : List Accusation)
    (h : s.ctl.held = false) (on : s.sbc.receiverOn = true) (ne : p ≠ s.ctl.station)
    (b : list.length ≤ 4 ∧ (list.map (·.zone)).Nodup) :
    Change s (setPeer p (heardStatus s.cfg s.ctl.nodeTime join g fields list (s.pv.peers[p])) s)
  | leave (p : Station) (h : s.ctl.held = false) (on : s.sbc.receiverOn = true) (ne : p ≠ s.ctl.station) :
    Change s (setPeer p (heardLeave s.cfg s.ctl.nodeTime (s.pv.peers[p])) s)
  | duplicate (h : s.ctl.held = false) (on : s.sbc.receiverOn = true) :
    Change s (raise .notice { s with sbc.duplicateLatch := true, ziu.derived.duplicate := true })
  | silence (p : Station) (h : s.ctl.held = false) (q : (s.pv.peers[p]).silence.isSome = true) :
    Change s (setPeer p (silenced (s.pv.peers[p])) s)
  | leaveExpiry (p : Station) (h : s.ctl.held = false) (q : (s.pv.peers[p]).leave.isSome = true) :
    Change s (setPeer p (departedRecord (s.pv.peers[p])) s)
  | deadline (h : s.ctl.held = false) (q : s.pv.joinTimer.isSome = true) (m : s.ctl.mode = .joining) :
    Change s (endJoin { s with pv.peers := Vector.ofFn fun p => atDeadline s.pv.peers[p] })
  | delayExpiry (z : Zone) (h : s.ctl.held = false) (q : (s.ziu.zones[z]).delay.isSome = true)
    (k : (s.ziu.zones[z]).state = .confirmed) : Change s (setZoneRecord z (isolate z (s.ziu.zones[z])) s)
  | disputeExpiry (z : Zone) (h : s.ctl.held = false) (q : (s.ziu.zones[z]).disputeTimer.isSome = true) :
    Change s (setZoneRecord z
      { s.ziu.zones[z] with dispute := putInForce (s.ziu.zones[z]).dispute, disputeTimer := none } s)
  | release (z : Zone) (m : s.ctl.mode ≠ .unconfigured) (k : (s.ziu.zones[z]).state = .isolated)
    (e : suspicion (s.ziu.zones[z]).accusers = []) :
    Change s (setZoneRecord z (releasedRecord s.cfg (s.ziu.zones[z])) s)

/-- Everything a command can leave, but for the reply in SDO: a settled change, a host reset, a power-on reset or its
release, or one of the updates that nothing else follows from. -/
inductive Effect (s : State) : State → Prop where
  | none : Effect s s
  | settled (u : State) (c : Change s u) : Effect s (settle s u)
  | hostReset (h : s.ctl.held = false) : Effect s (hostResetState s)
  | hostResetPin (h : s.ctl.held = false) : Effect s { hostResetState s with pins.rstLow := true }
  | rstLow (h : s.ctl.held = true) : Effect s { s with pins.rstLow := true }
  | powerOn : Effect s (heldInReset s)
  | powerUp (straps : Straps) (h : s.ctl.held = true) : Effect s (releaseStation straps s)
  | line (n : Input) (a : Bool) (h : s.ctl.held = true) : Effect s (setLine n a s)
  | rstHigh : Effect s { s with pins.rstLow := false }
  | setTiming (item : Fin 16) (value : Half) (m : s.ctl.mode = .unconfigured) :
    Effect s { s with cfg := Store.setTiming s.cfg item (timingValue item value.toNat) }
  | setZone (z : Zone) (l1 l2 l3 : Byte) (delay : Half) (attrs : Byte) (m : s.ctl.mode = .unconfigured) :
    Effect s { s with cfg.zones := s.cfg.zones.set z (zoneConfigArg l1 l2 l3 delay attrs) }
  | setInput (n : Input) (flags qualify heal cls severity zone : Byte) (c : InputConfig)
    (m : s.ctl.mode = .unconfigured) (e : inputConfigArg flags qualify heal cls severity zone = some c) :
    Effect s { s with cfg.inputs := s.cfg.inputs.set n c }
  | setLevels (b v : Vector Half 4) (m : s.ctl.mode = .unconfigured) :
    Effect s { s with cfg.baseCaps := clampFour 1000 b, cfg.speedCaps := clampFour 500 v }
  | setPeers (expected group quorum : Byte) (m : s.ctl.mode = .unconfigured) :
    Effect s { s with cfg.expected := expected, cfg.group := groupArg group, cfg.quorum := clampTo 1 3 quorum.toNat }
  | frameStart (f : Frame) (h : s.ctl.held = false) (e : startingFrame s = some f) :
    Effect s { s with sbc.inFlight := some f, sbc.line := .frame [false] }
  | lost (f : Frame) (k : Nat) (level : Bool) (i : s.sbc.inFlight = some f) : Effect s (stopDriving f k level s)
  | statusTimer (h : s.ctl.held = false) (q : s.sbc.statusTimer.isSome = true) :
    Effect s (requestStatus { s with sbc.statusTimer := none })
  | spacing (h : s.ctl.held = false) : Effect s { s with sbc.spacing := none }
  | clean (z : Zone) (h : s.ctl.held = false) (q : (s.ziu.zones[z]).clean.isSome = true) :
    Effect s (setZoneRecord z { s.ziu.zones[z] with released := false, clean := Option.none } s)
  | dwell (h : s.ctl.held = false) : Effect s { s with perm.dwell := none }
  | ramp (h : s.ctl.held = false) (r : rampReady s = true) :
    Effect s (setOutput (min s.perm.target (s.perm.output + s.cfg.rampStep)) s)
  | rearm (h : s.ctl.held = false) : Effect s { s with out.rearm := none }
  | pwm (h : s.ctl.held = false) : Effect s { s with out.activeDuty := s.out.pendingDuty }
  | closeContactor (f : s.cfg.contactorFitted = true) (m : s.ctl.mode = .running) (o : s.out.contactor = .opened)
    (t : s.out.tripLatch = false) (z : dropZoneDoubted s = false) : Effect s { s with out.contactor := .closed }
  | openContactor (f : s.cfg.contactorFitted = true) : Effect s (startDrop s)
  | contactorDelay (h : s.ctl.held = false) (q : s.out.contactorTimer.isSome = true) :
    Effect s { s with out.contactor := .opened, out.contactorTimer := Option.none }
  | flags (f : Byte) : Effect s { s with port.flags := f }
  | enable (m : Byte) : Effect s { s with port.enable := m }

/-- What samples of the line leave: what the receiver, if it is on, makes of the line, and the frames that it takes. -/
inductive Received (s : State) : State → Prop where
  | none : Received s s
  | line {t : State} (l : Line) (h : Received s t) (on : t.sbc.receiverOn = true) : Received s { t with sbc.line := l }
  | frame {t : State} (f : Frame) (h : Received s t) (hh : t.ctl.held = false) (on : t.sbc.receiverOn = true) (w : f.wf = true) :
    Received s (deliver f t)

/-- What a command leaves: the samples it brings, an effect, and in a transaction a reply. -/
def Leaves (s t : State) : Prop := ∃ v u, Received s v ∧ Effect v u ∧ (t = u ∨ ∃ r, t = { u with port.reply := r })

theorem Leaves.of {s u : State} (h : Effect s u) : Leaves s u := ⟨s, u, .none, h, .inl rfl⟩

theorem Leaves.reply {s t : State} (h : Leaves s t) (r : Option (List Byte)) : Leaves s { t with port.reply := r } := by
  obtain ⟨v, u, hv, hu, rfl | ⟨r', rfl⟩⟩ := h <;> exact ⟨v, _, hv, hu, .inr ⟨r, rfl⟩⟩

theorem Leaves.after {s v t : State} (hv : Received s v) (h : Effect v t) : Leaves s t := ⟨v, t, hv, h, .inl rfl⟩

theorem takes_held {s : State} {select : Select} (h : s.takes select = true) : s.ctl.held = false := by
  unfold State.takes State.portOpen at h; revert h; cases s.ctl.held <;> simp

theorem leaves_request {command : Byte} {args : List Byte} {tail : Tail} {n : Nat} {owner : State → Answer}
    {s t : State} (ho : s.ctl.held = false → Effect s (owner s).state)
    (h : hostRequest command args tail n owner s = .next t) : Leaves s t := by
  rcases hostRequest_cases command args tail n owner s with ⟨-, k⟩ | ⟨-, -, k⟩ | ⟨hk, k⟩ <;>
    (rw [k] at h; injection h with h; subst h)
  · obtain ⟨r, e⟩ := turnAway_reply s
    rw [e]; exact (Leaves.of .none).reply r
  · exact (Leaves.of (.flags (s.port.flags ||| Flag.mask .spi))).reply _
  · exact (Leaves.of (ho (takes_held hk.1))).reply _

theorem leaves_event {s t : State} {f : State → State} (hf : s.ctl.held = false → Leaves s (f s))
    (h : event s f = .next t) : Leaves s t :=
  event_keeps (P := Leaves s) (.of .none) hf h

theorem effect_whenStarted {s : State} {a : Answer} (h : s.ctl.mode ≠ .unconfigured → Effect s a.state) :
    Effect s (whenStarted s a).state := by
  unfold whenStarted; split
  · exact .none
  · next k => exact h k

theorem effect_whenUnconfigured {s : State} {a : Answer} (h : s.ctl.mode = .unconfigured → Effect s a.state) :
    Effect s (whenUnconfigured s a).state := by
  unfold whenUnconfigured; split
  · next k => exact h k
  · exact .none

theorem classArg_code {b : Byte} {c : FaultClass} (h : classArg b = some c) : c.code ≤ 6 := by
  unfold classArg FaultClass.ofLocalCode at h
  split at h
  · next hn =>
    revert h
    generalize b.toNat = n at hn
    interval_cases n <;> intro h <;> first | (injection h with h; subst h; decide) | cases h
  · simp at h

/-- A frame that passes the receiver's checks has at most four accusations, each of another zone (R38). -/
theorem readStatus_list {id : Station} {bits : List Bool} {f : Frame} (h : readStatus id bits = some f) : f.wf = true := by
  unfold readStatus at h
  split at h
  · split at h
    · next hc =>
      split at h
      · next lown lapp list _ _ hl =>
        split at h
        · next hn =>
          injection h with h
          subst h
          have : ∀ (n : Nat) (bits : List Bool) (l : List Accusation), readEntries n bits = some l → l.length = n := by
            intro n
            induction n with
            | zero => intro bits l h; unfold readEntries at h; split at h <;> simp_all
            | succ n ih =>
              intro bits l h
              unfold readEntries at h
              split at h
              · simp_all
              · next k _ _ _ _ _ _ _ _ _ _ rest hk =>
                simp at hk; subst hk
                split at h
                · next a l' _ hl' => injection h with h; subst h; simp [ih _ _ hl']
                · simp at h
              · simp at h
          have hlen := this _ _ _ hl
          simp [Frame.wf, hn, hlen, hc]
        · simp at h
      · simp at h
    · simp at h
  · simp at h

theorem receive_wf {bits : List Bool} {f : Frame} (h : receive bits = some f) : f.wf = true := by
  unfold receive at h
  split at h
  · cases hd : destuff (bits.take (bits.length - 7)) with
    | none => simp [hd] at h
    | some l =>
      simp only [hd, Option.bind_some] at h
      unfold readBody at h
      split at h
      · dsimp only at h
        split at h
        · unfold readCovered at h
          split at h
          · dsimp only at h
            split at h
            · injection h with h; subst h; rfl
            · exact readStatus_list h
            · injection h with h; subst h; rfl
            · simp at h
          · simp at h
        · simp at h
      · simp at h
  · simp at h

/-- R38: what the receiver takes as a frame from samples is one that the checks pass. -/
theorem sample_wf {l m : Line} {b : Bool} {f : Frame} (h : l.sample b = (m, some f)) : f.wf = true := by
  cases l with
  | idle => cases b <;> simp [Line.sample] at h
  | frame bits =>
    simp only [Line.sample] at h
    split at h
    · injection h with _ h; exact receive_wf h
    · simp at h
  | wait left again => cases b <;> simp [Line.sample] at h

theorem effect_deliver {f : Frame} {s : State} (hh : s.ctl.held = false) (on : s.sbc.receiverOn = true) (hw : f.wf = true) :
    Effect s (deliver f s) := by
  unfold deliver
  split
  · exact .none
  · split
    · exact .settled _ (.duplicate hh on)
    · next hid =>
      cases f with
      | hello p role g => exact .settled _ (.hello p role g hh on hid)
      | status p join attest si more g lown lapp list =>
        refine .settled _ (.status p join g ⟨lown, lapp, attest, si, more⟩ list hh on hid ?_)
        simpa [Frame.wf] using hw
      | leave p => exact .settled _ (.leave p hh on hid)

theorem deliver_held (f : Frame) (s : State) : (deliver f s).ctl.held = s.ctl.held := by
  unfold deliver duplicateId takePeerFrame
  split
  · rfl
  · split
    · rw [settle_held]; rfl
    · cases f <;> dsimp only <;> rw [settle_held]
      · unfold raiseIf; split <;> rfl
      · rfl
      · rfl

theorem received (bits : List Bool) : ∀ {s t : State}, Received s t → t.ctl.held = false → Received s (receiveSamples bits t)
    ∧ (receiveSamples bits t).ctl.held = false := by
  induction bits with
  | nil => exact fun h hh => ⟨h, hh⟩
  | cons b bs ih =>
    intro s t h hh
    rw [receiveSamples, receiveSample]
    split
    · next on =>
      split
      · next m f k =>
        exact ih (.frame f (.line m h on) hh on (sample_wf k)) (by rw [deliver_held]; exact hh)
      · next m k => exact ih (.line m h on) hh
    · exact ih h hh

theorem leaves_receive {k : Kind} {idle : Nat} {bits : List Bool} {s t : State} (h : receiveAs k idle bits s = .next t) :
    Leaves s t := by
  unfold receiveAs at h
  split at h
  · exact leaves_event (fun hh => .after (received _ .none hh).1 .none) h
  · simp at h

end Sys2Proof.Machine
end

