-- ==== Sys2Proof/Laws/Commands.lean ====
section
/-! SUPPORT. Every command leaves one of the effects of Laws/Effects.lean, and so does every step but the passing of a
millisecond. -/

namespace Sys2Proof.Machine

theorem leaves_next {s u t : State} (h : Effect s u) (e : (Host.Outcome.next u : Result) = .next t) : Leaves s t := by
  injection e with e; subst e; exact .of h

theorem effect_declareFault {c : FaultClass} {z : Zone} {v : Severity} {s : State} (m : s.ctl.mode ≠ .unconfigured)
    (k : c.code ≤ 6) : Effect s (declareFault c z v s).state := by
  unfold declareFault
  split
  · split
    · next x hx => simp only [accept_state]; exact .settled _ (.redeclare _ x v m hx)
    · exact .none
  · next hd =>
    split
    · next d hp => simp only [accept_state]; exact .settled _ (.place d c z v m k hd hp)
    · exact .none

theorem effect_withdrawFault {c : FaultClass} {z : Zone} {s : State} (m : s.ctl.mode ≠ .unconfigured) :
    Effect s (withdrawFault c z s).state := by
  unfold withdrawFault
  split
  · split
    · next x hx => simp only [accept_state]; exact .settled _ (.withdraw _ x m hx)
    · exact .none
  · exact .none

theorem effect_clearSlot {name : SlotName} {s : State} (m : s.ctl.mode ≠ .unconfigured) :
    Effect s (clearSlot name s).state := by
  unfold clearSlot
  split
  · split
    · exact .none
    · next n _ x hx =>
      cases h : x.stillAsserted
      · simp only [Bool.false_eq_true, if_false, accept_state]; exact .settled _ (.clearInput n x m hx h)
      · simp only [if_true]; exact .none
  · split
    · exact .none
    · simp only [accept_state]; exact .settled _ (.clearDeclared _ m)

theorem effect_releaseZone {z : Zone} {w : Half} {s : State} (m : s.ctl.mode ≠ .unconfigured) :
    Effect s (releaseZone z w s).state := by
  unfold releaseZone
  dsimp only
  split
  · exact .none
  · exact .none
  · exact .none
  · exact .none
  · next hs =>
    split
    · split
      · next he => simp only [accept_state]; exact .settled _ (.release z m hs (List.isEmpty_iff.mp he))
      · exact .none
    · exact .none

theorem effect_closeContactor {s : State} (f : s.cfg.contactorFitted = true) : Effect s (closeContactor s).state := by
  unfold closeContactor
  split
  · exact .none
  · exact .none
  · next ho =>
    split
    · next hm =>
      split
      · exact .none
      · next hb => simp at hb; exact .closeContactor f hm ho hb.1 hb.2
    · exact .none

theorem effect_openContactor {s : State} (f : s.cfg.contactorFitted = true) : Effect s (openContactor s).state := by
  unfold openContactor
  split
  · exact .openContactor f
  · exact .none
  · exact .none

theorem execAssertion_leaves {n : Input} {held : Nat} {s t : State} (h : execAssertion n held s = .next t) :
    Leaves s t := by
  unfold execAssertion at h
  split at h
  · exact leaves_next .none h
  · next hn =>
    split at h
    · next hh => exact leaves_next (.line n true hh) h
    · next hh =>
      simp only [not_or, Bool.not_eq_true] at hn hh
      exact leaves_next (.settled _ (.assertion n hh hn.2)) h

theorem execInputRelease_leaves {n : Input} {held : Nat} {s t : State} (h : execInputRelease n held s = .next t) :
    Leaves s t := by
  unfold execInputRelease at h
  split at h
  · exact leaves_next .none h
  · next hn =>
    split at h
    · next hh => exact leaves_next (.line n false hh) h
    · next hh =>
      simp only [not_or, Bool.not_eq_false, Bool.not_eq_true] at hn hh
      exact leaves_next (.settled _ (.inputRelease n hh hn.2)) h

theorem execQualifyExpiry_leaves {n : Input} {s t : State} (h : execQualifyExpiry n s = .next t) :
    Leaves s t := by
  unfold execQualifyExpiry at h
  refine leaves_event (fun hh => .of ?_) h
  split
  · next q => exact .settled _ (.qualify n hh q)
  · exact .none

theorem execHealExpiry_leaves {n : Input} {s t : State} (h : execHealExpiry n s = .next t) :
    Leaves s t := by
  unfold execHealExpiry at h
  refine leaves_event (fun hh => .of ?_) h
  split
  · next q => exact .settled _ (.heal n hh q)
  · exact .none

theorem execDeclaredHealExpiry_leaves {d : DeclSlot} {s t : State} (h : execDeclaredHealExpiry d s = .next t) :
    Leaves s t := by
  unfold execDeclaredHealExpiry at h
  refine leaves_event (fun hh => .of ?_) h
  split
  · next q => exact .settled _ (.declaredHeal d hh q)
  · exact .none

theorem execSetTiming_leaves {item : Byte} {value : Half} {tail : Tail} {s t : State} (h : execSetTiming item value tail s = .next t) :
    Leaves s t := by
  unfold execSetTiming at h
  refine leaves_request (fun _ => effect_whenUnconfigured fun m => ?_) h
  split
  · exact .setTiming _ value m
  · exact .none

theorem execSetZone_leaves {zone l1 l2 l3 : Byte} {delay : Half} {attrs : Byte} {tail : Tail} {s t : State} (h : execSetZone zone l1 l2 l3 delay attrs tail s = .next t) :
    Leaves s t := by
  unfold execSetZone at h
  refine leaves_request (fun _ => effect_whenUnconfigured fun m => ?_) h
  split
  · exact .setZone _ l1 l2 l3 delay attrs m
  · exact .none

theorem execSetInput_leaves {input flags qualify heal cls severity zone : Byte} {tail : Tail} {s t : State} (h : execSetInput input flags qualify heal cls severity zone tail s = .next t) :
    Leaves s t := by
  unfold execSetInput at h
  refine leaves_request (fun _ => effect_whenUnconfigured fun m => ?_) h
  split
  · next n c _ hc => exact .setInput n flags qualify heal cls severity zone c m hc
  · exact .none

theorem execSetLevels_leaves {b0 b1 b2 b3 v0 v1 v2 v3 : Half} {tail : Tail} {s t : State} (h : execSetLevels b0 b1 b2 b3 v0 v1 v2 v3 tail s = .next t) :
    Leaves s t := by
  unfold execSetLevels at h
  exact leaves_request (fun _ => effect_whenUnconfigured fun m => .setLevels _ _ m) h

theorem execSetPeers_leaves {expected group quorum : Byte} {tail : Tail} {s t : State} (h : execSetPeers expected group quorum tail s = .next t) :
    Leaves s t := by
  unfold execSetPeers at h
  exact leaves_request (fun _ => effect_whenUnconfigured fun m => .setPeers expected group quorum m) h

theorem execStart_leaves {tail : Tail} {s t : State} (h : execStart tail s = .next t) :
    Leaves s t := by
  have start (hh : s.ctl.held = false) : Effect s (whenUnconfigured s (startUnit s)).state :=
    effect_whenUnconfigured fun m => by simp only [startUnit, accept_state]; exact .settled _ (.start hh m)
  unfold execStart at h
  split at h
  · next hm =>
    injection h with h; subst h
    exact (Leaves.of (start (by unfold State.meetsReset at hm; simp at hm; exact hm.1.2))).reply _
  · exact leaves_request start h

theorem execStress_leaves {value : Byte} {tail : Tail} {s t : State} (h : execStress value tail s = .next t) :
    Leaves s t := by
  unfold execStress at h
  refine leaves_request (fun _ => effect_whenStarted fun m => ?_) h
  simp only [accept_state]
  exact .settled _ (.stress value m)

theorem execDeclare_leaves {cls zone severity : Byte} {tail : Tail} {s t : State} (h : execDeclare cls zone severity tail s = .next t) :
    Leaves s t := by
  unfold execDeclare at h
  refine leaves_request (fun _ => ?_) h
  split
  · next c z v hc _ _ => exact effect_whenStarted fun m => effect_declareFault m (classArg_code hc)
  · exact .none

theorem execWithdraw_leaves {cls zone : Byte} {tail : Tail} {s t : State} (h : execWithdraw cls zone tail s = .next t) :
    Leaves s t := by
  unfold execWithdraw at h
  refine leaves_request (fun _ => ?_) h
  split
  · exact effect_whenStarted fun m => effect_withdrawFault m
  · exact .none

theorem execClearFault_leaves {slot : Byte} {tail : Tail} {s t : State} (h : execClearFault slot tail s = .next t) :
    Leaves s t := by
  unfold execClearFault at h
  refine leaves_request (fun _ => effect_whenStarted fun m => ?_) h
  split
  · exact effect_clearSlot m
  · exact .none

theorem execClearAll_leaves {tail : Tail} {s t : State} (h : execClearAll tail s = .next t) :
    Leaves s t := by
  unfold execClearAll at h
  refine leaves_request (fun _ => effect_whenStarted fun m => ?_) h
  simp only [accept_state]
  exact .settled _ (.clearAll m)

theorem execFloor_leaves {level : Byte} {tail : Tail} {s t : State} (h : execFloor level tail s = .next t) :
    Leaves s t := by
  unfold execFloor at h
  refine leaves_request (fun _ => effect_whenStarted fun m => ?_) h
  simp only [accept_state]
  exact .settled _ (.floor _ m)

theorem execRelease_leaves {zone : Byte} {stamp : Half} {tail : Tail} {s t : State} (h : execRelease zone stamp tail s = .next t) :
    Leaves s t := by
  unfold execRelease at h
  refine leaves_request (fun _ => effect_whenStarted fun m => ?_) h
  split
  · exact effect_releaseZone m
  · exact .none

theorem execTripClear_leaves {tail : Tail} {s t : State} (h : execTripClear tail s = .next t) :
    Leaves s t := by
  unfold execTripClear at h
  refine leaves_request (fun hh => ?_) h
  split
  · exact .none
  · next q =>
    split
    · simp only [accept_state]; exact .settled _ (.tripClear hh (by simpa using q))
    · exact .none

theorem execContactorClose_leaves {tail : Tail} {s t : State} (h : execContactorClose tail s = .next t) :
    Leaves s t := by
  unfold execContactorClose at h
  refine leaves_request (fun _ => ?_) h
  split
  · next f => exact effect_closeContactor f
  · exact .none

theorem execContactorOpen_leaves {tail : Tail} {s t : State} (h : execContactorOpen tail s = .next t) :
    Leaves s t := by
  unfold execContactorOpen at h
  refine leaves_request (fun _ => ?_) h
  split
  · next f => exact effect_openContactor f
  · exact .none

theorem execDepart_leaves {tail : Tail} {s t : State} (h : execDepart tail s = .next t) :
    Leaves s t := by
  unfold execDepart at h
  refine leaves_request (fun _ => ?_) h
  split
  · exact .none
  · exact .none
  · next m => simp only [departUnit, accept_state]; exact .settled _ (.depart (.inl m))
  · next m => simp only [departUnit, accept_state]; exact .settled _ (.depart (.inr m))

theorem execRejoin_leaves {tail : Tail} {s t : State} (h : execRejoin tail s = .next t) :
    Leaves s t := by
  unfold execRejoin at h
  refine leaves_request (fun _ => ?_) h
  split
  · next m => simp only [rejoinUnit, accept_state]; exact .settled _ (.rejoin m)
  · exact .none

theorem execReadSummary_leaves {tail : Tail} {s t : State} (h : execReadSummary tail s = .next t) :
    Leaves s t := by
  unfold execReadSummary at h
  exact leaves_request (fun _ => .none) h

theorem execReadZone_leaves {zone : Byte} {tail : Tail} {s t : State} (h : execReadZone zone tail s = .next t) :
    Leaves s t := by
  unfold execReadZone at h
  refine leaves_request (fun _ => ?_) h
  split <;> exact .none

theorem execReadPeer_leaves {station : Byte} {tail : Tail} {s t : State} (h : execReadPeer station tail s = .next t) :
    Leaves s t := by
  unfold execReadPeer at h
  refine leaves_request (fun _ => ?_) h
  split <;> exact .none

theorem execReadFault_leaves {slot : Byte} {tail : Tail} {s t : State} (h : execReadFault slot tail s = .next t) :
    Leaves s t := by
  unfold execReadFault at h
  refine leaves_request (fun _ => ?_) h
  split <;> exact .none

theorem execReadTime_leaves {tail : Tail} {s t : State} (h : execReadTime tail s = .next t) :
    Leaves s t := by
  unfold execReadTime at h
  exact leaves_request (fun _ => .none) h

theorem execAck_leaves {mask : Byte} {tail : Tail} {s t : State} (h : execAck mask tail s = .next t) :
    Leaves s t := by
  unfold execAck at h
  exact leaves_request (fun _ => .flags _) h

theorem execFlagTest_leaves {setMask clearMask : Byte} {tail : Tail} {s t : State} (h : execFlagTest setMask clearMask tail s = .next t) :
    Leaves s t := by
  unfold execFlagTest at h
  exact leaves_request (fun _ => .flags _) h

theorem execEnable_leaves {mask : Byte} {tail : Tail} {s t : State} (h : execEnable mask tail s = .next t) :
    Leaves s t := by
  unfold execEnable at h
  exact leaves_request (fun _ => .enable _) h

theorem execReset_leaves {tail : Tail} {s t : State} (h : execReset tail s = .next t) :
    Leaves s t := by
  unfold execReset at h
  exact leaves_request (fun hh => .hostReset hh) h

theorem execUnknownCommand_leaves {byte : Byte} {tail : Tail} {s t : State} (h : execUnknownCommand byte tail s = .next t) :
    Leaves s t := by
  unfold execUnknownCommand at h
  split at h
  · exact leaves_request (fun _ => .flags _) h
  · simp at h

theorem runRequest_leaves {i : Instr} {s t : State} (h : runRequest i s = .next t) : Leaves s t := by
  cases i with
  | setTiming _ _ _ => exact execSetTiming_leaves h
  | setZone _ _ _ _ _ _ _ => exact execSetZone_leaves h
  | setInput _ _ _ _ _ _ _ _ => exact execSetInput_leaves h
  | setLevels _ _ _ _ _ _ _ _ _ => exact execSetLevels_leaves h
  | setPeers _ _ _ _ => exact execSetPeers_leaves h
  | start _ => exact execStart_leaves h
  | stress _ _ => exact execStress_leaves h
  | declare _ _ _ _ => exact execDeclare_leaves h
  | withdraw _ _ _ => exact execWithdraw_leaves h
  | clearFault _ _ => exact execClearFault_leaves h
  | clearAll _ => exact execClearAll_leaves h
  | floor _ _ => exact execFloor_leaves h
  | release _ _ _ => exact execRelease_leaves h
  | tripClear _ => exact execTripClear_leaves h
  | contactorClose _ => exact execContactorClose_leaves h
  | contactorOpen _ => exact execContactorOpen_leaves h
  | depart _ => exact execDepart_leaves h
  | rejoin _ => exact execRejoin_leaves h
  | readSummary _ => exact execReadSummary_leaves h
  | readZone _ _ => exact execReadZone_leaves h
  | readPeer _ _ => exact execReadPeer_leaves h
  | readFault _ _ => exact execReadFault_leaves h
  | readTime _ => exact execReadTime_leaves h
  | ack _ _ => exact execAck_leaves h
  | flagTest _ _ _ => exact execFlagTest_leaves h
  | enable _ _ => exact execEnable_leaves h
  | reset _ => exact execReset_leaves h
  | unknownCommand _ _ => exact execUnknownCommand_leaves h
  | _ => exact leaves_next .none h

theorem execRequestDiscarded_leaves {clocked : Clocked} {s t : State}
    (h : execRequestDiscarded clocked s = .next t) : Leaves s t := by
  have taken : ∀ u, takeBits clocked.select clocked.bits s = .next u → Leaves s u := fun u hu => by
    unfold takeBits at hu
    split at hu
    · exact runRequest_leaves hu
    · exact leaves_next .none hu
  unfold execRequestDiscarded at h
  split at h
  · next u hu => injection h with h; subst h; exact (taken u hu).reply _
  · cases h
  · cases h

theorem execHostReset_leaves {low : Nat} {s t : State} (h : execHostReset low s = .next t) :
    Leaves s t := by
  unfold execHostReset at h
  injection h with h; subst h
  split
  · exact .of .none
  · split
    · next hh => exact .of (.rstLow hh)
    · next hh => exact ⟨s, _, .none, .hostResetPin (by simpa using hh), .inr ⟨_, rfl⟩⟩

theorem execPowerOnReset_leaves {s t : State} (h : execPowerOnReset s = .next t) :
    Leaves s t := by
  unfold execPowerOnReset at h
  exact leaves_next .powerOn h

theorem execHello_leaves {idle : Nat} {bits : List Bool} {s t : State} (h : execHello idle bits s = .next t) :
    Leaves s t := by
  exact leaves_receive h

theorem execStatus_leaves {idle : Nat} {bits : List Bool} {s t : State} (h : execStatus idle bits s = .next t) :
    Leaves s t := by
  exact leaves_receive h

theorem execLeave_leaves {idle : Nat} {bits : List Bool} {s t : State} (h : execLeave idle bits s = .next t) :
    Leaves s t := by
  exact leaves_receive h

theorem execFrameStart_leaves {idle : Nat} {s t : State} (h : execFrameStart idle s = .next t) :
    Leaves s t := by
  unfold execFrameStart at h
  refine leaves_event (fun hh => ?_) h
  obtain ⟨hr, hh'⟩ := received (List.replicate idle true) (.none (s := s)) hh
  refine .after hr ?_
  unfold startFrame
  split
  · next f hf => exact .frameStart f hh' hf
  · exact .none

theorem execLostContention_leaves {bit : Nat} {s t : State} (h : execLostContention bit s = .next t) :
    Leaves s t := by
  unfold execLostContention at h
  refine leaves_event (fun hh => .of ?_) h
  split
  · next f hi =>
    split
    · exact .lost f bit false hi
    · exact .none
  · exact .none

theorem execBitFault_leaves {bit : Nat} {s t : State} (h : execBitFault bit s = .next t) :
    Leaves s t := by
  unfold execBitFault at h
  refine leaves_event (fun hh => .of ?_) h
  split
  · next f hi =>
    split
    · exact .settled _ (.bitFault bit _ hh f hi)
    · exact .none
  · exact .none

theorem execCompletes_leaves {s t : State} (h : execCompletes s = .next t) :
    Leaves s t := by
  unfold execCompletes at h
  refine leaves_event (fun hh => .of ?_) h
  split
  · next f hi => exact .settled _ (.completes hh f hi)
  · exact .none

theorem execStatusTimerExpiry_leaves {s t : State} (h : execStatusTimerExpiry s = .next t) :
    Leaves s t := by
  unfold execStatusTimerExpiry at h
  refine leaves_event (fun hh => .of ?_) h
  split
  · next q => exact .statusTimer hh q
  · exact .none

theorem execSpacingTimerExpiry_leaves {s t : State} (h : execSpacingTimerExpiry s = .next t) :
    Leaves s t := by
  unfold execSpacingTimerExpiry at h
  exact leaves_event (fun hh => .of (.spacing hh)) h

theorem execMuteTimerExpiry_leaves {s t : State} (h : execMuteTimerExpiry s = .next t) :
    Leaves s t := by
  unfold execMuteTimerExpiry at h
  refine leaves_event (fun hh => .of ?_) h
  split
  · next q => exact .settled _ (.muteExpiry hh q)
  · exact .none

theorem execSilenceTimerExpiry_leaves {p : Station} {s t : State} (h : execSilenceTimerExpiry p s = .next t) :
    Leaves s t := by
  unfold execSilenceTimerExpiry at h
  refine leaves_event (fun hh => .of ?_) h
  split
  · next q => exact .settled _ (.silence p hh q)
  · exact .none

theorem execLeaveTimerExpiry_leaves {p : Station} {s t : State} (h : execLeaveTimerExpiry p s = .next t) :
    Leaves s t := by
  unfold execLeaveTimerExpiry at h
  refine leaves_event (fun hh => .of ?_) h
  split
  · next q => exact .settled _ (.leaveExpiry p hh q)
  · exact .none

theorem execJoinDeadlineExpiry_leaves {s t : State} (h : execJoinDeadlineExpiry s = .next t) :
    Leaves s t := by
  unfold execJoinDeadlineExpiry at h
  refine leaves_event (fun hh => .of ?_) h
  split
  · next q => exact .settled _ (.deadline hh q.1 q.2)
  · exact .none

theorem execIsolationDelayExpiry_leaves {z : Zone} {s t : State} (h : execIsolationDelayExpiry z s = .next t) :
    Leaves s t := by
  unfold execIsolationDelayExpiry at h
  refine leaves_event (fun hh => .of ?_) h
  split
  · next q => exact .settled _ (.delayExpiry z hh q.1 q.2)
  · exact .none

theorem execDisputeTimerExpiry_leaves {z : Zone} {s t : State} (h : execDisputeTimerExpiry z s = .next t) :
    Leaves s t := by
  unfold execDisputeTimerExpiry at h
  refine leaves_event (fun hh => .of ?_) h
  split
  · next q => exact .settled _ (.disputeExpiry z hh q)
  · exact .none

theorem execCleanTimerExpiry_leaves {z : Zone} {s t : State} (h : execCleanTimerExpiry z s = .next t) :
    Leaves s t := by
  unfold execCleanTimerExpiry at h
  refine leaves_event (fun hh => .of ?_) h
  split
  · next q => exact .clean z hh q
  · exact .none

theorem execStressTimerExpiry_leaves {s t : State} (h : execStressTimerExpiry s = .next t) :
    Leaves s t := by
  unfold execStressTimerExpiry at h
  refine leaves_event (fun hh => .of ?_) h
  split
  · next q => exact .settled _ (.stressExpiry hh q)
  · exact .none

theorem execDwellTimerExpiry_leaves {s t : State} (h : execDwellTimerExpiry s = .next t) :
    Leaves s t := by
  unfold execDwellTimerExpiry at h
  exact leaves_event (fun hh => .of (.dwell hh)) h

theorem execRampExpiry_leaves {s t : State} (h : execRampExpiry s = .next t) :
    Leaves s t := by
  unfold execRampExpiry at h
  refine leaves_event (fun hh => .of ?_) h
  split
  · next q => exact .ramp hh q
  · exact .none

theorem execReArmTimerExpiry_leaves {s t : State} (h : execReArmTimerExpiry s = .next t) :
    Leaves s t := by
  unfold execReArmTimerExpiry at h
  exact leaves_event (fun hh => .of (.rearm hh)) h

theorem execPwmPeriodStart_leaves {s t : State} (h : execPwmPeriodStart s = .next t) :
    Leaves s t := by
  unfold execPwmPeriodStart at h
  exact leaves_event (fun hh => .of (.pwm hh)) h

theorem execContactorDelayExpiry_leaves {s t : State} (h : execContactorDelayExpiry s = .next t) :
    Leaves s t := by
  unfold execContactorDelayExpiry at h
  refine leaves_event (fun hh => .of ?_) h
  split
  · next q => exact .contactorDelay hh q
  · exact .none

theorem execReleaseFromReset_leaves {straps : Straps} {ready : Nat} {s t : State}
    (h : execReleaseFromReset straps ready s = .next t) : Leaves s t := by
  unfold execReleaseFromReset at h
  injection h with h; subst h
  split
  · next hh => simp only [Bool.and_eq_true] at hh; exact .of (.powerUp straps hh.1.1)
  · exact .of .none

theorem execRstNReturnsHigh_leaves {s t : State} (h : execRstNReturnsHigh s = .next t) :
    Leaves s t := by
  unfold execRstNReturnsHigh at h
  injection h with h; subst h
  split
  · exact (Leaves.of .rstHigh).reply _
  · exact .of .none

/-- Everything a command can do. -/
theorem exec_leaves {c : Instr} {s t : State} (h : exec c s = .next t) : Leaves s t := by
  cases c with
  | assertion _ _ => exact execAssertion_leaves h
  | inputRelease _ _ => exact execInputRelease_leaves h
  | qualifyExpiry _ => exact execQualifyExpiry_leaves h
  | healExpiry _ => exact execHealExpiry_leaves h
  | declaredHealExpiry _ => exact execDeclaredHealExpiry_leaves h
  | setTiming _ _ _ => exact execSetTiming_leaves h
  | setZone _ _ _ _ _ _ _ => exact execSetZone_leaves h
  | setInput _ _ _ _ _ _ _ _ => exact execSetInput_leaves h
  | setLevels _ _ _ _ _ _ _ _ _ => exact execSetLevels_leaves h
  | setPeers _ _ _ _ => exact execSetPeers_leaves h
  | start _ => exact execStart_leaves h
  | stress _ _ => exact execStress_leaves h
  | declare _ _ _ _ => exact execDeclare_leaves h
  | withdraw _ _ _ => exact execWithdraw_leaves h
  | clearFault _ _ => exact execClearFault_leaves h
  | clearAll _ => exact execClearAll_leaves h
  | floor _ _ => exact execFloor_leaves h
  | release _ _ _ => exact execRelease_leaves h
  | tripClear _ => exact execTripClear_leaves h
  | contactorClose _ => exact execContactorClose_leaves h
  | contactorOpen _ => exact execContactorOpen_leaves h
  | depart _ => exact execDepart_leaves h
  | rejoin _ => exact execRejoin_leaves h
  | readSummary _ => exact execReadSummary_leaves h
  | readZone _ _ => exact execReadZone_leaves h
  | readPeer _ _ => exact execReadPeer_leaves h
  | readFault _ _ => exact execReadFault_leaves h
  | readTime _ => exact execReadTime_leaves h
  | ack _ _ => exact execAck_leaves h
  | flagTest _ _ _ => exact execFlagTest_leaves h
  | enable _ _ => exact execEnable_leaves h
  | reset _ => exact execReset_leaves h
  | unknownCommand _ _ => exact execUnknownCommand_leaves h
  | requestDiscarded _ => exact execRequestDiscarded_leaves h
  | hostReset _ => exact execHostReset_leaves h
  | powerOnReset => exact execPowerOnReset_leaves h
  | hello _ _ => exact execHello_leaves h
  | status _ _ => exact execStatus_leaves h
  | leave _ _ => exact execLeave_leaves h
  | frameStart _ => exact execFrameStart_leaves h
  | lostContention _ => exact execLostContention_leaves h
  | bitFault _ => exact execBitFault_leaves h
  | completes => exact execCompletes_leaves h
  | statusTimerExpiry => exact execStatusTimerExpiry_leaves h
  | spacingTimerExpiry => exact execSpacingTimerExpiry_leaves h
  | muteTimerExpiry => exact execMuteTimerExpiry_leaves h
  | silenceTimerExpiry _ => exact execSilenceTimerExpiry_leaves h
  | leaveTimerExpiry _ => exact execLeaveTimerExpiry_leaves h
  | joinDeadlineExpiry => exact execJoinDeadlineExpiry_leaves h
  | isolationDelayExpiry _ => exact execIsolationDelayExpiry_leaves h
  | disputeTimerExpiry _ => exact execDisputeTimerExpiry_leaves h
  | cleanTimerExpiry _ => exact execCleanTimerExpiry_leaves h
  | stressTimerExpiry => exact execStressTimerExpiry_leaves h
  | dwellTimerExpiry => exact execDwellTimerExpiry_leaves h
  | rampExpiry => exact execRampExpiry_leaves h
  | reArmTimerExpiry => exact execReArmTimerExpiry_leaves h
  | pwmPeriodStart => exact execPwmPeriodStart_leaves h
  | contactorDelayExpiry => exact execContactorDelayExpiry_leaves h
  | releaseFromReset _ _ => exact execReleaseFromReset_leaves h
  | rstNReturnsHigh => exact execRstNReturnsHigh_leaves h

/-- A step leaves what the command at the front of the queue leaves; on an empty queue it passes a millisecond, or takes the
next of the events that fell due, which leaves what its expiry leaves or, if it is due no more, nothing. -/
theorem step_leaves {s t : State} (h : step s = .next t) :
    (∃ c rest, s.pending = c :: rest ∧ Leaves { s with pending := rest } t) ∨ s.pending = [] ∧ (s.due = [] ∧ t = tick s
      ∨ ∃ c rest, s.due = c :: rest ∧ (Leaves { s with due := rest } t ∨ t = { s with due := rest })) := by
  unfold step at h
  split at h
  · next hp =>
    refine .inr ⟨hp, ?_⟩
    unfold idle at h
    split at h
    · next hd => injection h with h; exact .inl ⟨hd, h.symm⟩
    · next c rest hd =>
      split at h
      · exact .inr ⟨c, rest, hd, .inl (exec_leaves h)⟩
      · injection h with h; exact .inr ⟨c, rest, hd, .inr h.symm⟩
  · next c rest hp => exact .inl ⟨c, rest, hp, exec_leaves h⟩

/-- A property of the blocks that every effect keeps, and that neither the reply, nor what the receiver makes of the line, nor the queue, nor the events that wait to
have their turn, nor the count of open choices, nor the passing of a millisecond can break, is kept by every step. -/
theorem step_keeps {P : State → Prop} (reply : ∀ u r, P u → P { u with port.reply := r })
    (line : ∀ u l, u.sbc.receiverOn = true → P u → P { u with sbc.line := l })
    (queue : ∀ u q d n, P u → P { u with pending := q, due := d, choices := n })
    (time : ∀ u, u.ctl.held = false → P u → P (elapse u)) (effect : ∀ u v, P u → Effect u v → P v) {s t : State} (hs : P s)
    (h : step s = .next t) : P t := by
  have leaves : ∀ u, P u → Leaves u t → P t := by
    rintro u hu ⟨v, w, hv, hw, k⟩
    have hv' : P v := by
      clear hw
      induction hv with
      | none => exact hu
      | line l _ on ih => exact line _ l on ih
      | frame f _ hh on w ih => exact effect _ _ ih (effect_deliver hh on w)
    have ht := effect v w hv' hw
    rcases k with rfl | ⟨r, rfl⟩
    · exact ht
    · exact reply _ _ ht
  rcases step_leaves h with ⟨c, rest, -, k⟩ | ⟨-, ⟨-, rfl⟩ | ⟨c, rest, -, k | rfl⟩⟩
  · exact leaves _ (queue s rest s.due s.choices hs) k
  · unfold tick
    split
    · exact hs
    · next hh =>
      have ht := time s (by simpa using hh) hs
      unfold setDue
      split
      · exact queue _ _ _ (elapse s).choices ht
      · exact queue _ _ _ (elapse s).choices ht
      · exact queue _ _ _ _ ht
  · exact leaves _ (queue s s.pending rest s.choices hs) k
  · exact queue s s.pending rest s.choices hs

end Sys2Proof.Machine
end

