-- ==== Sys2Proof/Laws/Blocks.lean ====
section
/-! SUPPORT. What the changes of single blocks leave alone: the trip latch, the input slots, the frames, the entry to JOINING
and the host reset. -/

namespace Sys2Proof.Machine

/-! ### The trip latch -/

/-- What the setting of the trip latch may not touch. -/
structure TripWork (u t : State) : Prop where
  ctl : t.ctl = u.ctl
  pins : t.pins = u.pins
  cfg : t.cfg = u.cfg
  lft : t.lft = u.lft
  sbc : t.sbc = u.sbc
  pv : t.pv = u.pv
  ziu : t.ziu = u.ziu
  lvl : t.lvl = u.lvl
  perm : t.perm = { u.perm with output := t.perm.output }
  out : t.out = { u.out with tripLatch := t.out.tripLatch, pendingDuty := t.out.pendingDuty }
  enable : t.port.enable = u.port.enable
  reply : t.port.reply = u.port.reply
  pending : t.pending = u.pending
  due : t.due = u.due
  choices : t.choices = u.choices

theorem TripWork.refl (s : State) : TripWork s s := by constructor <;> rfl

theorem setTrip_work (s : State) : TripWork s (setTrip s) := by
  unfold setTrip setOutput
  split
  · exact TripWork.refl s
  · split <;> constructor <;> rfl

/-- R124, R138: a setting of the latch makes the output cap 0; a latch already set is left with all else. -/
theorem setTrip_cases (s : State) : (s.out.tripLatch = true ∧ setTrip s = s)
    ∨ (s.out.tripLatch = false ∧ (setTrip s).out.tripLatch = true ∧ (setTrip s).perm.output = 0
      ∧ (setTrip s).port.flags = s.port.flags ||| Flag.mask .trip) := by
  unfold setTrip
  cases h : s.out.tripLatch
  · refine .inr ⟨rfl, ?_, ?_, ?_⟩ <;> unfold setOutput <;> simp <;> split <;> simp_all
  · exact .inl ⟨rfl, by simp⟩

theorem takeTrip_work (n : Input) (s : State) : TripWork s (takeTrip n s) := by
  unfold takeTrip; split
  · exact setTrip_work s
  · exact TripWork.refl s

theorem sampleTrip_work (s : State) : TripWork s (sampleTrip s) := by
  unfold sampleTrip; split
  · exact setTrip_work s
  · exact TripWork.refl s

/-! ### The input slots -/

/-- What the input side of the Local Fault Table may not touch: all but the input slots. -/
structure InputWork (u t : State) : Prop where
  rest : t = { u with lft.inputs := t.lft.inputs }

theorem InputWork.refl (s : State) : InputWork s s := ⟨rfl⟩

theorem InputWork.trans {a b c : State} (h : InputWork a b) (k : InputWork b c) : InputWork a c := by
  have e := k.rest; rw [h.rest] at e; exact ⟨e⟩

theorem takeAssertion_work (n : Input) (s : State) : InputWork s (takeAssertion n s) := by
  unfold takeAssertion; split
  · exact ⟨rfl⟩
  · exact ⟨rfl⟩

theorem takeRelease_work (n : Input) (s : State) : InputWork s (takeRelease n s) := by
  unfold takeRelease; split
  · exact ⟨rfl⟩
  · exact ⟨rfl⟩

theorem watch_fold_work (l : List Input) : ∀ s : State,
    InputWork s (l.foldl (fun t n => if t.lineAsserted n then takeAssertion n t else t) s) := by
  induction l with
  | nil => intro s; exact .refl s
  | cons n l ih =>
    intro s
    rw [List.foldl_cons]
    refine InputWork.trans ?_ (ih _)
    split
    · exact takeAssertion_work n s
    · exact .refl s

theorem watchInputs_work (s : State) : InputWork s (watchInputs s) := watch_fold_work _ s

/-- A property of the slots that each assertion keeps is kept by the watch. -/
theorem watchInputs_keeps {P : State → Prop} (h : ∀ n u, P u → P (takeAssertion n u)) (s : State) (hs : P s) :
    P (watchInputs s) := by
  unfold watchInputs
  generalize List.finRange 8 = l
  induction l generalizing s with
  | nil => exact hs
  | cons n l ih =>
    rw [List.foldl_cons]
    apply ih
    split
    · exact h n s hs
    · exact hs

/-! ### Frames of this station -/

/-- What the bus side of an event may not touch: all but the SBC and the derived set. -/
structure BusWork (u t : State) : Prop where
  rest : t = { u with sbc := t.sbc, ziu.derived := t.ziu.derived }

theorem completeFrame_work (k : Kind) (s : State) : BusWork s (completeFrame k s) := by
  unfold completeFrame
  split
  · exact ⟨rfl⟩
  · unfold renew
    split
    · unfold requestStatus; split <;> exact ⟨rfl⟩
    · exact ⟨rfl⟩
  · dsimp only; split <;> exact ⟨rfl⟩

theorem countBitFault_work (f : Frame) (k : Nat) (level : Bool) (s : State) :
    BusWork s (countBitFault (stopDriving f k level s)) := ⟨rfl⟩

/-! ### Starting and resetting -/

/-- The state that START hands to the join, before the inputs are watched. -/
def startReady (s : State) : State :=
  switchOn (enterJoining (sampleTrip (expectPeers (raiseIf (Store.corrected s.cfg != s.cfg) .notice
    { s with cfg := Store.corrected s.cfg, ctl.started := true }))))

/-- What START does before the trip latch is sampled. -/
def startLoaded (s : State) : State := expectPeers (raiseIf (Store.corrected s.cfg != s.cfg) .notice
  { s with cfg := Store.corrected s.cfg, ctl.started := true })

theorem startReady_eq (s : State) : startReady s = switchOn (enterJoining (sampleTrip (startLoaded s))) := rfl

theorem startLoaded_ctl (s : State) : (startLoaded s).ctl = { s.ctl with started := true } := by
  unfold startLoaded raiseIf; split <;> rfl

theorem startLoaded_cfg (s : State) : (startLoaded s).cfg = Store.corrected s.cfg := by
  unfold startLoaded raiseIf; split <;> rfl

theorem startLoaded_pins (s : State) : (startLoaded s).pins = s.pins := by unfold startLoaded raiseIf; split <;> rfl
theorem startLoaded_lft (s : State) : (startLoaded s).lft = s.lft := by unfold startLoaded raiseIf; split <;> rfl
theorem startLoaded_sbc (s : State) : (startLoaded s).sbc = s.sbc := by unfold startLoaded raiseIf; split <;> rfl
theorem startLoaded_ziu (s : State) : (startLoaded s).ziu = s.ziu := by unfold startLoaded raiseIf; split <;> rfl
theorem startLoaded_lvl (s : State) : (startLoaded s).lvl = s.lvl := by unfold startLoaded raiseIf; split <;> rfl
theorem startLoaded_perm (s : State) : (startLoaded s).perm = s.perm := by unfold startLoaded raiseIf; split <;> rfl
theorem startLoaded_out (s : State) : (startLoaded s).out = s.out := by unfold startLoaded raiseIf; split <;> rfl

theorem startLoaded_pv (s : State) : (startLoaded s).pv = { s.pv with peers := Vector.ofFn fun p =>
    { s.pv.peers[p] with expected := (Store.corrected s.cfg).expected.getLsbD p.val && p != s.ctl.station } } := by
  unfold startLoaded raiseIf; split <;> rfl

/-- R157: the node mode and the started mark when the join begins. -/
theorem startReady_ctl (s : State) : (startReady s).ctl = { s.ctl with started := true, mode := .joining } := by
  simp [startReady_eq, switchOn, enterJoining, (sampleTrip_work _).ctl, startLoaded_ctl]

theorem startReady_cfg (s : State) : (startReady s).cfg = Store.corrected s.cfg := by
  simp [startReady_eq, switchOn, enterJoining, (sampleTrip_work _).cfg, startLoaded_cfg]

theorem startReady_lft (s : State) : (startReady s).lft = s.lft := by
  simp [startReady_eq, switchOn, enterJoining, (sampleTrip_work _).lft, startLoaded_lft]

theorem startReady_ziu (s : State) : (startReady s).ziu = s.ziu := by
  simp [startReady_eq, switchOn, enterJoining, (sampleTrip_work _).ziu, startLoaded_ziu]

theorem startReady_lvl (s : State) : (startReady s).lvl = s.lvl := by
  simp [startReady_eq, switchOn, enterJoining, (sampleTrip_work _).lvl, startLoaded_lvl]

/-- The state of a started station at a host reset, before the inputs are watched. -/
def resetReady (s : State) : State := switchOn (enterJoining s)

/-- The blocks of a station after a host reset, before a started one enters JOINING. -/
def resetDone (s : State) : State := sampleTrip (resetLevels (resetBlocks s))

/-- R151: a host reset of a started station settles a new join; of an unstarted one it leaves the blocks reset. -/
theorem hostResetState_eq (s : State) : hostResetState s = flagsAfterReset
    (if (resetDone s).ctl.started = true then settle (resetDone s) (watchInputs (resetReady (resetDone s)))
      else resetDone s) := rfl

theorem resetDone_work (s : State) : TripWork (resetLevels (resetBlocks s)) (resetDone s) := sampleTrip_work _

theorem resetDone_ctl (s : State) : (resetDone s).ctl
    = { s.ctl with mode := if s.ctl.started then .joining else .unconfigured } := (resetDone_work s).ctl
theorem resetDone_started (s : State) : (resetDone s).ctl.started = s.ctl.started := by rw [resetDone_ctl]
theorem resetDone_pins (s : State) : (resetDone s).pins = s.pins := (resetDone_work s).pins
theorem resetDone_cfg (s : State) : (resetDone s).cfg = s.cfg := (resetDone_work s).cfg
theorem resetDone_lft (s : State) : (resetDone s).lft = Lft.empty := (resetDone_work s).lft
theorem resetDone_sbc (s : State) : (resetDone s).sbc = Sbc.initial := (resetDone_work s).sbc
theorem resetDone_pv (s : State) : (resetDone s).pv
    = ⟨Vector.ofFn fun p => PeerRecord.absent (s.pv.peers[p]).expected, none⟩ := (resetDone_work s).pv
theorem resetDone_ziu (s : State) : (resetDone s).ziu
    = ⟨Vector.ofFn fun z => resetZone s.cfg s.ziu.zones[z], Derived.empty⟩ := (resetDone_work s).ziu
theorem resetDone_lvl (s : State) : (resetDone s).lvl = (resetLevels (resetBlocks s)).lvl := (resetDone_work s).lvl

/-- R124, R129: the output cap after a host reset is 0, whether or not the trip latch is found set again. -/
theorem resetDone_perm (s : State) : (resetDone s).perm = Permission.initial := by
  have h : (resetLevels (resetBlocks s)).perm = Permission.initial := rfl
  unfold resetDone sampleTrip
  split
  · rcases setTrip_cases (resetLevels (resetBlocks s)) with ⟨-, e⟩ | ⟨-, -, e, -⟩
    · rw [e]; exact h
    · rw [(setTrip_work _).perm, e]; rfl
  · exact h

/-- R124: where the output cap is 0 already, a setting of the latch leaves the pending duty. -/
theorem setTrip_pendingDuty {s : State} (h : s.perm.output = 0) : (setTrip s).out.pendingDuty = s.out.pendingDuty := by
  unfold setTrip setOutput
  simp [h, raise]
  split <;> rfl

/-- R148: the Output Unit after a host reset, but for the trip latch. -/
theorem resetDone_out (s : State) : (resetDone s).out = { s.out with
    gen := false, tripLatch := (resetDone s).out.tripLatch, rearm := none
    pendingDuty := 50, lamp := .steady } := by
  have h : (resetLevels (resetBlocks s)).perm.output = 0 := rfl
  have d : (resetDone s).out.pendingDuty = 50 := by
    unfold resetDone sampleTrip
    split
    · rw [setTrip_pendingDuty h]; rfl
    · rfl
  rw [(resetDone_work s).out, d]
  rfl

theorem resetReady_ctl (s : State) : (resetReady s).ctl = { s.ctl with mode := .joining } := rfl
theorem resetReady_cfg (s : State) : (resetReady s).cfg = s.cfg := rfl
theorem resetReady_ziu (s : State) : (resetReady s).ziu = s.ziu := rfl
theorem resetReady_lvl (s : State) : (resetReady s).lvl = s.lvl := rfl
theorem resetReady_out (s : State) : (resetReady s).out = s.out := rfl

/-- A property that the flags cannot break holds after a host reset if it holds of the blocks reset and, for a started
station, of the join that settles after them. -/
theorem hostReset_keeps {P : State → Prop} (flags : ∀ u f, P u → P { u with port.flags := f }) (s : State)
    (unstarted : s.ctl.started = false → P (resetDone s))
    (started : s.ctl.started = true → P (settle (resetDone s) (watchInputs (resetReady (resetDone s))))) :
    P (hostResetState s) := by
  have k : ∀ x, P x → P (flagsAfterReset x) := fun x hx => flags x _ hx
  rw [hostResetState_eq, resetDone_started]
  apply k
  split
  · next h => exact started h
  · next h => exact unstarted (by simpa using h)

end Sys2Proof.Machine
end

