-- ==== Sys2Proof/Laws/Current.lean ====
section
/-! SUPPORT. From a state whose tables, levels and lines are current nothing follows: `settle` leaves it as it is. -/

namespace Sys2Proof.Machine

/-! ### The tables -/

theorem checkJoin_awaited {s : State} (h : PeerTableConsistent s) : checkJoin s = s := by
  rcases checkJoin_cases s with ⟨e, -⟩ | ⟨-, m, k⟩
  · exact e
  · rw [h.awaited m] at k; cases k

theorem peerDerivations_current {s : State} (h : PeerTableConsistent s) : peerDerivations s = s := by
  have lost : lostMarks s = s.ziu.derived.lost := marks_ext fun p => by
    rw [Bool.eq_iff_iff, h.lost p]; simp [lostMarks]
  have deaf : deafCondition s = s.ziu.derived.deaf := by
    rw [Bool.eq_iff_iff, h.deaf]
    simp only [deafCondition, Bool.and_eq_true, List.all_eq_true, List.any_eq_true, List.mem_finRange, true_and, true_implies,
      Bool.or_eq_true, beq_iff_eq, bne_iff_ne, or_assoc]
    exact and_congr_left fun _ => forall_congr' fun p => by rw [← or_iff_not_imp_left]
  unfold peerDerivations
  rw [lost, deaf]

theorem supportZone_current {s : State} (h : SupportCurrent s) (k : ZoneTableConsistent s) (z : Zone) :
    supportZone s z = s.ziu.zones[z] := by
  have d : nextDispute s.cfg.disputeWindow (disputedBy s z (accusersOf s (ownClaim s z) z)) (s.ziu.zones[z]).dispute
      (s.ziu.zones[z]).disputeTimer = ((s.ziu.zones[z]).dispute, (s.ziu.zones[z]).disputeTimer) := by
    have hd := h.dispute z
    have ht := (k z).disputeTimer
    split at hd
    · next e =>
      rw [hd] at ht
      have : (s.ziu.zones[z]).disputeTimer = none := by
        cases t : (s.ziu.zones[z]).disputeTimer with
        | none => rfl
        | some => rw [t] at ht; obtain ⟨a, ha⟩ := ht.mp rfl; cases ha
      rw [e, hd, this]; rfl
    · next a e => rw [e]; rcases hd with hd | hd <;> rw [hd] <;> simp [nextDispute]
  unfold supportZone
  dsimp only
  rw [d]
  dsimp only
  rw [← h.accusers z, ← h.own z]

theorem vector_id {α : Type} {n : Nat} (v : Vector α n) : (Vector.ofFn fun i : Fin n => v[i]) = v := by
  apply Vector.ext; intro i hi; simp

theorem settleSupport_current {s : State} (h : SupportCurrent s) (k : ZoneTableConsistent s) (n : Nat) :
    settleSupport (n + 1) s = s := by
  have p : supportPass s = s := by
    have : supportZone s = fun z => s.ziu.zones[z] := funext (supportZone_current h k)
    unfold supportPass
    rw [this, vector_id]
  have m : implausibleMarks s.ziu.zones = s.ziu.derived.implausible := marks_ext fun a => by
    rw [Bool.eq_iff_iff, implausibleMarks_iff, h.implausible]
  unfold settleSupport
  dsimp only
  rw [p, if_pos m]

theorem confirmationHolds_nil {q : Nat} {z : Zone} {l : List Accuser} (h : suspicion l = []) (hq : 1 ≤ q) :
    confirmationHolds q z l = false := by
  have c : confirming l = [] := by
    unfold suspicion at h
    unfold confirming rawConfirming
    rw [List.filter_comm, h]; rfl
  simp [confirmationHolds, criticalAmong, c]
  omega

theorem zoneNext_current {s : State} (h : SupportCurrent s) (k : ZoneTableConsistent s) (q : 1 ≤ s.cfg.quorum) (z : Zone) :
    zoneNext s.cfg z s.ziu.zones[z] = s.ziu.zones[z] := by
  have hs := h.state z
  have kz := k z
  generalize s.ziu.zones[z] = r at hs kz ⊢
  cases e : r.state <;> rw [e] at hs <;> simp only at hs
  · have := confirmationHolds_nil (z := z) hs q
    simp [zoneNext, unconfirmed, e, this, hs]
  · have d : r.delay = none := by
      cases t : r.delay with
      | none => rfl
      | some => have := kz.delay.mp (by simp [t]); rw [e] at this; cases this
    have c : r.clean = none := by
      cases t : r.clean with
      | none => rfl
      | some => have := (kz.clean.mp (by simp [t])).1; rw [e] at this; cases this
    simp only [zoneNext, unconfirmed, e, hs.2, Bool.false_eq_true, if_false, List.isEmpty_iff, hs.1]
    rw [← e, ← d]
    cases r; simp_all
  · simp [zoneNext, e, hs]
  · simp [zoneNext, e]
  · simp [zoneNext, e]

theorem settleTables_idle {s : State} (p : PeerTableConsistent s) (h : SupportCurrent s) (k : ZoneTableConsistent s)
    (q : 1 ≤ s.cfg.quorum) : settleTables s = s := by
  have z : (fun z : Zone => zoneNext s.cfg z s.ziu.zones[z]) = fun z => s.ziu.zones[z] := funext (zoneNext_current h k q)
  unfold settleTables
  rw [checkJoin_awaited p, peerDerivations_current p, settleSupport_current h k]
  unfold settleZones
  rw [z, vector_id]

/-! ### Flags, levels and lines -/

theorem noteChanges_same (s : State) : noteChanges s s = s := by
  have a : zonesMoved s s = false := by simp [zonesMoved]
  have b : presenceMoved s s = false := by simp [presenceMoved]
  have c : dropZoneEntered s s = false := by simp [dropZoneEntered]
  unfold noteChanges
  rw [a, b, c]; rfl

theorem raiseTriggers_same (s : State) : raiseTriggers s s = s := by
  have a : ∀ x : Option Claim, claimRose x x = false := by intro x; cases x <;> simp [claimRose]
  have b : triggered s s = false := by simp [triggered, a]
  unfold raiseTriggers
  rw [b]; rfl

/-- Two levels that are each the highest of the same things are equal. -/
theorem highest_unique {P : Level → Prop} {a b : Level} (ha : ∀ x, P x → x ≤ a) (hb : ∀ x, P x → x ≤ b) (pa : P a) (pb : P b) :
    a = b := le_antisymm (hb a pa) (ha b pb)

theorem lown_current {s : State} (h : DriveCurrent s) : ownCauseLevel s.cfg s.ctl.station (View.of s) = s.lvl.lown := by
  obtain ⟨a, b, c⟩ := h.lown
  obtain ⟨x, y, z⟩ := ownCauseLevel_spec s.cfg s.ctl.station (View.of s)
  simp only [view_zones] at y z
  exact highest_unique (P := fun l => l = s.lvl.floor ∨ ∃ z : Zone, l = contribution s.cfg s.ctl.station z (s.ziu.zones[z]).state)
    (by rintro _ (rfl | ⟨w, rfl⟩); exacts [x, y w]) (by rintro _ (rfl | ⟨w, rfl⟩); exacts [a, b w]) z c

theorem follow_current {s : State} (h : DriveCurrent s) : followLevel s.cfg s.ctl.station (View.of s) = s.lvl.follow := by
  obtain ⟨b, c⟩ := h.follow
  obtain ⟨y, z⟩ := followLevel_spec s.cfg s.ctl.station (View.of s)
  simp only [view_peers] at y z
  exact highest_unique (P := fun l => l = 0 ∨ ∃ p : Station, follows s.cfg s.ctl.station (View.of s) p = true
      ∧ l = (s.pv.peers[p]).announced.lown)
    (by rintro _ (rfl | ⟨w, k, rfl⟩); exacts [Fin.zero_le _, y w k]) (by rintro _ (rfl | ⟨w, k, rfl⟩); exacts [Fin.zero_le _, b w k]) z c

theorem resolve_current {s : State} (h : DriveCurrent s) (l : s.ctl.held = false) : resolve (View.of s) s = s := by
  have lapp : appliedLevel s.cfg s.ctl.station (View.of s) = s.lvl.lapp := by
    rw [appliedLevel_eq, lown_current h, follow_current h, h.lapp]; rfl
  have regen : regenPermitted s.cfg (View.of s) s.lvl.lapp = s.lvl.regen := by
    rw [Bool.eq_iff_iff, regenPermitted_iff, h.regen]; simp only [view_zones]
  have levels : setLevels (View.of s) s = s := by
    unfold setLevels
    dsimp only
    rw [lapp, lown_current h, follow_current h, regen, ← h.speedCap]
    simp [raiseIf]
  have caps : setCaps (View.of s).stress s = s := by
    unfold setCaps setTarget
    dsimp only
    rw [show foldbackOf s.cfg.slo s.cfg.shi (View.of s).stress.toNat = s.perm.foldback from h.foldback.symm, ← h.target]
    rw [if_neg (lt_irrefl _)]
  have gen : (decide (s.lvl.lapp.val < 5) && !(View.of s).trip) = s.out.gen := by
    rw [Bool.eq_iff_iff, h.gen, Bool.and_eq_true, decide_eq_true_eq, Bool.not_eq_true', Nat.lt_succ_iff]; rfl
  have lines : setLines (View.of s).trip s = s := by
    have g : setGen s.out.gen s = s := by unfold setGen; split <;> simp_all
    unfold setLines
    rw [gen, g]
    dsimp only
    rw [← h.lamp l]
  unfold resolve
  rw [levels, caps, lines]

theorem handOn_current {s : State} (h : DriveCurrent s) (l : s.ctl.held = false) : handOn (View.of s) s = s := by
  have c : View.changes (View.of s) (View.of s) = [] := by simp [View.changes, View.take, List.filter]
  unfold handOn
  rw [c]
  exact resolve_current h l

/-- From a state in which everything is current nothing follows. -/
theorem settle_idle {s : State} (p : PeerTableConsistent s) (h : SupportCurrent s) (k : ZoneTableConsistent s) (q : 1 ≤ s.cfg.quorum)
    (d : DriveCurrent s) (l : s.ctl.held = false) : settle s s = s := by
  unfold settle
  dsimp only
  rw [settleTables_idle p h k q, noteChanges_same, handOn_current d l, raiseTriggers_same]

end Sys2Proof.Machine
end

