-- ==== Sys2Proof/Laws/Disputes.lean ====
section
/-! SUPPORT. What the passes over the disputes do to one dispute: who its lone accuser is depends on the IMPLAUSIBLE derivations in one
case alone, so a dispute whose lone accuser stays the same is left alone and any other lone accuser begins a new one. -/

namespace Sys2Proof.Machine

/-! ### The own accusation with and without IMPLAUSIBLE -/

/-- R68: an accusation of the lowest rank adds nothing to a nonempty list. -/
theorem strongest_append {i : Claim} : ∀ {l : List Claim}, l ≠ [] → (∀ c ∈ l, Claim.over i c = false) →
    strongest (l ++ [i]) = strongest l
  | [], h, _ => absurd rfl h
  | [c], _, h => by simp [strongest, h c (by simp)]
  | c :: d :: l, _, h => by
    have e := strongest_append (i := i) (l := d :: l) (by simp) fun x hx => h x (by simp [hx])
    rw [List.cons_append, strongest, e, ← strongest]

theorem strongest_mem : ∀ {l : List Claim} {c : Claim}, strongest l = some c → c ∈ l
  | [], c, h => by simp [strongest] at h
  | d :: l, c, h => by
    unfold strongest at h
    split at h
    · simp_all
    · next x hx =>
      split at h
      · injection h with h; subst h; exact List.mem_cons_of_mem _ (strongest_mem hx)
      · simp_all

/-- R71: the part of an own accusation that can stand in the raw confirming set. -/
def confirmable (own : Option Claim) : Option Claim := own.filter fun c => c.cls != .implausible

theorem rawConfirming_own (s : State) (own : Option Claim) (z : Zone) :
    rawConfirming (accusersOf s own z) = rawConfirming (accusersOf s (confirmable own) z) := by
  unfold rawConfirming accusersOf
  rw [List.filter_filterMap, List.filter_filterMap]
  congr 1
  funext p
  by_cases h : p = s.ctl.station
  · cases own with
    | none => rfl
    | some c => by_cases k : c.cls = .implausible <;> simp [h, confirmable, Option.filter, k]
  · simp [h]

/-- Who the lone accuser is depends on the own accusation through its part in the raw confirming set alone. -/
theorem disputedBy_own (s : State) (a b : Option Claim) (z : Zone) (h : confirmable a = confirmable b) :
    disputedBy s z (accusersOf s a z) = disputedBy s z (accusersOf s b z) := by
  unfold disputedBy
  rw [rawConfirming_own s a, rawConfirming_own s b, h]

/-- The state with other IMPLAUSIBLE derivations. -/
def withMarks (m : Vector Bool 8) (s : State) : State := { s with ziu.derived.implausible := m }

/-- The accusations of a zone that do not come from IMPLAUSIBLE or STALE, in the order in which they are compared. -/
def plainClaims (s : State) (z : Zone) : List Claim :=
  (localAccusation s.lft z).toList ++ derivedClaims { s.ziu.derived with implausible := .replicate 8 false, stale := false }
    s.ctl.station z

theorem ownClaim_plain (s : State) (z : Zone) : ownClaim s z = strongest (plainClaims s z
    ++ (if ownerMarked s.ziu.derived.implausible z then [⟨.implausible, .minor⟩] else [])
    ++ (if s.ziu.derived.stale && z == stationZone s.ctl.station then [⟨.stale, .minor⟩] else [])) := by
  have r : ownerMarked (.replicate 8 false) z = false := by unfold ownerMarked; split <;> simp
  unfold ownClaim plainClaims derivedClaims derivations
  congr 1
  simp only [List.append_assoc, r, Bool.false_and]
  congr 1
  cases ownerMarked s.ziu.derived.lost z <;> cases s.ziu.derived.deaf && z == busZone <;>
    cases s.ziu.derived.mute && z == busZone <;> cases s.ziu.derived.bitFault && z == busZone <;>
    cases s.ziu.derived.duplicate && z == busZone <;> cases ownerMarked s.ziu.derived.implausible z <;>
    cases s.ziu.derived.stale && z == stationZone s.ctl.station <;> rfl

theorem localAccusation_code {l : Lft} {z : Zone} {c : Claim} (hc : ∀ x, l.holds x → x.cls.code ≤ 6)
    (h : localAccusation l z = some c) : c.cls.code ≤ 6 := by
  have hm := strongest_mem h
  simp only [List.mem_filterMap, Lft.slots, List.mem_append, Vector.mem_toList_iff] at hm
  obtain ⟨sl, hsl, hk⟩ := hm
  unfold Slot.claim at hk
  split at hk
  · next x hx =>
    split at hk
    · injection hk with hk; subst hk
      refine hc x ?_
      rcases hsl with hs | hs
      · obtain ⟨i, hi, e⟩ := Vector.getElem_of_mem hs; exact .inl ⟨⟨i, hi⟩, by simpa [e] using hx⟩
      · obtain ⟨i, hi, e⟩ := Vector.getElem_of_mem hs; exact .inr ⟨⟨i, hi⟩, by simpa [e] using hx⟩
    · cases hk
  · cases hk

/-- R67, R68: neither IMPLAUSIBLE nor STALE of the same severity goes before any of them on a station zone. -/
theorem plainClaims_before {s : State} {z : Zone} {c : Claim} (hc : ∀ x, s.lft.holds x → x.cls.code ≤ 6)
    (hz : z ≠ busZone) (h : c ∈ plainClaims s z) : c.cls.code ≤ 7 := by
  have r : ownerMarked (.replicate 8 false) z = false := by unfold ownerMarked; split <;> simp
  have b : (z == busZone) = false := by simpa using hz
  simp only [plainClaims, List.mem_append, Option.mem_toList] at h
  rcases h with h | h
  · exact (localAccusation_code hc h).trans (by decide)
  · simp only [derivedClaims, derivations, r, b, Bool.and_false, Bool.false_and] at h
    cases k : ownerMarked s.ziu.derived.lost z <;> simp [k] at h
    subst h; decide

theorem implausible_not_over {c : Claim} (h : c.cls.code ≤ 7) : Claim.over ⟨.implausible, .minor⟩ c = false := by
  obtain ⟨k, v⟩ := c
  cases k <;> cases v <;> first | rfl | (exact absurd h (by decide))

/-! ### The lone accuser -/

theorem zoneOwner_stationZone (p : Station) : zoneOwner (stationZone p) = some p := by revert p; decide

theorem zone_not_bus {z : Zone} {o : Station} (h : zoneOwner z = some o) : z ≠ busZone := by
  rintro rfl; simp [zoneOwner, busZone] at h

/-- R68, R71, R81: where STALE does not stand against the zone, the IMPLAUSIBLE derivations do not matter. -/
theorem loneAccuser_marks {s : State} {z : Zone} (hc : ∀ x, s.lft.holds x → x.cls.code ≤ 6) (m : Vector Bool 8)
    (h : ¬(z = stationZone s.ctl.station ∧ s.ziu.derived.stale = true)) : loneAccuser (withMarks m s) z = loneAccuser s z := by
  unfold loneAccuser
  cases ho : zoneOwner z with
  | none => simp [disputedBy, ho]
  | some o =>
    have st : (s.ziu.derived.stale && z == stationZone s.ctl.station) = false := by
      cases k : s.ziu.derived.stale <;> simp_all
    have one : ∀ n : Vector Bool 8, confirmable (ownClaim (withMarks n s) z) = confirmable (strongest (plainClaims s z)) := by
      intro n
      rw [ownClaim_plain]
      show confirmable (strongest (plainClaims s z ++ (if ownerMarked n z then _ else _)
        ++ (if s.ziu.derived.stale && z == stationZone s.ctl.station then _ else _))) = _
      rw [st]
      rw [if_neg (c := (false = true)) (by decide), List.append_nil]
      split
      · by_cases hn : plainClaims s z = []
        · rw [hn]; rfl
        · rw [strongest_append hn fun c k => implausible_not_over (plainClaims_before hc (zone_not_bus ho) k)]
      · rw [List.append_nil]
    have e : accusersOf (withMarks m s) (ownClaim (withMarks m s) z) z = accusersOf s (ownClaim (withMarks m s) z) z :=
      accusersOf_congr rfl rfl _ z
    rw [disputedBy_congr (s := s) rfl rfl rfl, e]
    exact disputedBy_own s _ _ z ((one m).trans (one s.ziu.derived.implausible).symm)

/-- R68, R71, R81: STALE on a zone whose owner is not IMPLAUSIBLE keeps this station in its raw confirming set, so nobody accuses its own
zone alone. -/
theorem loneAccuser_stale {s : State} {z : Zone} (hc : ∀ x, s.lft.holds x → x.cls.code ≤ 6)
    (hz : z = stationZone s.ctl.station) (st : s.ziu.derived.stale = true)
    (hm : s.ziu.derived.implausible[s.ctl.station] = false) : loneAccuser s z = none := by
  subst hz
  have ho := zoneOwner_stationZone s.ctl.station
  have mk : ownerMarked s.ziu.derived.implausible (stationZone s.ctl.station) = false := by
    simp only [ownerMarked, ho]; exact hm
  have own : ∃ c, ownClaim s (stationZone s.ctl.station) = some c ∧ c.cls ≠ .implausible := by
    have e := ownClaim_plain s (stationZone s.ctl.station)
    rw [mk, st, if_neg (by decide), if_pos (by simp), List.append_nil] at e
    cases k : strongest (plainClaims s (stationZone s.ctl.station) ++ [⟨.stale, .minor⟩]) with
    | none =>
      exfalso
      revert k
      cases plainClaims s (stationZone s.ctl.station) with
      | nil => simp [strongest]
      | cons a l => rw [List.cons_append]; unfold strongest; split <;> [simp; split <;> simp]
    | some c =>
      refine ⟨c, e.trans k, ?_⟩
      rcases List.mem_append.mp (strongest_mem k) with hm | hm
      · rintro hk
        have := plainClaims_before hc (zone_not_bus ho) hm
        rw [hk] at this; exact absurd this (by decide)
      · simp at hm; subst hm; decide
  obtain ⟨c, hc', hk⟩ := own
  have mem : (⟨s.ctl.station, c, false⟩ : Accuser) ∈ rawConfirming (accusersOf s (ownClaim s (stationZone s.ctl.station))
      (stationZone s.ctl.station)) := by
    rw [hc']
    refine List.mem_filter.mpr ⟨List.mem_filterMap.mpr ⟨s.ctl.station, List.mem_finRange _, by simp⟩, by simp [hk]⟩
  unfold loneAccuser disputedBy
  rw [ho]
  split
  · next o a _ hl =>
    rw [hl] at mem
    simp at mem
    subst mem
    simp_all
  · rfl

/-- R84: the IMPLAUSIBLE derivations that fall during the passes change a lone accuser only by taking away the dispute. -/
theorem loneAccuser_change {s : State} {z : Zone} (hc : ∀ x, s.lft.holds x → x.cls.code ≤ 6) {m : Vector Bool 8} {a : Station}
    (h : loneAccuser (withMarks m s) z = some a) : loneAccuser s z = some a
      ∨ (z = stationZone s.ctl.station ∧ s.ziu.derived.stale = true
        ∧ s.ziu.derived.implausible[s.ctl.station] = false ∧ m[s.ctl.station] = true) := by
  by_cases k : z = stationZone s.ctl.station ∧ s.ziu.derived.stale = true
  · have hm : m[s.ctl.station] = true := by
      cases e : m[s.ctl.station] with
      | true => rfl
      | false =>
        rw [loneAccuser_stale (s := withMarks m s) hc k.1 k.2 e] at h; cases h
    cases e : s.ziu.derived.implausible[s.ctl.station] with
    | false => exact .inr ⟨k.1, k.2, rfl, hm⟩
    | true =>
      left
      rw [← h]
      unfold loneAccuser
      have mark : ownerMarked m z = ownerMarked s.ziu.derived.implausible z := by
        obtain ⟨rfl, -⟩ := k
        have ho := zoneOwner_stationZone s.ctl.station
        simp only [ownerMarked, ho]
        exact hm.trans e.symm
      have o : ownClaim (withMarks m s) z = ownClaim s z := by
        rw [ownClaim_plain, ownClaim_plain]
        show strongest (plainClaims s z ++ (if ownerMarked m z then _ else _) ++ _) = _
        rw [mark]; rfl
      rw [o]; rfl
  · rw [← loneAccuser_marks hc m k]; exact .inl h

/-! ### One dispute through the passes -/

/-- R82: a dispute whose lone accuser stays the same is left alone; any other lone accuser begins a new one. -/
def DisputeMoves (window : Nat) (o : Option Station) (r q : ZoneRecord) : Prop :=
  match o with
  | none => q.dispute = .none ∧ q.disputeTimer = none
  | some a => (r.dispute.accuser = some a → q.dispute = r.dispute ∧ q.disputeTimer = r.disputeTimer)
    ∧ (r.dispute.accuser ≠ some a → q.dispute = .pending a ∧ q.disputeTimer = some window)

theorem supportPass_moves (s : State) (z : Zone) :
    DisputeMoves s.cfg.disputeWindow (loneAccuser s z) s.ziu.zones[z] (supportPass s).ziu.zones[z] := by
  have e : (supportPass s).ziu.zones[z] = supportZone s z := by simp [supportPass]
  rw [e]
  unfold supportZone
  dsimp only
  change DisputeMoves _ _ _ { s.ziu.zones[z] with
    own := _, accusers := _
    dispute := (nextDispute s.cfg.disputeWindow (loneAccuser s z) _ _).1
    disputeTimer := (nextDispute s.cfg.disputeWindow (loneAccuser s z) _ _).2 }
  unfold DisputeMoves nextDispute
  cases loneAccuser s z with
  | none => exact ⟨rfl, rfl⟩
  | some a =>
    cases (s.ziu.zones[z]).dispute with
    | none => exact ⟨fun k => by simp [Dispute.accuser] at k, fun _ => ⟨rfl, rfl⟩⟩
    | pending b => by_cases k : a = b <;> simp [Dispute.accuser, k, eq_comm]
    | inForce b => by_cases k : a = b <;> simp [Dispute.accuser, k, eq_comm]

theorem DisputeMoves.accuser {w : Nat} {a : Station} {r q : ZoneRecord} (h : DisputeMoves w (some a) r q) :
    q.dispute.accuser = some a := by
  by_cases k : r.dispute.accuser = some a
  · rw [(h.1 k).1, k]
  · rw [(h.2 k).1]; rfl

/-- One pass and all that follow it, where the lone accuser is the same in both. -/
theorem DisputeMoves.trans {w : Nat} {o : Option Station} {r m q : ZoneRecord} (h : DisputeMoves w o r m)
    (k : DisputeMoves w o m q) : DisputeMoves w o r q := by
  cases o with
  | none => exact k
  | some a =>
    have e := k.1 h.accuser
    exact ⟨fun i => ⟨e.1.trans (h.1 i).1, e.2.trans (h.1 i).2⟩, fun i => ⟨e.1.trans (h.2 i).1, e.2.trans (h.2 i).2⟩⟩

/-- What a lone accuser depends on, but for the IMPLAUSIBLE derivations. -/
structure SameAccusers (s t : State) : Prop where
  lft : t.lft = s.lft
  peers : t.pv.peers = s.pv.peers
  station : t.ctl.station = s.ctl.station
  derived : t.ziu.derived = { s.ziu.derived with implausible := t.ziu.derived.implausible }

theorem SameAccusers.trans {a b c : State} (h : SameAccusers a b) (k : SameAccusers b c) : SameAccusers a c := by
  refine ⟨k.lft.trans h.lft, k.peers.trans h.peers, k.station.trans h.station, ?_⟩
  have e := k.derived
  rw [h.derived] at e; exact e

theorem SameAccusers.lone {s t : State} (h : SameAccusers s t) (z : Zone) :
    loneAccuser t z = loneAccuser (withMarks t.ziu.derived.implausible s) z := by
  have o : ownClaim t z = ownClaim (withMarks t.ziu.derived.implausible s) z :=
    ownClaim_congr (s := withMarks t.ziu.derived.implausible s) h.lft h.derived h.station z
  unfold loneAccuser
  rw [o, disputedBy_congr (s := withMarks t.ziu.derived.implausible s) h.lft h.peers h.station,
    accusersOf_congr (s := withMarks t.ziu.derived.implausible s) h.peers h.station]

theorem settleSupport_same (n : Nat) : ∀ s : State, SameAccusers s (settleSupport n s) := by
  induction n with
  | zero => intro s; exact ⟨rfl, rfl, rfl, rfl⟩
  | succ n ih =>
    intro s
    unfold settleSupport
    dsimp only
    split
    · exact ⟨rfl, rfl, rfl, rfl⟩
    · exact SameAccusers.trans (b := { supportPass s with ziu.derived.implausible := implausibleMarks (supportPass s).ziu.zones })
        ⟨rfl, rfl, rfl, rfl⟩ (ih _)

/-- Once the IMPLAUSIBLE derivations are those of the disputes in force, the passes can only take them away. -/
theorem settleSupport_marks (n : Nat) : ∀ s : State, implausibleMarks s.ziu.zones = s.ziu.derived.implausible →
    ∀ a : Station, (settleSupport n s).ziu.derived.implausible[a] = true → s.ziu.derived.implausible[a] = true := by
  induction n with
  | zero => intro s _ a h; exact h
  | succ n ih =>
    intro s hs a h
    unfold settleSupport at h
    dsimp only at h
    split at h
    · exact h
    · rw [← hs]; exact supportPass_marks s a (ih _ rfl a h)

theorem settleSupport_cfg (n : Nat) (s : State) : (settleSupport n s).cfg = s.cfg := (settleSupport_work n s).cfg

/-- A lone accuser at the end of such passes is the lone accuser of each. -/
theorem settleSupport_lone {n : Nat} {s : State} {z : Zone} {a : Station} (hc : ∀ x, s.lft.holds x → x.cls.code ≤ 6)
    (hs : implausibleMarks s.ziu.zones = s.ziu.derived.implausible) (h : loneAccuser (settleSupport n s) z = some a) :
    loneAccuser s z = some a := by
  rw [(settleSupport_same n s).lone] at h
  rcases loneAccuser_change hc h with h | ⟨-, -, k, m⟩
  · exact h
  · rw [settleSupport_marks n s hs _ m] at k; cases k

theorem loneAccuser_pass (s : State) (z : Zone) : loneAccuser (supportPass s) z = loneAccuser s z :=
  (SameAccusers.lone (s := s) (t := supportPass s) ⟨rfl, rfl, rfl, rfl⟩ z).trans rfl

/-- R82, R84: the passes from such a state, taken together, move a dispute as one pass does. -/
theorem settleSupport_moves (n : Nat) : ∀ s : State, (∀ x, s.lft.holds x → x.cls.code ≤ 6) →
    implausibleMarks s.ziu.zones = s.ziu.derived.implausible → marksSet s.ziu.derived.implausible ≤ n →
    ∀ z : Zone, DisputeMoves s.cfg.disputeWindow (loneAccuser (settleSupport (n + 1) s) z) s.ziu.zones[z]
      (settleSupport (n + 1) s).ziu.zones[z] := by
  induction n with
  | zero =>
    intro s hc hs hn z
    unfold settleSupport
    dsimp only
    split
    · rw [loneAccuser_pass]; exact supportPass_moves s z
    · next h =>
      have := marksSet_lt (m := implausibleMarks (supportPass s).ziu.zones) (k := s.ziu.derived.implausible)
        (fun a ha => hs ▸ supportPass_marks s a ha) h
      omega
  | succ n ih =>
    intro s hc hs hn z
    cases ho : loneAccuser (settleSupport (n + 1 + 1) s) z with
    | none =>
      revert ho
      unfold settleSupport
      dsimp only
      split
      · rw [loneAccuser_pass]; intro ho; rw [← ho]; exact supportPass_moves s z
      · next h =>
        have := marksSet_lt (m := implausibleMarks (supportPass s).ziu.zones) (k := s.ziu.derived.implausible)
          (fun a ha => hs ▸ supportPass_marks s a ha) h
        intro ho
        have k := ih { supportPass s with ziu.derived.implausible := implausibleMarks (supportPass s).ziu.zones } hc rfl
          (by dsimp only; omega) z
        rw [ho] at k; exact k
    | some a =>
      have one : DisputeMoves s.cfg.disputeWindow (some a) s.ziu.zones[z] (supportPass s).ziu.zones[z] := by
        rw [← settleSupport_lone hc hs ho]; exact supportPass_moves s z
      revert ho
      unfold settleSupport
      dsimp only
      split
      · intro _; exact one
      · next h =>
        have := marksSet_lt (m := implausibleMarks (supportPass s).ziu.zones) (k := s.ziu.derived.implausible)
          (fun a ha => hs ▸ supportPass_marks s a ha) h
        intro ho
        have k := ih { supportPass s with ziu.derived.implausible := implausibleMarks (supportPass s).ziu.zones } hc rfl
          (by dsimp only; omega) z
        rw [ho] at k; exact one.trans k

/-- R81 to R84: what the passes of one event make of a dispute. -/
theorem settleSupport_disputes {s : State} (hc : ∀ x, s.lft.holds x → x.cls.code ≤ 6) (z : Zone) :
    DisputeFollows s (settleSupport 10 s) z := by
  have e : settleSupport 10 s = supportPass s ∨ settleSupport 10 s = settleSupport 9
      { supportPass s with ziu.derived.implausible := implausibleMarks (supportPass s).ziu.zones } := by
    rw [settleSupport]; dsimp only; split <;> simp
  rcases e with e | e
  · rw [e]
    have one := supportPass_moves s z
    unfold DisputeFollows
    rw [loneAccuser_pass]
    cases ho : loneAccuser s z with
    | none => rw [ho] at one; exact one
    | some a =>
      rw [ho] at one
      refine ⟨fun h _ => one.1 h, fun h => one.2 ?_⟩
      rcases h with h | ⟨-, -, k, m⟩
      · exact h
      · rw [show (supportPass s).ziu.derived = s.ziu.derived from rfl, k] at m; cases m
  · have rest := settleSupport_moves 8
      { supportPass s with ziu.derived.implausible := implausibleMarks (supportPass s).ziu.zones } hc rfl (marksSet_le _) z
    rw [← e] at rest
    unfold DisputeFollows
    cases ho : loneAccuser (settleSupport 10 s) z with
    | none => rw [ho] at rest; exact rest
    | some a =>
      rw [ho] at rest
      have same := settleSupport_same 10 s
      have one := supportPass_moves s z
      rw [same.lone] at ho
      rcases loneAccuser_change hc ho with h | h
      · rw [h] at one
        have both := one.trans rest
        refine ⟨fun i _ => both.1 i, fun i => both.2 ?_⟩
        rcases i with i | ⟨k1, k2, k3, -⟩
        · exact i
        · rw [loneAccuser_stale hc k1 k2 k3] at h; cases h
      · refine ⟨fun _ n => absurd h n, fun _ => rest.2 ?_⟩
        rw [loneAccuser_stale hc h.1 h.2.1 h.2.2.1] at one
        show (((supportPass s).ziu.zones[z]).dispute).accuser ≠ some a
        rw [one.1]; simp [Dispute.accuser]

/-- What `DisputeFollows` reads of the two states. -/
theorem DisputeFollows.congr {u v t w : State} {z : Zone} (h : DisputeFollows u t z) (cfg : v.cfg = u.cfg)
    (station : v.ctl.station = u.ctl.station) (ziu : v.ziu.zones = u.ziu.zones) (stale : v.ziu.derived.stale = u.ziu.derived.stale)
    (before : v.ziu.derived.implausible = u.ziu.derived.implausible)
    (after : w.ziu.derived.implausible = t.ziu.derived.implausible) (lone : loneAccuser w z = loneAccuser t z)
    (dispute : (w.ziu.zones[z]).dispute = (t.ziu.zones[z]).dispute)
    (timer : (w.ziu.zones[z]).disputeTimer = (t.ziu.zones[z]).disputeTimer) : DisputeFollows v w z := by
  have y : OwnClaimYields v w z ↔ OwnClaimYields u t z := by
    unfold OwnClaimYields; simp only [station, stale, before, after]
  unfold DisputeFollows at h ⊢
  rw [lone, dispute, timer, cfg, ziu, y]
  exact h

/-- The dispute of a record is left alone by the state rules and all that comes after them. -/
theorem settle_dispute (b s : State) (z : Zone) : ((settle b s).ziu.zones[z]).dispute
      = ((settleSupport 10 (peerDerivations (checkJoin s))).ziu.zones[z]).dispute
    ∧ ((settle b s).ziu.zones[z]).disputeTimer
      = ((settleSupport 10 (peerDerivations (checkJoin s))).ziu.zones[z]).disputeTimer := by
  rw [settle_ziu]
  unfold settleTables
  generalize settleSupport 10 (peerDerivations (checkJoin s)) = x
  have n := zoneNext_support x.cfg z x.ziu.zones[z]
  simp only [settleZones, Fin.getElem_fin, Vector.getElem_ofFn]
  exact ⟨n.2.2.1, n.2.2.2.1⟩

/-- The derivations, and so the lone accusers, likewise. -/
theorem settle_derived (b s : State) :
    (settle b s).ziu.derived = (settleSupport 10 (peerDerivations (checkJoin s))).ziu.derived := by
  rw [settle_ziu]
  unfold settleTables
  generalize settleSupport 10 (peerDerivations (checkJoin s)) = x
  rfl

theorem settle_lone (b s : State) (z : Zone) :
    loneAccuser (settle b s) z = loneAccuser (settleSupport 10 (peerDerivations (checkJoin s))) z := by
  have w := checkJoin_work s
  have m := settleSupport_work 10 (peerDerivations (checkJoin s))
  have d := settle_derived b s
  have l : (settle b s).lft = (settleSupport 10 (peerDerivations (checkJoin s))).lft := by
    rw [settle_lft]; exact (m.lft.trans w.lft).symm
  have p : (settle b s).pv.peers = (settleSupport 10 (peerDerivations (checkJoin s))).pv.peers := by
    rw [settle_peers]; exact (m.peers.trans w.peers).symm
  have n : (settle b s).ctl.station = (settleSupport 10 (peerDerivations (checkJoin s))).ctl.station := by
    have e : (checkJoin s).ctl.station = s.ctl.station := by rw [w.ctl]
    rw [settle_station, m.ctl]
    exact e.symm
  revert d l p n
  generalize settleSupport 10 (peerDerivations (checkJoin s)) = x
  generalize settle b s = y
  intro d l p n
  unfold loneAccuser
  rw [ownClaim_congr l d n, disputedBy_congr l p n, accusersOf_congr p n]

/-- R81 to R84: the same of all that follows from a change of one block. -/
theorem settle_disputes (b s : State) (hc : ∀ x, (settle b s).lft.holds x → x.cls.code ≤ 6) (z : Zone) :
    DisputeFollows s (settle b s) z := by
  rw [settle_lft] at hc
  have w := checkJoin_work s
  have zs : (checkJoin s).ziu = s.ziu := by rcases checkJoin_cases s with ⟨e, -⟩ | ⟨e, -⟩ <;> rw [e]; rfl
  have k := settleSupport_disputes (s := peerDerivations (checkJoin s))
    (by rw [show (peerDerivations (checkJoin s)).lft = s.lft from w.lft]; exact hc) z
  have r := settle_dispute b s z
  have n : s.ctl.station = (checkJoin s).ctl.station := by rw [w.ctl]
  exact k.congr w.cfg.symm n (congrArg Ziu.zones zs).symm (congrArg (fun x => x.derived.stale) zs).symm
    (congrArg (fun x => x.derived.implausible) zs).symm (congrArg Derived.implausible (settle_derived b s)) (settle_lone b s z) r.1 r.2

end Sys2Proof.Machine
end

