-- ==== Sys2Proof/Laws/Order.lean ====
section
/-! SUPPORT. A free order takes each of the things that come together, and nothing else, whatever its keys are. -/

namespace Sys2Proof

theorem insertKeyed_perm {α : Type} (k : Nat) (x : α) (l : List (Nat × α)) :
    ((insertKeyed k x l).map (·.2)).Perm (x :: l.map (·.2)) := by
  induction l with
  | nil => simp [insertKeyed]
  | cons a rest ih =>
    obtain ⟨j, y⟩ := a
    unfold insertKeyed
    split
    · simp
    · exact (List.Perm.cons y ih).trans (List.Perm.swap x y _)

theorem orderFrom_perm {α : Type} (n : Nat) (l : List α) : ∀ i, ((orderFrom n i l).map (·.2)).Perm l := by
  induction l with
  | nil => intro i; simp [orderFrom]
  | cons x rest ih => intro i; exact (insertKeyed_perm _ _ _).trans (List.Perm.cons x (ih _))

/-- R105, R107, R120: what comes together is taken once each, in some order. -/
theorem freeOrder_perm {α : Type} (n : Nat) (l : List α) : (freeOrder n l).Perm l := orderFrom_perm n l 0

end Sys2Proof
end

