-- ==== Sys2Proof/Laws/InTurn.lean ====
section
/-! SUPPORT. The inputs that one event changes arrive one after another: what that makes of the output cap, the dwell and LEVEL
(`FollowsInTurn`). -/

namespace Sys2Proof.Machine

/-! ### One resolve -/

theorem isPending_raise (f g : Flag) (s : State) : (raise g s).isPending f = (s.isPending f || f == g) := by
  cases f <;> cases g <;> simp [State.isPending, raise, Flag.mask, Flag.bit]

theorem isPending_raiseIf (c : Bool) (f g : Flag) (s : State) : (raiseIf c g s).isPending f = (s.isPending f || (c && f == g)) := by
  cases c
  · simp [raiseIf]
  · simp [raiseIf, isPending_raise]

/-- A state with the same pending flags. -/
theorem isPending_congr {s t : State} (h : t.port.flags = s.port.flags) (f : Flag) : t.isPending f = s.isPending f := by
  simp [State.isPending, h]

theorem setOutput_flags (o : Nat) (s : State) : (setOutput o s).port = s.port := by unfold setOutput; split <;> rfl

theorem setTarget_flags (t : Nat) (s : State) : (setTarget t s).port = s.port := by
  unfold setTarget; split
  · simp [setOutput_flags]
  · rfl

theorem setGen_flags (g : Bool) (s : State) : (setGen g s).port = s.port := by
  unfold setGen; split
  · simp [setOutput_flags]
  · rfl
  · rfl

/-- R107: a resolve raises LEVEL at a change of Lapp and no other flag. -/
theorem resolve_port (v : View) (s : State) : (resolve v s).port = (setLevels v s).port := by
  unfold resolve setLines setCaps
  dsimp only
  simp [setGen_flags, setTarget_flags]

theorem resolve_pending (v : View) (s : State) (f : Flag) : (resolve v s).isPending f
    = (s.isPending f || ((resolve v s).lvl.lapp != s.lvl.lapp && f == .level)) := by
  rw [isPending_congr (congrArg Port.flags (resolve_port v s)), resolve_lvl, setLevels_lvl]
  unfold setLevels
  dsimp only
  rw [isPending_raiseIf]
  rfl

theorem setOutput_dwell (o : Nat) (s : State) : (setOutput o s).perm.dwell = s.perm.dwell := by
  unfold setOutput; split <;> rfl

theorem setTarget_dwell (t : Nat) (s : State) :
    (setTarget t s).perm.dwell = if t < s.perm.target then startTimer s.cfg.dwell else s.perm.dwell := by
  unfold setTarget; split
  · rw [setOutput_dwell]
  · rfl

theorem setGen_output (g : Bool) (s : State) :
    (setGen g s).perm.output = if s.out.gen = true ∧ g = false then 0 else s.perm.output := by
  unfold setGen; split <;> simp_all [setOutput_output]

theorem setGen_dwell (g : Bool) (s : State) : (setGen g s).perm.dwell = s.perm.dwell := by
  unfold setGen; split
  · rw [setOutput_dwell]
  · rfl
  · rfl

/-- R121, R124: one resolve moves the caps once. -/
theorem resolve_capMoves (v : View) (s : State) : CapMoves s (resolve v s) := by
  have t : (resolve v s).perm.target = (setCaps v.stress (setLevels v s)).perm.target := by simp [resolve, setLines, setGen_target]
  have d : (resolve v s).perm.dwell = (setCaps v.stress (setLevels v s)).perm.dwell := by simp [resolve, setLines, setGen_dwell]
  have g : (setCaps v.stress (setLevels v s)).out.gen = s.out.gen := by simp [setCaps, setTarget_gen, setLevels_out]
  have o : (resolve v s).perm.output = if s.out.gen = true ∧ (resolve v s).out.gen = false then 0
      else (setCaps v.stress (setLevels v s)).perm.output := by
    rw [← g]; simp [resolve, setLines, setGen_output, setGen_gen]
  refine ⟨fun h => ?_, fun h => ?_⟩ <;>
    (rw [t] at h
     simp only [setCaps, setTarget_target, setLevels_perm, (setLevels_linesOnly v s).cfg] at h
     rw [d, o]
     simp only [setCaps, setTarget_dwell, setTarget_output, setLevels_perm, (setLevels_linesOnly v s).cfg])
  · rw [if_pos h, if_pos h, t]
    simp only [setCaps, setTarget_target, (setLevels_linesOnly v s).cfg]
    exact ⟨rfl, trivial⟩
  · rw [if_neg (not_lt.mpr h), if_neg (not_lt.mpr h)]
    exact ⟨rfl, rfl⟩

/-- R119: the target cap after a resolve. -/
theorem resolve_targetOf (v : View) (s : State) : (resolve v s).perm.target = targetOf s.cfg s.ctl.station v := resolve_target v s

theorem resolve_lapp (v : View) (s : State) : (resolve v s).lvl.lapp = appliedLevel s.cfg s.ctl.station v := by
  rw [resolve_lvl, setLevels_lvl]; rfl

/-- R106, R107, R130: GEN low asks for L5, where the target cap is 0. -/
theorem targetOf_gen_low {v : View} {s : State} (h : (resolve v s).out.gen = false) : targetOf s.cfg s.ctl.station v = 0 := by
  have l : ¬(appliedLevel s.cfg s.ctl.station v).val < 4 := by
    rw [resolve_gen] at h
    simp only [Bool.and_eq_false_iff, decide_eq_false_iff_not, Bool.not_eq_false'] at h
    rcases h with h | h
    · omega
    · have m : (tripFloor v.trip) ≤ appliedLevel s.cfg s.ctl.station v := by
        simp only [appliedLevel, maxLevel, List.foldr_cons, List.foldr_nil]
        exact (le_max_left _ _).trans ((le_max_right _ _).trans ((le_max_right _ _).trans (le_max_right _ _)))
      rw [h] at m
      have : (5 : Nat) ≤ (appliedLevel s.cfg s.ctl.station v).val := m
      omega
  simp [targetOf, baseCap, l]

/-- R121, R124: while the output cap is at most the target cap, a resolve brings it down to the new target cap. -/
theorem resolve_output {v : View} {s : State} (h : s.perm.output ≤ s.perm.target) :
    (resolve v s).perm.output = min s.perm.output (targetOf s.cfg s.ctl.station v) := by
  obtain ⟨f, r⟩ := resolve_capMoves v s
  rw [resolve_targetOf] at f r
  rcases lt_or_ge (targetOf s.cfg s.ctl.station v) s.perm.target with k | k
  · rw [(f k).2]
    split
    · next g => rw [targetOf_gen_low g.2]; simp
    · exact min_comm _ _
  · rw [(r k).2]
    split
    · next g => rw [targetOf_gen_low g.2]; simp
    · exact (min_eq_left (h.trans k)).symm

theorem resolve_dwell (v : View) (s : State) : (resolve v s).perm.dwell
    = if targetOf s.cfg s.ctl.station v < s.perm.target then startTimer s.cfg.dwell else s.perm.dwell := by
  obtain ⟨f, r⟩ := resolve_capMoves v s
  rw [resolve_targetOf] at f r
  split
  · next k => exact (f k).1
  · next k => exact (r (not_lt.mp k)).1

/-! ### Several in turn -/

/-- Resolves one after another. -/
def resolveAll (views : List View) (s : State) : State := views.foldl (fun u v => resolve v u) s

theorem resolveAll_inTurn (views : List View) : ∀ s : State, FollowsInTurn s (resolveAll views s) views := by
  induction views with
  | nil => intro s; exact ⟨fun _ => rfl, by simp [resolveAll], by simp [resolveAll]⟩
  | cons v views ih =>
    intro s
    obtain ⟨o, d, l⟩ := ih (resolve v s)
    have c := (resolve_linesOnly v s).cfg
    have n := (resolve_linesOnly v s).ctl
    have e : resolveAll (v :: views) s = resolveAll views (resolve v s) := rfl
    rw [c, n] at o d l
    rw [resolve_targetOf] at o d
    rw [e]
    refine ⟨fun h => ?_, ?_, ?_⟩
    · rw [o (by rw [resolve_output h]; exact min_le_right _ _), resolve_output h]; rfl
    · rw [d, resolve_dwell]
      simp only [List.map_cons, List.pairwise_cons (a := s.perm.target)]
      by_cases p : (targetOf s.cfg s.ctl.station v :: views.map (targetOf s.cfg s.ctl.station)).Pairwise (· ≤ ·)
      · rw [if_pos p]
        by_cases k : targetOf s.cfg s.ctl.station v < s.perm.target
        · rw [if_pos k, if_neg (fun q => absurd (q.1 _ (by simp)) (not_le.mpr k)), startTimer]
        · rw [if_neg k]
          refine (if_pos ⟨fun a ha => ?_, p⟩).symm
          rcases List.mem_cons.mp ha with rfl | ha
          · exact not_lt.mp k
          · exact (not_lt.mp k).trans ((List.pairwise_cons.mp p).1 a ha)
      · exact (if_neg p).trans (if_neg fun q => p q.2).symm
    · rw [l, resolve_pending, resolve_lapp]
      simp only [Bool.or_eq_true, Bool.and_eq_true, bne_iff_ne, beq_self_eq_true, and_true, List.mem_cons, exists_eq_or_imp,
        or_assoc]
      refine or_congr_right ?_
      by_cases k : appliedLevel s.cfg s.ctl.station v = s.lvl.lapp
      · simp [k]
      · simp [k]

theorem FollowsInTurn.congr {s t u v : State} {l : List View} (h : FollowsInTurn s t l) (cfg : u.cfg = s.cfg)
    (station : u.ctl.station = s.ctl.station) (perm : u.perm = s.perm) (lapp : u.lvl.lapp = s.lvl.lapp)
    (flag : u.isPending .level = s.isPending .level) (perm' : v.perm = t.perm) (flag' : v.isPending .level = t.isPending .level) :
    FollowsInTurn u v l := by
  obtain ⟨o, d, k⟩ := h
  constructor <;> rw [cfg, station]
  · rw [perm, perm']; exact o
  · rw [perm, perm']; exact d
  · rw [flag, flag', lapp]; exact k

/-! ### The inputs of an event -/

theorem setOutput_choices (o n : Nat) (s : State) : setOutput o { s with choices := n } = { setOutput o s with choices := n } := by
  unfold setOutput; split <;> rfl

theorem resolve_choices (v : View) (s : State) (n : Nat) : resolve v { s with choices := n } = { resolve v s with choices := n } := by
  have levels : setLevels v { s with choices := n } = { setLevels v s with choices := n } := by
    unfold setLevels raiseIf; dsimp only; split <;> rfl
  have target : ∀ (t : Nat) (u : State), setTarget t { u with choices := n } = { setTarget t u with choices := n } := by
    intro t u; unfold setTarget; dsimp only; split
    · exact setOutput_choices _ n { u with perm.target := t, perm.dwell := startTimer u.cfg.dwell }
    · rfl
  have gen : ∀ (g : Bool) (u : State), setGen g { u with choices := n } = { setGen g u with choices := n } := by
    intro g u; unfold setGen; dsimp only; split
    · exact setOutput_choices _ n { u with out.gen := false, out.rearm := none }
    · rfl
    · rfl
  have caps : ∀ (x : Byte) (u : State), setCaps x { u with choices := n } = { setCaps x u with choices := n } :=
    fun x u => target _ { u with perm.foldback := foldbackOf u.cfg.slo u.cfg.shi x.toNat }
  have lines : ∀ (b : Bool) (u : State), setLines b { u with choices := n } = { setLines b u with choices := n } := by
    intro b u
    unfold setLines
    dsimp only
    rw [gen]
  unfold resolve
  rw [levels, caps, lines]

theorem takeInTurn_resolveAll (w : View) (l : List HandOn) : ∀ (v : View) (s : State),
    resolve w (takeInTurn w l v s) = resolveAll (viewsInTurn w l v) s := by
  induction l with
  | nil => intro v s; rfl
  | cons k l ih => intro v s; exact ih _ _

/-- An input in which two views do not differ. -/
theorem take_of_not_mem {v w : View} {k : HandOn} (h : k ∉ View.changes v w) : View.take k v w = v := by
  by_contra n
  exact h (List.mem_filter.mpr ⟨by cases k <;> decide, by simpa using n⟩)

theorem take_of_one {v w : View} {k : HandOn} (h : View.changes v w = [k]) : View.take k v w = w := by
  have e : ∀ j, j ≠ k → View.take j v w = v := fun j hj => take_of_not_mem (by rw [h]; simpa using hj)
  have f (j : HandOn) (hj : j ≠ k) := e j hj
  cases v; cases w
  cases k <;> simp only [View.take] at * <;>
    (have e1 := e .records; have e2 := e .zones; have e3 := e .mode; have e4 := e .trip; have e5 := e .floor; have e6 := e .stress
     simp_all)

/-- R105, R107, R120: what an event hands on arrives in some order. -/
theorem handOn_inTurn (v : View) (s : State) : ∃ order : List HandOn, order.Perm (View.changes v (View.of s))
    ∧ FollowsInTurn s (handOn v s) (viewsInTurn (View.of s) order v) := by
  unfold handOn
  split
  · next h => exact ⟨[], by rw [h], resolveAll_inTurn [View.of s] s⟩
  · next k h =>
    refine ⟨[k], by rw [h], ?_⟩
    have t : viewsInTurn (View.of s) [k] v = [View.of s, View.of s] := by simp [viewsInTurn, take_of_one h]
    rw [t]
    obtain ⟨o, d, l⟩ := resolveAll_inTurn [View.of s] s
    refine ⟨fun h => ?_, d.trans ?_, l.trans ?_⟩
    · rw [show resolve (View.of s) s = resolveAll [View.of s] s from rfl, o h]; simp
    · simp
    · simp
  · refine ⟨freeOrder s.choices (View.changes v (View.of s)), freeOrder_perm _ _, ?_⟩
    dsimp only
    rw [resolve_choices, takeInTurn_resolveAll]
    exact (resolveAll_inTurn _ s).congr rfl rfl rfl rfl rfl rfl rfl

end Sys2Proof.Machine
end

