-- ==== Sys2Proof/Laws/Follows.lean ====
section
/-! SUPPORT. Said once, everything that may follow from a change of one block within its event (`Follows`), and that `settle` does
no more than that. -/

namespace Sys2Proof.Machine

/-! ### Flags -/

/-- R105, R107: however the inputs of an event are ordered, LEVEL is pending after it if it was before or if Lapp has changed,
and no other flag is touched. -/
theorem handOn_pending (v : View) (s : State) : (∀ f, f ≠ .level → (handOn v s).isPending f = s.isPending f)
    ∧ ((s.isPending .level = true ∨ (handOn v s).lvl.lapp ≠ s.lvl.lapp) → (handOn v s).isPending .level = true) := by
  have one : ∀ (w : View) (u : State), (∀ f, f ≠ .level → (resolve w u).isPending f = u.isPending f)
      ∧ ((u.isPending .level = true ∨ (resolve w u).lvl.lapp ≠ u.lvl.lapp) → (resolve w u).isPending .level = true) := by
    intro w u
    refine ⟨fun f hf => by rw [resolve_pending]; simp [hf], fun h => ?_⟩
    rw [resolve_pending]
    rcases h with h | h <;> simp [h]
  have step : ∀ (a b c : State), ((∀ f, f ≠ .level → b.isPending f = a.isPending f)
      ∧ ((a.isPending .level = true ∨ b.lvl.lapp ≠ a.lvl.lapp) → b.isPending .level = true))
      → ((∀ f, f ≠ .level → c.isPending f = b.isPending f)
      ∧ ((b.isPending .level = true ∨ c.lvl.lapp ≠ b.lvl.lapp) → c.isPending .level = true))
      → ((∀ f, f ≠ .level → c.isPending f = a.isPending f)
      ∧ ((a.isPending .level = true ∨ c.lvl.lapp ≠ a.lvl.lapp) → c.isPending .level = true)) := by
    rintro a b c ⟨h1, h2⟩ ⟨k1, k2⟩
    refine ⟨fun f hf => (k1 f hf).trans (h1 f hf), fun h => k2 ?_⟩
    by_cases e : c.lvl.lapp = b.lvl.lapp
    · exact .inl (h2 (h.imp_right fun n m => n (e.trans m)))
    · exact .inr e
  have turns : ∀ (l : List HandOn) (w x : View) (u : State),
      (∀ f, f ≠ .level → (takeInTurn w l x u).isPending f = u.isPending f)
      ∧ ((u.isPending .level = true ∨ (takeInTurn w l x u).lvl.lapp ≠ u.lvl.lapp)
        → (takeInTurn w l x u).isPending .level = true) := by
    intro l
    induction l with
    | nil => intro w x u; exact ⟨fun _ _ => rfl, fun h => by simpa [takeInTurn] using h⟩
    | cons k l ih => intro w x u; exact step u _ _ (one _ u) (ih _ _ _)
  obtain ⟨u, -, e, hu⟩ := handOn_eq v s
  rw [e]
  rcases hu with rfl | ⟨l, rfl⟩
  · exact one _ u
  · exact step s (takeInTurn (View.of s) l v s) _ (turns l _ v s) (one _ _)

theorem startDrop_pending (u : State) (f : Flag) :
    (startDrop u).isPending f = (u.isPending f || (u.out.contactor == .closed && f == .contactor)) := by
  unfold startDrop
  split
  · next k =>
    rw [isPending_raise]
    simp [k]
    rfl
  · next k => simp [k]

theorem noteChanges_pending (b s : State) (f : Flag) : (noteChanges b s).isPending f = (s.isPending f
    || (zonesMoved b s && f == .zone) || (presenceMoved b s && f == .peer)
    || (dropZoneEntered b s && (s.out.contactor == .closed && f == .contactor))) := by
  have e : ∀ (c d : Bool) (f g : Flag), (raiseIf c f (raiseIf d g s)).out = s.out := by
    intro c d f g; cases c <;> cases d <;> rfl
  unfold noteChanges
  dsimp only
  cases h : dropZoneEntered b s
  · simp [isPending_raiseIf]
  · simp [startDrop_pending, isPending_raiseIf, e]

/-! ### Zone records -/

/-- Why the state rules isolate or confirm. -/
theorem zoneNext_why (c : Store) (z : Zone) (r : ZoneRecord) :
    (r.state.isIsolated = false → (zoneNext c z r).state.isIsolated = true →
        criticalAmong r.accusers = true ∨ ((c.zones[z]).delay = 0 ∧ r.state ≠ .confirmed))
      ∧ ((zoneNext c z r).state = .confirmed → criticalAmong r.accusers = false
        ∧ (r.state ≠ .confirmed → (c.zones[z]).delay ≠ 0)) := by
  have hi : (isolate z r).state ≠ .confirmed := by cases h : r.released <;> simp [isolate, h]
  unfold zoneNext unconfirmed
  generalize (suspicion r.accusers).isEmpty = m
  cases h : r.state <;> cases k : confirmationHolds c.quorum z r.accusers <;>
    cases g : criticalAmong r.accusers <;> cases d : (c.zones[z]).delay == 0 <;> cases m <;>
    simp_all [ZoneState.isIsolated]

/-- The part of a zone record that support passes leave alone. -/
structure SupportOnly (r q : ZoneRecord) : Prop where
  state : q.state = r.state
  delay : q.delay = r.delay
  clean : q.clean = r.clean
  count : q.count = r.count
  released : q.released = r.released
  stamp : q.stamp = r.stamp

theorem SupportOnly.trans {a b c : ZoneRecord} (h : SupportOnly a b) (k : SupportOnly b c) : SupportOnly a c :=
  ⟨k.state.trans h.state, k.delay.trans h.delay, k.clean.trans h.clean, k.count.trans h.count,
    k.released.trans h.released, k.stamp.trans h.stamp⟩

theorem supportPass_only (s : State) (z : Zone) : SupportOnly s.ziu.zones[z] (supportPass s).ziu.zones[z] := by
  have e : (supportPass s).ziu.zones[z] = supportZone s z := by simp [supportPass]
  rw [e]; constructor <;> rfl

theorem settleSupport_only (n : Nat) : ∀ (s : State) (z : Zone),
    SupportOnly s.ziu.zones[z] (settleSupport n s).ziu.zones[z] := by
  induction n with
  | zero => intro s z; constructor <;> rfl
  | succ n ih =>
    intro s z
    unfold settleSupport
    dsimp only
    split
    · exact supportPass_only s z
    · exact (supportPass_only s z).trans (ih { supportPass s with
        ziu.derived.implausible := implausibleMarks (supportPass s).ziu.zones } z)

/-- R75 to R80: a record whose support has changed, after the state rules. -/
theorem zoneFollows_next (c : Store) (z : Zone) (r m : ZoneRecord) (h : SupportOnly r m) :
    ZoneFollows c z r (zoneNext c z m) := by
  have hs := zoneNext_support c z m
  have hw := zoneNext_why c z m
  have hn := zoneNext_cases c z m
  obtain ⟨s1, s2, s3, s4, s5, s6⟩ := h
  rw [s1] at hw hn
  have nope : ∀ k : ZoneState, k.isIsolated = false → (isolate z m).state ≠ k := by
    intro k hk e
    have : (isolate z m).state.isIsolated = true := by cases q : m.released <;> simp [isolate, q, ZoneState.isIsolated]
    rw [e, hk] at this; cases this
  refine ⟨hs.2.2.2.2.trans s5, ?_, ?_, ?_, ?_, ?_, ?_⟩
  · intro hi
    rcases hn with ⟨e, -⟩ | ⟨-, k, -⟩ | ⟨-, k, -⟩ | ⟨-, k, -⟩ | ⟨-, k, -⟩
    · rw [e]; exact ⟨s1, s6, s4, s2, s3⟩
    · rw [k] at hi; cases hi
    · rcases k with k | k <;> rw [k] at hi <;> cases hi
    · rw [k] at hi; cases hi
    · rw [k] at hi; cases hi
  · intro hi hq
    have why := hw.1 hi hq
    rw [hs.2.1]
    rcases hn with ⟨e, -⟩ | ⟨e, -, k⟩ | ⟨e, -⟩ | ⟨e, -⟩ | ⟨e, -⟩
    · rw [e, s1, hi] at hq; cases hq
    · rw [e]; simp only [isolate, s4, s5]; exact ⟨trivial, trivial, trivial, trivial, trivial, k, why⟩
    all_goals (rw [e] at hq; cases hq)
  · intro hq
    rcases hn with ⟨e, -⟩ | ⟨e, -⟩ | ⟨e, -⟩ | ⟨e, -⟩ | ⟨e, -⟩
    · rw [e]; exact ⟨s4, s6⟩
    · rw [e] at hq; exact absurd rfl (nope _ hq)
    all_goals (rw [e]; exact ⟨s4, s6⟩)
  · intro hq
    have why := hw.2 hq
    rw [hs.2.1]
    refine ⟨why.1, ?_⟩
    rcases hn with ⟨e, -⟩ | ⟨e, -⟩ | ⟨e, k, -⟩ | ⟨e, -⟩ | ⟨e, -⟩
    · rw [e, s1] at hq; simp [e, hq, s2, s3]
    · rw [e] at hq; exact absurd hq (nope _ rfl)
    · have : r.state ≠ .confirmed := by rcases k with k | k <;> simp [k]
      rw [e]; simp [this]; exact why.2 this
    · rw [e] at hq; cases hq
    · rw [e] at hq; cases hq
  · intro hq
    rcases hn with ⟨e, k⟩ | ⟨e, -⟩ | ⟨e, -⟩ | ⟨e, -⟩ | ⟨e, -⟩
    · rw [e, s1] at hq; rw [hq] at k; exact k.elim
    · rw [e] at hq; exact absurd hq (nope _ rfl)
    · rw [e] at hq; cases hq
    · rw [e]; exact ⟨rfl, rfl⟩
    · rw [e] at hq; cases hq
  · intro hq
    rcases hn with ⟨e, -⟩ | ⟨e, -⟩ | ⟨e, -⟩ | ⟨e, -⟩ | ⟨e, -, k, -⟩
    · rw [e, s1] at hq; simp [e, hq, s2, s3]
    · rw [e] at hq; exact absurd hq (nope _ rfl)
    · rw [e] at hq; cases hq
    · rw [e] at hq; cases hq
    · rw [e]; simp [k, cleanStart, s5]

theorem settle_zone (b s : State) (z : Zone) : ZoneFollows s.cfg z s.ziu.zones[z] (settle b s).ziu.zones[z] := by
  have hc : (checkJoin s).cfg = s.cfg := (checkJoin_work s).cfg
  have hz : (checkJoin s).ziu = s.ziu := by rcases checkJoin_cases s with ⟨e, -⟩ | ⟨e, -⟩ <;> rw [e]; rfl
  have h := settleSupport_only 10 (peerDerivations (checkJoin s)) z
  have e2 : (peerDerivations (checkJoin s)).ziu.zones[z] = s.ziu.zones[z] := by
    show (checkJoin s).ziu.zones[z] = _; rw [hz]
  rw [e2] at h
  have e3 : (settleSupport 10 (peerDerivations (checkJoin s))).cfg = s.cfg := (settleSupport_work _ _).cfg.trans hc
  have e4 : (settle b s).ziu.zones[z] = zoneNext s.cfg z (settleSupport 10 (peerDerivations (checkJoin s))).ziu.zones[z] := by
    rw [settle_ziu]
    simp only [settleTables, settleZones, e3]
    simp
  rw [e4]
  exact zoneFollows_next s.cfg z _ _ h

/-! ### Caps and lines -/

theorem LinesFollow.refl (s : State) : LinesFollow s s :=
  ⟨fun h => .inr ⟨h, rfl⟩, fun h => .inr ⟨h, rfl⟩, .inr ⟨rfl, le_refl _, .inl rfl⟩, le_refl _, .inl ⟨rfl, rfl⟩⟩

theorem LinesFollow.trans {a b c : State} (e : b.cfg = a.cfg) (h : LinesFollow a b) (k : LinesFollow b c) :
    LinesFollow a c := by
  have z : b.perm.output = 0 → c.perm.output = 0 := fun m => Nat.le_zero.mp (m ▸ k.fall)
  refine ⟨fun g => ?_, fun g => ?_, ?_, k.fall.trans h.fall, ?_⟩
  · rcases k.high g with ⟨k1, k2⟩ | ⟨k1, k2⟩
    · refine .inl ⟨by rw [k1, e], fun ga => ?_⟩
      cases gb : b.out.gen
      · rcases h.low gb with h1 | h1
        · exact z h1.2
        · rw [ga] at h1; cases h1.1
      · exact k2 gb
    · rcases h.high k1 with ⟨h1, h2⟩ | ⟨h1, h2⟩
      · exact .inl ⟨k2.trans h1, fun ga => z (h2 ga)⟩
      · exact .inr ⟨h1, k2.trans h2⟩
  · rcases k.low g with k1 | ⟨k1, k2⟩
    · exact .inl k1
    · rcases h.low k1 with ⟨h1, h2⟩ | ⟨h1, h2⟩
      · exact .inl ⟨k2.trans h1, z h2⟩
      · exact .inr ⟨h1, k2.trans h2⟩
  · rcases k.cap with ⟨k1, k2⟩ | ⟨k1, k2, k3⟩
    · exact .inl ⟨by rw [k1, e], k2⟩
    · rcases h.cap with ⟨h1, h2⟩ | ⟨h1, h2, h3⟩
      · exact .inl ⟨k1.trans h1, k.fall.trans (h2.trans k2)⟩
      · refine .inr ⟨k1.trans h1, h2.trans k2, ?_⟩
        rcases k3 with k3 | k3
        · rcases h3 with h3 | h3
          · exact .inl (k3.trans h3)
          · exact .inr (k3.trans h3)
        · exact .inr k3
  · rcases k.duty with ⟨k1, k2⟩ | k1
    · rcases h.duty with ⟨h1, h2⟩ | h1
      · exact .inl ⟨k1.trans h1, k2.trans h2⟩
      · exact .inr (by rw [k2, k1, h1])
    · exact .inr k1

/-- States that agree in what `LinesFollow` reads. -/
theorem LinesFollow.same {s t : State} (p : t.perm = s.perm) (g : t.out.gen = s.out.gen) (r : t.out.rearm = s.out.rearm)
    (d : t.out.pendingDuty = s.out.pendingDuty) : LinesFollow s t :=
  ⟨fun h => .inr ⟨by rw [← g, h], r⟩, fun h => .inr ⟨by rw [← g, h], r⟩, .inr ⟨by rw [p], by rw [p], .inl (by rw [p])⟩,
    by rw [p], .inl ⟨by rw [p], d⟩⟩

theorem setOutput_duty (o : Nat) (s : State) : ((setOutput o s).perm.output = s.perm.output
    ∧ (setOutput o s).out.pendingDuty = s.out.pendingDuty) ∨ (setOutput o s).out.pendingDuty = dutyOf o := by
  unfold setOutput; split
  · exact .inl ⟨rfl, rfl⟩
  · exact .inr rfl

theorem setTarget_follow (t : Nat) (s : State) : LinesFollow s (setTarget t s) := by
  unfold setTarget
  split
  · next h =>
    have g := setOutput_gen (min t s.perm.output) { s with perm.target := t, perm.dwell := startTimer s.cfg.dwell }
    have r := setOutput_rearm (min t s.perm.output) { s with perm.target := t, perm.dwell := startTimer s.cfg.dwell }
    have d := setOutput_duty (min t s.perm.output) { s with perm.target := t, perm.dwell := startTimer s.cfg.dwell }
    refine ⟨fun k => .inr ⟨by rw [← k, g], r⟩, fun k => .inr ⟨by rw [← k, g], r⟩, .inl ⟨?_, ?_⟩, ?_, ?_⟩
    · rw [setOutput_dwell]; rfl
    · rw [setOutput_output, setOutput_target]; exact Nat.min_le_left _ _
    · rw [setOutput_output]; exact Nat.min_le_right _ _
    · rw [setOutput_output] at d ⊢; exact d
  · next h => exact ⟨fun k => .inr ⟨k, rfl⟩, fun k => .inr ⟨k, rfl⟩, .inr ⟨rfl, not_lt.mp h, .inl rfl⟩, le_refl _, .inl ⟨rfl, rfl⟩⟩

theorem setGen_follow (g : Bool) (s : State) : LinesFollow s (setGen g s) := by
  unfold setGen
  split
  · next h =>
    have d := setOutput_duty 0 { s with out.gen := false, out.rearm := none }
    refine ⟨fun k => ?_, fun _ => .inl ⟨?_, ?_⟩, .inr ⟨?_, ?_, .inr ?_⟩, ?_, ?_⟩
    · rw [setOutput_gen] at k; cases k
    · rw [setOutput_rearm]
    · rw [setOutput_output]
    · rw [setOutput_dwell]
    · rw [setOutput_target]
    · rw [setOutput_output]
    · rw [setOutput_output]; exact Nat.zero_le _
    · rw [setOutput_output] at d ⊢; exact d
  · next h =>
    exact ⟨fun _ => .inl ⟨rfl, fun k => by rw [h] at k; cases k⟩, fun k => (by cases k), .inr ⟨rfl, le_refl _, .inl rfl⟩,
      le_refl _, .inl ⟨rfl, rfl⟩⟩
  · exact .refl s

theorem resolve_follow (v : View) (s : State) : LinesFollow s (resolve v s) := by
  have h1 : LinesFollow s (setLevels v s) :=
    .same (setLevels_perm v s) (by rw [setLevels_out]) (by rw [setLevels_out]) (by rw [setLevels_out])
  have h2 : ∀ x u, LinesFollow u (setCaps x u) := by
    intro x u
    unfold setCaps
    refine LinesFollow.trans (b := { u with perm.foldback := foldbackOf u.cfg.slo u.cfg.shi x.toNat }) rfl ?_
      (setTarget_follow _ _)
    exact ⟨fun h => .inr ⟨h, rfl⟩, fun h => .inr ⟨h, rfl⟩, .inr ⟨rfl, le_refl _, .inl rfl⟩, le_refl _, .inl ⟨rfl, rfl⟩⟩
  have h3 : ∀ x u, LinesFollow u (setLines x u) := by
    intro x u
    unfold setLines
    refine LinesFollow.trans (b := setGen (decide (u.lvl.lapp.val < 5) && !x) u) (setGen_linesOnly _ _).cfg
      (setGen_follow _ _) ?_
    exact .same rfl rfl rfl rfl
  exact .trans ((setCaps_linesOnly _ _).cfg.trans (setLevels_linesOnly v s).cfg)
    (.trans (setLevels_linesOnly v s).cfg h1 (h2 _ _)) (h3 _ _)

theorem takeInTurn_follow (w : View) (l : List HandOn) : ∀ (v : View) (s : State), LinesFollow s (takeInTurn w l v s) := by
  induction l with
  | nil => intro v s; exact .refl s
  | cons k l ih => intro v s; exact .trans (resolve_linesOnly _ _).cfg (resolve_follow _ _) (ih _ _)

theorem handOn_follow (v : View) (s : State) : LinesFollow s (handOn v s) := by
  obtain ⟨u, lu, e, h⟩ := handOn_eq v s
  rw [e]
  refine .trans lu.cfg ?_ (resolve_follow _ _)
  rcases h with rfl | ⟨l, rfl⟩
  · exact .refl _
  · exact .trans (takeInTurn_linesOnly _ _ _ _).cfg (takeInTurn_follow _ l v s) (.same rfl rfl rfl rfl)

/-! ### The whole of an event -/

theorem triggered_iff (b s : State) : triggered b s = true ↔ Urgent b s := by
  have hc : ∀ o n : Option Claim, claimRose o n = true ↔
      ∃ c, n = some c ∧ (o = none ∨ ∃ d, o = some d ∧ d.severity.code < c.severity.code) := by
    intro o n
    cases o <;> cases n <;> simp [claimRose]
  have hs : ∀ s : State, s.selfIsolated = true ↔ SelfIsolated s := fun _ => Iff.rfl
  unfold triggered Urgent
  simp only [Bool.or_eq_true, decide_eq_true_eq, Bool.and_eq_true, Bool.not_eq_true', List.any_eq_true,
    List.mem_finRange, true_and, hc, ← Bool.not_eq_true, hs, or_assoc]

theorem urgent_congr {b s t : State} (l : t.lvl = s.lvl) (z : t.ziu = s.ziu) (c : t.ctl = s.ctl) :
    Urgent b t ↔ Urgent b s := by
  simp only [Urgent, SelfIsolated, l, z, c]

theorem zonesMoved_iff (b s : State) :
    zonesMoved b s = true ↔ ∃ z : Zone, (s.ziu.zones[z]).state ≠ (b.ziu.zones[z]).state := by
  unfold zonesMoved
  simp only [List.any_eq_true, List.mem_finRange, true_and, bne_iff_ne, ne_comm]

theorem presenceMoved_iff (b s : State) :
    presenceMoved b s = true ↔ ∃ p : Station, (s.pv.peers[p]).presence ≠ (b.pv.peers[p]).presence := by
  unfold presenceMoved
  simp only [List.any_eq_true, List.mem_finRange, true_and, bne_iff_ne, ne_comm]

theorem dropZoneEntered_iff (b s : State) : dropZoneEntered b s = true ↔ ∃ z : Zone,
    (s.cfg.zones[z]).contactorDrop = true ∧ (s.ziu.zones[z]).state.isIsolated = true
      ∧ (b.ziu.zones[z]).state.isIsolated = false := by
  unfold dropZoneEntered
  simp only [List.any_eq_true, List.mem_finRange, true_and, Bool.and_eq_true, Bool.not_eq_true', and_assoc]

theorem noteChanges_out (b s : State) : (noteChanges b s).out
    = if s.out.contactor = .closed ∧ dropZoneEntered b s = true then
        { s.out with contactor := .dropping, contactorTimer := some s.cfg.contactorDelay }
      else s.out := by
  have e : ∀ (c d : Bool) (f g : Flag), (raiseIf c f (raiseIf d g s)).out = s.out := by
    intro c d f g; cases c <;> cases d <;> rfl
  have k : ∀ (c d : Bool) (f g : Flag), (raiseIf c f (raiseIf d g s)).cfg = s.cfg := by
    intro c d f g; cases c <;> cases d <;> rfl
  unfold noteChanges startDrop
  dsimp only
  rw [e, k]
  by_cases h : dropZoneEntered b s = true <;> by_cases m : s.out.contactor = .closed <;> simp [h, m, e, raise]

/-- R34, R35: the trigger part of an event. -/
theorem raiseTriggers_sbc (b s : State) :
    (Urgent b s → s.ctl.mode = .joining ∨ s.ctl.mode = .running →
        (raiseTriggers b s).sbc = if s.sbc.inFlight.map Frame.kind = some .status then { s.sbc with renewal := true }
          else if s.sbc.requests.status = true then s.sbc
          else { s.sbc with requests.status := true, mute := some s.cfg.silenceTimeout })
      ∧ (¬Urgent b s ∨ (s.ctl.mode ≠ .joining ∧ s.ctl.mode ≠ .running) → (raiseTriggers b s).sbc = s.sbc) := by
  rw [← triggered_iff]
  unfold raiseTriggers
  refine ⟨fun h m => ?_, fun h => ?_⟩
  · rw [if_pos h]
    unfold urgent
    rw [if_pos m]
    split
    · rfl
    · unfold requestStatus; split <;> rfl
  · split
    · next k =>
      unfold urgent
      rcases h with h | ⟨h1, h2⟩
      · exact absurd k h
      · rw [if_neg (by simp [h1, h2])]
    · rfl

/-! ### The caps after one change of the inputs -/

theorem CapMoves.congr {s t u v : State} (h : CapMoves s t) (cfg : u.cfg = s.cfg) (perm : u.perm = s.perm)
    (gen : u.out.gen = s.out.gen) (perm' : v.perm = t.perm) (gen' : v.out.gen = t.out.gen) : CapMoves u v := by
  obtain ⟨h1, h2⟩ := h
  constructor <;> rw [perm, gen, perm', gen']
  · rw [cfg]; exact h1
  · exact h2

/-- R120, R121: where an event changes one input at most, the caps move once. -/
theorem handOn_capMoves {v : View} {s : State} (h : (View.changes v (View.of s)).length ≤ 1) : CapMoves s (handOn v s) := by
  unfold handOn
  split
  · exact resolve_capMoves _ _
  · exact resolve_capMoves _ _
  · next h1 h2 =>
    exfalso
    cases k : View.changes v (View.of s) with
    | nil => exact h1 k
    | cons a l => cases l with
      | nil => exact h2 a k
      | cons b l => rw [k] at h; simp at h

theorem settle_capMoves (b s : State) (h : (View.changes (View.of b) (View.of (settle b s))).length ≤ 1) :
    CapMoves s (settle b s) := by
  obtain ⟨x, y, z, hx, hy, hz, e, hw, hn, hl, -⟩ := settle_stages b s
  have view : View.of (settle b s) = View.of y := by
    rw [← hl.view, e]
    simp only [View.of]
  have cont := noteChanges_out b (settleTables s)
  rw [← hx, ← hy] at cont
  have gen : s.out.gen = y.out.gen := by rw [cont, hw.out]; split <;> rfl
  have m : CapMoves y z := by rw [hz]; exact handOn_capMoves (by rw [← view]; exact h)
  exact m.congr (hn.cfg.trans hw.cfg).symm (hn.perm.trans hw.perm).symm gen (by rw [e]) (by rw [e])

/-- R105, R107, R120: the inputs that an event changes, in the order in which they arrive. -/
theorem settle_inTurn (b s : State) : ∃ order : List HandOn, order.Perm (View.changes (View.of b) (View.of (settle b s)))
    ∧ FollowsInTurn s (settle b s) (viewsInTurn (View.of (settle b s)) order (View.of b)) := by
  obtain ⟨x, y, z, hx, hy, hz, e, hw, hn, hl, -⟩ := settle_stages b s
  have view : View.of (settle b s) = View.of y := by
    rw [← hl.view, e]
    simp only [View.of]
  obtain ⟨order, perm, turns⟩ := handOn_inTurn (View.of b) y
  refine ⟨order, by rw [view]; exact perm, ?_⟩
  rw [view]
  have np := noteChanges_pending b (settleTables s) .level
  rw [← hx, ← hy] at np
  refine FollowsInTurn.congr (hz ▸ turns) (hn.cfg.trans hw.cfg).symm ?_ (hn.perm.trans hw.perm).symm ?_ ?_ (by rw [e]) ?_
  · rw [hn.ctl, hw.ctl]
  · rw [hn.lvl, hw.lvl]
  · rw [np, isPending_congr (congrArg Port.flags hw.port)]
    simp [show (Flag.level == Flag.zone) = false from rfl, show (Flag.level == Flag.peer) = false from rfl,
      show (Flag.level == Flag.contactor) = false from rfl]
  · exact isPending_congr (by rw [e]) _

/-- R107: where an event changes one input at most, LEVEL is raised exactly if Lapp has changed. -/
theorem settle_level_once (b s : State) (h : (View.changes (View.of b) (View.of (settle b s))).length ≤ 1) :
    (settle b s).isPending .level = true ↔ (s.isPending .level = true ∨ (settle b s).lvl.lapp ≠ s.lvl.lapp) := by
  obtain ⟨order, perm, turns⟩ := settle_inTurn b s
  obtain ⟨u, -, hl, -, -, hv, hc, ht⟩ := settle_resolved b s
  have lapp : (settle b s).lvl.lapp = appliedLevel s.cfg s.ctl.station (View.of (settle b s)) := by
    rw [hl, resolve_lapp, ← hv, ← hc, ← ht, settle_cfg, settle_station]
  rw [turns.level, lapp]
  refine or_congr_right ?_
  cases order with
  | nil => simp [viewsInTurn]
  | cons k l =>
    have l0 : l = [] := by
      have := perm.length_eq
      simp only [List.length_cons] at this
      exact List.eq_nil_of_length_eq_zero (by omega)
    subst l0
    simp [viewsInTurn, take_of_one (List.perm_singleton.mp perm.symm)]

/-- All that may follow from a change of one block is what `settle` does. -/
theorem settle_follows (b s : State) : Follows b s (settle b s) := by
  have w := settleTables_work s
  have nt := noteChanges_note b (settleTables s)
  have lo := handOn_linesOnly (View.of b) (noteChanges b (settleTables s))
  have e : settle b s = { handOn (View.of b) (noteChanges b (settleTables s)) with sbc := (settle b s).sbc } :=
    raiseTriggers_eq _ _
  have eport : (settle b s).port = (handOn (View.of b) (noteChanges b (settleTables s))).port := by rw [e]
  have eout : (settle b s).out = (handOn (View.of b) (noteChanges b (settleTables s))).out := by rw [e]
  have eperm : (settle b s).perm = (handOn (View.of b) (noteChanges b (settleTables s))).perm := by rw [e]
  have elvl : (settle b s).lvl = (handOn (View.of b) (noteChanges b (settleTables s))).lvl := by rw [e]
  have ectl : (settle b s).ctl = (handOn (View.of b) (noteChanges b (settleTables s))).ctl := by rw [e]
  have eziu : (settle b s).ziu = (handOn (View.of b) (noteChanges b (settleTables s))).ziu := by rw [e]
  have ziu : (settle b s).ziu = (settleTables s).ziu := settle_ziu b s
  have peers : (settle b s).pv.peers = (settleTables s).pv.peers := by rw [settle_peers, w.peers]
  have hp := handOn_pending (View.of b) (noteChanges b (settleTables s))
  have np := noteChanges_pending b (settleTables s)
  have wp : ∀ f, (settleTables s).isPending f = s.isPending f := fun f => isPending_congr (by rw [w.port]) f
  have pend : ∀ f, f ≠ .level → (settle b s).isPending f = (noteChanges b (settleTables s)).isPending f := by
    intro f hf
    rw [← hp.1 f hf]
    exact isPending_congr (by rw [eport]) f
  have trig := raiseTriggers_sbc b (handOn (View.of b) (noteChanges b (settleTables s)))
  have es : raiseTriggers b (handOn (View.of b) (noteChanges b (settleTables s))) = settle b s := rfl
  rw [es] at trig
  have urg : Urgent b (settle b s) ↔ Urgent b (handOn (View.of b) (noteChanges b (settleTables s))) := urgent_congr elvl eziu ectl
  have osbc : (handOn (View.of b) (noteChanges b (settleTables s))).sbc = s.sbc := by rw [lo.sbc, nt.sbc, w.sbc]
  have ocfg : (handOn (View.of b) (noteChanges b (settleTables s))).cfg = s.cfg := by rw [lo.cfg, nt.cfg, w.cfg]
  have cont := noteChanges_out b (settleTables s)
  rw [w.out, w.cfg] at cont
  have drop : dropZoneEntered b (settleTables s) = true ↔ ∃ z : Zone, (s.cfg.zones[z]).contactorDrop = true
      ∧ ((settle b s).ziu.zones[z]).state.isIsolated = true ∧ (b.ziu.zones[z]).state.isIsolated = false := by
    rw [dropZoneEntered_iff, w.cfg, ziu]
  have con : (settle b s).out.contactor = (noteChanges b (settleTables s)).out.contactor
      ∧ (settle b s).out.contactorTimer = (noteChanges b (settleTables s)).out.contactorTimer := by
    rw [eout]; exact ⟨lo.contactor, lo.contactorTimer⟩
  refine { kept := (settle_kept b s).1, mode := ?_, derived := ?_, lost := ?_, zones := settle_zone b s, disputes := fun hc => settle_disputes b s hc,
           support := settle_current b s, drive := settle_drive b s, lines := ?_,
           inTurn := settle_inTurn b s, oneChange := fun h => ⟨settle_capMoves b s h, settle_level_once b s h⟩, contactor := ?_,
           level := ?_, zone := ?_, peer := ?_, drop := ?_, others := ?_, urgent := ?_, quiet := ?_ }
  · rw [settle_ctl, settle_pv]
    rcases checkJoin_cases s with ⟨k, h⟩ | ⟨k, h⟩
    · rw [k, if_neg h]; exact ⟨rfl, rfl⟩
    · rw [k, if_pos h]; exact ⟨rfl, rfl⟩
  · rw [ziu]; exact w.derived
  · intro p
    rw [ziu, settleTables_lost, settle_peers]
    simp [lostMarks]
  · have h1 : LinesFollow s (noteChanges b (settleTables s)) := by
      refine .same (by rw [nt.perm, w.perm]) ?_ ?_ ?_ <;> rw [cont] <;> split <;> rfl
    have h2 := LinesFollow.trans (nt.cfg.trans w.cfg) h1 (handOn_follow (View.of b) (noteChanges b (settleTables s)))
    exact .trans (lo.cfg.trans (nt.cfg.trans w.cfg)) h2 (.same eperm (by rw [eout]) (by rw [eout]) (by rw [eout]))
  · split
    · next h =>
      rw [con.1, con.2, cont, if_pos ⟨h.1, drop.mpr h.2⟩]; exact ⟨rfl, rfl⟩
    · next h =>
      rw [con.1, con.2, cont, if_neg (fun k => h ⟨k.1, drop.mp k.2⟩)]; exact ⟨rfl, rfl⟩
  · intro h
    have : (settle b s).isPending .level
        = (handOn (View.of b) (noteChanges b (settleTables s))).isPending .level := isPending_congr (by rw [eport]) _
    rw [this]
    apply hp.2
    rw [np, wp, nt.lvl, w.lvl, ← elvl]
    rcases h with h | h
    · exact .inl (by simp [h])
    · exact .inr h
  · rw [pend _ (by decide), np, wp, ziu, ← zonesMoved_iff]; simp
  · rw [pend _ (by decide), np, wp, peers, ← presenceMoved_iff]; simp
  · rw [pend _ (by decide), np, wp, w.out, con.1, cont]
    by_cases h : s.out.contactor = .closed <;> by_cases k : dropZoneEntered b (settleTables s) = true <;> simp [h, k]
  · intro f hf
    have : f ≠ .level := by rcases hf with rfl | rfl | rfl | rfl <;> decide
    rw [pend f this, np, wp]
    have ez : (f == Flag.zone) = false := by rcases hf with rfl | rfl | rfl | rfl <;> rfl
    have ep : (f == Flag.peer) = false := by rcases hf with rfl | rfl | rfl | rfl <;> rfl
    have ec : (f == Flag.contactor) = false := by rcases hf with rfl | rfl | rfl | rfl <;> rfl
    simp only [ez, ep, ec, Bool.and_false, Bool.or_false]
  · rw [urg, ectl, ← osbc, ← ocfg]; exact trig.1
  · rw [urg, ectl, ← osbc]; exact trig.2

/-- The reply of a request is no part of what follows. -/
theorem Follows.reply {b u t : State} (h : Follows b u t) (r : Option (List Byte)) :
    Follows b u { t with port.reply := r } := by
  obtain ⟨h1, h2, h3, h4, h5, h55, h6, h7, h8, ⟨order, perm, turns⟩, h85, h9, ha, hb, hc, hd, he, hf, hg⟩ := h
  refine ⟨?_, h2, h3, h4, h5, h55, ?_, ?_, ⟨h8.1, h8.2, h8.3, h8.4, h8.5⟩, ⟨order, perm, turns.congr rfl rfl rfl rfl rfl rfl rfl⟩,
    fun h => ⟨⟨(h85 h).1.1, (h85 h).1.2⟩, (h85 h).2⟩, h9, ha, hb, hc, hd, he, hf, hg⟩
  · obtain ⟨k1, k2, k3, k4, k5, k6, k7, k8, k9, ka, kb, kc, kd, ke⟩ := h1
    exact ⟨k1, k2, k3, k4, k5, k6, k7, k8, k9, ka, kb, kc, kd, ke⟩
  · exact h6.congr rfl rfl rfl rfl rfl
  · obtain ⟨k1, k2, k3, k4, k5, k6, k7, k8, k9⟩ := h7
    exact ⟨k1, k2, k3, k4, k5, k6, k7, k8, k9⟩

/-! ### Commands -/

/-- A request that reaches its owner is answered as the owner says. -/
theorem request_answers {command : Byte} {args : List Byte} {tail : Tail} {s : State} {n : Nat} {owner : State → Answer}
    {a : Answer} (h : Taken s (command :: args) tail) (e : owner s = a) :
    hostRequest command args tail n owner s = .next (a.state.answering a.code (replyData n a)) := by
  rw [hostRequest_taken h, e]; rfl

/-- A request that its owner carries out, and from whose change the rest of the event follows. -/
theorem request_follows {command : Byte} {args : List Byte} {tail : Tail} {s u : State} {owner : State → Answer} {b : Bool}
    (h : Taken s (command :: args) tail) (e : owner s = accept b (settle s u)) :
    ∃ t, hostRequest command args tail 0 owner s = .next t ∧ t.port.reply = some (replyFrame (if b then .clamped else .ok) [])
      ∧ Follows s u t := by
  have k : ∀ v : State, (accept b v).state.answering (accept b v).code (replyData 0 (accept b v))
      = v.answering (if b then .clamped else .ok) := by intro v; cases b <;> rfl
  exact ⟨(settle s u).answering (if b then .clamped else .ok), by rw [request_answers h e, k], rfl,
    (settle_follows s u).reply _⟩

/-- An event outside power-on reset from whose change the rest follows. -/
theorem event_follows {s u : State} {f : State → State} (h : s.ctl.held = false) (e : f s = settle s u)
    (r : u.port.reply = s.port.reply) :
    ∃ t, event s f = .next t ∧ t.port.reply = s.port.reply ∧ Follows s u t := by
  refine ⟨settle s u, by rw [event_of_not_held h, e], ?_, settle_follows s u⟩
  rw [settle_reply, r]

end Sys2Proof.Machine
end

