-- ==== Sys2Proof/Tests/Slice0.lean ====
section
/-! SUPPORT. The model's own tests: what is not well formed is refused, a few steps with results taken from the manual's
sentences and examples, and for each statement that has hypotheses a state and operands that meet them (`witness_…`). -/

set_option Elab.async false

namespace Sys2Proof.Tests

open Sys2Proof.Machine

/-! ### States to start from -/

/-- A Local Fault Table with an input entry in each state, and a HEALING and an ACTIVE declared one. -/
def table : Lft :=
  let e : Entry := { source := .input 0, cls := .sensor, zone := 5, configured := .major, current := .major, state := .active
                     count := some 1, escalated := false, firstActive := some 100, latching := false }
  let d : Entry := { e with source := .declared, cls := .mechanical, zone := 6 }
  { inputs := (Lft.empty.inputs.set 0 ⟨some e, none, none⟩).set 1 ⟨some { e with
        source := .input 1, state := .qualifying, count := none, firstActive := none }, some 7, none⟩
      |>.set 2 ⟨some { e with source := .input 2, state := .healing }, none, some 90⟩
      |>.set 3 ⟨some { e with source := .input 3, state := .latched, latching := true, count := some 2 }, none, none⟩
    declared := (Lft.empty.declared.set 0 ⟨some { d with state := .healing, count := some 2 }, none, some 40⟩).set 1
      ⟨some { d with zone := 7 }, none, none⟩
    pointer := 1 }

/-- A battery station S0 in RUNNING with its contactor fitted, S3 expected and PRESENT, and no fault. -/
def running : State :=
  { State.powerOn 0 .battery (Vector.ofFn fun _ => false) [] 0 with
    ctl := { held := false, mode := .running, started := true, station := 0, role := .battery, nodeTime := 1000 }
    sbc := { Sbc.initial with receiverOn := true, transmitterOn := true, statusTimer := some 20 }
    pv := ⟨PeerView.initial.peers.set 3 { PeerRecord.absent true with
        presence := .present, role := some .drive, group := some 1, status := some ⟨0, 0, true, false, false⟩
        lastHeard := some 990, silence := some 190 }, none⟩
    lvl := { Levels.initial with lapp := 0, speedCap := 250, regen := true }
    perm := { Permission.initial with target := 1000, output := 400, stressTimer := some 300 }
    out := { Outputs.initial with gen := true, pendingDuty := 410, activeDuty := 410, lamp := .off } }

/-- The same in JOINING, with S3 not PRESENT yet. -/
def awaiting : State :=
  { running with
    ctl.mode := .joining
    pv := ⟨running.pv.peers.set 3 { running.pv.peers[3] with presence := .joining, status := none }, some 400⟩ }

/-- The end of a request of these bytes whose CRC matches, the first of its transaction. -/
def whole (bytes : List Byte) : Tail := ⟨crc8 bytes, .fresh⟩

/-- The same with DEPART waiting. -/
def waiting : State := { running with pending := [.depart (whole [0x1A])] }

/-- Every input enabled, FI3 latching and FI7 a trip input. -/
def watched (n : Input) : InputConfig := { InputConfig.initial 0 with enabled := true, trip := n == 7, latching := n == 3 }

/-- The same with the table's entries; the eight inputs are enabled, and FI0, FI1 and FI3 are asserted. -/
def faulty : State :=
  { running with
    lft := table, pins.faultLines := #v[true, true, false, true, false, false, false, false]
    cfg.inputs := Vector.ofFn watched }

/-- Z2 ISOLATED with its stamp, Z3 PINNED, Z5 CONFIRMED with its delay, a dispute of S3 pending on Z4, Z6 CLEAR since a release. -/
def zoned : State :=
  let r := ZoneRecord.initial
  let a (n : Station) : Accuser := ⟨n, ⟨.sensor, .major⟩, false⟩
  setZoneRecord 2 { r with state := .isolated, count := 1, stamp := some 0x2100 }
    (setZoneRecord 3 { r with state := .pinned, count := 2, released := true, stamp := some 0x3208 }
    (setZoneRecord 4 { r with state := .suspect, accusers := [a 3], dispute := .pending 3, disputeTimer := some 500 }
    (setZoneRecord 5 { r with state := .confirmed, accusers := [a 0, a 3], delay := some 120 }
    (setZoneRecord 6 { r with released := true, clean := some 60000, count := 1 } running))))

/-- Z2 alone ISOLATED, with no accusation left. -/
def isolated : State :=
  setZoneRecord 2 { ZoneRecord.initial with state := .isolated, count := 1, stamp := some 0x2100 } running

/-- S3 alone accuses Z0, whose owner S0 attests itself free of faults; the dispute's window is over. -/
def disputed : State :=
  { setZoneRecord 0 { ZoneRecord.initial with
      state := .suspect, accusers := [⟨3, ⟨.sensor, .major⟩, false⟩], dispute := .pending 3, disputeTimer := some 0 } running with
    pv.peers := running.pv.peers.set 3 { running.pv.peers[3] with list := [⟨0, ⟨.sensor, .major⟩⟩] } }

/-- The configured station's bench: Shi below Slo, and a B table that rises. -/
def bench : State := { State.reset with cfg.slo := 255, cfg.shi := 200, cfg.baseCaps := #v[700, 750, 450, 150] }

/-- The chip held in power-on reset. -/
def asleep : State := heldInReset State.reset

/-- Whether a command answers a next state with this property. -/
def leads (o : Result) (P : State → Bool) : Bool :=
  match o with
  | .next t => P t
  | .fault _ | .refused _ => false

/-- Every request with a matching CRC is taken by a port that takes requests. -/
theorem takes (s : State) (h : s.takes .fresh = true) (bytes : List Byte) : Taken s bytes (whole bytes) := ⟨h, rfl⟩

/-! ### The invariants hold of states that a run can reach -/

theorem slot_all {l : Vector Slot 8} {P : Fin 8 → Entry → Prop} (h : ∀ n, ∀ x ∈ (l[n]).entry, P n x) (n : Fin 8) (x : Entry)
    (e : (l[n]).entry = some x) : P n x := h n x e

theorem slot_timer {l : Vector Slot 8} {v : EntryState} {t : Slot → Timer}
    (h : ∀ n : Fin 8, (t l[n]).isSome = (l[n]).entry.any fun x => x.state == v) (n : Fin 8) :
    (t l[n]).isSome = true ↔ ∃ x, (l[n]).entry = some x ∧ x.state = v := by
  rw [h n]; cases (l[n]).entry <;> simp

theorem running_configured : ConfigInRange running := by
  constructor <;> decide +kernel

theorem faulty_configured : ConfigInRange faulty := by
  constructor <;> decide +kernel

theorem running_idle : IdleUntilStart waiting := by
  constructor <;> decide +kernel

theorem table_consistent (s : State) (h : s.lft = table) : FaultTableConsistent s := by
  have i : ∀ n : Fin 8, ∀ x ∈ (table.inputs[n]).entry, (x.cls.code ≤ 6 ∧ x.count.all (fun c => 1 ≤ c && c ≤ 15) = true
      ∧ (x.count = none ↔ x.state = .qualifying) ∧ (x.firstActive = none ↔ x.state = .qualifying)
      ∧ x.current = (if x.escalated then x.configured.up else x.configured) ∧ (x.state = .latched → x.latching = true))
      ∧ x.source = .input n := by decide +kernel
  have d : ∀ n : Fin 8, ∀ x ∈ (table.declared[n]).entry, (x.cls.code ≤ 6 ∧ x.count.all (fun c => 1 ≤ c && c ≤ 15) = true
      ∧ (x.count = none ↔ x.state = .qualifying) ∧ (x.firstActive = none ↔ x.state = .qualifying)
      ∧ x.current = (if x.escalated then x.configured.up else x.configured) ∧ (x.state = .latched → x.latching = true))
      ∧ x.source = .declared ∧ (x.state = .active ∨ x.state = .healing) ∧ x.latching = false := by decide +kernel
  have k : ∀ x : Entry, (x.cls.code ≤ 6 ∧ x.count.all (fun c => 1 ≤ c && c ≤ 15) = true
      ∧ (x.count = none ↔ x.state = .qualifying) ∧ (x.firstActive = none ↔ x.state = .qualifying)
      ∧ x.current = (if x.escalated then x.configured.up else x.configured) ∧ (x.state = .latched → x.latching = true))
      → EntryConsistent x := by
    rintro x ⟨h1, h2, h3, h4, h5, h6⟩
    refine ⟨h1, ?_, h4, h5, h6⟩
    cases c : x.count with
    | none => exact h3.mp c
    | some m =>
      simp only [c, Option.all_some, Bool.and_eq_true, decide_eq_true_eq] at h2
      exact ⟨fun e => by simpa [c] using h3.mpr e, h2.1, h2.2⟩
  constructor <;> (try rw [h])
  · exact fun n x e => ⟨k x (slot_all i n x e).1, (slot_all i n x e).2⟩
  · exact slot_timer (by decide +kernel)
  · exact slot_timer (by decide +kernel)
  · exact fun n x e => ⟨k x (slot_all d n x e).1, (slot_all d n x e).2⟩
  · decide +kernel
  · exact slot_timer (by decide +kernel)
  · have o : ∀ a b : Fin 8, ∀ x ∈ (table.declared[a]).entry, ∀ y ∈ (table.declared[b]).entry,
        x.cls = y.cls → x.zone = y.zone → a = b := by decide +kernel
    exact fun a b x y ex ey => o a b x ex y ey

theorem waiting_bus : BusConsistent waiting := by
  constructor <;> first
    | decide +kernel
    | (intro f h; cases h)

theorem running_peers : PeerTableConsistent running := by
  constructor <;> decide +kernel

theorem awaiting_peers : PeerTableConsistent awaiting := by
  constructor <;> decide +kernel

theorem stamps_agree (s : State) (h : ∀ z : Zone, (s.ziu.zones[z]).stamp.all
    (fun w => w.toNat / 256 == 16 * z.val + (s.ziu.zones[z]).count) = true) (z : Zone) (w : Half)
    (e : (s.ziu.zones[z]).stamp = some w) : w.toNat / 256 = 16 * z.val + (s.ziu.zones[z]).count := by
  have k := h z
  rw [e] at k
  exact of_decide_eq_true k

theorem zones_consistent : ZoneTableConsistent zoned := by
  intro z
  constructor
  · revert z; decide +kernel
  · exact stamps_agree _ (by decide +kernel) z
  all_goals (revert z; decide +kernel)

theorem running_zones : ZoneTableConsistent running := by
  intro z
  constructor
  · revert z; decide +kernel
  · exact stamps_agree _ (by decide +kernel) z
  all_goals (revert z; decide +kernel)

theorem disputed_zones : ZoneTableConsistent disputed := by
  intro z
  constructor
  · revert z; decide +kernel
  · exact stamps_agree _ (by decide +kernel) z
  all_goals (revert z; decide +kernel)

theorem supported (s : State) (o : ∀ z : Zone, (s.ziu.zones[z]).own = ownClaim s z)
    (a : ∀ z : Zone, (s.ziu.zones[z]).accusers = markDiscounted (s.ziu.zones[z]).dispute (accusersOf s (ownClaim s z) z))
    (d : ∀ z : Zone, disputedBy s z (accusersOf s (ownClaim s z) z) = (s.ziu.zones[z]).dispute.accuser)
    (i : ∀ p : Station, s.ziu.derived.implausible[p] = true ↔ ∃ z : Zone, (s.ziu.zones[z]).dispute = .inForce p)
    (q : ∀ z : Zone, ((s.ziu.zones[z]).state = .clear ∧ suspicion (s.ziu.zones[z]).accusers = [])
      ∨ ((s.ziu.zones[z]).state = .suspect ∧ suspicion (s.ziu.zones[z]).accusers ≠ []
        ∧ confirmationHolds s.cfg.quorum z (s.ziu.zones[z]).accusers = false)
      ∨ (s.ziu.zones[z]).state.isIsolated = true) : SupportCurrent s := by
  refine ⟨o, a, fun z => ?_, i, fun z => ?_⟩
  · rw [d z]
    cases (s.ziu.zones[z]).dispute <;> simp [Dispute.accuser]
  · rcases q z with ⟨h, k⟩ | ⟨h, k⟩ | h
    · rw [h]; exact k
    · rw [h]; exact k
    · revert h
      cases (s.ziu.zones[z]).state <;> simp [ZoneState.isIsolated]

theorem isolated_support : SupportCurrent isolated := by
  apply supported <;> decide +kernel

theorem waiting_support : SupportCurrent waiting := by
  apply supported <;> decide +kernel

theorem disputed_support : SupportCurrent disputed := by
  apply supported <;> decide +kernel

theorem disputed_peers : PeerTableConsistent disputed := by
  constructor <;> decide +kernel

theorem disputed_table : FaultTableConsistent disputed := by
  have none_in (l : Vector Slot 8) (h : ∀ n : Fin 8, (l[n]).entry = none) (n : Fin 8) (x : Entry) (e : (l[n]).entry = some x) : False := by
    rw [h n] at e; cases e
  have i := none_in disputed.lft.inputs (by decide +kernel)
  have d := none_in disputed.lft.declared (by decide +kernel)
  constructor
  · exact fun n x e => (i n x e).elim
  · exact slot_timer (by decide +kernel)
  · exact slot_timer (by decide +kernel)
  · exact fun n x e => (d n x e).elim
  · decide +kernel
  · exact slot_timer (by decide +kernel)
  · exact fun a _ x _ ex => (d a x ex).elim

theorem waiting_drive : DriveCurrent waiting := by
  constructor <;> decide +kernel

theorem waiting_outputs : OutputsConsistent waiting := by
  constructor <;> decide +kernel

/-! ### What is not well formed is refused -/

/-- The answer is the refusal of a command that is not well formed. -/
def turnedAway (o : Result) : Bool :=
  match o with
  | .refused .mislabelled => true
  | _ => false

/-- A bit string of the line or of SDI, written as 0 and 1. -/
def bitString (s : String) : List Bool := s.toList.map (· == '1')

theorem test_smoke_hello : (Instr.hello 10 (Frame.leave 3).wire).wf = false
    ∧ turnedAway (exec (.hello 10 (Frame.leave 3).wire) running) = true := by decide +kernel

theorem test_smoke_status : (Instr.status 10 (Frame.leave 3).wire).wf = false
    ∧ turnedAway (exec (.status 10 (Frame.leave 3).wire) running) = true := by decide +kernel

theorem test_smoke_leave : (Instr.leave 10 (Frame.hello 3 .drive 1).wire).wf = false
    ∧ turnedAway (exec (.leave 10 (Frame.hello 3 .drive 1).wire) running) = true := by decide +kernel

theorem test_smoke_unknown_command : (Instr.unknownCommand 0x20 (whole [0x20])).wf = false
    ∧ turnedAway (exec (.unknownCommand 0x20 (whole [0x20])) running) = true := by decide +kernel

/-! ### Frames and bytes, written out from the manual's layouts -/

/-- R178, R179, R25: HELLO of S3, role DRIVE, group 1: 0 011 00 10 01, CRC 0x9BA4 worked by R179's steps; no run of four, so no stuff
bit; seven end bits. -/
theorem test_hello_bits : (Frame.hello 3 .drive 1).wire = bitString "001100100110011011101001001111111" := by decide +kernel

/-- R178, R179, R25: LEAVE of S0: 0 000 10, CRC 0x3C7C, with stuff bits after each run of four. -/
theorem test_leave_bits : (Frame.leave 0).wire = bitString "000011000111100001111011001111111" := by decide +kernel

/-- R178, sequence 11.1: S2's STATUS of 100,005: group 1, Lown and Lapp L2, one entry, Z2 OVERCURRENT MAJOR; CRC 0x2078. -/
theorem test_status_bits : (Frame.status 2 false false false false 1 2 2 [⟨2, ⟨.overcurrent, .major⟩⟩]).wire
    = bitString "00100100001010100100010010000111000100001001111000011111111" := by decide +kernel

/-- R180: the READ-SUMMARY request is 0x20 0x31, and the reply to RESET 0x00 0x42. -/
theorem test_spi_bytes : crc8 [0x20] = 0x31 ∧ replyFrame .ok [] = [0x00, 0x42] := by decide +kernel

/-! ### Worked values of the manual -/

/-- R79 and sequences 11.1, 11.5, 11.6: the stamps 24,906, 8,452, 33,025 and 12,551. -/
theorem test_stamps : let by' (l : List Station) : List Accuser := l.map fun n => ⟨n, ⟨.sensor, .major⟩, false⟩
    isolationStamp 6 1 (by' [1, 3, 6]) = 24906 ∧ isolationStamp 2 1 (by' [2]) = 8452 ∧ isolationStamp 8 1 (by' [0]) = 33025
      ∧ isolationStamp 3 1 (by' [0, 1, 2]) = 12551 := by decide +kernel

/-- R118's table, and R125 in sequence 11.1: the duties of 1000, 450 and 0. -/
theorem test_foldback_and_duty : [121, 150, 160, 199].map (foldbackOf 120 200) = [987, 625, 500, 12]
    ∧ [1000, 450, 0].map dutyOf = [950, 455, 50] := by decide +kernel

/-! ### Single steps -/

/-- Sequence 11.1 at 100,005: S2 with FI3 QUALIFYING. -/
def overcurrent : State :=
  { running with
    ctl.station := 2
    cfg.inputs := Vector.ofFn fun _ => { InputConfig.initial 2 with enabled := true, cls := .overcurrent, qualify := 5, heal := 300 }
    perm := { running.perm with output := 1000 }
    lft.inputs := Lft.empty.inputs.set 3 ⟨some
      { source := .input 3, cls := .overcurrent, zone := 2, configured := .major, current := .major, state := .qualifying
        count := none, escalated := false, firstActive := none, latching := false }, some 0, none⟩ }

/-- Z2 CONFIRMED with its delay of 300 ms, Lown and Lapp L2, O 450, and an urgent STATUS. -/
theorem test_qualify_expiry : leads (exec (.qualifyExpiry 3) overcurrent) (fun t =>
    (t.ziu.zones[(2 : Zone)]).state == .confirmed && (t.ziu.zones[(2 : Zone)]).delay == some 300 && t.lvl.lapp == 2
      && t.perm.output == 450 && t.out.pendingDuty == 455 && t.sbc.requests.status) = true := by decide +kernel

/-- Sequence 11.5 at 300,002: S0's FI6 becomes ACTIVE against Z8 at CRITICAL, its contactor CLOSED. -/
def collapse : State :=
  { running with
    out := { running.out with contactor := .closed }
    lft.inputs := Lft.empty.inputs.set 6 ⟨some
      { source := .input 6, cls := .undervoltage, zone := 8, configured := .critical, current := .critical, state := .qualifying
        count := none, escalated := false, firstActive := none, latching := true }, some 0, none⟩ }

/-- Z8 ISOLATED at once with stamp 33,025, L5, GEN low, the contactor DROPPING for 100 ms and CONTACTOR raised. -/
theorem test_critical_isolates : leads (exec (.qualifyExpiry 6) collapse) (fun t =>
    (t.ziu.zones[(8 : Zone)]).state == .isolated && (t.ziu.zones[(8 : Zone)]).stamp == some 33025 && t.lvl.lapp == 5 && !t.out.gen
      && t.out.contactor == .dropping && t.out.contactorTimer == some 100 && t.isPending .contactor) = true := by decide +kernel

/-- Sequence 11.5 at 300,050: CONTACTOR-CLOSE while DROPPING is refused BUSY (code 14). -/
theorem test_close_busy : leads (exec (.contactorClose (whole [0x18]))
    { running with out := { running.out with contactor := .dropping, contactorTimer := some 52 } })
    (fun t => t.port.reply.bind List.head? == some 0x0E && t.out.contactor == .dropping) = true := by decide +kernel

/-- Sequence 11.4 at 150,000: RELEASE of a PINNED zone is refused PINNED (code 10). -/
theorem test_release_pinned : leads (exec (.release 3 0x3208 (whole (0x16 :: 3 :: argBytes 0x3208))) zoned)
    (fun t => t.port.reply.bind List.head? == some 0x0A && (t.ziu.zones[(3 : Zone)]).state == .pinned) = true := by decide +kernel

/-- Sequence 11.4 at 110,000: RELEASE with the stamp makes the zone CLEAR, with its clean timer at 60 s. -/
theorem test_release : leads (exec (.release 2 0x2100 (whole (0x16 :: 2 :: argBytes 0x2100))) isolated)
    (fun t => (t.ziu.zones[(2 : Zone)]).state == .clear && (t.ziu.zones[(2 : Zone)]).clean == some 60000
      && (t.ziu.zones[(2 : Zone)]).released) = true := by decide +kernel

/-- Sequence 11.4 at 110,050: a ramp expiry takes O from 450 to 475, duty 477 (50 + 427). -/
theorem test_ramp : leads (exec .rampExpiry { running with perm := { running.perm with output := 450 } })
    (fun t => t.perm.output == 475 && t.out.pendingDuty == 477) = true := by decide +kernel

/-- R52: a LEAVE of S3 makes its record LEAVING with the leave grace running. -/
theorem test_leave : leads (exec (.leave 10 (Frame.leave 3).wire) running)
    (fun t => (t.pv.peers[(3 : Station)]).presence == .leaving && (t.pv.peers[(3 : Station)]).leave == some 500
      && (t.pv.peers[(3 : Station)]).silence == none) = true := by decide +kernel

/-- R50: a HELLO of S3 makes its record JOINING with its role and group. -/
theorem test_hello : leads (exec (.hello 10 (Frame.hello 3 .drive 1).wire) running)
    (fun t => (t.pv.peers[(3 : Station)]).presence == .joining && (t.pv.peers[(3 : Station)]).role == some .drive
      && (t.pv.peers[(3 : Station)]).silence == some 200) = true := by decide +kernel

/-- R157: START on the bench leaves UNCONFIGURED, corrects B and the thresholds (254 and 255), and replies CLAMPED. -/
theorem test_start : leads (exec (.start (whole [0x06])) bench) (fun t => t.ctl.mode == .joining && t.cfg.baseCaps == #v[700, 700, 450, 150]
    && t.cfg.slo == 254 && t.cfg.shi == 255 && t.port.reply.bind List.head? == some 0x01 && t.isPending .notice) = true := by decide +kernel

/-- R163, R166: 0xFF names no command: UNKNOWN (code 3) and SPI; with a wrong CRC BAD-CRC (0x02 0x1C). -/
theorem test_unknown_command : leads (exec (.unknownCommand 0xFF (whole [0xFF])) running)
      (fun t => t.port.reply.bind List.head? == some 0x03 && t.isPending .spi) = true
    ∧ leads (exec (.unknownCommand 0xFF ⟨crc8 [0xFF] + 1, .fresh⟩) running) (fun t => t.port.reply == some [0x02, 0x1C]) = true := by
  decide +kernel

/-- R146, R147, R149: straps 5 and DRIVE at the release; every line low but LAMP and a CAP duty of 50. -/
theorem test_release_from_reset : leads (exec (.releaseFromReset ⟨5, 2⟩ 2000) asleep) (fun t => t.ctl.station == 5 && t.ctl.role == .drive
    && t.cfg.group == 1 && !t.genLine && t.lampLine && t.capLine 49 && !t.capLine 50) = true := by decide +kernel

/-- R181: READ-FAULT of a LATCHED entry in slot 3: 0xB3, class 5 and zone 5, severities 2 and 2 with latching and a time, count 2. -/
theorem test_read_fault : leads (exec (.readFault 3 (whole [0x23, 3])) faulty)
    (fun t => t.port.reply.map (List.take 10) == some [0x00, 0xB3, 0x55, 0xA6, 0x02, 0x00, 0x00, 0x00, 0x64, 0x03]) = true := by decide +kernel

/-- R180: 0x20 0x31 is READ-SUMMARY; R163: bytes after its CRC byte are ignored. -/
theorem test_read_request : readRequest .fresh [0x20, 0x31, 0x18, 0xFF] = some (.readSummary ⟨0x31, .fresh⟩) := by decide +kernel

/-- R163: a second request of a transaction is ignored. -/
theorem test_second_request : leads (exec (.contactorClose ⟨crc8 [0x18], .same⟩) { running with port.reply := some [0x00, 0x42] })
    (fun t => t.out.contactor == .opened && t.port.reply == some [0x00, 0x42]) = true := by decide +kernel

/-- R163, R164, R176: SDO of the reply 0x00 0x42, 0xFF before and after it, and high impedance with CS_N high and, after the release,
until it falls. -/
theorem test_sdo : let s : State := { running with port.reply := some [0x00, 0x42] }
    [0, 8, 9, 14, 15, 16].map (fun n => s.sdo (.replying n)) = [some false, some false, some true, some true, some false, some true]
      ∧ s.sdo .asking = some true ∧ s.sdo .high = none ∧ s.sdo .lowSinceRelease = none ∧ asleep.sdo .asking = none := by decide +kernel

/-- R151: a START that came together with a host reset from RST_N is taken after it; its reply is cut short. -/
theorem test_start_at_reset : leads (exec (.start ⟨crc8 [0x06], .atReset⟩) { bench with pins.rstLow := true })
    (fun t => t.ctl.mode == .joining && t.sbc.line == .wait 10 10 && t.port.reply == some []) = true := by decide +kernel

/-- R151: a join deadline that falls due together with a host reset does not expire. -/
theorem test_join_deadline_at_reset : leads (step { running with
      pending := [.hostReset 1000], due := [.joinDeadlineExpiry], ctl.mode := .joining, pv.joinTimer := some 0 })
    (fun t => t.ctl.mode == .joining && t.due == [.joinDeadlineExpiry]
      && leads (step t) (fun u => u.ctl.mode == .joining && u.due == [] && u.pv.joinTimer == some t.cfg.joinDeadline))
    = true := by decide +kernel

/-- R26, R46: a frame whose idle wait began before the receiver was enabled is not taken, and none is sent. -/
theorem test_straddling_frame : leads (exec (.leave 9 (Frame.leave 3).wire) running)
      (fun t => (t.pv.peers[(3 : Station)]).presence == .present) = true
    ∧ leads (exec (.frameStart 9) { running with sbc.requests := ⟨true, false, false⟩ })
      (fun t => t.sbc.inFlight == none && t.sbc.line == .wait 1 10) = true := by decide +kernel

/-- The line holds S3's LEAVE, but for its last three end bits, and a HELLO is requested. -/
def ending : State :=
  { running with sbc.line := .frame ((Frame.leave 3).wire.take ((Frame.leave 3).wire.length - 3)), sbc.requests := ⟨true, false, false⟩ }

/-- R28, R39: a frame that ends among the recessive bit times before a frame of this station is received; the own frame starts
ten bit times later and no earlier. -/
theorem test_frame_ends_before_start : leads (exec (.frameStart 13) ending)
      (fun t => (t.pv.peers[(3 : Station)]).presence == .leaving && t.sbc.inFlight.any (·.kind == .hello)) = true
    ∧ leads (exec (.frameStart 12) ending)
      (fun t => (t.pv.peers[(3 : Station)]).presence == .leaving && t.sbc.inFlight == none) = true := by decide +kernel

/-- R39: a frame that ends among the recessive bit times before another frame is received, and so is that other one. -/
theorem test_frame_ends_before_frame : leads (exec (.leave 13 (Frame.leave 1).wire) ending)
    (fun t => (t.pv.peers[(3 : Station)]).presence == .leaving && (t.pv.peers[(1 : Station)]).presence == .leaving) = true := by
  decide +kernel

/-- R30, R39: S5 loses contention to S3's LEAVE at bit 1 and receives the rest of it. -/
theorem test_frame_after_lost_contention : leads (exec (.lostContention 1)
      { running with ctl.station := 5, sbc.inFlight := some (.leave 5), sbc.line := .frame [false] })
    (fun t => leads (exec (.leave 0 ((Frame.leave 3).wire.drop 2)) t)
      (fun u => (u.pv.peers[(3 : Station)]).presence == .leaving)) = true := by decide +kernel

/-- R83, R84: at the end of its window a dispute goes in force and its lone accuser is IMPLAUSIBLE. -/
theorem test_dispute_in_force : leads (exec (.disputeTimerExpiry 0) disputed)
    (fun t => (t.ziu.zones[(0 : Zone)]).dispute == .inForce 3 && t.ziu.derived.implausible[(3 : Station)]) = true := by decide +kernel

/-- R176: in a CS_N low period already begun at the release the port takes nothing; CS_N that falls afterwards begins a transaction. -/
theorem test_transaction_at_release : leads (exec (.enable 0x0F ⟨crc8 [0x32, 0x0F], .same⟩) State.reset) (fun t => t.port.enable == 0xFF)
    ∧ leads (exec (.enable 0x0F (whole [0x32, 0x0F])) State.reset) (fun t => t.port.enable == 0x0F) := by decide +kernel

/-- S3's STATUS outside its join phase, with no accusation. -/
def completing : Frame := .status 3 false true false false 1 0 0 []

/-- R58: the STATUS that makes the last expected peer PRESENT ends the join. -/
theorem test_status_ends_the_join : ∃ t, exec (.status 10 completing.wire) awaiting = .next t
    ∧ t.ctl.mode = .running ∧ t.pv.joinTimer = none := by
  have e : List.replicate 10 true ++ completing.wire
      = (List.replicate 10 true ++ completing.wire.dropLast) ++ true :: [] := by decide +kernel
  have prior : awaiting.sbc.line.hear (List.replicate 10 true ++ completing.wire.dropLast)
      = (.frame completing.wire.dropLast, none) := by decide +kernel
  have last : (Line.frame completing.wire.dropLast).sample true = (Line.ended, some completing) := by decide +kernel
  have w : framesAs .status completing.wire = true := by decide +kernel
  let s : State := { awaiting with sbc.line := Line.ended }
  refine ⟨settle s (setPeer 3 (heardStatus s.cfg 1000 false 1 ⟨0, 0, true, false, false⟩ [] (s.pv.peers[3])) s), ?_, ?_⟩
  · show receiveAs .status 10 completing.wire awaiting = _
    unfold receiveAs
    rw [if_pos w, event_of_not_held rfl, e, receiveSamples_frame rfl prior last]
    unfold receiveSamples deliver
    rw [if_neg (by decide +kernel), if_neg (by decide +kernel)]
    rfl
  · rw [settle_ctl, settle_pv]; decide +kernel

/-- R161, R58: REJOIN with every expected peer PRESENT runs at once, and waits with S3 ABSENT. -/
theorem test_rejoin : leads (exec (.rejoin (whole [0x1B])) { running with ctl.mode := .departed })
      (fun t => t.ctl.mode == .running && t.pv.joinTimer == none && t.sbc.requests.hello) = true
    ∧ leads (exec (.rejoin (whole [0x1B])) { running with
        ctl.mode := .departed, pv.peers := running.pv.peers.set 3 (PeerRecord.absent true) })
      (fun t => t.ctl.mode == .joining && t.pv.joinTimer == some 1000) = true := by decide +kernel

/-- R101: FLOOR with the present floor changes nothing but the reply. -/
theorem test_floor_again : leads (exec (.floor 0 (whole [0x15, 0])) running) (fun t => t == running.answering .ok) = true := by decide +kernel

/-- R3, R6, R7, R23, R46: at a host reset an asserted input with a qualify time of 0 is ACTIVE at once and asks for a STATUS; one with a
qualify time begins anew. -/
theorem test_host_reset_watches : leads (exec (.hostReset 1000)
      { faulty with cfg.inputs := faulty.cfg.inputs.set 0 { watched 0 with qualify := 0 } })
    (fun t => (t.lft.inputs[(0 : Input)]).entry.map (fun x => (x.state, x.count, x.firstActive)) == some (.active, some 1, some 1000)
      && (t.lft.inputs[(3 : Input)]).entry.map (fun x => (x.state, x.count)) == some (.qualifying, none)
      && (t.lft.inputs[(3 : Input)]).qualify == some 10 && t.lft.inputs[(2 : Input)] == Slot.empty
      && t.sbc.requests == ⟨true, true, false⟩ && t.sbc.mute == some 200) = true := by decide +kernel

/-- R95, R113: a host reset ends disputes and delays, and keeps a PINNED zone, whose isolated level is Lown. -/
theorem test_host_reset_zones : leads (exec (.reset (whole [0x3C])) zoned)
    (fun t => (t.ziu.zones[(4 : Zone)]).dispute == .none && (t.ziu.zones[(4 : Zone)]).disputeTimer == none
      && (t.ziu.zones[(5 : Zone)]).delay == none && (t.ziu.zones[(6 : Zone)]).clean == some 60000
      && (t.ziu.zones[(3 : Zone)]).state == .pinned && t.lvl.lown == 2 && !t.sbc.requests.status) = true := by decide +kernel

/-! ### Witnesses: the machine -/

theorem witness_StepRunsTheFrontCommand : waiting.pending = .depart (whole [0x1A]) :: [] := rfl

/-- A state that waits for its millisecond, one held in reset, and one in which two events had fallen due: the dwell timer was
started again before its turn came, and the start of the PWM period follows. -/
def twoDue : State := { running with due := [.dwellTimerExpiry, .pwmPeriodStart], perm.dwell := some 500 }

theorem witness_EmptyQueuePassesAMillisecond : (running.pending = [] ∧ running.due = [] ∧ running.ctl.held = false)
    ∧ (asleep.pending = [] ∧ asleep.due = [] ∧ asleep.ctl.held = true)
    ∧ twoDue.pending = [] ∧ ¬FallsDue twoDue .dwellTimerExpiry ∧ FallsDue { twoDue with due := [.pwmPeriodStart] } .pwmPeriodStart :=
  ⟨by decide +kernel, by decide +kernel, rfl, by simp [FallsDue, twoDue], trivial⟩

/-- R122: an expiry whose timer was started again before its turn does not happen, and the timer keeps its new time. -/
theorem test_restarted_timer_does_not_expire : leads (step twoDue)
    (fun t => t.perm.dwell == some 500 && t.due == [.pwmPeriodStart] && t.ctl.nodeTime == 1000) = true := by decide +kernel

/-- Both kinds of command exist: one of each check of WellFormed, with what exec answers to it. -/
theorem witness_WellFormedCommandsComplete : (Instr.completes).wf = true ∧ (Instr.unknownCommand 0x20 (whole [])).wf = false := by
  decide +kernel

theorem witness_OnlyNamedCommandsChangeProtectedState :
    leads (exec (.setPeers 1 0 2 (whole [0x05, 1, 0, 2])) State.reset) (fun t => t.cfg != State.reset.cfg)
      ∧ leads (exec (.releaseFromReset ⟨5, 2⟩ 2000) asleep) (fun t => t.ctl.station != asleep.ctl.station)
      ∧ leads (exec (.contactorClose (whole [0x18])) running) (fun t => t.out.contactor == .closed)
      ∧ leads (exec (.hostReset 1000) { bench with out.tripLatch := true }) (fun t => !t.out.tripLatch)
      ∧ leads (exec .rampExpiry running) (fun t => t.perm.output == 425)
      ∧ leads (exec (.hostReset 1000) { bench with lvl.floor := 3 }) (fun t => t.lvl.floor == 0) := by decide +kernel

theorem witness_NodeModeChangesOnlyAsTabled : IdleUntilStart waiting
    ∧ leads (exec (.depart (whole [0x1A])) waiting) (fun t => t.ctl.mode == .departed)
    ∧ leads (exec .powerOnReset waiting) (fun t => t.ctl.mode == .unconfigured)
    ∧ leads (exec (.hostReset 1000) waiting) (fun t => t.ctl.mode == .joining)
    ∧ leads (exec .joinDeadlineExpiry { waiting with ctl.mode := .joining, pv.joinTimer := some 0 })
      (fun t => t.ctl.mode == .running)
    ∧ leads (exec (.rejoin (whole [0x1B])) { waiting with ctl.mode := .departed }) (fun t => t.ctl.mode == .running)
    ∧ (awaiting.ctl.mode = .joining ∧ joinComplete awaiting = false)
    ∧ leads (exec (.requestDiscarded ⟨.fresh, natBits 8 0x1A ++ natBits 8 (crc8 [0x1A]).toNat⟩) waiting)
      (fun t => t.ctl.mode == .departed) :=
  ⟨running_idle, by decide +kernel⟩

/-- States that meet the premises of each of the nine statements on what every step keeps, and a step from them answers a next state. -/
theorem witness_StepsKeepInvariants : IdleUntilStart waiting ∧ ConfigInRange waiting ∧ ConfigInRange faulty ∧ FaultTableConsistent faulty
    ∧ BusConsistent waiting ∧ PeerTableConsistent waiting ∧ PeerTableConsistent awaiting ∧ ZoneTableConsistent zoned ∧ SupportCurrent waiting
    ∧ DriveCurrent waiting ∧ OutputsConsistent waiting ∧ leads (step waiting) (fun t => t.ctl.mode == .departed)
    ∧ leads (step faulty) (fun t => t.ctl.nodeTime == 1001)
    ∧ leads (step awaiting) (fun t => t.ctl.nodeTime == 1001) ∧ leads (step zoned) (fun t => t.ctl.nodeTime == 1001) :=
  ⟨running_idle, { running_configured with }, faulty_configured, table_consistent _ rfl, waiting_bus, { running_peers with }, awaiting_peers, zones_consistent,
    waiting_support, waiting_drive, waiting_outputs, by decide +kernel⟩

/-! ### Witnesses: frames and codes -/

/-- A STATUS with four accusations, the most a frame carries. -/
def fullStatus : Frame :=
  .status 7 true false true true 3 5 4
    [⟨11, .stale, .minor⟩, ⟨0, .overcurrent, .critical⟩, ⟨7, .lost, .major⟩, ⟨8, .bus, .major⟩]

theorem witness_ReceiverReadsBackEveryFrame : fullStatus.wf = true ∧ 9 < 10 ∧ 10 ≤ 10
    ∧ List.replicate 5 false <:+: [false, false, false, false, false] := ⟨by decide +kernel, by decide, le_refl _, ⟨[], [], rfl⟩⟩

theorem witness_StuffingLeavesNoRunOfFive : List.replicate 5 true <:+: [false, true, true, true, true, true] := ⟨[false], [], rfl⟩

/-! ### Witnesses: the host port -/

/-- A request with a wrong CRC, a second one of its transaction, the chip held in power-on reset and RST_N held low, and a reply of two
bytes on its way. -/
theorem witness_BadRequestsAreNotExecuted : let bad : Tail := ⟨0x00, .fresh⟩
    let replied : State := { running with port.reply := some [0x00, 0x42] }
    requestOf (.ack 0xFF bad) = some ([0x30, 0xFF], bad) ∧ running.takes .fresh = true ∧ crc8 [0x30, 0xFF] ≠ bad.crc
    ∧ requestOf (.readTime ⟨0, .same⟩) = some ([0x24], ⟨0, .same⟩) ∧ replied.takes .same = false ∧ replied.takes .fresh = true
    ∧ (asleep.takes .fresh = false ∧ asleep.ctl.held = true) ∧ (State.takes { running with pins.rstLow := true } .fresh) = false
    ∧ replied.ctl.held = false ∧ ([0x00, 0x42] : List Byte)[1]? = some 0x42 ∧ 8 * ([0x00, 0x42] : List Byte).length ≤ 16 := by
  decide +kernel

theorem witness_UnknownAndBrokenOffRequests : argCount 0x07 = none ∧ argCount 0x00 = none ∧ argCount 0xFF = none
    ∧ running.takes .fresh = true ∧ asleep.takes .fresh = false ∧ (List.replicate 7 true).length < 8
    ∧ requestOf (.readSummary (whole [0x20])) = some ([0x20], whole [0x20])
    ∧ (List.replicate 16 (0 : Byte)).length < (argCount 0x04).getD 0 + 1 ∧ ([] : List Byte).length < (argCount 0x07).getD 0 + 1
    ∧ readRequest .fresh (bytesOf (natBits 15 0x1018)) = none
    ∧ readRequest .fresh (bytesOf (natBits 8 0x18 ++ natBits 8 0xAB)) = some (.contactorClose ⟨0xAB, .fresh⟩) := by decide +kernel

theorem witness_AckClearsNamedFlags : Taken running [0x30, 0x41] (whole [0x30, 0x41])
    ∧ (0x41 : Byte).getLsbD Flag.level.bit = true ∧ (0x41 : Byte).getLsbD Flag.notice.bit = true := by decide +kernel

theorem witness_FlagTestSetsAndClearsFlags : Taken running [0x31, 0x81, 0x81] (whole [0x31, 0x81, 0x81]) := takes _ rfl _

theorem witness_EnableReplacesTheMask : Taken running [0x32, 0x00] (whole [0x32, 0x00]) := takes _ rfl _

theorem witness_FlagsLeaveOnlyByAckTestOrReset : let s : State := { running with port.flags := 0xFF }
    s.isPending .spi = true
      ∧ leads (exec (.ack 0x80 (whole [0x30, 0x80])) s) (fun t => !t.isPending .spi)
      ∧ leads (exec (.flagTest 0x7F 0x80 (whole [0x31, 0x7F, 0x80])) s) (fun t => !t.isPending .spi)
      ∧ leads (exec .powerOnReset s) (fun t => !t.isPending .spi) := by decide +kernel

theorem witness_LockedOutRequestsAreRefused : (requestOf (.start (whole [0x06])) = some ([0x06], whole [0x06])
      ∧ Taken running [0x06] (whole [0x06]) ∧ RefusedIn running.ctl.mode (.start (whole [0x06])))
    ∧ (requestOf (.depart (whole [0x1A])) = some ([0x1A], whole [0x1A]) ∧ Taken State.reset [0x1A] (whole [0x1A])
      ∧ RefusedIn State.reset.ctl.mode (.depart (whole [0x1A])))
    ∧ requestOf (.rejoin (whole [0x1B])) = some ([0x1B], whole [0x1B]) ∧ Taken running [0x1B] (whole [0x1B])
      ∧ RefusedIn running.ctl.mode (.rejoin (whole [0x1B])) :=
  ⟨⟨rfl, takes _ rfl _, by simp [RefusedIn, running]⟩, ⟨rfl, takes _ rfl _, rfl⟩, rfl, takes _ rfl _, by simp [RefusedIn, running]⟩

/-! ### Witnesses: the reads -/

theorem witness_ReadSummaryShowsTheStation : Taken running [0x20] (whole [0x20]) := takes _ rfl _

theorem witness_ReadZoneShowsTheZoneRecord : Taken zoned [0x21, 0x0C] (whole [0x21, 0x0C]) ∧ 12 ≤ (0x0C : Byte).toNat
    ∧ Taken zoned [0x21, 0x0B] (whole [0x21, 0x0B]) ∧ (0x0B : Byte).toNat = (11 : Zone).val ∧ ZoneConsistent 11 zoned.ziu.zones[11]
    ∧ Taken zoned [0x21, 0x05] (whole [0x21, 0x05]) ∧ (0x05 : Byte).toNat = (5 : Zone).val ∧ ZoneConsistent 5 zoned.ziu.zones[5] :=
  ⟨takes _ rfl _, by decide, takes _ rfl _, rfl, zones_consistent 11, takes _ rfl _, rfl, zones_consistent 5⟩

theorem witness_ReadPeerShowsThePeerRecord : Taken running [0x22, 8] (whole [0x22, 8]) ∧ 8 ≤ (8 : Byte).toNat
    ∧ Taken running [0x22, 3] (whole [0x22, 3]) ∧ (3 : Byte).toNat = (3 : Station).val ∧ (running.pv.peers[(3 : Station)]).list.length ≤ 4
    ∧ Taken running [0x22, 7] (whole [0x22, 7]) ∧ (7 : Byte).toNat = (7 : Station).val :=
  ⟨takes _ rfl _, by decide, takes _ rfl _, rfl, by decide, takes _ rfl _, rfl⟩

theorem witness_ReadFaultAndTimeShowTheSlotAndClock : Taken faulty [0x24] (whole [0x24])
    ∧ (Taken faulty [0x23, 16] (whole [0x23, 16]) ∧ 16 ≤ (16 : Byte).toNat)
    ∧ (Taken faulty [0x23, 7] (whole [0x23, 7]) ∧ (7 : Byte).toNat = (7 : Input).val ∧ none = (faulty.lft.inputs[(7 : Input)]).entry)
    ∧ Taken faulty [0x23, 8] (whole [0x23, 8]) ∧ ∃ e : DeclSlot, (8 : Byte).toNat = 8 + e.val
      ∧ (table.declared[0]).entry = (faulty.lft.declared[e]).entry :=
  ⟨takes _ rfl _, ⟨takes _ rfl _, by decide⟩, ⟨takes _ rfl _, rfl, by decide +kernel⟩, takes _ rfl _, 0, rfl, rfl⟩

/-! ### Witnesses: configuration and START -/

theorem witness_SetTimingLoadsTheNamedItem : State.reset.ctl.mode = .unconfigured
    ∧ Taken State.reset (0x01 :: 15 :: argBytes 0xFFFF) (whole (0x01 :: 15 :: argBytes 0xFFFF))
    ∧ Taken State.reset (0x01 :: 16 :: argBytes 0) (whole (0x01 :: 16 :: argBytes 0)) :=
  ⟨rfl, takes _ rfl _, takes _ rfl _⟩

theorem witness_SetCommandsLoadTheirGroups : State.reset.ctl.mode = .unconfigured
    ∧ (Taken State.reset (0x02 :: ([12, 6, 5, 0] ++ argBytes 5001 ++ [3])) (whole (0x02 :: ([12, 6, 5, 0] ++ argBytes 5001 ++ [3])))
      ∧ 12 ≤ (12 : Byte).toNat ∧ (11 : Byte).toNat = (11 : Zone).val)
    ∧ (Taken State.reset [0x03, 8, 15, 255, 255, 7, 4, 12] (whole [0x03, 8, 15, 255, 255, 7, 4, 12]) ∧ 8 ≤ (8 : Byte).toNat)
    ∧ (Taken State.reset [0x03, 7, 15, 255, 255, 6, 3, 11] (whole [0x03, 7, 15, 255, 255, 6, 3, 11])
      ∧ (7 : Byte).toNat = (7 : Input).val ∧ (6 : Byte).toNat ≤ 6 ∧ (3 : Byte).toNat ≤ 3 ∧ (11 : Byte).toNat = (11 : Zone).val)
    ∧ Taken State.reset (0x04 :: ([1001, 0, 0, 0, 501, 0, 0, 0] : List Half).flatMap argBytes)
        (whole (0x04 :: ([1001, 0, 0, 0, 501, 0, 0, 0] : List Half).flatMap argBytes))
    ∧ Taken State.reset [0x05, 0xFF, 4, 0] (whole [0x05, 0xFF, 4, 0]) :=
  ⟨rfl, ⟨takes _ rfl _, by decide, rfl⟩, ⟨takes _ rfl _, by decide⟩, ⟨takes _ rfl _, rfl, by decide, by decide, rfl⟩,
    takes _ rfl _, takes _ rfl _⟩

/-- The three cases of Slo and Shi, and a store that START corrects. -/
theorem witness_StartBringsTheStoreIntoLine : Taken bench [0x06] (whole [0x06]) ∧ bench.ctl.mode = .unconfigured
    ∧ (bench.cfg.shi ≤ bench.cfg.slo ∧ bench.cfg.slo = 255)
    ∧ State.reset.cfg.slo < State.reset.cfg.shi ∧ Taken State.reset [0x06] (whole [0x06])
    ∧ (let s : State := { bench with cfg.slo := 254, cfg.shi := 254 }
      Taken s [0x06] (whole [0x06]) ∧ s.cfg.shi ≤ s.cfg.slo ∧ s.cfg.slo ≤ 254 ∧ s.cfg.shi ≤ 255)
    ∧ (4 : Nat) ≤ (4 : Level).val ∧ leads (exec (.start (whole [0x06])) bench) (fun t => t.cfg != bench.cfg) :=
  ⟨takes _ rfl _, rfl, by decide, by decide, takes _ rfl _, ⟨takes _ rfl _, by decide⟩, by decide, by decide +kernel⟩

theorem bench_idle : IdleUntilStart bench := by constructor <;> decide +kernel

theorem bench_configured : ConfigInRange bench := by constructor <;> decide +kernel

theorem witness_StartEntersJoining : Taken bench [0x06] (whole [0x06]) ∧ bench.ctl.mode = .unconfigured ∧ IdleUntilStart bench
    ∧ ConfigInRange bench ∧ (let tail : Tail := ⟨crc8 [0x06], .atReset⟩
      let s : State := { bench with pins.rstLow := true }
      tail.select = .atReset ∧ s.pins.rstLow = true ∧ s.ctl.held = false ∧ crc8 [0x06] = tail.crc ∧ s.ctl.mode = .unconfigured
        ∧ IdleUntilStart s ∧ ConfigInRange s) :=
  ⟨takes _ rfl _, rfl, bench_idle, bench_configured, rfl, rfl, rfl, rfl, rfl, { bench_idle with }, { bench_configured with }⟩

/-! ### Witnesses: local faults -/

theorem faulty_table : FaultTableConsistent faulty := table_consistent _ rfl

/-- A bounce, a line that is active already, and an assertion of an empty slot, of a HEALING one, of a LATCHED one and of a
trip input. -/
theorem witness_AssertionActsOnItsSlotAndTheLatch : (199 < 200) ∧ faulty.lineAsserted 0 = true
    ∧ (faulty.ctl.held = false ∧ 200 ≤ 200 ∧ ConfigInRange faulty ∧ FaultTableConsistent faulty)
    ∧ (faulty.lineAsserted 5 = false ∧ (faulty.lft.inputs[(5 : Input)]).entry = none)
    ∧ (faulty.lineAsserted 2 = false ∧ ((faulty.lft.inputs[(2 : Input)]).entry.map (·.state)) = some .healing)
    ∧ (let s : State := { faulty with pins.faultLines := Vector.ofFn fun _ => false }
      s.lineAsserted 3 = false ∧ ((s.lft.inputs[(3 : Input)]).entry.map (·.state)) = some .latched)
    ∧ (faulty.lineAsserted 7 = false ∧ (faulty.cfg.inputs[(7 : Input)]).trip = true) :=
  ⟨by decide, by decide +kernel, ⟨rfl, le_refl _, faulty_configured, faulty_table⟩, by decide +kernel⟩

/-- A bounce, a line that is inactive already, and a release of an ACTIVE entry, a QUALIFYING one and a latching one. -/
theorem witness_InputReleaseActsOnItsEntry : (199 < 200) ∧ faulty.lineAsserted 2 = false
    ∧ (faulty.ctl.held = false ∧ 200 ≤ 200 ∧ FaultTableConsistent faulty)
    ∧ (faulty.lineAsserted 0 = true ∧ ((faulty.lft.inputs[(0 : Input)]).entry.map (·.state)) = some .active)
    ∧ (faulty.lineAsserted 1 = true ∧ ((faulty.lft.inputs[(1 : Input)]).entry.map (·.state)) = some .qualifying)
    ∧ (faulty.lineAsserted 3 = true ∧ ((faulty.lft.inputs[(3 : Input)]).entry.map (·.latching)) = some true) :=
  ⟨by decide, by decide +kernel, ⟨rfl, le_refl _, faulty_table⟩, by decide +kernel⟩

/-- Each of the three timers runs in one slot and not in another. -/
theorem witness_FaultTimersExpire : faulty.ctl.held = false ∧ ConfigInRange faulty ∧ FaultTableConsistent faulty
    ∧ (faulty.lft.inputs[(1 : Input)]).qualify.isSome = true ∧ (faulty.lft.inputs[(0 : Input)]).qualify.isSome = false
    ∧ (faulty.lft.inputs[(2 : Input)]).heal.isSome = true ∧ (faulty.lft.inputs[(0 : Input)]).heal.isSome = false
    ∧ (faulty.lft.declared[(0 : DeclSlot)]).heal.isSome = true ∧ (faulty.lft.declared[(1 : DeclSlot)]).heal.isSome = false :=
  ⟨rfl, faulty_configured, faulty_table, by decide +kernel⟩

/-- D0 to D7 full, D4 alone HEALING, the pointer at D6. -/
def crowded : Lft :=
  let e (z : Zone) (v : EntryState) : Entry :=
    { source := .declared, cls := .overtemp, zone := z, configured := .minor, current := .minor, state := v
      count := some 1, escalated := false, firstActive := some 7, latching := false }
  { Lft.empty with
    declared := Vector.ofFn fun d => if d = 4 then ⟨some (e 4 .healing), none, some 10⟩ else ⟨some (e ⟨d.val, by omega⟩ .active), none, none⟩
    pointer := 6 }

/-- Arguments at the ends of their ranges; UNCONFIGURED; a declared class and zone, ACTIVE and HEALING; a new one with the first empty
slot at D2, past the pointer; one with no empty slot and D4 HEALING; and one with no room at all. -/
theorem witness_DeclareUpdatesPlacesOrRefuses : (Taken faulty [0x11, 7, 12, 4] (whole [0x11, 7, 12, 4]) ∧ 7 ≤ (7 : Byte).toNat)
    ∧ (Taken State.reset [0x11, 6, 11, 3] (whole [0x11, 6, 11, 3]) ∧ FaultClass.mechanical.code = (6 : Byte).toNat
      ∧ (11 : Zone).val = (11 : Byte).toNat ∧ Severity.critical.code = (3 : Byte).toNat ∧ State.reset.ctl.mode = .unconfigured)
    ∧ (faulty.ctl.mode ≠ .unconfigured ∧ ConfigInRange faulty ∧ FaultTableConsistent faulty)
    ∧ (Taken faulty [0x11, 6, 6, 1] (whole [0x11, 6, 6, 1]) ∧ ∃ x, (faulty.lft.declared[(0 : DeclSlot)]).entry = some x
      ∧ x.cls = .mechanical ∧ x.zone = 6 ∧ x.state = .healing)
    ∧ (Taken faulty [0x11, 1, 0, 1] (whole [0x11, 1, 0, 1])
      ∧ FirstFrom faulty.lft.pointer 2 (fun e => (faulty.lft.declared[e]).entry = none)
      ∧ ∀ d : DeclSlot, ∀ x ∈ (faulty.lft.declared[d]).entry, x.cls ≠ .overcurrent ∨ x.zone ≠ 0)
    ∧ ((∀ e : DeclSlot, (crowded.declared[e]).entry ≠ none)
      ∧ FirstFrom crowded.pointer 4 fun e => ∃ x, (crowded.declared[e]).entry = some x ∧ x.state = .healing)
    ∧ ∀ d : DeclSlot, ∃ x, ((crowded.declared.set 4 (crowded.declared[5]))[d]).entry = some x ∧ x.state ≠ .healing := by
  refine ⟨⟨takes _ rfl _, by decide⟩, ⟨takes _ rfl _, rfl, rfl, rfl, rfl⟩,
    ⟨by decide, faulty_configured, faulty_table⟩, ⟨takes _ rfl _, _, rfl, rfl, rfl, rfl⟩,
    ⟨takes _ rfl _, ⟨by decide +kernel, by decide +kernel⟩, by decide +kernel⟩, ⟨by decide +kernel, ⟨_, rfl, rfl⟩, ?_⟩, ?_⟩
  · have h : ∀ e : DeclSlot, e - crowded.pointer < 4 - crowded.pointer → (crowded.declared[e]).entry.all (·.state != .healing) = true := by
      decide +kernel
    rintro e he ⟨x, hx, hs⟩
    have k := h e he
    rw [hx] at k
    simp [hs] at k
  · have h : ∀ d : DeclSlot, ((crowded.declared.set 4 (crowded.declared[5]))[d]).entry.any (·.state != .healing) = true := by
      decide +kernel
    intro d
    have k := h d
    revert k
    cases ((crowded.declared.set 4 (crowded.declared[5]))[d]).entry with
    | none => exact fun k => nomatch k
    | some x => exact fun k => ⟨x, rfl, by simpa using k⟩

theorem witness_WithdrawHealsDeclaredEntries : (Taken faulty [0x12, 0, 12] (whole [0x12, 0, 12]) ∧ (0 : Byte).toNat = 0)
    ∧ (Taken State.reset [0x12, 6, 11] (whole [0x12, 6, 11]) ∧ State.reset.ctl.mode = .unconfigured)
    ∧ (faulty.ctl.mode ≠ .unconfigured ∧ FaultTableConsistent faulty)
    ∧ (Taken faulty [0x12, 6, 7] (whole [0x12, 6, 7]) ∧ ∃ x, (faulty.lft.declared[(1 : DeclSlot)]).entry = some x
      ∧ x.cls = .mechanical ∧ x.zone = 7 ∧ x.state = .active)
    ∧ Taken faulty [0x12, 1, 0] (whole [0x12, 1, 0])
      ∧ ∀ d : DeclSlot, ∀ x ∈ (faulty.lft.declared[d]).entry, x.cls ≠ .overcurrent ∨ x.zone ≠ 0 :=
  ⟨⟨takes _ rfl _, rfl⟩, ⟨takes _ rfl _, rfl⟩, ⟨by decide, faulty_table⟩, ⟨takes _ rfl _, _, rfl, rfl, rfl, rfl⟩, takes _ rfl _,
    by decide +kernel⟩

theorem witness_ClearFaultRemovesOneEntry : faulty.ctl.mode ≠ .unconfigured
    ∧ (Taken faulty [0x13, 16] (whole [0x13, 16]) ∧ 16 ≤ (16 : Byte).toNat)
    ∧ (Taken faulty [0x13, 7] (whole [0x13, 7]) ∧ (7 : Byte).toNat = (7 : Input).val ∧ (faulty.lft.inputs[(7 : Input)]).entry = none)
    ∧ (Taken faulty [0x13, 1] (whole [0x13, 1]) ∧ ((faulty.lft.inputs[(1 : Input)]).entry.map (·.state)) = some .qualifying)
    ∧ (Taken faulty [0x13, 3] (whole [0x13, 3]) ∧ ((faulty.lft.inputs[(3 : Input)]).entry.map (·.state)) = some .latched)
    ∧ Taken faulty [0x13, 8] (whole [0x13, 8]) ∧ (8 : Byte).toNat = 8 + (0 : DeclSlot).val :=
  ⟨by decide, ⟨takes _ rfl _, by decide⟩, ⟨takes _ rfl _, rfl, by decide +kernel⟩, ⟨takes _ rfl _, by decide +kernel⟩,
    ⟨takes _ rfl _, by decide +kernel⟩, takes _ rfl _, rfl⟩

theorem witness_ClearAllEmptiesTheDeclaredArea : Taken faulty [0x14] (whole [0x14]) ∧ faulty.ctl.mode ≠ .unconfigured :=
  ⟨takes _ rfl _, by decide⟩

/-! ### Witnesses: accusations, zones and frames -/

theorem witness_SupportSetsAndConfirmation : PeerTableConsistent running := running_peers

theorem witness_StampIdentifiesTheIsolation :
    ([⟨0, ⟨.sensor, .major⟩, false⟩, ⟨3, ⟨.lost, .major⟩, false⟩, ⟨7, ⟨.implausible, .minor⟩, false⟩] : List Accuser).Pairwise
      (fun a b => a.station < b.station) := by decide

/-- Each kind of request in its turn, and each reason for no frame; the receiver on, with the line not idle yet until ten recessive bit
times have passed, and off; and the end of a frame of S3 among the bit times. -/
theorem witness_FrameStartServesTheRequests : let b (r : Requests) : State := { running with sbc.requests := r }
    (b ⟨true, true, true⟩).ctl.held = false ∧ (b ⟨true, true, true⟩).sbc.transmitterOn = true
      ∧ ((b ⟨true, true, true⟩).sbc.line.hear (List.replicate 10 true)) = (.idle, none)
      ∧ ((b ⟨true, true, true⟩).sbc.line.hear (List.replicate 9 true)).1 ≠ .idle ∧ State.reset.sbc.receiverOn = false
      ∧ (b ⟨true, true, true⟩).sbc.inFlight = none ∧ (b ⟨true, true, true⟩).sbc.requests.hello = true
      ∧ (b ⟨false, true, true⟩).sbc.requests.leave = true ∧ (b ⟨false, true, false⟩).sbc.requests.status = true
      ∧ (b ⟨false, true, false⟩).sbc.spacing = none ∧ (b ⟨false, false, false⟩).sbc.requests.status = false
      ∧ ending.ctl.held = false ∧ (ending.sbc.line.hear (List.replicate 13 true)).2 = some (.leave 3) := by
  decide +kernel

/-- S0's LEAVE: bit 4 is the stuff bit after its four dominant bits and is driven recessive in the ID field, bit 5 is not in it; S3's
HELLO: bit 3, its last ID bit, and bit 4, past them. -/
theorem witness_LostContentionAndBitFaultsAbort :
    let s (f : Frame) : State := { running with sbc.inFlight := some f }
    (s (.leave 0)).ctl.held = false ∧ (Frame.leave 0).wire[4]? = some true ∧ InIdField (.leave 0) 4
      ∧ (Frame.leave 0).wire[5]? = some true ∧ ¬InIdField (.leave 0) 5
      ∧ (Frame.hello 3 .drive 1).wire[3]? = some true ∧ InIdField (.hello 3 .drive 1) 3
      ∧ (Frame.hello 3 .drive 1).wire[4]? = some false ∧ ¬InIdField (.hello 3 .drive 1) 4 ∧ (Frame.leave 0).wire[200]? = none := by
  refine ⟨rfl, by decide +kernel, .inr ⟨rfl, rfl⟩, by decide +kernel, ?_, by decide +kernel, .inl (by decide), by decide +kernel, ?_,
    by decide +kernel⟩ <;> simp [InIdField, Frame.id]

theorem witness_CompletionServesTheRequest : running.ctl.held = false ∧ running.sbc.inFlight = none
    ∧ (State.sbc { running with sbc.inFlight := some (.leave 0) }).inFlight = some (.leave 0) := ⟨rfl, rfl, rfl⟩

theorem witness_BusAndPeerTimersExpire : running.ctl.held = false ∧ running.sbc.statusTimer.isSome = true
    ∧ running.sbc.mute.isSome = false ∧ (running.pv.peers[(3 : Station)]).silence.isSome = true
    ∧ (running.pv.peers[(3 : Station)]).leave.isSome = false ∧ running.pv.joinTimer.isSome = false := by decide +kernel

/-- S3's HELLO and S0's own number on the line of S0, idle or about to be; the rest of the LEAVE of S3 that has won a contention against
S5 at bit 1; a frame that ends among the bit times before another; and each reason to take no frame. -/
theorem witness_ReceivedFramesUpdateTheirPeer : running.ctl.held = false ∧ running.sbc.receiverOn = true
    ∧ (running.sbc.line = .wait 10 10 ∧ 1 ≤ 10 ∧ 10 ≤ 10) ∧ (State.sbc { running with sbc.line := .idle }).line = .idle
    ∧ receive (Frame.hello 3 .drive 1).wire = some (.hello 3 .drive 1) ∧ running.sbc.inFlight ≠ some (.hello 3 .drive 1)
    ∧ receive (Frame.leave 0).wire = some (.leave 0) ∧ (Frame.leave 0).id = running.ctl.station
    ∧ (let s : State := { running with ctl.station := 5, sbc.line := Line.readBack (.leave 5) 1 false }
      (s.sbc.line.hear ((Frame.leave 3).wire.drop 2)).2 = some (.leave 3) ∧ s.sbc.inFlight ≠ some (.leave 3)
        ∧ receive ((Frame.leave 3).wire.drop 2) = none)
    ∧ (ending.sbc.line.hear (List.replicate 13 true ++ (Frame.leave 1).wire)).2 = some (.leave 3)
    ∧ receive [true, false] = none ∧ State.reset.sbc.receiverOn = false
    ∧ (running.sbc.line.hear (List.replicate 9 true ++ (Frame.hello 3 .drive 1).wire)).2 = none
    ∧ (Line.idle.hear (Frame.leave 0).wire).2 = (State.sbc { running with sbc.inFlight := some (.leave 0) }).inFlight := by
  decide +kernel

theorem witness_ZoneTimersExpire : zoned.ctl.held = false ∧ ZoneTableConsistent zoned
    ∧ (zoned.ziu.zones[(5 : Zone)]).delay.isSome = true ∧ (zoned.ziu.zones[(4 : Zone)]).disputeTimer.isSome = true
    ∧ (zoned.ziu.zones[(6 : Zone)]).clean.isSome = true ∧ (zoned.ziu.zones[(0 : Zone)]).delay.isSome = false
    ∧ (zoned.ziu.zones[(0 : Zone)]).disputeTimer.isSome = false
    ∧ (disputed.ctl.held = false ∧ ZoneTableConsistent disputed ∧ (disputed.ziu.zones[(0 : Zone)]).disputeTimer.isSome = true
      ∧ SupportCurrent disputed ∧ PeerTableConsistent disputed ∧ FaultTableConsistent disputed) :=
  ⟨rfl, zones_consistent, by decide +kernel, by decide +kernel, by decide +kernel, by decide +kernel, by decide +kernel, rfl,
    disputed_zones, by decide +kernel, disputed_support, disputed_peers, disputed_table⟩

/-- Z12, a CLEAR zone, a PINNED one, an ISOLATED one with another stamp, with accusers left, and with all checks passed. -/
theorem witness_ReleaseChecksInOrder : State.reset.ctl.mode = .unconfigured ∧ zoned.ctl.mode ≠ .unconfigured
    ∧ (Taken zoned (0x16 :: 12 :: argBytes 0) (whole (0x16 :: 12 :: argBytes 0)) ∧ 12 ≤ (12 : Byte).toNat)
    ∧ (zoned.ziu.zones[(0 : Zone)]).state = .clear ∧ (zoned.ziu.zones[(3 : Zone)]).state = .pinned
    ∧ (Taken isolated (0x16 :: 2 :: argBytes 0x2101) (whole (0x16 :: 2 :: argBytes 0x2101))
      ∧ (isolated.ziu.zones[(2 : Zone)]).stamp ≠ some 0x2101)
    ∧ suspicion [⟨3, ⟨.sensor, .major⟩, false⟩] ≠ []
    ∧ Taken isolated (0x16 :: 2 :: argBytes 0x2100) (whole (0x16 :: 2 :: argBytes 0x2100))
      ∧ (isolated.ziu.zones[(2 : Zone)]).state = .isolated ∧ (isolated.ziu.zones[(2 : Zone)]).stamp = some 0x2100
      ∧ suspicion (isolated.ziu.zones[(2 : Zone)]).accusers = [] ∧ SupportCurrent isolated ∧ PeerTableConsistent isolated
      ∧ 1 ≤ isolated.cfg.quorum :=
  ⟨rfl, by decide, ⟨takes _ rfl _, by decide⟩, by decide +kernel, by decide +kernel, ⟨takes _ rfl _, by decide +kernel⟩, by decide,
    takes _ rfl _, by decide +kernel, by decide +kernel, by decide +kernel, isolated_support, { running_peers with }, by decide +kernel⟩

/-! ### Witnesses: levels, lines, modes and resets -/

/-- Slo and Shi with a value at each end between them; a fall and a rise of the target cap; and LAMP in each of its patterns. -/
theorem witness_LevelAndFoldbackTables : let at' (l : Level) : State := { running with lvl.lapp := l, out.lamp := lampOf l }
    (120 < 200 ∧ 200 ≤ 255 ∧ 120 < 121 ∧ 199 < 200)
    ∧ (resolve { View.of running with floor := 2 } running).perm.target < running.perm.target
    ∧ (State.perm { running with perm.target := 3 }).target
      ≤ (resolve (View.of running) { running with perm.target := 3 }).perm.target
    ∧ ∀ l : Level, (at' l).ctl.held = false ∧ (at' l).out.lamp = lampOf (at' l).lvl.lapp := by decide +kernel

/-- FLOOR with a value above 5, with the present floor, and STRESS; both in UNCONFIGURED; the stress timer running and not. -/
theorem witness_FloorAndStressAreTaken : Taken State.reset [0x15, 5] (whole [0x15, 5]) ∧ State.reset.ctl.mode = .unconfigured
    ∧ Taken running [0x15, 6] (whole [0x15, 6]) ∧ running.ctl.mode ≠ .unconfigured
    ∧ Taken State.reset [0x10, 255] (whole [0x10, 255]) ∧ Taken running [0x10, 255] (whole [0x10, 255])
    ∧ running.ctl.held = false ∧ running.perm.stressTimer.isSome = true ∧ State.reset.perm.stressTimer.isSome = false
    ∧ (Taken running [0x15, 0] (whole [0x15, 0]) ∧ running.lvl.floor = 0 ∧ SupportCurrent running ∧ PeerTableConsistent running
      ∧ DriveCurrent running ∧ ZoneTableConsistent running ∧ 1 ≤ running.cfg.quorum) :=
  ⟨takes _ rfl _, rfl, takes _ rfl _, by decide, takes _ rfl _, takes _ rfl _, rfl, rfl, rfl,
    takes _ rfl _, rfl, { waiting_support with }, running_peers, { waiting_drive with }, running_zones, by decide +kernel⟩

/-- A station that ramps, and one that does not. -/
theorem witness_OutputTimersAct : running.ctl.held = false ∧ (running.perm.output < running.perm.target ∧ running.out.gen = true
      ∧ running.out.rearm = none ∧ running.perm.dwell = none) ∧ 1 ≤ running.cfg.rampStep
    ∧ ¬(State.reset.perm.output < State.reset.perm.target) := by decide +kernel

/-- An assertion with the latch clear and with it set, and TRIP-CLEAR with a trip input asserted, with the latch set and clear. -/
theorem witness_TripLatchSetsAndClears : faulty.ctl.held = false ∧ faulty.lineAsserted 7 = false
    ∧ (faulty.cfg.inputs[(7 : Input)]).trip = true ∧ faulty.out.tripLatch = false
    ∧ Taken faulty [0x17] (whole [0x17]) ∧ (¬∃ n : Input, (faulty.cfg.inputs[n]).trip = true ∧ faulty.lineAsserted n = true)
    ∧ (let s : State := { faulty with pins.faultLines := Vector.ofFn fun _ => true, out.tripLatch := true }
      ∃ n : Input, (s.cfg.inputs[n]).trip = true ∧ s.lineAsserted n = true) := by decide +kernel

theorem witness_ContactorCommandsFollowTheTable : Taken running [0x18] (whole [0x18]) ∧ Taken running [0x19] (whole [0x19])
    ∧ running.cfg.contactorFitted = true ∧ State.reset.cfg.contactorFitted = false := by decide +kernel

/-- DEPART in RUNNING and in DEPARTED; REJOIN with every expected peer PRESENT, and with none. -/
theorem witness_DepartAndRejoinChangeTheMode : Taken running [0x1A] (whole [0x1A]) ∧ running.ctl.mode = .running
    ∧ (let s : State := { running with ctl.mode := .departed }
      Taken s [0x1A] (whole [0x1A]) ∧ Taken s [0x1B] (whole [0x1B]) ∧ s.ctl.mode = .departed ∧ joinComplete s = true)
    ∧ (let s : State := { running with ctl.mode := .departed, pv.peers := running.pv.peers.set 3 (PeerRecord.absent true) }
      Taken s [0x1B] (whole [0x1B]) ∧ s.ctl.mode = .departed ∧ joinComplete s = false) := by decide +kernel

/-- RST_N low for exactly 1 µs, and RESET; no enabled asserted input with a qualify time of 0; a PINNED zone. -/
theorem witness_HostResetClearsAllButPinnedMemory : (∃ tail, Instr.reset (whole [0x3C]) = .reset tail ∧ Taken zoned [0x3C] tail)
    ∧ (∃ low, Instr.hostReset 1000 = .hostReset low ∧ 1000 ≤ low ∧ zoned.pins.rstLow = false ∧ zoned.ctl.held = false)
    ∧ (zoned.ziu.zones[(3 : Zone)]).state = .pinned ∧ ConfigInRange zoned
    ∧ ∀ n : Input, (zoned.cfg.inputs[n]).enabled = true → zoned.lineAsserted n = true → (zoned.cfg.inputs[n]).qualify ≠ 0 :=
  ⟨⟨_, rfl, takes _ rfl _⟩, ⟨1000, rfl, le_refl _, rfl, rfl⟩, by decide +kernel, { running_configured with }, by decide +kernel⟩

theorem witness_PowerOnResetAndItsRelease : asleep.ctl.held = true ∧ running.ctl.held = false ∧ (Instr.completes).wf = true
    ∧ asleep.pins.rstLow = false ∧ 2000 ≤ 2000 ∧ 1999 < 2000 ∧ (State.pins { asleep with pins.rstLow := true }).rstLow = true
    ∧ 200 ≤ 200 ∧ asleep.lineAsserted 0 = false
    ∧ (State.lineAsserted { asleep with pins.faultLines := Vector.ofFn fun _ => true } 0) = true ∧ 1000 ≤ 1000 ∧ 999 < 1000 := by
  decide +kernel

end Sys2Proof.Tests
end

section
/-! Local faults: CLEAR-ALL (R18). -/

namespace Sys2Proof.Machine

/-! ### The table after CLEAR-ALL -/

@[simp] theorem clearDeclared_inputs (l : Lft) : (clearDeclared l).inputs = l.inputs := rfl

@[simp] theorem clearDeclared_pointer (l : Lft) : (clearDeclared l).pointer = 0 := rfl

@[simp] theorem clearDeclared_declared (l : Lft) (d : DeclSlot) : (clearDeclared l).declared[d] = Slot.empty :=
  getElem_ofFn_fin _ d

/-! ### The command -/

/-- On a started station CLEAR-ALL is answered OK, and the event is all that follows from emptying the declared area. -/
theorem exec_clearAll_follows {tail : Tail} {s : State} (taken : Taken s [0x14] tail) (started : s.ctl.mode ≠ .unconfigured) :
    ∃ t, exec (.clearAll tail) s = .next t ∧ t.port.reply = some (replyFrame .ok [])
      ∧ Follows s { s with lft := clearDeclared s.lft } t :=
  request_follows (owner := fun s => whenStarted s (accept false (settle s { s with lft := clearDeclared s.lft }))) (b := false)
    taken (whenStarted_of started _)

/-- Settles O40: `Follows` keeps the Local Fault Table as CLEAR-ALL leaves it, and forms every own accusation from it again. -/
theorem clearAllEmptiesTheDeclaredArea : Obligations.ClearAllEmptiesTheDeclaredArea := by
  intro tail s taken started
  obtain ⟨t, next, reply, rest⟩ := exec_clearAll_follows taken started
  have table : t.lft = clearDeclared s.lft := rest.kept.lft
  refine ⟨t, next, reply, ?inputs, ?declared, ?pointer, rest.support.own, ?follows⟩
  case inputs => rw [table, clearDeclared_inputs]
  case declared => intro d; rw [table, clearDeclared_declared]; rfl
  case pointer => rw [table, clearDeclared_pointer]
  case follows => rw [table]; exact rest

end Sys2Proof.Machine
end

section
/-! Zone isolation: RELEASE (R86, R87). -/

namespace Sys2Proof.Machine

/-! ### A CLEAR zone under current support -/

/-- R82: over current tables a support pass leaves every dispute alone. -/
theorem supportPass_dispute_current {s : State} (h : SupportCurrent s) (z : Zone) :
    ((supportPass s).ziu.zones[z]).dispute = (s.ziu.zones[z]).dispute := by
  have moves := supportPass_moves s z
  have stands : match loneAccuser s z with
    | none => (s.ziu.zones[z]).dispute = .none
    | some a => (s.ziu.zones[z]).dispute = .pending a ∨ (s.ziu.zones[z]).dispute = .inForce a := h.dispute z
  cases lone : loneAccuser s z with
  | none =>
    rw [lone] at moves stands
    exact moves.1.trans stands.symm
  | some a =>
    rw [lone] at moves stands
    have named : (s.ziu.zones[z]).dispute.accuser = some a := by rcases stands with e | e <;> rw [e] <;> rfl
    exact (moves.1 named).1

/-- R70, R71: and so every all-accuser list. -/
theorem supportPass_accusers_current {s : State} (h : SupportCurrent s) (z : Zone) :
    ((supportPass s).ziu.zones[z]).accusers = (s.ziu.zones[z]).accusers := by
  have formed : ((supportPass s).ziu.zones[z]).accusers
      = markDiscounted ((supportPass s).ziu.zones[z]).dispute (accusersOf s (ownClaim s z) z) := by
    simp [supportPass, supportZone]
  rw [formed, supportPass_dispute_current h, ← h.accusers z]

/-- R73, R84: over current tables the first pass is the last. -/
theorem settleSupport_one_pass {s : State} (h : SupportCurrent s) (n : Nat) : settleSupport (n + 1) s = supportPass s := by
  have agree : implausibleMarks (supportPass s).ziu.zones = (supportPass s).ziu.derived.implausible := marks_ext fun a => by
    rw [Bool.eq_iff_iff, implausibleMarks_iff]
    simp only [supportPass_dispute_current h]
    exact (h.implausible a).symm
  rw [settleSupport]
  exact if_pos agree

/-- R75: the state rules leave a CLEAR zone with an empty suspicion set as it is. -/
theorem zoneNext_clear {c : Store} {z : Zone} {r : ZoneRecord} (clear : r.state = .clear) (unaccused : suspicion r.accusers = [])
    (q : 1 ≤ c.quorum) : zoneNext c z r = r := by
  simp [zoneNext, unconfirmed, clear, unaccused, confirmationHolds_nil unaccused q]

/-- R74, R75: where the tables are current, what follows from a change leaves a CLEAR zone CLEAR. -/
theorem settle_keeps_clear {b s : State} {z : Zone} (h : SupportCurrent s) (p : PeerTableConsistent s) (q : 1 ≤ s.cfg.quorum)
    (clear : (s.ziu.zones[z]).state = .clear) : ((settle b s).ziu.zones[z]).state = .clear := by
  have still : ((supportPass s).ziu.zones[z]).state = .clear := (supportPass_only s z).state.trans clear
  have unaccused : suspicion ((supportPass s).ziu.zones[z]).accusers = [] := by
    rw [supportPass_accusers_current h]
    simpa only [clear] using h.state z
  have next : (settle b s).ziu.zones[z] = zoneNext s.cfg z (supportPass s).ziu.zones[z] := by
    rw [settle_ziu, settleTables, checkJoin_awaited p, peerDerivations_current p, settleSupport_one_pass h]
    exact getElem_ofFn_fin _ z
  rw [next, zoneNext_clear still unaccused q, still]

/-! ### The released zone -/

/-- R87: the state with one zone released, before the rest follows. -/
abbrev released (z : Zone) (s : State) : State := setZoneRecord z (releasedRecord s.cfg (s.ziu.zones[z])) s

/-- The zone table after the release of one zone. -/
theorem released_zones (z y : Zone) (s : State) :
    (released z s).ziu.zones[y]
      = if z = y then releasedRecord s.cfg (s.ziu.zones[z]) else s.ziu.zones[y] := by
  rw [setZoneRecord_zones, getElem_set_fin]

/-- R87: a release leaves every zone's own accusation, all-accuser list and dispute alone. -/
theorem released_support (z y : Zone) (s : State) :
    ((released z s).ziu.zones[y]).own = (s.ziu.zones[y]).own
      ∧ ((released z s).ziu.zones[y]).accusers = (s.ziu.zones[y]).accusers
      ∧ ((released z s).ziu.zones[y]).dispute = (s.ziu.zones[y]).dispute := by
  rw [released_zones]
  split
  · next same => subst same; exact ⟨rfl, rfl, rfl⟩
  · exact ⟨rfl, rfl, rfl⟩

/-- R74, R87: the release of a zone that nobody accuses leaves the Zone Table current. -/
theorem released_current {s : State} {z : Zone} (h : SupportCurrent s) (unaccused : suspicion (s.ziu.zones[z]).accusers = []) :
    SupportCurrent (released z s) where
  own y := (released_support z y s).1.trans (h.own y)
  accusers y := by
    obtain ⟨-, accusers, dispute⟩ := released_support z y s
    rw [accusers, dispute]; exact h.accusers y
  dispute y := by
    obtain ⟨-, -, dispute⟩ := released_support z y s
    rw [dispute]; exact h.dispute y
  implausible a := by
    have same := fun y => (released_support z y s).2.2
    simp only [same]; exact h.implausible a
  state y := by
    by_cases same : z = y
    · rw [released_zones, if_pos same]; subst same; exact unaccused
    · rw [released_zones, if_neg same]; exact h.state y

/-- R74, R87: a released zone is CLEAR after the event. -/
theorem settle_released_clear {b s : State} {z : Zone} (h : SupportCurrent s) (p : PeerTableConsistent s) (q : 1 ≤ s.cfg.quorum)
    (unaccused : suspicion (s.ziu.zones[z]).accusers = []) :
    ((settle b (released z s)).ziu.zones[z]).state = .clear :=
  settle_keeps_clear (released_current h unaccused) { p with } q (by rw [released_zones, if_pos rfl]; rfl)

/-! ### The checks -/

theorem releaseZone_notIsolated {z : Zone} {s : State} (stamp : Half) (h : (s.ziu.zones[z]).state = .clear
    ∨ (s.ziu.zones[z]).state = .suspect ∨ (s.ziu.zones[z]).state = .confirmed) :
    releaseZone z stamp s = refuse .notIsolated s := by
  rcases h with e | e | e <;> simp only [releaseZone, e]

theorem releaseZone_pinned {z : Zone} {s : State} (stamp : Half) (h : (s.ziu.zones[z]).state = .pinned) :
    releaseZone z stamp s = refuse .pinned s := by
  simp only [releaseZone, h]

/-- R86: the checks on an ISOLATED zone. -/
theorem releaseZone_isolated {z : Zone} {s : State} (stamp : Half) (h : (s.ziu.zones[z]).state = .isolated) :
    releaseZone z stamp s = if (s.ziu.zones[z]).stamp ≠ some stamp then refuse .stamp s
      else if suspicion (s.ziu.zones[z]).accusers ≠ [] then refuse .accused s
      else accept false (settle s (released z s)) := by
  simp only [releaseZone, h, List.isEmpty_iff, ite_not]

/-- A zone in neither of the states that R86's first two checks refuse is ISOLATED. -/
theorem isolated_of_checks {v : ZoneState} (h : ¬(v = .clear ∨ v = .suspect ∨ v = .confirmed)) (k : v ≠ .pinned) :
    v = .isolated := by
  cases v <;> simp_all

/-! ### The command -/

theorem zoneArg_range {b : Byte} (h : 12 ≤ b.toNat) : zoneArg b = none := dif_neg (Nat.not_lt.mpr h)

theorem zoneArg_zone {b : Byte} {z : Zone} (h : b.toNat = z.val) : zoneArg b = some z := by
  have lt : b.toNat < 12 := h ▸ z.isLt
  rw [zoneArg, dif_pos lt, Option.some.injEq]
  exact Fin.ext h

theorem exec_release (zone : Byte) (stamp : Half) (tail : Tail) (s : State) :
    exec (.release zone stamp tail) s = execRelease zone stamp tail s := by
  rfl

/-- R167: in UNCONFIGURED RELEASE is refused WRONG-MODE. -/
theorem exec_release_unconfigured {zone : Byte} {stamp : Half} {tail : Tail} {s : State}
    (taken : Taken s (0x16 :: zone :: argBytes stamp) tail) (m : s.ctl.mode = .unconfigured) :
    exec (.release zone stamp tail) s = .next (s.answering .wrongMode) := by
  rw [exec_release, execRelease, request_answers taken (whenStarted_refused m _)]
  rfl

/-- R86: a zone byte that names no zone is refused RANGE. -/
theorem exec_release_range {zone : Byte} {stamp : Half} {tail : Tail} {s : State}
    (taken : Taken s (0x16 :: zone :: argBytes stamp) tail) (m : s.ctl.mode ≠ .unconfigured) (h : 12 ≤ zone.toNat) :
    exec (.release zone stamp tail) s = .next (s.answering .range) := by
  rw [exec_release, execRelease, request_answers taken (whenStarted_of m _), zoneArg_range h]
  rfl

/-- R86: on a started station a RELEASE that names a zone is answered as that zone's checks say. -/
theorem exec_release_zone {zone : Byte} {stamp : Half} {tail : Tail} {s : State} {z : Zone} {a : Answer}
    (taken : Taken s (0x16 :: zone :: argBytes stamp) tail) (m : s.ctl.mode ≠ .unconfigured) (hz : zone.toNat = z.val)
    (h : releaseZone z stamp s = a) :
    exec (.release zone stamp tail) s = .next (a.state.answering a.code (replyData 0 a)) := by
  rw [exec_release, execRelease, request_answers taken (whenStarted_of m _), zoneArg_zone hz, ← h]

/-- R87: an accepted RELEASE is answered OK, the event is all that follows from the release, and the zone stays CLEAR where the
tables are current. -/
theorem exec_release_accepted {zone : Byte} {stamp : Half} {tail : Tail} {s : State} {z : Zone}
    (taken : Taken s (0x16 :: zone :: argBytes stamp) tail) (m : s.ctl.mode ≠ .unconfigured) (named : zone.toNat = z.val)
    (h : releaseZone z stamp s = accept false (settle s (released z s))) :
    ∃ t, exec (.release zone stamp tail) s = .next t ∧ t.port.reply = some (replyFrame .ok [])
      ∧ Follows s (released z s) t
      ∧ (SupportCurrent s → PeerTableConsistent s → 1 ≤ s.cfg.quorum → suspicion (s.ziu.zones[z]).accusers = [] →
        (t.ziu.zones[z]).state = .clear) := by
  have answered := exec_release_zone taken m named h
  have follows := settle_follows s (released z s)
  have clear := @settle_released_clear s s z
  generalize settle s (released z s) = v at answered follows clear
  exact ⟨v.answering .ok, answered, rfl, follows.reply _, clear⟩

/-- Settles O52: check by check through `releaseZone`; when all pass, `settle` runs from tables that the release left current. -/
theorem releaseChecksInOrder : Obligations.ReleaseChecksInOrder := by
  intro zone stamp tail s taken
  refine ⟨exec_release_unconfigured taken, fun started => ⟨exec_release_range taken started, fun z named => ?_⟩⟩
  split_ifs with free pinned stamped accused
  · exact exec_release_zone taken started named (releaseZone_notIsolated stamp free)
  · exact exec_release_zone taken started named (releaseZone_pinned stamp pinned)
  all_goals
    have isolated : (s.ziu.zones[z]).state = .isolated := isolated_of_checks free pinned
    have checked := releaseZone_isolated stamp isolated
  · exact exec_release_zone taken started named (checked.trans (if_pos stamped))
  · exact exec_release_zone taken started named (checked.trans ((if_neg stamped).trans (if_pos accused)))
  · obtain ⟨t, next, reply, follows, clear⟩ := exec_release_accepted taken started named
      (checked.trans ((if_neg stamped).trans (if_neg accused)))
    refine ⟨t, next, reply, follows, fun current peers quorum => ?_⟩
    have after := clear current peers quorum (not_not.mp accused)
    have moved : (t.ziu.zones[z]).state ≠ (s.ziu.zones[z]).state := by rw [after, isolated]; decide
    exact ⟨after, follows.zone.mpr (.inr ⟨z, moved⟩)⟩

end Sys2Proof.Machine
end

section
/-! Drive levels: what START makes of the store (R97, R99, R115). -/

namespace Sys2Proof.Machine

/-! ### R97: the tables of caps -/

theorem nonIncreasing_zero (t : Vector Nat 4) : (nonIncreasing t)[0] = t[0] := rfl

/-- R97: each entry is lowered to the entry before it, as that one has been lowered. -/
theorem nonIncreasing_succ (t : Vector Nat 4) (i : Fin 3) :
    (nonIncreasing t)[i.succ] = min t[i.succ] (nonIncreasing t)[i.castSucc] :=
  match i with
  | 0 | 1 | 2 => rfl

theorem nonIncreasing_next (t : Vector Nat 4) {i j : Fin 4} (next : j.val = i.val + 1) :
    (nonIncreasing t)[j] = min t[j] (nonIncreasing t)[i] := by
  obtain ⟨k, rfl, rfl⟩ : ∃ k : Fin 3, j = k.succ ∧ i = k.castSucc := ⟨⟨i.val, by omega⟩, Fin.ext next, rfl⟩
  exact nonIncreasing_succ t k

/-- The ladder of a table: its entries at L0 to L3, and 0 at L4 and L5. -/
def ladder (t : Vector Nat 4) (l : Level) : Nat := if h : l.val < 4 then t[l.val] else 0

theorem baseCap_eq_ladder (c : Store) : baseCap c = ladder c.baseCaps := rfl

theorem speedCapOf_eq_ladder (c : Store) : speedCapOf c = ladder c.speedCaps := rfl

theorem ladder_low (t : Vector Nat 4) {l : Level} (h : l.val < 4) : ladder t l = t[(⟨l.val, h⟩ : Fin 4)] := dif_pos h

theorem ladder_high (t : Vector Nat 4) {l : Level} (h : 4 ≤ l.val) : ladder t l = 0 := dif_neg (not_lt.mpr h)

/-- R97: the ladder of a table brought into line never rises; at L4 and above it is 0. -/
theorem ladder_nonIncreasing_antitone (t : Vector Nat 4) : Antitone (ladder (nonIncreasing t)) := by
  refine Fin.antitone_iff_succ_le.mpr fun i => ?_
  by_cases low : i.succ.val < 4
  · have before : i.castSucc.val < 4 := (Nat.lt_succ_self _).trans low
    rw [ladder_low _ low, ladder_low _ before, nonIncreasing_next t (i := ⟨i.castSucc.val, before⟩) rfl]
    exact min_le_right _ _
  · rw [ladder_high _ (not_lt.mp low)]
    exact Nat.zero_le _

/-! ### R115: the stress thresholds -/

theorem orderedThresholds_of_lt {slo shi : Nat} (h : slo < shi) : orderedThresholds slo shi = (slo, shi) := if_pos h

/-- R115: a high threshold that does not lie above the low one is raised to just above it. -/
theorem orderedThresholds_of_le {slo shi : Nat} (h : shi ≤ slo) (room : slo ≤ 254) :
    orderedThresholds slo shi = (slo, slo + 1) := (if_neg (not_lt.mpr h)).trans (if_pos room)

/-- R115: where there is no room above the low threshold, the pair is the highest there is. -/
theorem orderedThresholds_full {slo shi : Nat} (h : shi ≤ slo) (full : 254 < slo) :
    orderedThresholds slo shi = (254, 255) := (if_neg (not_lt.mpr h)).trans (if_neg (not_le.mpr full))

/-- R115: the difference is at least 1, and at most 255 if the high threshold is a byte. -/
theorem orderedThresholds_difference (slo shi : Nat) : (orderedThresholds slo shi).1 < (orderedThresholds slo shi).2
    ∧ (shi ≤ 255 → (orderedThresholds slo shi).2 ≤ (orderedThresholds slo shi).1 + 255) := by
  rcases lt_or_ge slo shi with above | notAbove
  · rw [orderedThresholds_of_lt above]
    exact ⟨above, fun byte => by omega⟩
  · rcases le_or_gt slo 254 with room | full
    · rw [orderedThresholds_of_le notAbove room]
      exact ⟨Nat.lt_succ_self _, fun _ => by omega⟩
    · rw [orderedThresholds_full notAbove full]
      exact ⟨by decide, fun _ => by decide⟩

/-! ### R158: the store -/

theorem corrected_baseCaps (c : Store) : (Store.corrected c).baseCaps = nonIncreasing c.baseCaps := rfl

theorem corrected_speedCaps (c : Store) : (Store.corrected c).speedCaps = nonIncreasing c.speedCaps := rfl

theorem corrected_thresholds (c : Store) :
    ((Store.corrected c).slo, (Store.corrected c).shi) = orderedThresholds c.slo c.shi := rfl

theorem corrected_zone (c : Store) (z : Zone) : (Store.corrected c).zones[z] = orderedLevels c.zones[z] :=
  getElem_ofFn_fin _ z

/-! ### The command -/

theorem InputWork.cfg {u t : State} (h : InputWork u t) : t.cfg = u.cfg := by rw [h.rest]

theorem InputWork.isPending {u t : State} (h : InputWork u t) (f : Flag) : t.isPending f = u.isPending f :=
  isPending_congr (by rw [h.rest]) f

/-- R138, R140: sampling the trip inputs can raise TRIP, never NOTICE. -/
theorem sampleTrip_notice (s : State) : (sampleTrip s).isPending .notice = s.isPending .notice := by
  unfold sampleTrip
  split
  · rcases setTrip_cases s with ⟨-, same⟩ | ⟨-, -, -, flags⟩
    · rw [same]
    · have raised : (setTrip s).isPending .notice = (raise .trip s).isPending .notice := isPending_congr flags _
      simp [raised, isPending_raise]
  · rfl

/-- R157, R158: when the join begins NOTICE is pending, beyond what was pending before, exactly if the store was corrected. -/
theorem startReady_notice (s : State) : (startReady s).isPending .notice
    = (s.isPending .notice || Store.corrected s.cfg != s.cfg) := by
  have joined (u : State) : (switchOn (enterJoining u)).isPending .notice = u.isPending .notice := rfl
  have expecting (u : State) : (expectPeers u).isPending .notice = u.isPending .notice := rfl
  rw [startReady_eq, joined, sampleTrip_notice, startLoaded, expecting, isPending_raiseIf]
  simp [State.isPending]

/-- R151, R170: a START that the port takes did not come together with a host reset: RST_N is high. -/
theorem Taken.apart {bytes : List Byte} {tail : Tail} {s : State} (h : Taken s bytes tail) : s.meetsReset tail = false := by
  obtain ⟨⟨-, high⟩, -⟩ : (s.ctl.held = false ∧ s.pins.rstLow = false) ∧ _ := by
    simpa only [State.takes, State.portOpen, Bool.and_eq_true, Bool.not_eq_true'] using h.1
  simp [State.meetsReset, high]

/-- R157: START corrects the store, and the event is all that follows from the join and the watch on the inputs. -/
theorem startUnit_eq (s : State) : startUnit s
    = accept (Store.corrected s.cfg != s.cfg) (settle s (watchInputs (startReady s))) := rfl

/-- R157: a START that the port takes in UNCONFIGURED is answered CLAMPED or OK, as the store was corrected or not, and the event
is all that follows from the join and the watch on the inputs. -/
theorem exec_start_follows {tail : Tail} {s : State} (taken : Taken s [0x06] tail) (m : s.ctl.mode = .unconfigured) :
    ∃ t, exec (.start tail) s = .next t
      ∧ t.port.reply = some (replyFrame (if Store.corrected s.cfg != s.cfg then .clamped else .ok) [])
      ∧ Follows s (watchInputs (startReady s)) t := by
  have request : exec (.start tail) s
      = hostRequest 0x06 [] tail 0 (fun s => whenUnconfigured s (startUnit s)) s :=
    if_neg (Bool.eq_false_iff.mp (Taken.apart taken))
  rw [request]
  exact request_follows taken ((whenUnconfigured_of m _).trans (startUnit_eq s))

/-- R158: and it leaves the corrected store, with NOTICE raised if that is another than before. -/
theorem start_follows_cfg {s t : State} (h : Follows s (watchInputs (startReady s)) t) : t.cfg = Store.corrected s.cfg := by
  rw [h.kept.cfg, (watchInputs_work _).cfg, startReady_cfg]

theorem start_follows_notice {s t : State} (h : Follows s (watchInputs (startReady s)) t) :
    t.isPending .notice = (s.isPending .notice || Store.corrected s.cfg != s.cfg) := by
  rw [h.others .notice (.inr (.inr (.inl rfl))), (watchInputs_work _).isPending, startReady_notice]

/-- Settles O32: START leaves `Store.corrected`, whose tables, zones and thresholds the lemmas above describe one by one. -/
theorem startBringsTheStoreIntoLine : Obligations.StartBringsTheStoreIntoLine := by
  intro tail s taken unstarted
  obtain ⟨t, next, reply, follows⟩ := exec_start_follows taken unstarted
  have cfg := start_follows_cfg follows
  have notice := start_follows_notice follows
  have thresholds := corrected_thresholds s.cfg
  refine ⟨t, _, next, reply, ?_⟩
  rw [cfg, baseCap_eq_ladder, speedCapOf_eq_ladder, corrected_baseCaps, corrected_speedCaps]
  refine ⟨nonIncreasing_zero _, nonIncreasing_zero _, fun _ _ h => ⟨nonIncreasing_next _ h, nonIncreasing_next _ h⟩,
    fun _ high => ⟨ladder_high _ high, ladder_high _ high⟩,
    fun _ _ le => ⟨ladder_nonIncreasing_antitone _ le, ladder_nonIncreasing_antitone _ le⟩, ?zones, ?above, ?raised, ?full,
    (orderedThresholds_difference _ _).1, (orderedThresholds_difference _ _).2, ?changed⟩
  case zones =>
    intro z
    rw [corrected_zone]
    exact ⟨rfl, rfl, rfl, le_max_right _ _, le_max_right _ _⟩
  case above => exact fun h => Prod.mk.inj (thresholds.trans (orderedThresholds_of_lt h))
  case raised => exact fun h room => Prod.mk.inj (thresholds.trans (orderedThresholds_of_le h room))
  case full => exact fun h full => Prod.mk.inj (thresholds.trans (orderedThresholds_full h (by omega)))
  case changed =>
    intro changed
    have differs : (Store.corrected s.cfg != s.cfg) = true := bne_iff_ne.mpr changed
    rw [notice, differs, Bool.or_true]
    exact ⟨if_pos rfl, rfl⟩

end Sys2Proof.Machine
end

section
/-! The host port: ACK, FLAG-TEST and ENABLE (R172 to R175). -/

namespace Sys2Proof.Machine

/-! ### One flag of a mask -/

theorem flagBit_lt (f : Flag) : f.bit < 8 := by
  cases f <;> decide

/-- R172: an ACK leaves the flags that it does not name. -/
theorem ackFlags_getLsbD (flags mask : Byte) {i : Nat} (h : i < 8) :
    (ackFlags flags mask).getLsbD i = (flags.getLsbD i && !mask.getLsbD i) := by
  simp [ackFlags, h]

/-- R173: a FLAG-TEST leaves the flags that its clear mask does not name, with those of its set mask. -/
theorem testFlags_getLsbD (flags setMask clearMask : Byte) {i : Nat} (h : i < 8) :
    (testFlags flags setMask clearMask).getLsbD i = (setMask.getLsbD i || (flags.getLsbD i && !clearMask.getLsbD i)) := by
  simp [testFlags, h, Bool.or_comm]

/-- A mask names something unless it is zero. -/
theorem mask_ne_zero_iff (mask : Byte) : mask ≠ 0 ↔ ∃ i : Fin 8, mask.getLsbD i = true := by
  simp only [ne_eq, BitVec.eq_of_getLsbD_eq_iff, BitVec.ofNat_eq_ofNat, BitVec.getLsbD_zero, not_forall, Bool.not_eq_false,
    exists_prop, Fin.exists_iff]

/-! ### The flags of a state -/

@[simp] theorem isPending_withFlags (flags : Byte) (s : State) (f : Flag) :
    (withFlags flags s).isPending f = flags.getLsbD f.bit := rfl

@[simp] theorem isPending_answering (s : State) (code : ReplyCode) (data : List Byte) (f : Flag) :
    (s.answering code data).isPending f = s.isPending f := rfl

/-- R171: a flag whose cause comes is pending, whatever went before. -/
theorem isPending_raise_self (f : Flag) (s : State) : (raise f s).isPending f = true := by
  simp [isPending_raise]

/-- R171: raising a flag does not hinder a request. -/
theorem Taken.raised {s : State} {bytes : List Byte} {tail : Tail} (taken : Taken s bytes tail) (f : Flag) :
    Taken (raise f s) bytes tail := taken

/-- R175: outside power-on reset INT_N is low exactly while a flag is both pending and enabled. -/
theorem intLow_iff {s : State} (awake : s.ctl.held = false) :
    s.intLow = true ↔ ∃ i : Fin 8, s.port.flags.getLsbD i = true ∧ s.port.enable.getLsbD i = true := by
  have line : s.intLow = true ↔ s.port.flags &&& s.port.enable ≠ 0 := by simp [State.intLow, awake]
  simp only [line, mask_ne_zero_iff, BitVec.getLsbD_and, Bool.and_eq_true]

/-! ### The commands -/

theorem exec_ack (mask : Byte) (tail : Tail) (s : State) : exec (.ack mask tail) s = execAck mask tail s := by
  rfl

theorem exec_flagTest (setMask clearMask : Byte) (tail : Tail) (s : State) :
    exec (.flagTest setMask clearMask tail) s = execFlagTest setMask clearMask tail s := by
  rfl

theorem exec_enable (mask : Byte) (tail : Tail) (s : State) : exec (.enable mask tail) s = execEnable mask tail s := by
  rfl

/-- R172: what an accepted ACK leaves, and its reply. -/
theorem exec_ack_taken {mask : Byte} {tail : Tail} {s : State} (taken : Taken s [0x30, mask] tail) :
    exec (.ack mask tail) s = .next ((withFlags (ackFlags s.port.flags mask) s).answering .ok [ackFlags s.port.flags mask]) := by
  rw [exec_ack, execAck, request_answers taken rfl]
  rfl

/-- R173: what an accepted FLAG-TEST leaves, and its reply. -/
theorem exec_flagTest_taken {setMask clearMask : Byte} {tail : Tail} {s : State}
    (taken : Taken s [0x31, setMask, clearMask] tail) :
    exec (.flagTest setMask clearMask tail) s = .next
      ((withFlags (testFlags s.port.flags setMask clearMask) s).answering .ok [testFlags s.port.flags setMask clearMask]) := by
  rw [exec_flagTest, execFlagTest, request_answers taken rfl]
  rfl

/-- R174: what an accepted ENABLE leaves, and its reply. -/
theorem exec_enable_taken {mask : Byte} {tail : Tail} {s : State} (taken : Taken s [0x32, mask] tail) :
    exec (.enable mask tail) s = .next ({ s with port.enable := mask }.answering .ok [mask, s.port.flags]) := by
  rw [exec_enable, execEnable, request_answers taken rfl]
  rfl

/-- R172: an ACK clears a flag that it names, however lately its cause came. -/
theorem exec_ack_clears {mask : Byte} {tail : Tail} {s : State} {g : Flag} (taken : Taken s [0x30, mask] tail)
    (named : mask.getLsbD g.bit = true) : ∃ t, exec (.ack mask tail) s = .next t ∧ t.isPending g = false := by
  refine ⟨_, exec_ack_taken taken, ?_⟩
  rw [isPending_answering, isPending_withFlags, ackFlags_getLsbD _ _ (flagBit_lt g), named, Bool.not_true, Bool.and_false]

/-- R173: a flag that was pending stays so through a FLAG-TEST exactly if the set mask names it or the clear mask does not. -/
theorem exec_flagTest_of_pending {setMask clearMask : Byte} {tail : Tail} {s : State} {g : Flag}
    (taken : Taken s [0x31, setMask, clearMask] tail) (pending : s.isPending g = true) :
    ∃ t, exec (.flagTest setMask clearMask tail) s = .next t
      ∧ (t.isPending g = true ↔ (setMask.getLsbD g.bit = true ∨ clearMask.getLsbD g.bit = false)) := by
  have stood : s.port.flags.getLsbD g.bit = true := pending
  refine ⟨_, exec_flagTest_taken taken, ?_⟩
  rw [isPending_answering, isPending_withFlags, testFlags_getLsbD _ _ _ (flagBit_lt g), stood, Bool.true_and, Bool.or_eq_true,
    Bool.not_eq_true']

/-- Settles O21: flag by flag through `ackFlags`; a cause before the ACK is one more flag that it finds pending. -/
theorem ackClearsNamedFlags : Obligations.AckClearsNamedFlags := by
  intro mask tail s taken
  refine ⟨ackFlags s.port.flags mask, exec_ack_taken taken, fun i => ?flag, fun g named => ⟨isPending_raise_self g _, ?before⟩⟩
  case flag => rw [ackFlags_getLsbD _ _ i.isLt, Bool.and_eq_true, Bool.not_eq_true']
  case before => exact exec_ack_clears (taken.raised g) named

/-- Settles O22: flag by flag through `testFlags`; INT_N follows as R175 has it. -/
theorem flagTestSetsAndClearsFlags : Obligations.FlagTestSetsAndClearsFlags := by
  intro setMask clearMask tail s taken
  have awake : s.ctl.held = false := takes_held taken.1
  refine ⟨testFlags s.port.flags setMask clearMask, exec_flagTest_taken taken, fun i => ?flag, ?line,
    fun g => ⟨isPending_raise_self g _, ?before⟩⟩
  case flag => rw [testFlags_getLsbD _ _ _ i.isLt, Bool.or_eq_true, Bool.and_eq_true, Bool.not_eq_true']
  case line => exact intLow_iff awake
  case before => exact exec_flagTest_of_pending (taken.raised g) (isPending_raise_self g s)

/-- Settles O23: the mask replaced, INT_N follows as R175 has it. -/
theorem enableReplacesTheMask : Obligations.EnableReplacesTheMask := by
  intro mask tail s taken
  have awake : s.ctl.held = false := takes_held taken.1
  exact ⟨exec_enable_taken taken, intLow_iff awake⟩

end Sys2Proof.Machine
end

section
/-! What the work of single blocks leaves alone, field by field. -/

namespace Sys2Proof.Machine

theorem InputWork.ctl {u t : State} (h : InputWork u t) : t.ctl = u.ctl := by rw [h.rest]
theorem InputWork.pins {u t : State} (h : InputWork u t) : t.pins = u.pins := by rw [h.rest]
theorem InputWork.declared {u t : State} (h : InputWork u t) : t.lft.declared = u.lft.declared := by rw [h.rest]
theorem InputWork.pointer {u t : State} (h : InputWork u t) : t.lft.pointer = u.lft.pointer := by rw [h.rest]
theorem InputWork.sbc {u t : State} (h : InputWork u t) : t.sbc = u.sbc := by rw [h.rest]
theorem InputWork.pv {u t : State} (h : InputWork u t) : t.pv = u.pv := by rw [h.rest]
theorem InputWork.ziu {u t : State} (h : InputWork u t) : t.ziu = u.ziu := by rw [h.rest]
theorem InputWork.lvl {u t : State} (h : InputWork u t) : t.lvl = u.lvl := by rw [h.rest]
theorem InputWork.perm {u t : State} (h : InputWork u t) : t.perm = u.perm := by rw [h.rest]
theorem InputWork.out {u t : State} (h : InputWork u t) : t.out = u.out := by rw [h.rest]
theorem InputWork.port {u t : State} (h : InputWork u t) : t.port = u.port := by rw [h.rest]
theorem InputWork.pending {u t : State} (h : InputWork u t) : t.pending = u.pending := by rw [h.rest]
theorem InputWork.due {u t : State} (h : InputWork u t) : t.due = u.due := by rw [h.rest]

theorem BusWork.ctl {u t : State} (h : BusWork u t) : t.ctl = u.ctl := by rw [h.rest]
theorem BusWork.pins {u t : State} (h : BusWork u t) : t.pins = u.pins := by rw [h.rest]
theorem BusWork.cfg {u t : State} (h : BusWork u t) : t.cfg = u.cfg := by rw [h.rest]
theorem BusWork.lft {u t : State} (h : BusWork u t) : t.lft = u.lft := by rw [h.rest]
theorem BusWork.pv {u t : State} (h : BusWork u t) : t.pv = u.pv := by rw [h.rest]
theorem BusWork.zones {u t : State} (h : BusWork u t) : t.ziu.zones = u.ziu.zones := by rw [h.rest]
theorem BusWork.lvl {u t : State} (h : BusWork u t) : t.lvl = u.lvl := by rw [h.rest]
theorem BusWork.perm {u t : State} (h : BusWork u t) : t.perm = u.perm := by rw [h.rest]
theorem BusWork.out {u t : State} (h : BusWork u t) : t.out = u.out := by rw [h.rest]
theorem BusWork.port {u t : State} (h : BusWork u t) : t.port = u.port := by rw [h.rest]
theorem BusWork.pending {u t : State} (h : BusWork u t) : t.pending = u.pending := by rw [h.rest]
theorem BusWork.due {u t : State} (h : BusWork u t) : t.due = u.due := by rw [h.rest]

theorem TriggerWork.ctl {u t : State} (h : TriggerWork u t) : t.ctl = u.ctl := by rw [h.rest]
theorem TriggerWork.cfg {u t : State} (h : TriggerWork u t) : t.cfg = u.cfg := by rw [h.rest]
theorem TriggerWork.lft {u t : State} (h : TriggerWork u t) : t.lft = u.lft := by rw [h.rest]
theorem TriggerWork.pv {u t : State} (h : TriggerWork u t) : t.pv = u.pv := by rw [h.rest]
theorem TriggerWork.ziu {u t : State} (h : TriggerWork u t) : t.ziu = u.ziu := by rw [h.rest]
theorem TriggerWork.lvl {u t : State} (h : TriggerWork u t) : t.lvl = u.lvl := by rw [h.rest]
theorem TriggerWork.perm {u t : State} (h : TriggerWork u t) : t.perm = u.perm := by rw [h.rest]
theorem TriggerWork.out {u t : State} (h : TriggerWork u t) : t.out = u.out := by rw [h.rest]
theorem TriggerWork.port {u t : State} (h : TriggerWork u t) : t.port = u.port := by rw [h.rest]
theorem TriggerWork.pending {u t : State} (h : TriggerWork u t) : t.pending = u.pending := by rw [h.rest]
theorem TriggerWork.due {u t : State} (h : TriggerWork u t) : t.due = u.due := by rw [h.rest]

end Sys2Proof.Machine
end

section
/-! The blocks at their power-on values: they meet the invariants (R22, R45, R63, R94, R112, R128, R147), and through UNCONFIGURED an
event leaves them so. -/

namespace Sys2Proof.Machine

/-- R22, R45, R63, R94, R112, R128: the blocks hold what power-on reset gives them. -/
structure BlocksInitial (s : State) : Prop where
  mode : s.ctl.mode = .unconfigured
  lft : s.lft = Lft.empty
  sbc : s.sbc = Sbc.initial
  pv : s.pv = PeerView.initial
  ziu : s.ziu = Ziu.initial
  lvl : s.lvl = Levels.initial
  perm : s.perm = Permission.initial
  contactor : s.out.contactor = .opened
  quorum : 1 ≤ s.cfg.quorum

theorem IdleUntilStart.blocks {s : State} (h : IdleUntilStart s) (m : s.ctl.mode = .unconfigured) : BlocksInitial s :=
  ⟨m, h.lft m, h.sbc m, h.pv m, h.ziu m, h.lvl m, h.perm m, h.contactor m, h.quorum⟩

theorem BlocksInitial.idleUntilStart {s : State} (h : BlocksInitial s) (started : s.ctl.started = false) : IdleUntilStart s where
  started := ⟨fun _ => h.mode, fun _ => started⟩
  held _ := h.mode
  lft _ := h.lft
  sbc _ := h.sbc
  pv _ := h.pv
  ziu _ := h.ziu
  lvl _ := h.lvl
  perm _ := h.perm
  contactor _ := h.contactor
  quorum := h.quorum

/-! ### The empty tables -/

@[simp] theorem Lft.empty_inputs (n : Input) : Lft.empty.inputs[n] = Slot.empty := getElem_ofFn_fin _ n

@[simp] theorem Lft.empty_declared (d : DeclSlot) : Lft.empty.declared[d] = Slot.empty := getElem_ofFn_fin _ d

@[simp] theorem PeerView.initial_peers (p : Station) : PeerView.initial.peers[p] = PeerRecord.absent false := getElem_ofFn_fin _ p

@[simp] theorem Ziu.initial_zones (z : Zone) : Ziu.initial.zones[z] = ZoneRecord.initial := getElem_ofFn_fin _ z

@[simp] theorem Derived.empty_lost (p : Station) : Derived.empty.lost[p] = false := getElem_ofFn_fin _ p

@[simp] theorem Derived.empty_implausible (p : Station) : Derived.empty.implausible[p] = false := getElem_ofFn_fin _ p

theorem Lft.empty_slots {sl : Slot} (h : sl ∈ Lft.empty.slots) : sl = Slot.empty := by
  simpa [Lft.slots, Lft.empty, Vector.mem_toList_iff, Vector.mem_ofFn, eq_comm] using h

/-- R19: an empty table accuses no zone. -/
theorem localAccusation_empty (z : Zone) : localAccusation Lft.empty z = none := by
  have none_claims : Lft.empty.slots.filterMap (Slot.claim z) = [] :=
    List.filterMap_eq_nil_iff.mpr fun sl h => by rw [Lft.empty_slots h]; rfl
  rw [localAccusation, none_claims, strongest]

/-- R67: with no derivation none accuses. -/
theorem derivedClaims_empty (self : Station) (z : Zone) : derivedClaims Derived.empty self z = [] := by
  have unmarked : ownerMarked (Vector.ofFn fun _ => false) z = false := by
    unfold ownerMarked; split
    · exact getElem_ofFn_fin _ _
    · rfl
  simp [derivedClaims, derivations, unmarked, Derived.empty]

theorem ownClaim_initial {s : State} (l : s.lft = Lft.empty) (d : s.ziu.derived = Derived.empty) (z : Zone) : ownClaim s z = none := by
  rw [ownClaim, l, d, localAccusation_empty, derivedClaims_empty]; rfl

/-- R70: peers of which nothing is known accuse no zone. -/
theorem accusersOf_absent {s : State} (h : ∀ p : Station, (s.pv.peers[p]).presence = .absent) (z : Zone) : accusersOf s none z = [] := by
  have silent (p : Station) : (s.pv.peers[p]).claim z = none := by simp [PeerRecord.claim, h p, -Fin.getElem_fin]
  simp [accusersOf, silent, -Fin.getElem_fin]

theorem disputedBy_nil (s : State) (z : Zone) : disputedBy s z [] = none := by
  unfold disputedBy rawConfirming
  split
  · next h => cases h
  · rfl

/-! ### The invariants -/

theorem BlocksInitial.presence {s : State} (h : BlocksInitial s) (p : Station) : (s.pv.peers[p]).presence = .absent := by
  rw [h.pv, PeerView.initial_peers]; rfl

theorem BlocksInitial.zone {s : State} (h : BlocksInitial s) (z : Zone) : s.ziu.zones[z] = ZoneRecord.initial := by
  rw [h.ziu, Ziu.initial_zones]

theorem BlocksInitial.faultTable {s : State} (h : BlocksInitial s) : FaultTableConsistent s where
  input n x e := by rw [h.lft, Lft.empty_inputs] at e; cases e
  qualify n := by simp [h.lft, Slot.empty, -Fin.getElem_fin]
  heal n := by simp [h.lft, Slot.empty, -Fin.getElem_fin]
  declared d x e := by rw [h.lft, Lft.empty_declared] at e; cases e
  declaredQualify d := by simp [h.lft, Slot.empty, -Fin.getElem_fin]
  declaredHeal d := by simp [h.lft, Slot.empty, -Fin.getElem_fin]
  distinct d _ x _ e := by rw [h.lft, Lft.empty_declared] at e; cases e

theorem BlocksInitial.bus {s : State} (h : BlocksInitial s) (started : s.ctl.started = false) : BusConsistent s where
  helloOrLeave := by simp [h.sbc, Sbc.initial]
  onBus := by simp [h.sbc, Sbc.initial]
  leaving := by simp [h.sbc, Sbc.initial]
  inFlight f e := by rw [h.sbc] at e; cases e
  renewal := by simp [h.sbc, Sbc.initial]
  mute := by simp [h.sbc, Sbc.initial]
  bitFaults := by simp [h.sbc, h.ziu, Sbc.initial, Ziu.initial, Derived.empty]
  duplicate := by rw [h.sbc, h.ziu]; rfl
  receiver := by rw [h.sbc, started]; rfl
  transmitter := by simp [h.mode]
  started := by simp [h.mode, started]

theorem BlocksInitial.peerTable {s : State} (h : BlocksInitial s) : PeerTableConsistent s where
  silence p := by simp [h.pv, PeerRecord.absent, -Fin.getElem_fin]
  leave p := by simp [h.pv, PeerRecord.absent, -Fin.getElem_fin]
  list p := by simp [h.pv, PeerRecord.absent, -Fin.getElem_fin]
  listBound p := by simp [h.pv, PeerRecord.absent, -Fin.getElem_fin]
  status p := by simp [h.pv, PeerRecord.absent, -Fin.getElem_fin]
  own := by rw [h.pv, PeerView.initial_peers]
  lost p := by simp [h.pv, h.ziu, PeerRecord.absent, Ziu.initial, -Fin.getElem_fin]
  deaf := by simp [h.pv, h.ziu, PeerRecord.absent, Ziu.initial, Derived.empty, -Fin.getElem_fin]
  join := by simp [h.pv, h.mode, PeerView.initial]
  awaited m := by rw [h.mode] at m; cases m

/-- R94: a zone record of power-on reset agrees with its state. -/
theorem ZoneRecord.initial_consistent (z : Zone) : ZoneConsistent z ZoneRecord.initial := by
  constructor <;> simp [ZoneRecord.initial]

theorem BlocksInitial.zoneTable {s : State} (h : BlocksInitial s) : ZoneTableConsistent s := fun z => by
  rw [h.zone z]; exact ZoneRecord.initial_consistent z

/-- R68, R70, R81: where nothing is known and nothing accused, every zone is CLEAR without support. -/
theorem supportCurrent_unaccused {s : State} (l : s.lft = Lft.empty) (p : ∀ p : Station, (s.pv.peers[p]).presence = .absent)
    (d : s.ziu.derived = Derived.empty) (own : ∀ z : Zone, (s.ziu.zones[z]).own = none)
    (accusers : ∀ z : Zone, (s.ziu.zones[z]).accusers = []) (dispute : ∀ z : Zone, (s.ziu.zones[z]).dispute = .none)
    (state : ∀ z : Zone, (s.ziu.zones[z]).state = .clear ∨ (s.ziu.zones[z]).state.isIsolated = true) : SupportCurrent s where
  own z := by rw [own, ownClaim_initial l d]
  accusers z := by rw [accusers, ownClaim_initial l d, accusersOf_absent p]; rfl
  dispute z := by rw [ownClaim_initial l d, accusersOf_absent p, disputedBy_nil]; exact dispute z
  implausible a := by simp [d, dispute, -Fin.getElem_fin]
  state z := by
    rw [accusers]
    rcases state z with k | k
    · rw [k]; rfl
    · revert k; cases (s.ziu.zones[z]).state <;> simp [ZoneState.isIsolated]

theorem BlocksInitial.support {s : State} (h : BlocksInitial s) : SupportCurrent s :=
  supportCurrent_unaccused h.lft h.presence (by rw [h.ziu]; rfl) (fun z => by rw [h.zone]; rfl) (fun z => by rw [h.zone]; rfl)
    (fun z => by rw [h.zone]; rfl) (fun z => by rw [h.zone]; exact .inl rfl)

/-! ### Levels and caps -/

@[simp] theorem baseCap_stop (c : Store) : baseCap c 5 = 0 := dif_neg (by decide)

@[simp] theorem speedCapOf_stop (c : Store) : speedCapOf c 5 = 0 := dif_neg (by decide)

theorem foldbackOf_zero (slo shi : Nat) : foldbackOf slo shi 0 = 1000 := if_pos (Nat.zero_le _)

/-- R106, R107: outside RUNNING the station stops. -/
theorem DriveCurrent.stopped {s : State} (h : DriveCurrent s) (m : s.ctl.mode ≠ .running) : s.lvl.lapp = 5 := by
  have floor : modeFloor s.ctl.mode = 5 := if_neg m
  have top : ∀ a b : Level, max a (max 5 b) = 5 := by decide
  rw [h.lapp, floor, top]

/-- R106, R107, R138: so does one whose trip latch is set. -/
theorem DriveCurrent.tripped {s : State} (h : DriveCurrent s) (t : s.out.tripLatch = true) : s.lvl.lapp = 5 := by
  have floor : tripFloor s.out.tripLatch = 5 := by rw [t]; rfl
  have top : ∀ a b : Level, max a (max b 5) = 5 := by decide
  rw [h.lapp, floor, top]

/-- R110, R119, R130: what L5 means for caps, regeneration and GEN. -/
theorem DriveCurrent.atStop {s : State} (h : DriveCurrent s) (l : s.lvl.lapp = 5) :
    s.lvl.speedCap = 0 ∧ s.lvl.regen = false ∧ s.perm.target = 0 ∧ s.out.gen = false := by
  refine ⟨by rw [h.speedCap, l, speedCapOf_stop], ?_, by rw [h.target, l, baseCap_stop]; simp, ?_⟩
  · rw [Bool.eq_false_iff, Ne, h.regen, l]; exact fun k => absurd k.1 (by decide)
  · rw [Bool.eq_false_iff, Ne, h.gen, l]; exact fun k => absurd k.1 (by decide)

/-- R100, R102: with every zone CLEAR, Lown is the host floor. -/
theorem DriveCurrent.lown_clear {s : State} (h : DriveCurrent s) (clear : ∀ z : Zone, (s.ziu.zones[z]).state = .clear) :
    s.lvl.lown = s.lvl.floor := by
  obtain ⟨above, -, same | ⟨z, e⟩⟩ := h.lown
  · exact same
  · rw [clear z] at e
    rw [e] at above ⊢
    exact (le_antisymm above (Fin.zero_le _)).symm

/-- R104: with no peer PRESENT there is none to follow. -/
theorem DriveCurrent.follow_absent {s : State} (h : DriveCurrent s) (absent : ∀ p : Station, (s.pv.peers[p]).presence ≠ .present) :
    s.lvl.follow = 0 := by
  rcases h.follow.2 with k | ⟨p, k, -⟩
  · exact k
  · have : (s.pv.peers[p]).announced.presence ≠ .present := absent p
    simp [follows, view_peers, this, -Fin.getElem_fin] at k

/-- R112, R119: the levels of a station that knows of nothing and does not run are those of power-on reset. -/
theorem DriveCurrent.levels_initial {s : State} (h : DriveCurrent s) (m : s.ctl.mode ≠ .running)
    (clear : ∀ z : Zone, (s.ziu.zones[z]).state = .clear) (absent : ∀ p : Station, (s.pv.peers[p]).presence ≠ .present)
    (floor : s.lvl.floor = 0) : s.lvl = Levels.initial := by
  have lapp := h.stopped m
  obtain ⟨speed, regen, -, -⟩ := h.atStop lapp
  have lown := h.lown_clear clear
  have follow := h.follow_absent absent
  rw [floor] at lown
  generalize s.lvl = l at *
  cases l
  simp_all [Levels.initial]

/-- R102, R107, R110, R119: the power-on values agree with each other, whatever the store. -/
theorem driveCurrent_unstarted {s : State} (h : BlocksInitial s) (gen : s.out.gen = false)
    (lamp : s.ctl.held = false → s.out.lamp = .steady) : DriveCurrent s where
  lown := by
    refine ⟨by rw [h.lvl]; decide, fun z => ?_, .inl (by rw [h.lvl]; rfl)⟩
    rw [h.zone]; exact Fin.zero_le _
  follow := by
    have none : ∀ p : Station, follows s.cfg s.ctl.station (View.of s) p ≠ true := fun p => by
      have : (s.pv.peers[p]).announced.presence = .absent := h.presence p
      simp [follows, view_peers, this, -Fin.getElem_fin]
    exact ⟨fun p k => absurd k (none p), .inl (by rw [h.lvl]; rfl)⟩
  lapp := by
    have top : ∀ b : Level, 5 = max (max 0 0) (max 5 b) := by decide
    rw [h.lvl, h.mode]; exact top _
  speedCap := by rw [h.lvl]; exact (speedCapOf_stop _).symm
  regen := by rw [h.lvl]; exact ⟨fun k => (by cases k), fun k => absurd k.1 (by decide)⟩
  foldback := by rw [h.perm]; exact (foldbackOf_zero _ _).symm
  target := by rw [h.lvl, h.perm]; simp [Levels.initial, Permission.initial]
  gen := by rw [gen, h.lvl]; exact ⟨fun k => (by cases k), fun k => absurd k.1 (by decide)⟩
  lamp k := by rw [h.lvl, lamp k]; rfl

/-! ### An event in UNCONFIGURED -/

/-- Two views that differ in the trip latch at most differ in one input. -/
theorem changes_trip (v w : View) (h : w = { v with trip := w.trip }) : (View.changes v w).length ≤ 1 := by
  rw [h]
  simp only [View.changes, View.take, List.filter_cons, bne_self_eq_false, Bool.false_eq_true, if_false, List.filter_nil]
  split <;> simp

theorem settle_unstarted {b u : State} (hb : BlocksInitial b) (hu : BlocksInitial u) : BlocksInitial (settle b u) := by
  have follows := settle_follows b u
  have tables : settleTables u = u := settleTables_idle hu.peerTable hu.support hu.zoneTable hu.quorum
  have ctl : (settle b u).ctl = u.ctl := by rw [settle_ctl, checkJoin_awaited hu.peerTable]
  have pv : (settle b u).pv = u.pv := by rw [settle_pv, checkJoin_awaited hu.peerTable]
  have ziu : (settle b u).ziu = u.ziu := by rw [settle_ziu, tables]
  have mode : (settle b u).ctl.mode = .unconfigured := by rw [ctl, hu.mode]
  have clear (z : Zone) : ((settle b u).ziu.zones[z]).state = .clear := by rw [ziu, hu.zone]; rfl
  have absent (p : Station) : ((settle b u).pv.peers[p]).presence ≠ .present := by rw [pv, hu.presence]; decide
  have lvl : (settle b u).lvl = Levels.initial := follows.drive.levels_initial (by rw [mode]; decide) clear absent
    (by rw [settle_floor, hu.lvl]; rfl)
  have once : (View.changes (View.of b) (View.of (settle b u))).length ≤ 1 := changes_trip _ _ (by
    simp only [View.of, pv, ziu, hb.pv, hb.ziu, hu.pv, hu.ziu, mode, hb.mode, lvl, hb.lvl, settle_stress, hb.perm, hu.perm])
  have caps := (settle_capMoves b u once).rise
  have target := (follows.drive.atStop (follows.drive.stopped (by rw [mode]; decide))).2.2.1
  have zero : u.perm.target = 0 ∧ u.perm.output = 0 ∧ u.perm.dwell = none := by rw [hu.perm]; exact ⟨rfl, rfl, rfl⟩
  obtain ⟨dwell, output⟩ := caps (by rw [zero.1, target])
  refine ⟨mode, by rw [settle_lft, hu.lft], ?_, by rw [pv, hu.pv], by rw [ziu, hu.ziu], lvl, ?_, ?_, by rw [settle_cfg]; exact hu.quorum⟩
  · rw [follows.quiet (.inr (by rw [mode]; decide)), hu.sbc]
  · have stress : (settle b u).perm.stress = 0 := by rw [settle_stress, hu.perm]; rfl
    have timer : (settle b u).perm.stressTimer = none := by rw [settle_stressTimer, hu.perm]; rfl
    have foldback : (settle b u).perm.foldback = 1000 := by
      rw [follows.drive.foldback, stress]; exact foldbackOf_zero _ _
    have output : (settle b u).perm.output = 0 := by rw [output, zero.2.1, ite_self]
    rw [zero.2.2] at dwell
    generalize (settle b u).perm = p at *
    cases p
    simp_all [Permission.initial]
  · have k := follows.contactor
    rw [if_neg (fun c => by rw [hu.contactor] at c; cases c.1)] at k
    rw [k.1, hu.contactor]

end Sys2Proof.Machine
end

section
/-! What every step keeps: the blocks idle until START and the configuration in range; the state after power-on reset. -/

namespace Sys2Proof.Machine

/-! ### The mode and the store through a change -/

/-- R157: the one change that moves the store and the started flag is START. -/
theorem change_ctl {s u : State} (c : Change s u) :
    (u.cfg = s.cfg ∧ u.ctl = { s.ctl with mode := u.ctl.mode } ∧ (s.ctl.mode = .unconfigured ↔ u.ctl.mode = .unconfigured))
      ∨ (s.ctl.mode = .unconfigured ∧ s.ctl.held = false ∧ u = watchInputs (startReady s)) := by
  have same {v : State} (cfg : v.cfg = s.cfg) (ctl : v.ctl = s.ctl) :
      v.cfg = s.cfg ∧ v.ctl = { s.ctl with mode := v.ctl.mode } ∧ (s.ctl.mode = .unconfigured ↔ v.ctl.mode = .unconfigured) :=
    ⟨cfg, by rw [ctl], by rw [ctl]⟩
  cases c with
  | start h m => exact .inr ⟨m, h, rfl⟩
  | assertion n => exact .inl (same ((takeTrip_work n _).cfg.trans (takeAssertion_work n _).cfg)
      ((takeTrip_work n _).ctl.trans (takeAssertion_work n _).ctl))
  | inputRelease n => exact .inl (same (takeRelease_work n _).cfg (takeRelease_work n _).ctl)
  | completes h f => exact .inl (same (completeFrame_work f.kind s).cfg (completeFrame_work f.kind s).ctl)
  | hello p => exact .inl (same (raiseIf_note _ .notice s).cfg (raiseIf_note _ .notice s).ctl)
  | depart m => exact .inl ⟨rfl, rfl, by rcases m with m | m <;> simp [m]⟩
  | rejoin m => exact .inl ⟨rfl, rfl, by simp [m, enterJoining]⟩
  | deadline h q m => exact .inl ⟨rfl, rfl, by simp [m, endJoin]⟩
  | _ => exact .inl (same rfl rfl)

/-- R152: within an event the station leaves UNCONFIGURED at START alone, and enters it never. -/
theorem settle_unconfigured (b u : State) : (settle b u).ctl.mode = .unconfigured ↔ u.ctl.mode = .unconfigured := by
  rcases settle_mode b u with e | ⟨j, r, -⟩
  · rw [e]
  · rw [j, r]; decide

theorem watch_startReady_ctl (s : State) :
    (watchInputs (startReady s)).ctl = { s.ctl with started := true, mode := .joining } := by
  rw [(watchInputs_work _).ctl, startReady_ctl]

theorem watch_startReady_cfg (s : State) : (watchInputs (startReady s)).cfg = Store.corrected s.cfg := by
  rw [(watchInputs_work _).cfg, startReady_cfg]

/-- Through UNCONFIGURED a change but START leaves the blocks as power-on reset left them. -/
theorem change_unconfigured {s u : State} (h : BlocksInitial s) (c : Change s u) (o : u.ctl.mode = .unconfigured) :
    BlocksInitial u := by
  have off : s.sbc.receiverOn = false := by rw [h.sbc]; rfl
  have quiet : s.sbc.inFlight = none ∧ s.sbc.mute = none := by rw [h.sbc]; exact ⟨rfl, rfl⟩
  have slot (n : Input) : s.lft.inputs[n] = Slot.empty := by rw [h.lft, Lft.empty_inputs]
  have declared (d : DeclSlot) : s.lft.declared[d] = Slot.empty := by rw [h.lft, Lft.empty_declared]
  have peer (p : Station) : s.pv.peers[p] = PeerRecord.absent false := by rw [h.pv, PeerView.initial_peers]
  have notStart : u ≠ watchInputs (startReady s) := by
    intro e
    rw [e, watch_startReady_ctl] at o; cases o
  cases c with
  | assertion n =>
    have idle : takeAssertion n (setLine n true s) = setLine n true s := if_neg fun k => k.1 h.mode
    rw [idle]
    have work := takeTrip_work n (setLine n true s)
    have perm : (takeTrip n (setLine n true s)).perm = Permission.initial := by
      unfold takeTrip
      split
      · rcases setTrip_cases (setLine n true s) with ⟨-, e⟩ | ⟨-, -, e, -⟩
        · rw [e]; exact h.perm
        · rw [(setTrip_work _).perm, e]
          have : (setLine n true s).perm = Permission.initial := h.perm
          rw [this]; rfl
      · exact h.perm
    refine ⟨by rw [work.ctl]; exact h.mode, by rw [work.lft]; exact h.lft, by rw [work.sbc]; exact h.sbc, by rw [work.pv]; exact h.pv,
      by rw [work.ziu]; exact h.ziu, by rw [work.lvl]; exact h.lvl, perm, by rw [work.out]; exact h.contactor,
      by rw [work.cfg]; exact h.quorum⟩
  | inputRelease n =>
    have idle : takeRelease n (setLine n false s) = setLine n false s := if_neg fun k => k.1 h.mode
    rw [idle]
    exact ⟨h.mode, h.lft, h.sbc, h.pv, h.ziu, h.lvl, h.perm, h.contactor, h.quorum⟩
  | tripClear => exact ⟨h.mode, h.lft, h.sbc, h.pv, h.ziu, h.lvl, h.perm, h.contactor, h.quorum⟩
  | qualify n _ q => rw [slot] at q; cases q
  | heal n _ q => rw [slot] at q; cases q
  | declaredHeal d _ q => rw [declared] at q; cases q
  | redeclare _ _ _ m | place _ _ _ _ m | withdraw _ _ m | clearInput _ _ m | clearDeclared _ m | clearAll m | floor _ m
  | stress _ m | release _ m => exact absurd h.mode m
  | depart m => rw [h.mode] at m; rcases m with m | m <;> cases m
  | rejoin m | deadline _ _ m => rw [h.mode] at m; cases m
  | start => exact absurd rfl notStart
  | stressExpiry _ q => rw [h.perm] at q; cases q
  | muteExpiry _ q => rw [quiet.2] at q; cases q
  | bitFault _ _ _ f i | completes _ f i => rw [quiet.1] at i; cases i
  | hello _ _ _ _ on | status _ _ _ _ _ _ on | leave _ _ on | duplicate _ on => rw [off] at on; cases on
  | silence p _ q | leaveExpiry p _ q => rw [peer] at q; cases q
  | delayExpiry z _ q | disputeExpiry z _ q => rw [h.zone] at q; cases q

/-! ### The blocks idle until START -/

/-- A station that has left UNCONFIGURED is idle until START as long as it is started, awake and its quorum is kept. -/
theorem idleUntilStart_of_started {s : State} (m : s.ctl.mode ≠ .unconfigured) (started : s.ctl.started = true)
    (held : s.ctl.held = false) (quorum : 1 ≤ s.cfg.quorum) : IdleUntilStart s where
  started := by simp [started, m]
  held k := by rw [held] at k; cases k
  lft k := absurd k m
  sbc k := absurd k m
  pv k := absurd k m
  ziu k := absurd k m
  lvl k := absurd k m
  perm k := absurd k m
  contactor k := absurd k m
  quorum := quorum

theorem IdleUntilStart.awake {s : State} (h : IdleUntilStart s) (m : s.ctl.mode ≠ .unconfigured) :
    s.ctl.started = true ∧ s.ctl.held = false :=
  ⟨Bool.eq_true_of_not_eq_false fun k => m (h.started.mp k), Bool.eq_false_of_not_eq_true fun k => m (h.held k)⟩

theorem IdleUntilStart.unstarted {s : State} (h : IdleUntilStart s) (k : s.ctl.started = false) : BlocksInitial s :=
  h.blocks (h.started.mp k)

/-- Blocks and mode decide it: an update of anything else keeps it. -/
theorem IdleUntilStart.of_blocks {s t : State} (h : IdleUntilStart s) (mode : t.ctl.mode = s.ctl.mode) (started : t.ctl.started = s.ctl.started)
    (held : t.ctl.held = s.ctl.held) (quorum : 1 ≤ t.cfg.quorum)
    (blocks : BlocksInitial s → t.lft = s.lft ∧ t.sbc = s.sbc ∧ t.pv = s.pv ∧ t.ziu = s.ziu ∧ t.lvl = s.lvl ∧ t.perm = s.perm
      ∧ t.out.contactor = s.out.contactor) : IdleUntilStart t := by
  by_cases m : s.ctl.mode = .unconfigured
  · have b := h.blocks m
    obtain ⟨lft, sbc, pv, ziu, lvl, perm, contactor⟩ := blocks b
    exact BlocksInitial.idleUntilStart ⟨mode.trans m, lft.trans b.lft, sbc.trans b.sbc, pv.trans b.pv, ziu.trans b.ziu,
      lvl.trans b.lvl, perm.trans b.perm, contactor.trans b.contactor, quorum⟩ (started.trans (h.started.mpr m))
  · obtain ⟨s', l'⟩ := h.awake m
    exact idleUntilStart_of_started (by rw [mode]; exact m) (started.trans s') (held.trans l') quorum

theorem change_idle {s u : State} (h : IdleUntilStart s) (c : Change s u) : IdleUntilStart (settle s u) := by
  rcases change_ctl c with ⟨cfg, ctl, mode⟩ | ⟨m, l, e⟩
  · have started : (settle s u).ctl.started = s.ctl.started := by rw [settle_started, ctl]
    have quorum : 1 ≤ (settle s u).cfg.quorum := by rw [settle_cfg, cfg]; exact h.quorum
    by_cases m : s.ctl.mode = .unconfigured
    · have b := h.blocks m
      exact (settle_unstarted b (change_unconfigured b c (mode.mp m))).idleUntilStart (started.trans (h.started.mpr m))
    · obtain ⟨s', l'⟩ := h.awake m
      refine idleUntilStart_of_started ?_ (started.trans s') (by rw [settle_held, ctl]; exact l') quorum
      rw [Ne, settle_unconfigured, ← mode]; exact m
  · rw [e]
    refine idleUntilStart_of_started ?_ ?_ ?_ ?_
    · rw [Ne, settle_unconfigured, watch_startReady_ctl]; nofun
    · rw [settle_started, watch_startReady_ctl]
    · rw [settle_held, watch_startReady_ctl]; exact l
    · rw [settle_cfg, watch_startReady_cfg]; exact h.quorum

/-- R95: with nothing known before it, a host reset finds the zones as power-on reset left them. -/
theorem resetDone_unstarted {s : State} (h : BlocksInitial s) (started : s.ctl.started = false) : BlocksInitial (resetDone s) where
  mode := by rw [resetDone_ctl, started]; rfl
  lft := resetDone_lft s
  sbc := resetDone_sbc s
  pv := by
    have : (Vector.ofFn fun p : Station => PeerRecord.absent (s.pv.peers[p]).expected) = PeerView.initial.peers := by
      simp only [h.pv, PeerView.initial_peers]; rfl
    rw [resetDone_pv, this]; rfl
  ziu := by
    have : (Vector.ofFn fun z : Zone => resetZone s.cfg s.ziu.zones[z]) = Ziu.initial.zones := by
      simp only [h.zone]; rfl
    rw [resetDone_ziu, this]; rfl
  lvl := by
    have clear (z : Zone) : ((resetBlocks s).ziu.zones[z]).state = .clear := by
      have : (resetBlocks s).ziu.zones[z] = resetZone s.cfg s.ziu.zones[z] := getElem_ofFn_fin _ z
      rw [this, h.zone]; rfl
    have lown : ownCauseLevel s.cfg s.ctl.station { View.of (resetBlocks s) with floor := 0 } = 0 := by
      rcases (ownCauseLevel_spec s.cfg s.ctl.station { View.of (resetBlocks s) with floor := 0 }).2.2 with e | ⟨z, e⟩
      · exact e
      · have k : (View.of (resetBlocks s)).zones[z] = .clear := (view_zones _ z).trans (clear z)
        rw [e]; simp only [k]; rfl
    rw [resetDone_lvl]
    show { Levels.initial with lown := ownCauseLevel s.cfg s.ctl.station { View.of (resetBlocks s) with floor := 0 } } = _
    rw [lown]; rfl
  perm := resetDone_perm s
  contactor := by rw [resetDone_out]; exact h.contactor
  quorum := by rw [resetDone_cfg]; exact h.quorum

theorem powerOn_blocksInitial (station : Station) (role : Role) (lines : Vector Bool 8) (pending : List Instr) (choices : Nat) :
    BlocksInitial (State.powerOn station role lines pending choices) :=
  ⟨rfl, rfl, rfl, rfl, rfl, rfl, rfl, rfl, Nat.one_le_ofNat⟩

theorem hostReset_idle {s : State} (h : IdleUntilStart s) (l : s.ctl.held = false) : IdleUntilStart (hostResetState s) := by
  refine hostReset_keeps (fun u f k => k.of_blocks rfl rfl rfl k.quorum fun _ => ⟨rfl, rfl, rfl, rfl, rfl, rfl, rfl⟩) s
    (fun k => (resetDone_unstarted (h.unstarted k) k).idleUntilStart (by rw [resetDone_started, k])) fun k => ?_
  have ctl : (watchInputs (resetReady (resetDone s))).ctl = { s.ctl with mode := .joining } := by
    rw [(watchInputs_work _).ctl, resetReady_ctl, resetDone_ctl]
  refine idleUntilStart_of_started ?_ ?_ ?_ ?_
  · rw [Ne, settle_unconfigured, ctl]; nofun
  · rw [settle_started, ctl]; exact k
  · rw [settle_held, ctl]; exact l
  · rw [settle_cfg, (watchInputs_work _).cfg, resetReady_cfg, resetDone_cfg]; exact h.quorum

theorem elapse_unstarted {s : State} (h : BlocksInitial s) : (elapse s).lft = s.lft ∧ (elapse s).sbc = s.sbc ∧ (elapse s).pv = s.pv
    ∧ (elapse s).ziu = s.ziu ∧ (elapse s).lvl = s.lvl ∧ (elapse s).perm = s.perm ∧ (elapse s).out.contactor = s.out.contactor := by
  refine ⟨?_, ?_, ?_, ?_, rfl, ?_, rfl⟩
  · simp only [elapse, h.lft, Lft.empty_inputs, Lft.empty_declared]; rfl
  · simp only [elapse, h.sbc]; rfl
  · simp only [elapse, h.pv, PeerView.initial_peers]; rfl
  · simp only [elapse, h.ziu, Ziu.initial_zones]; rfl
  · simp only [elapse, h.perm]; rfl

theorem setTiming_quorum (c : Store) (item : Fin 16) (v : Nat) : (Store.setTiming c item v).quorum = c.quorum := by
  unfold Store.setTiming; split <;> rfl

theorem effect_idle {s t : State} (h : IdleUntilStart s) (e : Effect s t) : IdleUntilStart t := by
  have keep {v : State} (mode : v.ctl = s.ctl) (cfg : v.cfg = s.cfg)
      (blocks : BlocksInitial s → v.lft = s.lft ∧ v.sbc = s.sbc ∧ v.pv = s.pv ∧ v.ziu = s.ziu ∧ v.lvl = s.lvl ∧ v.perm = s.perm
        ∧ v.out.contactor = s.out.contactor) : IdleUntilStart v :=
    h.of_blocks (by rw [mode]) (by rw [mode]) (by rw [mode]) (by rw [cfg]; exact h.quorum) blocks
  have load {v : State} (ctl : v.ctl = s.ctl) (quorum : 1 ≤ v.cfg.quorum) (rest : v = { s with cfg := v.cfg }) : IdleUntilStart v :=
    h.of_blocks (by rw [ctl]) (by rw [ctl]) (by rw [ctl]) quorum fun _ => by rw [rest]; exact ⟨rfl, rfl, rfl, rfl, rfl, rfl, rfl⟩
  cases e with
  | none => exact h
  | settled u c => exact change_idle h c
  | hostReset l => exact hostReset_idle h l
  | hostResetPin l => exact (hostReset_idle h l).of_blocks rfl rfl rfl (hostReset_idle h l).quorum fun _ => ⟨rfl, rfl, rfl, rfl, rfl, rfl, rfl⟩
  | powerOn =>
    have b := powerOn_blocksInitial s.ctl.station s.ctl.role s.pins.faultLines s.pending s.choices
    exact BlocksInitial.idleUntilStart ⟨b.mode, b.lft, b.sbc, b.pv, b.ziu, b.lvl, b.perm, rfl, b.quorum⟩ rfl
  | powerUp straps => exact (powerOn_blocksInitial _ _ _ _ _).idleUntilStart rfl
  | setTiming item value => exact load rfl (by rw [setTiming_quorum]; exact h.quorum) rfl
  | setZone | setInput | setLevels => exact load rfl h.quorum rfl
  | setPeers => exact load rfl (by simp only [clampTo]; omega) rfl
  | frameStart f l e =>
    refine keep rfl rfl fun b => ?_
    rw [startingFrame, b.sbc, if_neg (fun k => by cases k.1)] at e; cases e
  | lost f k level i => exact keep rfl rfl fun b => by rw [b.sbc] at i; cases i
  | statusTimer l q =>
    refine keep (requestStatus_work _).ctl (requestStatus_work _).cfg fun b => ?_
    rw [b.sbc] at q; cases q
  | spacing => exact keep rfl rfl fun b => ⟨rfl, by simp only [b.sbc]; rfl, rfl, rfl, rfl, rfl, rfl⟩
  | clean z l q => exact keep rfl rfl fun b => by rw [b.zone] at q; cases q
  | dwell => exact keep rfl rfl fun b => ⟨rfl, rfl, rfl, rfl, rfl, by simp only [b.perm]; rfl, rfl⟩
  | ramp l r =>
    have work := setOutput_linesOnly (min s.perm.target (s.perm.output + s.cfg.rampStep)) s
    refine keep work.ctl work.cfg fun b => ?_
    simp [rampReady, b.perm, Permission.initial] at r
  | closeContactor f m => exact keep rfl rfl fun b => by rw [b.mode] at m; cases m
  | openContactor f =>
    have work := startDrop_note s
    refine keep work.ctl work.cfg fun b => ⟨work.lft, work.sbc, work.pv, work.ziu, work.lvl, work.perm, ?_⟩
    rcases startDrop_linesOnly_or s with e | ⟨k, -⟩
    · rw [e]
    · rw [b.contactor] at k; cases k
  | contactorDelay => exact keep rfl rfl fun b => ⟨rfl, rfl, rfl, rfl, rfl, rfl, b.contactor.symm⟩
  | rstLow | line | rstHigh | rearm | pwm | flags | enable => exact keep rfl rfl fun _ => ⟨rfl, rfl, rfl, rfl, rfl, rfl, rfl⟩

theorem idle_reply {u : State} (k : IdleUntilStart u) (r : Option (List Byte)) : IdleUntilStart { u with port.reply := r } :=
  k.of_blocks rfl rfl rfl k.quorum fun _ => ⟨rfl, rfl, rfl, rfl, rfl, rfl, rfl⟩

theorem idle_line {u : State} (k : IdleUntilStart u) (on : u.sbc.receiverOn = true) (l : Line) :
    IdleUntilStart { u with sbc.line := l } :=
  k.of_blocks rfl rfl rfl k.quorum fun b => by rw [b.sbc] at on; cases on

theorem idle_queue {u : State} (k : IdleUntilStart u) (q d : List Instr) (n : Nat) :
    IdleUntilStart { u with pending := q, due := d, choices := n } :=
  k.of_blocks rfl rfl rfl k.quorum fun _ => ⟨rfl, rfl, rfl, rfl, rfl, rfl, rfl⟩

theorem idle_elapse {u : State} (k : IdleUntilStart u) : IdleUntilStart (elapse u) :=
  k.of_blocks rfl rfl rfl k.quorum elapse_unstarted

/-- Settles O7: in UNCONFIGURED the blocks have nothing to act on, and START alone leaves it. -/
theorem stepsKeepBlocksIdleUntilStart : Obligations.StepsKeepBlocksIdleUntilStart := fun _ _ h step =>
  step_keeps (P := IdleUntilStart) (fun _ r k => idle_reply k r) (fun _ l on k => idle_line k on l)
    (fun _ q d n k => idle_queue k q d n) (fun _ _ k => idle_elapse k) (fun _ _ => effect_idle) h step

end Sys2Proof.Machine
end

section
/-! The configuration in range (R154 to R158). -/

namespace Sys2Proof.Machine

/-- R155: every item in its range, whatever the station's mode. -/
structure ItemsInRange (c : Store) : Prop where
  statusPeriod : 20 ≤ c.statusPeriod ∧ c.statusPeriod ≤ 200 ∧ c.statusPeriod % 10 = 0
  silenceTimeout : 100 ≤ c.silenceTimeout ∧ c.silenceTimeout ≤ 2000
  leaveGrace : 100 ≤ c.leaveGrace ∧ c.leaveGrace ≤ 2000
  joinDeadline : 200 ≤ c.joinDeadline ∧ c.joinDeadline ≤ 5000
  escalation : c.escalation = 0 ∨ (2 ≤ c.escalation ∧ c.escalation ≤ 15)
  declaredHeal : c.declaredHeal ≤ 5000
  disputeWindow : 200 ≤ c.disputeWindow ∧ c.disputeWindow ≤ 5000
  cleanInterval : 5 ≤ c.cleanInterval ∧ c.cleanInterval ≤ 600
  thresholds : c.slo ≤ 255 ∧ c.shi ≤ 255
  rampStep : 1 ≤ c.rampStep ∧ c.rampStep ≤ 1000
  dwell : c.dwell ≤ 10000
  stressTimeout : c.stressTimeout = 0 ∨ (100 ≤ c.stressTimeout ∧ c.stressTimeout ≤ 5000)
  rearmTime : 20 ≤ c.rearmTime ∧ c.rearmTime ≤ 1000
  contactorDelay : 20 ≤ c.contactorDelay ∧ c.contactorDelay ≤ 500
  delays : ∀ z : Zone, (c.zones[z]).delay ≤ 5000
  inputs : ∀ n : Input, (c.inputs[n]).qualify ≤ 255 ∧ (c.inputs[n]).heal ≤ 2550 ∧ (c.inputs[n]).heal % 10 = 0
    ∧ (c.inputs[n]).cls.code ≤ 6
  caps : ∀ i : Fin 4, c.baseCaps[i] ≤ 1000 ∧ c.speedCaps[i] ≤ 500
  quorum : 1 ≤ c.quorum ∧ c.quorum ≤ 3

/-- R158: the relations in which the items of a started station stand. -/
structure ItemsInLine (c : Store) : Prop where
  ladder : ∀ i j : Fin 4, i ≤ j → c.baseCaps[j] ≤ c.baseCaps[i] ∧ c.speedCaps[j] ≤ c.speedCaps[i]
  levels : ∀ z : Zone, (c.zones[z]).suspectLevel ≤ (c.zones[z]).confirmedLevel
    ∧ (c.zones[z]).confirmedLevel ≤ (c.zones[z]).isolatedLevel
  band : c.slo < c.shi
  silence : 2 * c.statusPeriod ≤ c.silenceTimeout

theorem configInRange_iff (s : State) : ConfigInRange s ↔ ItemsInRange s.cfg ∧ (s.ctl.started = true → ItemsInLine s.cfg) := by
  constructor
  · rintro ⟨a, b, c, d, e, f, g, h, i, j, k, l, m, n, o, p, q, r, ladder, levels, band, silence⟩
    exact ⟨⟨a, b, c, d, e, f, g, h, i, j, k, l, m, n, o, p, q, r⟩,
      fun started => ⟨ladder started, levels started, band started, silence started⟩⟩
  · rintro ⟨⟨a, b, c, d, e, f, g, h, i, j, k, l, m, n, o, p, q, r⟩, line⟩
    exact ⟨a, b, c, d, e, f, g, h, i, j, k, l, m, n, o, p, q, r, fun k => (line k).ladder, fun k => (line k).levels,
      fun k => (line k).band, fun k => (line k).silence⟩

/-! ### The power-on defaults -/

theorem Store.initial_zone (station : Station) (role : Role) (z : Zone) : (Store.initial station role).zones[z] = ZoneConfig.initial z :=
  getElem_ofFn_fin _ z

theorem Store.initial_input (station : Station) (role : Role) (n : Input) :
    (Store.initial station role).inputs[n] = InputConfig.initial station := getElem_ofFn_fin _ n

theorem Store.initial_inRange (station : Station) (role : Role) : ItemsInRange (Store.initial station role) where
  delays z := by rw [Store.initial_zone]; revert z; decide
  inputs n := by rw [Store.initial_input]; simp [InputConfig.initial, FaultClass.code]
  caps i := by fin_cases i <;> simp [Store.initial]
  escalation := by simp [Store.initial]
  stressTimeout := by simp [Store.initial]
  statusPeriod := by simp [Store.initial]
  silenceTimeout := by simp [Store.initial]
  leaveGrace := by simp [Store.initial]
  joinDeadline := by simp [Store.initial]
  declaredHeal := by simp [Store.initial]
  disputeWindow := by simp [Store.initial]
  cleanInterval := by simp [Store.initial]
  thresholds := by simp [Store.initial]
  rampStep := by simp [Store.initial]
  dwell := by simp [Store.initial]
  rearmTime := by simp [Store.initial]
  contactorDelay := by simp [Store.initial]
  quorum := by simp [Store.initial]

/-! ### The configuration commands -/

theorem setTiming_inRange {c : Store} (h : ItemsInRange c) (item : Fin 16) (v : Nat) :
    ItemsInRange (Store.setTiming c item (timingValue item v)) := by
  have clamped (lo hi : Nat) (le : lo ≤ hi) : lo ≤ clampTo lo hi v ∧ clampTo lo hi v ≤ hi := by
    simp only [clampTo]; omega
  fin_cases item
  · exact { h with
    statusPeriod := by
      show 20 ≤ clampTo 20 200 v / 10 * 10 ∧ clampTo 20 200 v / 10 * 10 ≤ 200 ∧ clampTo 20 200 v / 10 * 10 % 10 = 0
      have := clamped 20 200 (by decide)
      omega }
  · exact { h with silenceTimeout := clamped 100 2000 (by decide) }
  · exact { h with leaveGrace := clamped 100 2000 (by decide) }
  · exact { h with joinDeadline := clamped 200 5000 (by decide) }
  · exact { h with
    escalation := by
      show (if v = 1 then 2 else min v 15) = 0 ∨ (2 ≤ (if v = 1 then 2 else min v 15) ∧ (if v = 1 then 2 else min v 15) ≤ 15)
      split <;> omega }
  · exact { h with declaredHeal := min_le_right _ _ }
  · exact { h with disputeWindow := clamped 200 5000 (by decide) }
  · exact { h with cleanInterval := clamped 5 600 (by decide) }
  · exact { h with thresholds := ⟨Nat.le_of_lt_succ (Nat.mod_lt v (by decide)), h.thresholds.2⟩ }
  · exact { h with thresholds := ⟨h.thresholds.1, Nat.le_of_lt_succ (Nat.mod_lt v (by decide))⟩ }
  · exact { h with rampStep := clamped 1 1000 (by decide) }
  · exact { h with dwell := min_le_right _ _ }
  · exact { h with
    stressTimeout := by
      show (if v = 0 then 0 else clampTo 100 5000 v) = 0
        ∨ (100 ≤ (if v = 0 then 0 else clampTo 100 5000 v) ∧ (if v = 0 then 0 else clampTo 100 5000 v) ≤ 5000)
      split
      · exact .inl rfl
      · exact .inr (clamped 100 5000 (by decide)) }
  · exact { h with rearmTime := clamped 20 1000 (by decide) }
  · exact { h with }
  · exact { h with contactorDelay := clamped 20 500 (by decide) }

theorem setZone_inRange {c : Store} (h : ItemsInRange c) (z : Zone) {k : ZoneConfig} (hk : k.delay ≤ 5000) :
    ItemsInRange { c with zones := c.zones.set z k } :=
  { h with
    delays := fun y => by
      rw [getElem_set_fin]; split
      · exact hk
      · exact h.delays y }

theorem setInput_inRange {c : Store} (h : ItemsInRange c) (n : Input) {k : InputConfig}
    (hk : k.qualify ≤ 255 ∧ k.heal ≤ 2550 ∧ k.heal % 10 = 0 ∧ k.cls.code ≤ 6) :
    ItemsInRange { c with inputs := c.inputs.set n k } :=
  { h with
    inputs := fun m => by
      rw [getElem_set_fin]; split
      · exact hk
      · exact h.inputs m }

/-- R156: what SET-INPUT loads. -/
theorem inputConfigArg_eq {flags qualify heal cls severity zone : Byte} {k : InputConfig}
    (h : inputConfigArg flags qualify heal cls severity zone = some k) :
    classArg cls = some k.cls ∧ k.qualify = qualify.toNat ∧ k.heal = 10 * heal.toNat := by
  unfold inputConfigArg at h
  split at h
  · next c v z hc _ _ => injection h with h; subst h; exact ⟨hc, rfl, rfl⟩
  · cases h

theorem inputConfigArg_inRange {flags qualify heal cls severity zone : Byte} {k : InputConfig}
    (h : inputConfigArg flags qualify heal cls severity zone = some k) :
    k.qualify ≤ 255 ∧ k.heal ≤ 2550 ∧ k.heal % 10 = 0 ∧ k.cls.code ≤ 6 := by
  obtain ⟨hc, hq, hh⟩ := inputConfigArg_eq h
  have := qualify.isLt; have := heal.isLt
  exact ⟨by omega, by omega, by omega, classArg_code hc⟩

theorem clampFour_getElem (bound : Nat) (v : Vector Half 4) (i : Fin 4) : (clampFour bound v)[i] = min (v[i]).toNat bound :=
  getElem_ofFn_fin _ i

theorem setLevels_inRange {c : Store} (h : ItemsInRange c) (b v : Vector Half 4) :
    ItemsInRange { c with baseCaps := clampFour 1000 b, speedCaps := clampFour 500 v } :=
  { h with
    caps := fun i => by
      dsimp only
      rw [clampFour_getElem, clampFour_getElem]; exact ⟨min_le_right _ _, min_le_right _ _⟩ }

/-! ### START -/

theorem nonIncreasing_antitone (t : Vector Nat 4) {i j : Fin 4} (h : i ≤ j) : (nonIncreasing t)[j] ≤ (nonIncreasing t)[i] := by
  have le := ladder_nonIncreasing_antitone t (a := ⟨i.val, by omega⟩) (b := ⟨j.val, by omega⟩) h
  rwa [ladder_low _ j.isLt, ladder_low _ i.isLt] at le

theorem nonIncreasing_le (t : Vector Nat 4) (i : Fin 4) : (nonIncreasing t)[i] ≤ t[i] := by
  fin_cases i <;> simp [nonIncreasing]

theorem corrected_inRange {c : Store} (h : ItemsInRange c) : ItemsInRange (Store.corrected c) :=
  { h with
    silenceTimeout := by
      have := h.silenceTimeout; have := h.statusPeriod
      show 100 ≤ max c.silenceTimeout (2 * c.statusPeriod) ∧ max c.silenceTimeout (2 * c.statusPeriod) ≤ 2000
      omega
    thresholds := by
      have := h.thresholds
      show (orderedThresholds c.slo c.shi).1 ≤ 255 ∧ (orderedThresholds c.slo c.shi).2 ≤ 255
      unfold orderedThresholds; split
      · exact h.thresholds
      · split <;> (dsimp only; omega)
    delays := fun z => by rw [corrected_zone]; exact h.delays z
    caps := fun i => by
      rw [corrected_baseCaps, corrected_speedCaps]
      exact ⟨(nonIncreasing_le _ i).trans (h.caps i).1, (nonIncreasing_le _ i).trans (h.caps i).2⟩ }

theorem corrected_inLine (c : Store) : ItemsInLine (Store.corrected c) where
  ladder i j h := by
    rw [corrected_baseCaps, corrected_speedCaps]; exact ⟨nonIncreasing_antitone _ h, nonIncreasing_antitone _ h⟩
  levels z := by rw [corrected_zone]; exact ⟨le_max_right _ _, le_max_right _ _⟩
  band := (orderedThresholds_difference c.slo c.shi).1
  silence := le_max_right _ _

/-! ### Every step -/

/-- The configuration of an effect: as it was, or, in UNCONFIGURED, in range again; START brings it into line besides. -/
theorem effect_config {s t : State} (idle : IdleUntilStart s) (h : ConfigInRange s) (e : Effect s t) : ConfigInRange t := by
  rw [configInRange_iff] at h ⊢
  obtain ⟨items, line⟩ := h
  have same {v : State} (cfg : v.cfg = s.cfg) (started : v.ctl.started = s.ctl.started) :
      ItemsInRange v.cfg ∧ (v.ctl.started = true → ItemsInLine v.cfg) := by rw [cfg, started]; exact ⟨items, line⟩
  have load {v : State} (m : s.ctl.mode = .unconfigured) (ctl : v.ctl = s.ctl) (range : ItemsInRange v.cfg) :
      ItemsInRange v.cfg ∧ (v.ctl.started = true → ItemsInLine v.cfg) :=
    ⟨range, fun k => by rw [ctl, idle.started.mpr m] at k; cases k⟩
  have reset : ItemsInRange (hostResetState s).cfg ∧ ((hostResetState s).ctl.started = true → ItemsInLine (hostResetState s).cfg) := by
    refine hostReset_keeps (P := fun u => ItemsInRange u.cfg ∧ (u.ctl.started = true → ItemsInLine u.cfg)) (fun u f k => k) s
      (fun _ => same (resetDone_cfg s) (resetDone_started s)) fun _ => same ?_ ?_
    · rw [settle_cfg, (watchInputs_work _).cfg, resetReady_cfg, resetDone_cfg]
    · rw [settle_started, (watchInputs_work _).ctl, resetReady_ctl, resetDone_ctl]
  have initial {v : State} {n : Station} {r : Role} (cfg : v.cfg = Store.initial n r) (started : v.ctl.started = false) :
      ItemsInRange v.cfg ∧ (v.ctl.started = true → ItemsInLine v.cfg) :=
    ⟨by rw [cfg]; exact Store.initial_inRange n r, fun k => by rw [started] at k; cases k⟩
  cases e with
  | settled u c =>
    rcases change_ctl c with ⟨cfg, ctl, -⟩ | ⟨-, -, e⟩
    · exact same (by rw [settle_cfg, cfg]) (by rw [settle_started, ctl])
    · rw [e, settle_cfg, watch_startReady_cfg]; exact ⟨corrected_inRange items, fun _ => corrected_inLine _⟩
  | hostReset | hostResetPin => exact reset
  | powerOn | powerUp => exact initial rfl rfl
  | setTiming item value m => exact load m rfl (setTiming_inRange items _ _)
  | setZone z l1 l2 l3 delay attrs m => exact load m rfl (setZone_inRange items z (min_le_right _ _))
  | setInput n flags qualify heal cls severity zone c m e => exact load m rfl (setInput_inRange items n (inputConfigArg_inRange e))
  | setLevels b v m => exact load m rfl (setLevels_inRange items b v)
  | setPeers expected group quorum m => exact load m rfl { items with quorum := by simp only [clampTo]; omega }
  | statusTimer => exact same (requestStatus_work _).cfg (by rw [(requestStatus_work _).ctl])
  | ramp => exact same (setOutput_linesOnly _ s).cfg (by rw [(setOutput_linesOnly _ s).ctl])
  | openContactor => exact same (startDrop_note s).cfg (by rw [(startDrop_note s).ctl])
  | _ => exact same rfl rfl

/-- Settles O8: the store is loaded within range, in UNCONFIGURED alone, and START brings it into line. -/
theorem stepsKeepConfigurationInRange : Obligations.StepsKeepConfigurationInRange := by
  intro s t idle config step
  have keep (u v : State) (h : IdleUntilStart u ∧ ConfigInRange u) (i : IdleUntilStart v) (cfg : v.cfg = u.cfg)
      (ctl : v.ctl.started = u.ctl.started) : IdleUntilStart v ∧ ConfigInRange v :=
    ⟨i, by rw [configInRange_iff, cfg, ctl, ← configInRange_iff]; exact h.2⟩
  refine (step_keeps (P := fun u => IdleUntilStart u ∧ ConfigInRange u) ?_ ?_ ?_ ?_
    (fun u v h e => ⟨effect_idle h.1 e, effect_config h.1 h.2 e⟩) ⟨idle, config⟩ step).2
  · exact fun u r h => keep u _ h (idle_reply h.1 r) rfl rfl
  · exact fun u l on h => keep u _ h (idle_line h.1 on l) rfl rfl
  · exact fun u q d n h => keep u _ h (idle_queue h.1 q d n) rfl rfl
  · exact fun u _ h => keep u _ h (idle_elapse h.1) rfl rfl

/-- Settles O6: the power-on values meet each invariant. -/
theorem resetMeetsEveryInvariant : Obligations.ResetMeetsEveryInvariant := by
  refine ⟨fun station role lines pending choices => ?_, rfl⟩
  have b := powerOn_blocksInitial station role lines pending choices
  exact ⟨b.idleUntilStart rfl, (configInRange_iff _).mpr ⟨Store.initial_inRange station role, fun k => by cases k⟩, b.faultTable,
    b.bus rfl, b.peerTable, b.zoneTable, b.support, driveCurrent_unstarted b rfl fun _ => rfl,
    by constructor <;> simp [State.powerOn, Permission.initial, Outputs.initial]⟩

end Sys2Proof.Machine
end

section
/-! The Local Fault Table stays consistent (R4 to R18): entry by entry, slot by slot, and over every step. -/

namespace Sys2Proof.Machine

/-! ### Entries -/

theorem escalate_eq (e : Nat) (x : Entry) : ∃ v b, escalate e x = { x with current := v, escalated := b }
    ∧ ((v = x.current ∧ b = x.escalated) ∨ (x.escalated = false ∧ v = x.current.up ∧ b = true)) := by
  unfold escalate
  split
  · next h => exact ⟨_, _, rfl, .inr ⟨h.2.1, rfl, rfl⟩⟩
  · exact ⟨_, _, rfl, .inl ⟨rfl, rfl⟩⟩

theorem escalate_consistent {x : Entry} (h : EntryConsistent x) (e : Nat) : EntryConsistent (escalate e x) := by
  obtain ⟨v, b, eq, k⟩ := escalate_eq e x
  rw [eq]
  refine ⟨h.cls, h.count, h.firstActive, ?_, h.latched⟩
  have severity := h.severity
  rcases k with ⟨rfl, rfl⟩ | ⟨plain, rfl, rfl⟩
  · exact severity
  · rw [plain] at severity
    show x.current.up = x.configured.up
    rw [severity]; rfl

theorem activate_consistent {x : Entry} (cls : x.cls.code ≤ 6)
    (severity : x.current = if x.escalated then x.configured.up else x.configured) (e : Nat) (now : Time) :
    EntryConsistent (activate e now x) :=
  escalate_consistent (x := { x with state := .active, count := some 1, firstActive := some now })
    ⟨cls, ⟨by simp, by simp, by simp⟩, by simp, severity, by simp⟩ e

theorem reactivate_consistent {x : Entry} (h : EntryConsistent x) (q : x.state ≠ .qualifying) (e : Nat) :
    EntryConsistent (reactivate e x) :=
  escalate_consistent (x := { x with state := .active, count := countUp x.count })
    ⟨h.cls, ⟨by simp, by omega, by omega⟩, by simpa [q] using h.firstActive, h.severity, by simp⟩ e

theorem qualifyingEntry_consistent (n : Input) {c : InputConfig} (cls : c.cls.code ≤ 6) : EntryConsistent (qualifyingEntry n c) :=
  ⟨cls, rfl, by simp [qualifyingEntry], rfl, by simp [qualifyingEntry]⟩

/-- R8, R13, R15: an entry that was ACTIVE becomes HEALING, or LATCHED if latching. -/
theorem EntryConsistent.withState {x : Entry} (h : EntryConsistent x) (a : x.state ≠ .qualifying) {v : EntryState} (q : v ≠ .qualifying)
    (l : v = .latched → x.latching = true) : EntryConsistent { x with state := v } := by
  have first := h.firstActive
  have count := h.count
  refine ⟨h.cls, ?_, by simpa [a, q] using first, h.severity, l⟩
  revert count
  dsimp only
  cases x.count with
  | none => exact fun k => absurd k a
  | some c => exact fun k => ⟨q, k.2⟩

@[simp] theorem activate_state (e : Nat) (now : Time) (x : Entry) : (activate e now x).state = .active := by
  obtain ⟨v, b, eq, -⟩ := escalate_eq e { x with state := .active, count := some 1, firstActive := some now }
  rw [activate, eq]

@[simp] theorem activate_source (e : Nat) (now : Time) (x : Entry) : (activate e now x).source = x.source := by
  obtain ⟨v, b, eq, -⟩ := escalate_eq e { x with state := .active, count := some 1, firstActive := some now }
  rw [activate, eq]

@[simp] theorem reactivate_state (e : Nat) (x : Entry) : (reactivate e x).state = .active := by
  obtain ⟨v, b, eq, -⟩ := escalate_eq e { x with state := .active, count := countUp x.count }
  rw [reactivate, eq]

@[simp] theorem reactivate_source (e : Nat) (x : Entry) : (reactivate e x).source = x.source := by
  obtain ⟨v, b, eq, -⟩ := escalate_eq e { x with state := .active, count := countUp x.count }
  rw [reactivate, eq]

/-- R9, R13: a return to ACTIVE keeps what the entry says of which zone. -/
theorem reactivate_about (e : Nat) (x : Entry) : (reactivate e x).cls = x.cls ∧ (reactivate e x).zone = x.zone
    ∧ (reactivate e x).latching = x.latching := by
  obtain ⟨v, b, eq, -⟩ := escalate_eq e { x with state := .active, count := countUp x.count }
  rw [reactivate, eq]; exact ⟨rfl, rfl, rfl⟩

theorem activate_about (e : Nat) (now : Time) (x : Entry) : (activate e now x).cls = x.cls ∧ (activate e now x).zone = x.zone
    ∧ (activate e now x).latching = x.latching := by
  obtain ⟨v, b, eq, -⟩ := escalate_eq e { x with state := .active, count := some 1, firstActive := some now }
  rw [activate, eq]; exact ⟨rfl, rfl, rfl⟩

/-! ### Slots -/

/-- Section 1.3: a slot's timer runs exactly while its entry is in the state that the timer belongs to. -/
def RunsIn (t : Timer) (v : EntryState) (entry : Option Entry) : Prop := t.isSome = true ↔ ∃ x, entry = some x ∧ x.state = v

theorem runsIn_none (v : EntryState) (t : Timer) : RunsIn t v none ↔ t = none := by
  simp [RunsIn]

theorem runsIn_some (v : EntryState) (t : Timer) (x : Entry) : RunsIn t v (some x) ↔ (t.isSome = true ↔ x.state = v) := by
  simp [RunsIn]

theorem runsIn_elapse {t : Timer} {v : EntryState} {entry : Option Entry} (h : RunsIn t v entry) : RunsIn (Timer.elapse t) v entry := by
  simpa [RunsIn, Timer.elapse] using h

/-- R4, section 1.3: the slot of input `n`. -/
structure InputSlotConsistent (n : Input) (sl : Slot) : Prop where
  entry : ∀ x, sl.entry = some x → EntryConsistent x ∧ x.source = .input n
  qualify : RunsIn sl.qualify .qualifying sl.entry
  heal : RunsIn sl.heal .healing sl.entry

/-- R4, R12 to R16: a declared slot. -/
structure DeclaredSlotConsistent (sl : Slot) : Prop where
  entry : ∀ x, sl.entry = some x →
    EntryConsistent x ∧ x.source = .declared ∧ (x.state = .active ∨ x.state = .healing) ∧ x.latching = false
  qualify : sl.qualify = none
  heal : RunsIn sl.heal .healing sl.entry

theorem inputSlot_vacant (n : Input) (q h : Timer) : InputSlotConsistent n ⟨none, q, h⟩ ↔ q = none ∧ h = none :=
  ⟨fun k => ⟨(runsIn_none _ _).mp k.qualify, (runsIn_none _ _).mp k.heal⟩,
    fun k => ⟨fun _ e => (by cases e), (runsIn_none _ _).mpr k.1, (runsIn_none _ _).mpr k.2⟩⟩

theorem inputSlot_occupied (n : Input) (x : Entry) (q h : Timer) : InputSlotConsistent n ⟨some x, q, h⟩
    ↔ (EntryConsistent x ∧ x.source = .input n) ∧ (q.isSome = true ↔ x.state = .qualifying) ∧ (h.isSome = true ↔ x.state = .healing) :=
  ⟨fun k => ⟨k.entry x rfl, (runsIn_some _ _ _).mp k.qualify, (runsIn_some _ _ _).mp k.heal⟩,
    fun k => ⟨fun _ e => (by cases e; exact k.1), (runsIn_some _ _ _).mpr k.2.1, (runsIn_some _ _ _).mpr k.2.2⟩⟩

theorem declaredSlot_vacant (q h : Timer) : DeclaredSlotConsistent ⟨none, q, h⟩ ↔ q = none ∧ h = none :=
  ⟨fun k => ⟨k.qualify, (runsIn_none _ _).mp k.heal⟩, fun k => ⟨fun _ e => (by cases e), k.1, (runsIn_none _ _).mpr k.2⟩⟩

theorem declaredSlot_occupied (x : Entry) (q h : Timer) : DeclaredSlotConsistent ⟨some x, q, h⟩
    ↔ (EntryConsistent x ∧ x.source = .declared ∧ (x.state = .active ∨ x.state = .healing) ∧ x.latching = false)
      ∧ q = none ∧ (h.isSome = true ↔ x.state = .healing) :=
  ⟨fun k => ⟨k.entry x rfl, k.qualify, (runsIn_some _ _ _).mp k.heal⟩,
    fun k => ⟨fun _ e => (by cases e; exact k.1), k.2.1, (runsIn_some _ _ _).mpr k.2.2⟩⟩

/-- R12: no class and zone are declared twice. -/
def DeclaredApart (declared : Vector Slot 8) : Prop := ∀ (d e : DeclSlot) (x y : Entry), (declared[d]).entry = some x →
  (declared[e]).entry = some y → x.cls = y.cls → x.zone = y.zone → d = e

/-- The Local Fault Table of a consistent state. -/
structure LftConsistent (l : Lft) : Prop where
  input : ∀ n : Input, InputSlotConsistent n l.inputs[n]
  declared : ∀ d : DeclSlot, DeclaredSlotConsistent l.declared[d]
  apart : DeclaredApart l.declared

theorem faultTableConsistent_iff (s : State) : FaultTableConsistent s ↔ LftConsistent s.lft :=
  ⟨fun h => ⟨fun n => ⟨h.input n, h.qualify n, h.heal n⟩, fun d => ⟨h.declared d, h.declaredQualify d, h.declaredHeal d⟩, h.distinct⟩,
    fun h => ⟨fun n => (h.input n).entry, fun n => (h.input n).qualify, fun n => (h.input n).heal, fun d => (h.declared d).entry,
      fun d => (h.declared d).qualify, fun d => (h.declared d).heal, h.apart⟩⟩

theorem LftConsistent.setInput {l : Lft} (h : LftConsistent l) (n : Input) {sl : Slot} (k : InputSlotConsistent n sl) :
    LftConsistent { l with inputs := l.inputs.set n sl } := by
  refine { h with input := fun m => ?_ }
  dsimp only
  rw [getElem_set_fin]; split
  · next e => exact e ▸ k
  · exact h.input m

theorem LftConsistent.setDeclared {l : Lft} (h : LftConsistent l) (d : DeclSlot) {sl : Slot} (p : DeclSlot) (k : DeclaredSlotConsistent sl)
    (apart : ∀ x, sl.entry = some x → ∀ (e : DeclSlot) (y : Entry), e ≠ d → (l.declared[e]).entry = some y →
      x.cls = y.cls → x.zone = y.zone → False) :
    LftConsistent { l with declared := l.declared.set d sl, pointer := p } := by
  refine ⟨h.input, fun e => ?_, fun e f x y hx hy cls zone => ?_⟩
  · dsimp only
    rw [getElem_set_fin]; split
    · exact k
    · exact h.declared e
  · rw [getElem_set_fin] at hx hy
    split at hx <;> split at hy
    · next a b => exact a.symm.trans b
    · next a b => exact (apart x hx f y (Ne.symm b) hy cls zone).elim
    · next a b => exact (apart y hy e x (Ne.symm a) hx cls.symm zone.symm).elim
    · exact h.apart e f x y hx hy cls zone

/-- The class and zone of the entry it replaces are apart from those of the other slots. -/
theorem LftConsistent.apartFrom {l : Lft} (h : LftConsistent l) {d : DeclSlot} {x w : Entry} (hw : (l.declared[d]).entry = some w)
    (cls : x.cls = w.cls) (zone : x.zone = w.zone) (e : DeclSlot) (y : Entry) (ne : e ≠ d) (hy : (l.declared[e]).entry = some y)
    (c : x.cls = y.cls) (z : x.zone = y.zone) : False :=
  ne (h.apart e d y w hy hw (c.symm.trans cls) (z.symm.trans zone))

theorem emptySlot_input (n : Input) : InputSlotConsistent n Slot.empty := (inputSlot_vacant n none none).mpr ⟨rfl, rfl⟩

theorem emptySlot_declared : DeclaredSlotConsistent Slot.empty := (declaredSlot_vacant none none).mpr ⟨rfl, rfl⟩

theorem LftConsistent.empty : LftConsistent Lft.empty :=
  ⟨fun n => by rw [Lft.empty_inputs]; exact emptySlot_input n, fun d => by rw [Lft.empty_declared]; exact emptySlot_declared,
    fun d _ x _ e => by rw [Lft.empty_declared] at e; cases e⟩

/-! ### What an input does to its slot -/

theorem assertSlot_consistent {n : Input} {c : InputConfig} {sl : Slot} (cls : c.cls.code ≤ 6) (h : InputSlotConsistent n sl)
    (e : Nat) (now : Time) : InputSlotConsistent n (assertSlot e now n c sl) := by
  obtain ⟨entry, qualify, heal⟩ := sl
  cases entry with
  | none =>
    obtain ⟨rfl, rfl⟩ := (inputSlot_vacant _ _ _).mp h
    have new := qualifyingEntry_consistent n cls
    by_cases q : c.qualify = 0
    · simp only [assertSlot, if_pos q]
      rw [inputSlot_occupied]
      exact ⟨⟨activate_consistent new.cls new.severity e now, activate_source _ _ _⟩, by simp, by simp⟩
    · simp only [assertSlot, if_neg q]
      rw [inputSlot_occupied]
      exact ⟨⟨new, rfl⟩, by simp [qualifyingEntry], by simp [qualifyingEntry]⟩
  | some x =>
    obtain ⟨⟨hx, src⟩, hq, hh⟩ := (inputSlot_occupied _ _ _ _).mp h
    have back (q : x.state ≠ .qualifying) : InputSlotConsistent n ⟨some (reactivate e x), qualify, none⟩ := by
      rw [inputSlot_occupied]
      exact ⟨⟨reactivate_consistent hx q e, (reactivate_source e x).trans src⟩, by simpa [q] using hq, by simp⟩
    simp only [assertSlot]
    split
    · next k => exact back (by simp [k])
    · next k => exact back (by simp [k])
    · exact h
    · exact h

theorem releaseSlot_consistent {n : Input} {sl : Slot} (h : InputSlotConsistent n sl) (c : InputConfig) :
    InputSlotConsistent n (releaseSlot c sl) := by
  obtain ⟨entry, qualify, heal⟩ := sl
  cases entry with
  | none => exact h
  | some x =>
    obtain ⟨⟨hx, src⟩, hq, hh⟩ := (inputSlot_occupied _ _ _ _).mp h
    simp only [releaseSlot]
    split
    · next k =>
      rw [inputSlot_vacant]
      exact ⟨rfl, by simpa [k] using hh⟩
    · next k =>
      obtain ⟨rfl, rfl⟩ : qualify = none ∧ heal = none := by simpa [k] using And.intro hq hh
      have awake : x.state ≠ .qualifying := by simp [k]
      split
      · next latching =>
        rw [inputSlot_occupied]
        exact ⟨⟨hx.withState awake (by decide) fun _ => latching, src⟩, by simp, by simp⟩
      · split
        · exact (inputSlot_vacant _ _ _).mpr ⟨rfl, rfl⟩
        · rw [inputSlot_occupied]
          exact ⟨⟨hx.withState awake (by decide) (by simp), src⟩, by simp, by simp⟩
    · exact h
    · exact h

theorem qualifySlot_consistent {n : Input} {sl : Slot} (h : InputSlotConsistent n sl) (e : Nat) (now : Time) :
    InputSlotConsistent n (qualifySlot e now sl) := by
  obtain ⟨entry, qualify, heal⟩ := sl
  cases entry with
  | none => exact h
  | some x =>
    obtain ⟨⟨hx, src⟩, hq, hh⟩ := (inputSlot_occupied _ _ _ _).mp h
    simp only [qualifySlot]
    split
    · next k =>
      rw [inputSlot_occupied]
      exact ⟨⟨activate_consistent hx.cls hx.severity e now, (activate_source _ _ _).trans src⟩, by simp, by simpa [k] using hh⟩
    · exact h

theorem healSlot_input {n : Input} {sl : Slot} (h : InputSlotConsistent n sl) : InputSlotConsistent n (healSlot sl) := by
  obtain ⟨entry, qualify, heal⟩ := sl
  cases entry with
  | none => exact h
  | some x =>
    obtain ⟨-, hq, -⟩ := (inputSlot_occupied _ _ _ _).mp h
    simp only [healSlot]
    split
    · next k => exact (inputSlot_vacant _ _ _).mpr ⟨by simpa [k] using hq, rfl⟩
    · exact h

/-! ### What a declaration does to its slot -/

theorem healSlot_declared {sl : Slot} (h : DeclaredSlotConsistent sl) : DeclaredSlotConsistent (healSlot sl) := by
  unfold healSlot
  split
  · split
    · exact (declaredSlot_vacant _ _).mpr ⟨h.qualify, rfl⟩
    · exact h
  · exact h

theorem healSlot_entry (sl : Slot) : (healSlot sl).entry = none ∨ (healSlot sl).entry = sl.entry := by
  unfold healSlot
  split
  · split
    · exact .inl rfl
    · exact .inr rfl
  · exact .inr rfl

theorem redeclared_about (e : Nat) (v : Severity) (x : Entry) : (redeclared e v x).cls = x.cls ∧ (redeclared e v x).zone = x.zone
    ∧ (redeclared e v x).latching = x.latching ∧ (redeclared e v x).source = x.source := by
  unfold redeclared
  dsimp only
  split
  · obtain ⟨c, z, l⟩ := reactivate_about e { x with configured := v, current := if x.escalated then v.up else v }
    exact ⟨c, z, l, reactivate_source _ _⟩
  · exact ⟨rfl, rfl, rfl, rfl⟩

theorem redeclareSlot_consistent {sl : Slot} (h : DeclaredSlotConsistent sl) {x : Entry} (hx : sl.entry = some x) (e : Nat) (v : Severity) :
    DeclaredSlotConsistent (redeclareSlot e v x sl) := by
  obtain ⟨cons, src, state, latching⟩ := h.entry x hx
  obtain ⟨-, -, l, s⟩ := redeclared_about e v x
  have heal := h.heal
  rw [hx, runsIn_some] at heal
  have renamed : EntryConsistent { x with configured := v, current := if x.escalated then v.up else v } :=
    ⟨cons.cls, cons.count, cons.firstActive, rfl, cons.latched⟩
  have updated : EntryConsistent (redeclared e v x) ∧ (redeclared e v x).state = .active := by
    unfold redeclared
    dsimp only
    split
    · next k => exact ⟨reactivate_consistent renamed (by simp [k]) e, reactivate_state _ _⟩
    · next k => exact ⟨renamed, state.resolve_right k⟩
  refine (declaredSlot_occupied _ _ _).mpr ⟨⟨updated.1, s.trans src, .inl updated.2, l.trans latching⟩, h.qualify, ?_⟩
  rw [updated.2]
  split
  · simp
  · next k => simpa [k] using heal

theorem withdrawSlot_consistent {sl : Slot} (h : DeclaredSlotConsistent sl) {x : Entry} (hx : sl.entry = some x) (heal : Nat) :
    DeclaredSlotConsistent (withdrawSlot heal x sl) := by
  obtain ⟨cons, src, state, latching⟩ := h.entry x hx
  unfold withdrawSlot
  split
  · exact h
  · next k =>
    have active := state.resolve_right k
    split
    · exact (declaredSlot_vacant _ _).mpr ⟨h.qualify, rfl⟩
    · refine (declaredSlot_occupied _ _ _).mpr ⟨⟨?_, src, .inr rfl, latching⟩, h.qualify, by simp⟩
      exact cons.withState (by simp [active]) (by decide) (by simp)

theorem withdrawSlot_about {sl : Slot} {x y : Entry} {heal : Nat} (hx : sl.entry = some x) (hy : (withdrawSlot heal x sl).entry = some y) :
    y.cls = x.cls ∧ y.zone = x.zone := by
  unfold withdrawSlot at hy
  split at hy
  · rw [hx] at hy; injection hy with hy; rw [← hy]; exact ⟨rfl, rfl⟩
  · split at hy
    · cases hy
    · injection hy with hy; rw [← hy]; exact ⟨rfl, rfl⟩

theorem declaredEntry_consistent {c : FaultClass} (k : c.code ≤ 6) (e : Nat) (now : Time) (z : Zone) (v : Severity) :
    DeclaredSlotConsistent ⟨some (declaredEntry e now c z v), none, none⟩ := by
  refine (declaredSlot_occupied _ _ _).mpr ⟨⟨activate_consistent k rfl e now, activate_source _ _ _, .inl (activate_state _ _ _),
    (activate_about _ _ _).2.2⟩, rfl, by simp [declaredEntry]⟩

theorem declaredEntry_about (e : Nat) (now : Time) (c : FaultClass) (z : Zone) (v : Severity) :
    (declaredEntry e now c z v).cls = c ∧ (declaredEntry e now c z v).zone = z :=
  ⟨(activate_about _ _ _).1, (activate_about _ _ _).2.1⟩

/-- R12: where no slot is found, none holds that class and zone. -/
theorem declaredSlot_none {l : Lft} {c : FaultClass} {z : Zone} (h : declaredSlot l c z = none) {d : DeclSlot} {x : Entry}
    (hx : (l.declared[d]).entry = some x) : ¬(x.cls = c ∧ x.zone = z) := by
  have k := List.find?_eq_none.mp h d (List.mem_finRange d)
  simpa [hx, -Fin.getElem_fin] using k

/-! ### Every step -/

/-- R12, R156: each input's class is one that an input may have. -/
def InputClassesLocal (c : Store) : Prop := ∀ n : Input, (c.inputs[n]).cls.code ≤ 6

theorem takeAssertion_lft {s : State} (h : LftConsistent s.lft) (k : InputClassesLocal s.cfg) (n : Input) :
    LftConsistent (takeAssertion n s).lft := by
  unfold takeAssertion
  split
  · exact h.setInput n (assertSlot_consistent (k n) (h.input n) _ _)
  · exact h

theorem watchInputs_lft {s : State} (h : LftConsistent s.lft) (k : InputClassesLocal s.cfg) : LftConsistent (watchInputs s).lft :=
  (watchInputs_keeps (P := fun u => LftConsistent u.lft ∧ InputClassesLocal u.cfg)
    (fun n u hu => ⟨takeAssertion_lft hu.1 hu.2 n, by rw [(takeAssertion_work n u).cfg]; exact hu.2⟩) s ⟨h, k⟩).1

theorem change_lft {s u : State} (h : LftConsistent s.lft) (k : InputClassesLocal s.cfg) (c : Change s u) : LftConsistent u.lft := by
  cases c with
  | assertion n => rw [(takeTrip_work n _).lft]; exact takeAssertion_lft (s := setLine n true s) h k n
  | inputRelease n =>
    unfold takeRelease
    split
    · exact h.setInput n (releaseSlot_consistent (h.input n) _)
    · exact h
  | qualify n => exact h.setInput n (qualifySlot_consistent (h.input n) _ _)
  | heal n => exact h.setInput n (healSlot_input (h.input n))
  | clearInput n => exact h.setInput n (emptySlot_input n)
  | declaredHeal d =>
    refine h.setDeclared d s.lft.pointer (healSlot_declared (h.declared d)) fun x hx e y => ?_
    rcases healSlot_entry s.lft.declared[d] with k | k
    · rw [k] at hx; cases hx
    · rw [k] at hx; exact h.apartFrom hx rfl rfl e y
  | redeclare d x v m hx =>
    refine h.setDeclared d s.lft.pointer (redeclareSlot_consistent (h.declared d) hx _ v) fun y hy e z => ?_
    injection hy with hy
    obtain ⟨cls, zone, -⟩ := redeclared_about s.cfg.escalation v x
    exact h.apartFrom hx (hy ▸ cls) (hy ▸ zone) e z
  | withdraw d x m hx =>
    refine h.setDeclared d s.lft.pointer (withdrawSlot_consistent (h.declared d) hx _) fun y hy e z => ?_
    obtain ⟨cls, zone⟩ := withdrawSlot_about hx hy
    exact h.apartFrom hx cls zone e z
  | clearDeclared d => exact h.setDeclared d s.lft.pointer emptySlot_declared fun _ k => (by cases k)
  | place d c z v m k n p =>
    refine h.setDeclared d (d + 1) (declaredEntry_consistent k _ _ z v) fun x hx e y _ hy cls zone => ?_
    injection hx with hx
    obtain ⟨c', z'⟩ := declaredEntry_about s.cfg.escalation s.ctl.nodeTime c z v
    rw [← hx] at cls zone
    exact declaredSlot_none n hy ⟨cls.symm.trans c', zone.symm.trans z'⟩
  | clearAll =>
    exact ⟨h.input, fun d => by rw [clearDeclared_declared]; exact emptySlot_declared,
      fun d _ x _ e => by rw [clearDeclared_declared] at e; cases e⟩
  | start => exact watchInputs_lft (s := startReady s) (by rw [startReady_lft]; exact h) (by rw [startReady_cfg]; exact k)
  | completes _ f => rw [(completeFrame_work f.kind s).lft]; exact h
  | hello p => rw [setPeer_lft, (raiseIf_note _ .notice s).lft]; exact h
  | _ => exact h

theorem elapse_lft {s : State} (h : LftConsistent s.lft) : LftConsistent (elapse s).lft := by
  have input (n : Input) : (elapse s).lft.inputs[n] = Slot.elapse s.lft.inputs[n] := getElem_ofFn_fin _ n
  have declared (d : DeclSlot) : (elapse s).lft.declared[d] = Slot.elapse s.lft.declared[d] := getElem_ofFn_fin _ d
  refine ⟨fun n => ?_, fun d => ?_, fun d e x y hx hy => ?_⟩
  · rw [input]; exact ⟨(h.input n).entry, runsIn_elapse (h.input n).qualify, runsIn_elapse (h.input n).heal⟩
  · rw [declared]
    exact ⟨(h.declared d).entry, by simp [Slot.elapse, (h.declared d).qualify, Timer.elapse, -Fin.getElem_fin], runsIn_elapse (h.declared d).heal⟩
  · rw [declared] at hx hy; exact h.apart d e x y hx hy

theorem effect_inputClasses {s t : State} (h : InputClassesLocal s.cfg) (e : Effect s t) : InputClassesLocal t.cfg := by
  have reset : (hostResetState s).cfg = s.cfg :=
    hostReset_keeps (P := fun u => u.cfg = s.cfg) (fun _ _ k => k) s (fun _ => resetDone_cfg s) fun _ => by
      rw [settle_cfg, (watchInputs_work _).cfg, resetReady_cfg, resetDone_cfg]
  have same {v : State} (cfg : v.cfg.inputs = s.cfg.inputs) : InputClassesLocal v.cfg := fun n => by rw [cfg]; exact h n
  have initial (n : Station) (r : Role) : InputClassesLocal (Store.initial n r) := fun i => ((Store.initial_inRange n r).inputs i).2.2.2
  cases e with
  | settled u c =>
    rcases change_ctl c with ⟨cfg, -⟩ | ⟨-, -, e⟩
    · exact same (by rw [settle_cfg, cfg])
    · exact same (by rw [e, settle_cfg, watch_startReady_cfg]; rfl)
  | hostReset | hostResetPin => exact same (congrArg Store.inputs reset)
  | powerOn | powerUp => exact initial _ _
  | setInput n flags qualify heal cls severity zone c m e =>
    intro i
    have range := (inputConfigArg_inRange e).2.2.2
    dsimp only
    rw [getElem_set_fin]; split
    · exact range
    · exact h i
  | setTiming item value => exact same (by dsimp only; unfold Store.setTiming; split <;> rfl)
  | statusTimer => exact same (congrArg Store.inputs (requestStatus_work _).cfg)
  | ramp => exact same (congrArg Store.inputs (setOutput_linesOnly _ s).cfg)
  | openContactor => exact same (congrArg Store.inputs (startDrop_note s).cfg)
  | _ => exact same rfl

theorem effect_lft {s t : State} (h : LftConsistent s.lft) (k : InputClassesLocal s.cfg) (e : Effect s t) : LftConsistent t.lft := by
  have reset : LftConsistent (hostResetState s).lft := by
    refine hostReset_keeps (P := fun u => LftConsistent u.lft) (fun _ _ k => k) s (fun _ => ?_) fun _ => ?_
    · rw [resetDone_lft]; exact .empty
    · rw [settle_lft]
      refine watchInputs_lft ?_ ?_
      · show LftConsistent (resetDone s).lft
        rw [resetDone_lft]; exact .empty
      · rw [resetReady_cfg, resetDone_cfg]; exact k
  cases e with
  | settled u c => rw [settle_lft]; exact change_lft h k c
  | hostReset | hostResetPin => exact reset
  | powerOn | powerUp => exact .empty
  | statusTimer => rw [(requestStatus_work _).lft]; exact h
  | ramp => rw [(setOutput_linesOnly _ s).lft]; exact h
  | openContactor => rw [(startDrop_note s).lft]; exact h
  | _ => exact h

/-- Settles O9: each operation keeps its slot consistent, and a declaration's class and zone apart from the others. -/
theorem stepsKeepFaultTableConsistent : Obligations.StepsKeepFaultTableConsistent := by
  intro s t config table step
  rw [faultTableConsistent_iff] at table ⊢
  exact (step_keeps (P := fun u => LftConsistent u.lft ∧ InputClassesLocal u.cfg) (fun _ _ k => k) (fun _ _ _ k => k)
    (fun _ _ _ _ k => k) (fun _ _ k => ⟨elapse_lft k.1, k.2⟩) (fun _ _ k e => ⟨effect_lft k.1 k.2 e, effect_inputClasses k.2 e⟩)
    ⟨table, fun n => (config.inputs n).2.2.2⟩ step).1

end Sys2Proof.Machine
end

section
/-! The Status Bus Controller stays consistent (R27 to R46). -/

namespace Sys2Proof.Machine

/-- R43, R152: the station takes part in the bus. -/
abbrev OnBus (s : State) : Prop := s.ctl.mode = .joining ∨ s.ctl.mode = .running

/-- The node mode of `t` is that of `s`, but for the end of a join. -/
structure SameStage (s t : State) : Prop where
  onBus : OnBus t ↔ OnBus s
  departed : t.ctl.mode = .departed ↔ s.ctl.mode = .departed
  unconfigured : t.ctl.mode = .unconfigured ↔ s.ctl.mode = .unconfigured
  started : t.ctl.started = s.ctl.started

theorem SameStage.of_ctl {s t : State} (h : t.ctl = s.ctl) : SameStage s t := by constructor <;> simp [OnBus, h]

theorem SameStage.ended {s t : State} (j : s.ctl.mode = .joining) (r : t.ctl.mode = .running) (started : t.ctl.started = s.ctl.started) :
    SameStage s t := by constructor <;> simp [OnBus, j, r, started]

theorem settle_stage (b u : State) : SameStage u (settle b u) := by
  rcases settle_mode b u with e | ⟨j, r, -⟩
  · constructor <;> simp [OnBus, e, settle_started]
  · exact .ended j r (settle_started b u)

/-- The bus looks at the stage, the controller and its own two derivations alone. -/
theorem BusConsistent.of_same {s t : State} (h : BusConsistent s) (stage : SameStage s t) (sbc : t.sbc = s.sbc)
    (bitFault : t.ziu.derived.bitFault = s.ziu.derived.bitFault) (duplicate : t.ziu.derived.duplicate = s.ziu.derived.duplicate) :
    BusConsistent t where
  helloOrLeave := by rw [sbc]; exact h.helloOrLeave
  onBus := by rw [sbc]; exact fun k => stage.onBus.mpr (h.onBus k)
  leaving := by rw [sbc]; exact fun k => stage.departed.mpr (h.leaving k)
  inFlight := by rw [sbc]; exact h.inFlight
  renewal := by rw [sbc]; exact h.renewal
  mute := by rw [sbc]; exact h.mute
  bitFaults := by rw [sbc, bitFault]; exact h.bitFaults
  duplicate := by rw [sbc, duplicate]; exact h.duplicate
  receiver := by rw [sbc, stage.started]; exact h.receiver
  transmitter := by rw [sbc]; exact fun k => h.transmitter (stage.onBus.mp k)
  started := by rw [stage.started, Ne, stage.unconfigured]; exact h.started

/-! ### Requests -/

/-- R27, R37: a request for STATUS of a station on the bus. -/
theorem BusConsistent.request {s : State} (h : BusConsistent s) (on : OnBus s) : BusConsistent (requestStatus s) := by
  unfold requestStatus
  split
  · exact h
  · exact { h with
      onBus := fun _ => on
      inFlight := fun f i => by
        have k := h.inFlight f i
        revert k; cases f.kind <;> simp
      mute := fun _ => rfl }

/-- R34, R35: an urgent STATUS. -/
theorem BusConsistent.urgent {s : State} (h : BusConsistent s) : BusConsistent (urgent s) := by
  unfold Machine.urgent
  split
  · next on =>
    split
    · next k => exact { h with renewal := fun _ => k }
    · exact h.request on
  · exact h

/-- R34, R35: the controller as a request for STATUS, at an urgent trigger, leaves it. -/
theorem BusConsistent.urgently {s t : State} (h : BusConsistent s) (on : OnBus s) (same : SameStage s t)
    (sbc : t.sbc = if s.sbc.inFlight.map Frame.kind = some .status then { s.sbc with renewal := true }
      else if s.sbc.requests.status = true then s.sbc
      else { s.sbc with requests.status := true, mute := some s.cfg.silenceTimeout })
    (bitFault : t.ziu.derived.bitFault = s.ziu.derived.bitFault) (duplicate : t.ziu.derived.duplicate = s.ziu.derived.duplicate) :
    BusConsistent t := by
  split at sbc
  · next k =>
    have marked : BusConsistent { s with sbc.renewal := true } := { h with renewal := fun _ => k }
    exact marked.of_same ⟨same.1, same.2, same.3, same.4⟩ sbc bitFault duplicate
  · have request := h.request on
    have work := requestStatus_work s
    refine request.of_same ?_ ?_ (by rw [bitFault, work.ziu]) (by rw [duplicate, work.ziu])
    · obtain ⟨a, b, c, d⟩ := same
      constructor <;> simp only [OnBus, work.ctl] <;> assumption
    · rw [sbc, requestStatus]
      split <;> rfl

theorem settle_bus (b : State) {u : State} (h : BusConsistent u) : BusConsistent (settle b u) := by
  have follows := settle_follows b u
  have stage := settle_stage b u
  generalize settle b u = t at follows stage
  have bitFault := congrArg Derived.bitFault follows.derived
  have duplicate := congrArg Derived.duplicate follows.derived
  by_cases k : Urgent b t ∧ OnBus t
  · exact h.urgently (stage.onBus.mp k.2) stage (follows.urgent k.1 k.2) bitFault duplicate
  · exact h.of_same stage (follows.quiet (by rwa [not_and_or, not_or] at k)) bitFault duplicate

/-! ### Frames -/

/-- R30, R31: the frame leaves the line, its request stays. -/
theorem BusConsistent.stop {s : State} (h : BusConsistent s) (f : Frame) (k : Nat) (level : Bool) : BusConsistent (stopDriving f k level s) :=
  { h with inFlight := fun _ i => by cases i
           renewal := fun i => by cases i }

/-- R31: one more bit fault. -/
theorem BusConsistent.countFault {s : State} (h : BusConsistent s) : BusConsistent (countBitFault s) :=
  { h with
    bitFaults := by
      obtain ⟨le, iff⟩ := h.bitFaults
      refine ⟨min_le_left _ _, ?_⟩
      simp only [countBitFault, Bool.or_eq_true, beq_iff_eq, iff]
      omega }

/-- R32: a frame that completes takes its request with it; with no other frame on the line, no renewal is marked but at a STATUS. -/
theorem BusConsistent.done {s : State} (h : BusConsistent s) (k : Kind) (renewal : s.sbc.renewal = false)
    (mute : s.sbc.mute.isSome = true → (frameDone k s).sbc.requests.status = true) : BusConsistent (frameDone k s) := by
  refine { h with
    helloOrLeave := ?_, onBus := ?_, leaving := ?_, inFlight := fun _ i => by cases i
    renewal := fun i => by rw [show (frameDone k s).sbc.renewal = s.sbc.renewal from rfl, renewal] at i; cases i
    mute := mute, bitFaults := by simp [frameDone] }
  · have := h.helloOrLeave
    cases k <;> simp_all [frameDone]
  · intro i
    refine h.onBus (i.imp ?_ (Or.imp ?_ fun i => i)) <;> cases k <;> simp [frameDone]
  · intro i
    refine h.leaving (?_ : s.sbc.requests.leave = true)
    revert i; cases k <;> simp [frameDone]

theorem BusConsistent.completes {s : State} (h : BusConsistent s) {f : Frame} (i : s.sbc.inFlight = some f) :
    BusConsistent (completeFrame f.kind s) := by
  have renewal (ne : f.kind ≠ .status) : s.sbc.renewal = false := by
    by_contra k
    have := h.renewal (by simpa using k)
    rw [i] at this; injection this with this; exact ne this
  cases k : f.kind with
  | hello => exact h.done .hello (renewal (by rw [k]; decide)) h.mute
  | leave =>
    have done := h.done .leave (renewal (by rw [k]; decide)) h.mute
    simp only [completeFrame]
    split
    · next departed =>
      refine { done with transmitter := fun m => ?_ }
      rw [departed] at m; rcases m with m | m <;> cases m
    · exact done
  | status =>
    have on : OnBus s := h.onBus (.inr (.inl (by have := h.inFlight f i; rwa [k] at this)))
    have plain : BusConsistent { statusDone (frameDone .status s) with sbc.renewal := false } := { h with
      helloOrLeave := h.helloOrLeave, onBus := fun _ => on, inFlight := fun _ i => by cases i
      renewal := fun i => by cases i
      mute := fun i => by cases i
      bitFaults := by simp [frameDone, statusDone] }
    simp only [completeFrame, renew]
    split
    · exact plain.request on
    · next r =>
      refine plain.of_same (.of_ctl rfl) ?_ rfl rfl
      have none : (statusDone (frameDone .status s)).sbc.renewal = false := by simpa using r
      rw [← none]

/-! ### Modes -/

theorem BusConsistent.depart {s : State} (h : BusConsistent s) (on : OnBus s) :
    BusConsistent { s with ctl.mode := .departed, sbc := departBus s.sbc, pv.joinTimer := none } := by
  have started : s.ctl.started = true := h.started.mpr (by rcases on with m | m <;> simp [m])
  exact { h with
    helloOrLeave := by simp [departBus]
    onBus := by simp [departBus]
    leaving := fun _ => rfl
    inFlight := fun f i => by
      obtain ⟨-, k⟩ := Option.filter_eq_some_iff.mp i
      rw [beq_iff_eq.mp k]; rfl
    renewal := by simp [departBus]
    mute := by simp [departBus]
    transmitter := by simp
    started := by simp [started] }

theorem BusConsistent.rejoin {s : State} (h : BusConsistent s) (departed : s.ctl.mode = .departed) :
    BusConsistent (enterJoining { s with sbc := rejoinBus s.sbc }) := by
  have started : s.ctl.started = true := h.started.mpr (by simp [departed])
  have off : ¬OnBus s := by simp [OnBus, departed]
  exact { h with
    helloOrLeave := by simp [enterJoining, rejoinBus]
    onBus := fun _ => .inl rfl
    leaving := by simp [enterJoining, rejoinBus]
    inFlight := fun f i => by
      obtain ⟨i, k⟩ := Option.filter_eq_some_iff.mp i
      have old := h.inFlight f i
      revert k old
      cases f.kind <;> simp [enterJoining, rejoinBus]
    renewal := fun r => by
      have status := h.renewal r
      obtain ⟨f, i, k⟩ := Option.map_eq_some_iff.mp status
      have old := h.inFlight f i
      rw [k] at old
      exact absurd (h.onBus (.inr (.inl old))) off
    transmitter := fun _ => rfl
    started := by simp [enterJoining, started] }

/-- R42, R153: a station that begins on an idle controller. -/
theorem BusConsistent.begins {s : State} (sbc : s.sbc = Sbc.initial) (bitFault : s.ziu.derived.bitFault = false)
    (duplicate : s.ziu.derived.duplicate = false) (started : s.ctl.started = true) : BusConsistent (switchOn (enterJoining s)) := by
  constructor <;> simp [switchOn, enterJoining, sbc, Sbc.initial, bitFault, duplicate, started]

/-! ### Every step -/

theorem change_bus {s u : State} (idle : IdleUntilStart s) (h : BusConsistent s) (c : Change s u) : BusConsistent u := by
  have same {v : State} (ctl : v.ctl = s.ctl) (sbc : v.sbc = s.sbc) (derived : v.ziu.derived = s.ziu.derived) : BusConsistent v :=
    h.of_same (.of_ctl ctl) sbc (by rw [derived]) (by rw [derived])
  cases c with
  | assertion n =>
    have work := takeTrip_work n (takeAssertion n (setLine n true s))
    have input := takeAssertion_work n (setLine n true s)
    exact same (work.ctl.trans input.ctl) (work.sbc.trans input.sbc) (by rw [work.ziu, input.ziu]; rfl)
  | inputRelease n =>
    have input := takeRelease_work n (setLine n false s)
    exact same input.ctl input.sbc (by rw [input.ziu]; rfl)
  | start l m =>
    have b := idle.blocks m
    have ready : BusConsistent (startReady s) := by
      rw [startReady_eq]
      have work := sampleTrip_work (startLoaded s)
      refine BusConsistent.begins ?_ ?_ ?_ ?_
      · rw [work.sbc, startLoaded_sbc, b.sbc]
      · rw [work.ziu, startLoaded_ziu, b.ziu]; rfl
      · rw [work.ziu, startLoaded_ziu, b.ziu]; rfl
      · rw [work.ctl, startLoaded_ctl]
    have watched : BusConsistent (watchInputs (startReady s)) := by
      have input := watchInputs_work (startReady s)
      exact ready.of_same (.of_ctl input.ctl) input.sbc (by rw [input.ziu]) (by rw [input.ziu])
    exact watched
  | stress | stressExpiry => exact h.of_same (.of_ctl rfl) rfl rfl rfl
  | depart on => exact h.depart on
  | rejoin m => exact h.rejoin m
  | bitFault k level l f => exact (h.stop f k level).countFault
  | completes l f i => exact h.completes i
  | muteExpiry => exact { h with mute := fun k => by cases k }
  | duplicate => exact { h with duplicate := rfl }
  | hello p =>
    have work := raiseIf_note (!(s.pv.peers[p]).expected) .notice s
    exact same work.ctl work.sbc (congrArg Ziu.derived work.ziu)
  | deadline l q m => exact h.of_same (.ended m rfl rfl) rfl rfl rfl
  | _ => exact same rfl rfl rfl

theorem hostReset_bus {s : State} (idle : IdleUntilStart s) : BusConsistent (hostResetState s) := by
  refine hostReset_keeps (fun u f k => k.of_same (.of_ctl rfl) rfl rfl rfl) s
    (fun k => (resetDone_unstarted (idle.unstarted k) k).bus (by rw [resetDone_started, k])) fun k => settle_bus _ ?_
  have ready : BusConsistent (resetReady (resetDone s)) :=
    .begins (resetDone_sbc s) (by rw [resetDone_ziu]; rfl) (by rw [resetDone_ziu]; rfl) (by rw [resetDone_started, k])
  have input := watchInputs_work (resetReady (resetDone s))
  exact ready.of_same (.of_ctl input.ctl) input.sbc (by rw [input.ziu]) (by rw [input.ziu])

/-- R28: a frame starts for a request alone. -/
theorem startingFrame_request {s : State} {f : Frame} (e : startingFrame s = some f) : match f.kind with
    | .hello => s.sbc.requests.hello = true
    | .status => s.sbc.requests.status = true
    | .leave => s.sbc.requests.leave = true := by
  unfold startingFrame at e
  split at e
  · obtain ⟨k, hk, rfl⟩ := Option.map_eq_some_iff.mp e
    have kind : (buildFrame k s).kind = k := by cases k <;> rfl
    rw [kind]
    unfold eligibleKind at hk
    split at hk
    · next r => injection hk with hk; rw [← hk]; exact r
    · split at hk
      · next r => injection hk with hk; rw [← hk]; exact r
      · split at hk
        · next r => injection hk with hk; rw [← hk]; exact (Bool.and_eq_true_iff.mp r).1
        · cases hk
  · cases e

theorem effect_bus {s t : State} (idle : IdleUntilStart s) (h : BusConsistent s) (e : Effect s t) : BusConsistent t := by
  have same {v : State} (ctl : v.ctl = s.ctl) (sbc : v.sbc = s.sbc) (ziu : v.ziu.derived = s.ziu.derived) : BusConsistent v :=
    h.of_same (.of_ctl ctl) sbc (by rw [ziu]) (by rw [ziu])
  cases e with
  | settled u c => exact settle_bus s (change_bus idle h c)
  | hostReset => exact hostReset_bus idle
  | hostResetPin => exact (hostReset_bus idle).of_same (.of_ctl rfl) rfl rfl rfl
  | powerOn =>
    have released := (powerOn_blocksInitial s.ctl.station s.ctl.role s.pins.faultLines s.pending s.choices).bus rfl
    exact released.of_same (by constructor <;> rfl) rfl rfl rfl
  | powerUp => exact (powerOn_blocksInitial _ _ _ _ _).bus rfl
  | frameStart f l e =>
    have request := startingFrame_request e
    have none : s.sbc.inFlight = none := by
      unfold startingFrame at e
      split at e
      · next k => exact k.2.2
      · cases e
    refine { h with
      inFlight := fun g i => by injection i with i; rw [← i]; exact request
      renewal := fun r => by have := h.renewal r; rw [none] at this; cases this }
  | lost f k level => exact h.stop f k level
  | statusTimer l q =>
    have on := h.onBus (.inr (.inr q))
    exact BusConsistent.request (s := { s with sbc.statusTimer := Option.none }) { h with onBus := fun _ => on } on
  | spacing => exact { h with }
  | ramp =>
    have work := setOutput_linesOnly (min s.perm.target (s.perm.output + s.cfg.rampStep)) s
    exact same work.ctl work.sbc (by rw [work.ziu])
  | openContactor => exact same (startDrop_note s).ctl (startDrop_note s).sbc (by rw [(startDrop_note s).ziu])
  | _ => exact same rfl rfl rfl

theorem elapse_bus {s : State} (h : BusConsistent s) : BusConsistent (elapse s) :=
  { h with
    onBus := fun k => h.onBus (by simpa [elapse, Sbc.elapse, Timer.elapse] using k)
    mute := fun k => h.mute (by simpa [elapse, Sbc.elapse, Timer.elapse] using k) }

/-- Settles O10: requests, frames and modes move together. -/
theorem stepsKeepBusConsistent : Obligations.StepsKeepBusConsistent := fun _ _ idle bus step =>
  (step_keeps (P := fun u => IdleUntilStart u ∧ BusConsistent u) (fun _ r k => ⟨idle_reply k.1 r, { k.2 with }⟩)
    (fun _ l on k => ⟨idle_line k.1 on l, { k.2 with }⟩) (fun _ q d n k => ⟨idle_queue k.1 q d n, { k.2 with }⟩)
    (fun _ _ k => ⟨idle_elapse k.1, elapse_bus k.2⟩) (fun _ _ k e => ⟨effect_idle k.1 e, effect_bus k.1 k.2 e⟩) ⟨idle, bus⟩ step).2

end Sys2Proof.Machine
end

section
/-! The Peer View Table stays consistent (R47 to R64). -/

namespace Sys2Proof.Machine

/-- R47, R49: the fields of one peer record agree with its presence state. -/
structure RecordConsistent (r : PeerRecord) : Prop where
  silence : r.silence.isSome = true ↔ (r.presence = .joining ∨ r.presence = .present)
  leave : r.leave.isSome = true ↔ r.presence = .leaving
  list : r.presence ≠ .joining → r.presence ≠ .present → r.list = []
  listBound : r.list.length ≤ 4 ∧ (r.list.map (·.zone)).Nodup
  status : r.presence = .present → r.status.isSome = true

/-- What holds of the Peer View before the rest of an event follows: its records, and its join timer. -/
structure PeersReady (s : State) : Prop where
  records : ∀ p : Station, RecordConsistent s.pv.peers[p]
  own : ∀ p : Station, p = s.ctl.station → s.pv.peers[p] = PeerRecord.absent false
  join : s.pv.joinTimer.isSome = true ↔ s.ctl.mode = .joining

theorem PeerTableConsistent.ready {s : State} (h : PeerTableConsistent s) : PeersReady s :=
  ⟨fun p => ⟨h.silence p, h.leave p, h.list p, h.listBound p, h.status p⟩, fun _ e => e ▸ h.own, h.join⟩

theorem PeersReady.consistent {s : State} (h : PeersReady s)
    (lost : ∀ p : Station, s.ziu.derived.lost[p] = true ↔ (s.pv.peers[p]).presence = .silent)
    (deaf : s.ziu.derived.deaf = deafCondition s) (awaited : s.ctl.mode = .joining → joinComplete s = false) : PeerTableConsistent s where
  silence p := (h.records p).silence
  leave p := (h.records p).leave
  list p := (h.records p).list
  listBound p := (h.records p).listBound
  status p := (h.records p).status
  own := h.own _ rfl
  lost := lost
  deaf := by
    rw [deaf]
    simp only [deafCondition, Bool.and_eq_true, List.all_eq_true, List.any_eq_true, List.mem_finRange, true_and, true_implies,
      Bool.or_eq_true, beq_iff_eq, bne_iff_ne, or_assoc]
    exact and_congr_left fun _ => forall_congr' fun p => or_iff_not_imp_left
  join := h.join
  awaited := awaited

theorem PeersReady.of_same {s t : State} (h : PeersReady s) (pv : t.pv = s.pv) (ctl : t.ctl = s.ctl) : PeersReady t :=
  ⟨by rw [pv]; exact h.records, by rw [pv, ctl]; exact h.own, by rw [pv, ctl]; exact h.join⟩

/-- The Peer View looks at the records, the mode, the station number and its own derivations alone. -/
theorem PeerTableConsistent.of_same {s t : State} (h : PeerTableConsistent s) (pv : t.pv = s.pv) (ctl : t.ctl = s.ctl)
    (lost : t.ziu.derived.lost = s.ziu.derived.lost) (deaf : t.ziu.derived.deaf = s.ziu.derived.deaf) : PeerTableConsistent t where
  silence := by rw [pv]; exact h.silence
  leave := by rw [pv]; exact h.leave
  list := by rw [pv]; exact h.list
  listBound := by rw [pv]; exact h.listBound
  status := by rw [pv]; exact h.status
  own := (h.ready.of_same pv ctl).own _ rfl
  lost := by rw [pv, lost]; exact h.lost
  deaf := by rw [pv, ctl, deaf]; exact h.deaf
  join := by rw [pv, ctl]; exact h.join
  awaited := by
    rw [ctl]
    unfold joinComplete
    rw [pv]; exact h.awaited

theorem joinComplete_congr {s t : State} (h : t.pv.peers = s.pv.peers) : joinComplete t = joinComplete s := by
  unfold joinComplete; rw [h]

theorem deafCondition_congr {s t : State} (h : t.pv.peers = s.pv.peers) (n : t.ctl.station = s.ctl.station) :
    deafCondition t = deafCondition s := by
  unfold deafCondition; rw [h, n]

/-- R55 to R58: whatever the change, LOST and deaf follow the records, and the join ends when none is awaited. -/
theorem settle_peerTable (b : State) {u : State} (h : PeersReady u) : PeerTableConsistent (settle b u) := by
  have lost := (settle_follows b u).lost
  have deaf : (settle b u).ziu.derived.deaf = deafCondition (settle b u) := by
    rw [settle_ziu, settleTables_deaf, deafCondition_congr (settle_peers b u) (settle_station b u)]
  have complete : joinComplete (settle b u) = joinComplete u := joinComplete_congr (settle_peers b u)
  have peers := settle_peers b u
  have station := settle_station b u
  have ctl := settle_ctl b u
  have pv := settle_pv b u
  have ready : PeersReady (settle b u) ∧ ((settle b u).ctl.mode = .joining → joinComplete u = false) := by
    generalize settle b u = t at *
    have records (p : Station) : RecordConsistent t.pv.peers[p] := by rw [peers]; exact h.records p
    have own (p : Station) (e : p = t.ctl.station) : t.pv.peers[p] = PeerRecord.absent false := by
      rw [peers]; exact h.own p (e.trans station)
    rcases checkJoin_cases u with ⟨e, k⟩ | ⟨e, -, -⟩
    · rw [e] at ctl pv
      refine ⟨⟨records, own, by rw [pv, ctl]; exact h.join⟩, fun m => ?_⟩
      rw [ctl] at m
      exact Bool.eq_false_of_not_eq_true fun c => k ⟨m, c⟩
    · rw [e] at ctl pv
      refine ⟨⟨records, own, by rw [pv, ctl]; simp [endJoin]⟩, fun m => ?_⟩
      rw [ctl] at m; cases m
  exact ready.1.consistent lost deaf fun m => complete.trans (ready.2 m)

/-! ### Records -/

theorem absent_consistent (e : Bool) : RecordConsistent (PeerRecord.absent e) := by
  constructor <;> simp [PeerRecord.absent]

theorem RecordConsistent.withExpected {r : PeerRecord} (h : RecordConsistent r) (e : Bool) : RecordConsistent { r with expected := e } :=
  ⟨h.silence, h.leave, h.list, h.listBound, h.status⟩

theorem heardHello_consistent (c : Store) (now : Time) (role : Role) (g : Group) (r : PeerRecord) :
    RecordConsistent (heardHello c now role g r) := by
  constructor <;> simp [heardHello]

theorem heardStatus_consistent (c : Store) (now : Time) (join : Bool) (g : Group) (fields : StatusFields) {list : List Accusation}
    (b : list.length ≤ 4 ∧ (list.map (·.zone)).Nodup) (r : PeerRecord) :
    RecordConsistent (heardStatus c now join g fields list r) := by
  cases join <;> constructor <;> simp [heardStatus, b]

theorem heardLeave_consistent (c : Store) (now : Time) (r : PeerRecord) : RecordConsistent (heardLeave c now r) := by
  constructor <;> simp [heardLeave]

theorem silenced_consistent {r : PeerRecord} (leave : r.leave = none) : RecordConsistent (silenced r) := by
  constructor <;> simp [silenced, leave]

theorem departedRecord_consistent {r : PeerRecord} (h : RecordConsistent r) (q : r.leave.isSome = true) :
    RecordConsistent (departedRecord r) := by
  have presence := h.leave.mp q
  have silence : r.silence = none := by simpa [presence] using h.silence
  have list := h.list (by simp [presence]) (by simp [presence])
  constructor <;> simp [departedRecord, silence, list]

theorem RecordConsistent.noLeave {r : PeerRecord} (h : RecordConsistent r) (k : r.presence ≠ .leaving) : r.leave = none := by
  simpa [k] using h.leave

theorem atDeadline_consistent {r : PeerRecord} (h : RecordConsistent r) : RecordConsistent (atDeadline r) := by
  unfold atDeadline
  split
  · next k => exact silenced_consistent (h.noLeave (by simp [k.2]))
  · exact h

/-! ### Every step -/

theorem PeersReady.setPeer {s : State} (h : PeersReady s) {p : Station} (ne : p ≠ s.ctl.station) {r : PeerRecord} (k : RecordConsistent r) :
    PeersReady (setPeer p r s) where
  records q := by
    rw [setPeer_peers, getElem_set_fin]; split
    · exact k
    · exact h.records q
  own q e := by rw [setPeer_peers, getElem_set_fin, if_neg (fun k => ne (k.trans e))]; exact h.own q e
  join := by rw [setPeer_joinTimer, setPeer_ctl]; exact h.join

/-- A station's own record has no timer running. -/
theorem PeersReady.other {s : State} (h : PeersReady s) {p : Station} (q : (s.pv.peers[p]).silence.isSome = true
    ∨ (s.pv.peers[p]).leave.isSome = true) : p ≠ s.ctl.station := by
  rintro rfl
  rw [h.own _ rfl] at q
  rcases q with q | q <;> cases q

theorem PeersReady.enterJoining {s : State} (h : PeersReady s) : PeersReady (enterJoining s) :=
  ⟨h.records, h.own, by simp [Machine.enterJoining]⟩

theorem startLoaded_peersReady {s : State} (h : PeersReady s) : PeersReady { s with pv := (startLoaded s).pv } := by
  have peer (p : Station) : (startLoaded s).pv.peers[p]
      = { s.pv.peers[p] with expected := (Store.corrected s.cfg).expected.getLsbD p.val && p != s.ctl.station } := by
    rw [startLoaded_pv]; exact getElem_ofFn_fin _ p
  refine ⟨fun p => ?_, ?_, ?_⟩
  · rw [peer]; exact (h.records p).withExpected _
  · rintro p rfl
    rw [peer, h.own _ rfl]; simp [PeerRecord.absent]
  · rw [startLoaded_pv]; exact h.join

theorem startReady_peersReady {s : State} (h : PeersReady s) : PeersReady (startReady s) := by
  have loaded := startLoaded_peersReady h
  have joined : PeersReady (Machine.enterJoining { s with pv := (startLoaded s).pv }) := loaded.enterJoining
  have work := sampleTrip_work (startLoaded s)
  have pv : (startReady s).pv = { (startLoaded s).pv with joinTimer := some (Store.corrected s.cfg).joinDeadline } := by
    rw [startReady_eq]
    show { (sampleTrip (startLoaded s)).pv with joinTimer := some (sampleTrip (startLoaded s)).cfg.joinDeadline } = _
    rw [work.pv, work.cfg, startLoaded_cfg]
  refine ⟨?_, ?_, ?_⟩
  · rw [pv]; exact joined.records
  · intro p e
    rw [startReady_ctl] at e
    rw [pv]; exact joined.own p e
  · rw [pv, startReady_ctl]; simp

theorem change_peersReady {s u : State} (h : PeersReady s) (c : Change s u) : PeersReady u := by
  cases c with
  | assertion n =>
    have work := takeTrip_work n (takeAssertion n (setLine n true s))
    have input := takeAssertion_work n (setLine n true s)
    exact h.of_same (work.pv.trans input.pv) (work.ctl.trans input.ctl)
  | inputRelease n => exact h.of_same (takeRelease_work n _).pv (takeRelease_work n _).ctl
  | depart on => exact ⟨h.records, h.own, by simp⟩
  | rejoin => exact PeersReady.enterJoining ⟨h.records, h.own, h.join⟩
  | start =>
    have watched : PeersReady (watchInputs (startReady s)) :=
      (startReady_peersReady h).of_same (watchInputs_work _).pv (watchInputs_work _).ctl
    exact watched
  | completes l f => exact h.of_same (completeFrame_work f.kind s).pv (completeFrame_work f.kind s).ctl
  | hello p role g l on ne =>
    have work := raiseIf_note (!(s.pv.peers[p]).expected) .notice s
    have noticed : PeersReady (raiseIf (!(s.pv.peers[p]).expected) .notice s) := h.of_same work.pv work.ctl
    exact noticed.setPeer (by rw [work.ctl]; exact ne) (heardHello_consistent _ _ _ _ _)
  | status p join g fields list l on ne b => exact h.setPeer ne (heardStatus_consistent _ _ _ _ _ b _)
  | leave p l on ne => exact h.setPeer ne (heardLeave_consistent _ _ _)
  | silence p l q =>
    refine h.setPeer (h.other (.inl q)) (silenced_consistent ((h.records p).noLeave ?_))
    rcases (h.records p).silence.mp q with k | k <;> simp [k, -Fin.getElem_fin]
  | leaveExpiry p l q => exact h.setPeer (h.other (.inr q)) (departedRecord_consistent (h.records p) q)
  | deadline l q m =>
    refine ⟨fun p => ?_, ?_, by simp [endJoin]⟩
    · exact (getElem_ofFn_fin (fun p => atDeadline s.pv.peers[p]) p) ▸ atDeadline_consistent (h.records p)
    · rintro p rfl
      refine (getElem_ofFn_fin (fun p => atDeadline s.pv.peers[p]) s.ctl.station).trans ?_
      rw [h.own _ rfl]; rfl
  | _ => exact h.of_same rfl rfl

theorem resetDone_peer (s : State) (p : Station) : (resetDone s).pv.peers[p] = PeerRecord.absent (s.pv.peers[p]).expected := by
  rw [resetDone_pv]; exact getElem_ofFn_fin _ p

theorem resetDone_peersReady {s : State} (h : PeersReady s) :
    (∀ p : Station, RecordConsistent (resetDone s).pv.peers[p])
      ∧ ∀ p : Station, p = (resetDone s).ctl.station → (resetDone s).pv.peers[p] = PeerRecord.absent false := by
  refine ⟨fun p => by rw [resetDone_peer]; exact absent_consistent _, fun p e => ?_⟩
  rw [resetDone_ctl] at e
  rw [resetDone_peer, h.own p e]; rfl

theorem hostReset_peerTable {s : State} (h : PeerTableConsistent s) : PeerTableConsistent (hostResetState s) := by
  obtain ⟨records, own⟩ := resetDone_peersReady h.ready
  refine hostReset_keeps (fun u f k => k.of_same rfl rfl rfl rfl) s (fun k => ?_) fun k => settle_peerTable _ ?_
  · have mode : (resetDone s).ctl.mode = .unconfigured := by rw [resetDone_ctl, k]; rfl
    refine PeersReady.consistent ⟨records, own, ?_⟩ (fun p => ?_) ?_ fun m => by rw [mode] at m; cases m
    · rw [mode, resetDone_pv]; simp
    · rw [resetDone_peer, resetDone_ziu]
      show Derived.empty.lost[p] = true ↔ _
      simp [PeerRecord.absent, -Fin.getElem_fin]
    · rw [resetDone_ziu]
      simp [deafCondition, resetDone_peer, PeerRecord.absent, Derived.empty, -Fin.getElem_fin]
  · have ready : PeersReady (resetReady (resetDone s)) := ⟨records, own, by simp [resetReady, switchOn, enterJoining]⟩
    exact ready.of_same (watchInputs_work _).pv (watchInputs_work _).ctl

theorem effect_peerTable {s t : State} (h : PeerTableConsistent s) (e : Effect s t) : PeerTableConsistent t := by
  have same {v : State} (pv : v.pv = s.pv) (ctl : v.ctl = s.ctl) (derived : v.ziu.derived = s.ziu.derived) : PeerTableConsistent v :=
    h.of_same pv ctl (by rw [derived]) (by rw [derived])
  cases e with
  | settled u c => exact settle_peerTable s (change_peersReady h.ready c)
  | hostReset => exact hostReset_peerTable h
  | hostResetPin => exact (hostReset_peerTable h).of_same rfl rfl rfl rfl
  | powerOn =>
    have released := (powerOn_blocksInitial s.ctl.station s.ctl.role s.pins.faultLines s.pending s.choices).peerTable
    exact { released with }
  | powerUp => exact (powerOn_blocksInitial _ _ _ _ _).peerTable
  | statusTimer => exact same (requestStatus_work _).pv (requestStatus_work _).ctl (by rw [(requestStatus_work _).ziu])
  | ramp =>
    have work := setOutput_linesOnly (min s.perm.target (s.perm.output + s.cfg.rampStep)) s
    exact same work.pv work.ctl (by rw [work.ziu])
  | openContactor => exact same (startDrop_note s).pv (startDrop_note s).ctl (by rw [(startDrop_note s).ziu])
  | _ => exact same rfl rfl rfl

theorem elapse_peerTable {s : State} (h : PeerTableConsistent s) : PeerTableConsistent (elapse s) := by
  have peer (p : Station) : (elapse s).pv.peers[p] = PeerRecord.elapse s.pv.peers[p] := getElem_ofFn_fin _ p
  have runs (t : Timer) : (Timer.elapse t).isSome = t.isSome := by simp [Timer.elapse]
  have ready := h.ready
  refine PeersReady.consistent ⟨fun p => ?_, ?_, ?_⟩ (fun p => by rw [peer]; exact h.lost p) ?_ fun m => ?_
  · rw [peer]
    have r := ready.records p
    exact ⟨(Bool.eq_iff_iff.mp (runs _)).trans r.silence, (Bool.eq_iff_iff.mp (runs _)).trans r.leave, r.list,
      r.listBound, r.status⟩
  · intro p e
    rw [peer, ready.own p e]; rfl
  · exact (Bool.eq_iff_iff.mp (runs _)).trans h.join
  · have deaf : deafCondition (elapse s) = deafCondition s := by
      unfold deafCondition; simp only [peer]; rfl
    rw [deaf]
    exact congrArg (fun u : State => u.ziu.derived.deaf) (peerDerivations_current h).symm
  · have complete : joinComplete (elapse s) = joinComplete s := by
      unfold joinComplete; simp only [peer]; rfl
    rw [complete]; exact h.awaited m

/-- Settles O11: every record keeps agreeing with its presence, and what follows from the records is formed again in each event. -/
theorem stepsKeepPeerTableConsistent : Obligations.StepsKeepPeerTableConsistent := fun _ _ table step =>
  step_keeps (P := PeerTableConsistent) (fun _ _ k => k.of_same rfl rfl rfl rfl) (fun _ _ _ k => k.of_same rfl rfl rfl rfl)
    (fun _ _ _ _ k => k.of_same rfl rfl rfl rfl) (fun _ _ k => elapse_peerTable k) (fun _ _ k e => effect_peerTable k e) table step

end Sys2Proof.Machine
end

section
/-! The Zone Table stays consistent (R65 to R95). -/

namespace Sys2Proof.Machine

theorem ZoneTableConsistent.of_same {s t : State} (h : ZoneTableConsistent s) (zones : t.ziu.zones = s.ziu.zones) :
    ZoneTableConsistent t := fun z => by rw [zones]; exact h z

theorem ZoneTableConsistent.setZone {s : State} {z : Zone} {r : ZoneRecord} (h : ZoneTableConsistent s) (k : ZoneConsistent z r) :
    ZoneTableConsistent (setZoneRecord z r s) := fun y => by
  rw [setZoneRecord_zones, getElem_set_fin]
  split
  · next e => rw [← e]; exact k
  · exact h y

theorem ZoneTableConsistent.map {s t : State} {f : ZoneRecord → ZoneRecord} (h : ZoneTableConsistent s)
    (zones : ∀ z : Zone, t.ziu.zones[z] = f s.ziu.zones[z]) (k : ∀ z r, ZoneConsistent z r → ZoneConsistent z (f r)) :
    ZoneTableConsistent t := fun z => by rw [zones z]; exact k z _ (h z)

/-! ### One record -/

theorem putInForce_pending (d : Dispute) (a : Station) : putInForce d ≠ .pending a := by cases d <;> nofun

theorem putInForce_none {d : Dispute} (h : putInForce d ≠ .none) : d ≠ .none := fun e => h (by rw [e]; rfl)

/-- R83: a dispute goes in force, with its timer. -/
theorem disputeInForce_consistent {z : Zone} {r : ZoneRecord} (h : ZoneConsistent z r) :
    ZoneConsistent z { r with dispute := putInForce r.dispute, disputeTimer := none } :=
  { h with
    disputeTimer := ⟨nofun, fun ⟨a, e⟩ => absurd e (putInForce_pending _ a)⟩
    dispute := fun k => h.dispute (putInForce_none k) }

/-- R86: a release leaves a CLEAR zone with its clean timer. -/
theorem releasedRecord_consistent {z : Zone} {r : ZoneRecord} (c : Store) (h : ZoneConsistent z r) (k : r.state = .isolated) :
    ZoneConsistent z (releasedRecord c r) :=
  { h with
    stamp := by simp [releasedRecord]
    stampValue := nofun
    delay := by
      have idle := h.delay
      rw [k] at idle
      exact idle.trans (by simp [releasedRecord])
    clean := by simp [releasedRecord]
    pinned := nofun }

/-- R89: the clean interval is over. -/
theorem cleaned_consistent {z : Zone} {r : ZoneRecord} (h : ZoneConsistent z r) (q : r.clean.isSome = true) :
    ZoneConsistent z { r with released := false, clean := none } :=
  { h with
    clean := by simp
    pinned := fun k => by rw [(h.clean.mp q).1] at k; cases k }

/-- R95: what a host reset keeps of a record. -/
theorem resetZone_consistent {z : Zone} {r : ZoneRecord} (c : Store) (h : ZoneConsistent z r) : ZoneConsistent z (resetZone c r) := by
  unfold resetZone
  split
  · next k =>
    exact { h with
      delay := by simp [k]
      clean := by simp [k]
      disputeTimer := by simp
      dispute := fun e => absurd rfl e
      accusers := .nil }
  · exact { ZoneRecord.initial_consistent z with
      stampValue := nofun
      clean := by simp [cleanStart, ZoneRecord.initial]
      count := h.count
      pinned := nofun }

theorem elapsed_consistent {z : Zone} {r : ZoneRecord} (h : ZoneConsistent z r) : ZoneConsistent z (ZoneRecord.elapse r) := by
  have runs (t : Timer) : (Timer.elapse t).isSome = t.isSome := by simp [Timer.elapse]
  exact { h with
    delay := (Bool.eq_iff_iff.mp (runs _)).trans h.delay
    clean := (Bool.eq_iff_iff.mp (runs _)).trans h.clean
    disputeTimer := (Bool.eq_iff_iff.mp (runs _)).trans h.disputeTimer }

/-! ### The table -/

theorem change_zoneTable {s u : State} (h : ZoneTableConsistent s) (c : Change s u) : ZoneTableConsistent u := by
  cases c with
  | assertion n => exact h.of_same (by rw [(takeTrip_work n _).ziu, (takeAssertion_work n _).ziu]; rfl)
  | inputRelease n => exact h.of_same (by rw [(takeRelease_work n _).ziu]; rfl)
  | start =>
    have watched : ZoneTableConsistent (watchInputs (startReady s)) :=
      h.of_same (by rw [(watchInputs_work _).ziu, startReady_ziu])
    exact watched
  | completes l f => exact h.of_same (completeFrame_work f.kind s).zones
  | hello p role g =>
    have work := raiseIf_note (!(s.pv.peers[p]).expected) .notice s
    exact h.of_same (by rw [setPeer_ziu, work.ziu])
  | delayExpiry z => exact h.setZone (isolate_consistent z _ (h z))
  | disputeExpiry z => exact h.setZone (disputeInForce_consistent (h z))
  | release z m k => exact h.setZone (releasedRecord_consistent _ (h z) k)
  | _ => exact h.of_same rfl

theorem resetDone_zone (s : State) (z : Zone) : (resetDone s).ziu.zones[z] = resetZone s.cfg s.ziu.zones[z] := by
  rw [resetDone_ziu]; exact getElem_ofFn_fin _ z

theorem hostReset_zoneTable {s : State} (h : ZoneTableConsistent s) : ZoneTableConsistent (hostResetState s) := by
  have done : ZoneTableConsistent (resetDone s) := h.map (resetDone_zone s) fun _ _ => resetZone_consistent _
  exact hostReset_keeps (fun u f k => k.of_same rfl) s (fun _ => done) fun _ => settle_zoneTable _ _
    (done.of_same (by rw [(watchInputs_work _).ziu, resetReady_ziu]))

theorem effect_zoneTable {s t : State} (h : ZoneTableConsistent s) (e : Effect s t) : ZoneTableConsistent t := by
  cases e with
  | settled u c => exact settle_zoneTable s u (change_zoneTable h c)
  | hostReset => exact hostReset_zoneTable h
  | hostResetPin => exact (hostReset_zoneTable h).of_same rfl
  | powerOn => exact (powerOn_blocksInitial s.ctl.station s.ctl.role s.pins.faultLines s.pending s.choices).zoneTable.of_same rfl
  | powerUp => exact (powerOn_blocksInitial _ _ _ _ _).zoneTable
  | statusTimer => exact h.of_same (by rw [(requestStatus_work _).ziu])
  | clean z l q => exact h.setZone (cleaned_consistent (h z) q)
  | ramp => exact h.of_same (by rw [(setOutput_linesOnly _ s).ziu])
  | openContactor => exact h.of_same (by rw [(startDrop_note s).ziu])
  | _ => exact h.of_same rfl

/-- Settles O12: each change leaves a consistent record, and so does what follows from it in its event. -/
theorem stepsKeepZoneTableConsistent : Obligations.StepsKeepZoneTableConsistent := fun _ _ table step =>
  step_keeps (P := ZoneTableConsistent) (fun _ _ k => k.of_same rfl) (fun _ _ _ k => k.of_same rfl)
    (fun _ _ _ _ k => k.of_same rfl)
    (fun _ _ k => k.map (fun z => getElem_ofFn_fin _ z) fun _ _ => elapsed_consistent)
    (fun _ _ k e => effect_zoneTable k e) table step

end Sys2Proof.Machine
end

section
/-! The support of every zone stays current (R67 to R84). -/

namespace Sys2Proof.Machine

/-- What the support of the zones is formed from, and what it makes of each record. -/
structure SameSupport (s t : State) : Prop where
  quorum : t.cfg.quorum = s.cfg.quorum
  accusation : ∀ z, localAccusation t.lft z = localAccusation s.lft z
  station : t.ctl.station = s.ctl.station
  derived : t.ziu.derived = s.ziu.derived
  peers : ∀ p : Station, t.pv.peers[p] = { s.pv.peers[p] with silence := (t.pv.peers[p]).silence, leave := (t.pv.peers[p]).leave }
  attests : t.attests = s.attests
  zones : ∀ z : Zone, (t.ziu.zones[z]).own = (s.ziu.zones[z]).own ∧ (t.ziu.zones[z]).accusers = (s.ziu.zones[z]).accusers
    ∧ (t.ziu.zones[z]).dispute = (s.ziu.zones[z]).dispute ∧ (t.ziu.zones[z]).state = (s.ziu.zones[z]).state

theorem SupportCurrent.of_same {s t : State} (h : SupportCurrent s) (k : SameSupport s t) : SupportCurrent t := by
  have own (z : Zone) : ownClaim t z = ownClaim s z := by rw [ownClaim, ownClaim, k.accusation, k.derived, k.station]
  have claim (p : Station) (z : Zone) : (t.pv.peers[p]).claim z = (s.pv.peers[p]).claim z := by rw [k.peers p]; rfl
  have accusers (c : Option Claim) (z : Zone) : accusersOf t c z = accusersOf s c z := by
    simp only [accusersOf, claim, k.station]
  have denies (o : Station) : ownerDenies t o = ownerDenies s o := by
    have presence : (t.pv.peers[o]).presence = (s.pv.peers[o]).presence := by rw [k.peers o]
    have status : (t.pv.peers[o]).status = (s.pv.peers[o]).status := by rw [k.peers o]
    simp only [ownerDenies, k.station, k.attests, presence, status]
  have disputed (z : Zone) (l : List Accuser) : disputedBy t z l = disputedBy s z l := by
    simp only [disputedBy, denies]
  constructor
  · intro z; rw [(k.zones z).1, own, h.own z]
  · intro z; rw [own, accusers, (k.zones z).2.1, (k.zones z).2.2.1]; exact h.accusers z
  · intro z; rw [own, accusers, disputed, (k.zones z).2.2.1]; exact h.dispute z
  · intro a; simp only [k.derived, (k.zones _).2.2.1]; exact h.implausible a
  · intro z; rw [(k.zones z).2.1, (k.zones z).2.2.2, k.quorum]; exact h.state z

theorem ofFn_map {α : Type} {n : Nat} (f : α → α) (v : Vector α n) : (Vector.ofFn fun i : Fin n => f v[i]) = v.map f :=
  Vector.ext fun i h => by simp

theorem Lft.elapse_slots (s : State) : (elapse s).lft.slots = s.lft.slots.map Slot.elapse := by
  have inputs : (elapse s).lft.inputs = s.lft.inputs.map Slot.elapse := ofFn_map _ _
  have declared : (elapse s).lft.declared = s.lft.declared.map Slot.elapse := ofFn_map _ _
  rw [Lft.slots, inputs, declared, Vector.toList_map, Vector.toList_map, ← List.map_append]; rfl

theorem elapse_sameSupport (s : State) : SameSupport s (elapse s) where
  quorum := rfl
  accusation z := by
    rw [localAccusation, Lft.elapse_slots, List.filterMap_map]; rfl
  station := rfl
  derived := rfl
  peers p := by
    have e : (elapse s).pv.peers[p] = PeerRecord.elapse s.pv.peers[p] := getElem_ofFn_fin _ p
    rw [e]; rfl
  attests := by
    rw [State.attests, Lft.elapse_slots, List.all_map]; rfl
  zones z := by
    have e : (elapse s).ziu.zones[z] = ZoneRecord.elapse s.ziu.zones[z] := getElem_ofFn_fin _ z
    rw [e]; exact ⟨rfl, rfl, rfl, rfl⟩

theorem cleaned_sameSupport (s : State) (z : Zone) (released : Bool) (clean : Timer) :
    SameSupport s (setZoneRecord z { s.ziu.zones[z] with released := released, clean := clean } s) where
  quorum := rfl
  accusation _ := rfl
  station := rfl
  derived := rfl
  peers _ := rfl
  attests := rfl
  zones y := by
    rw [setZoneRecord_zones, getElem_set_fin]
    split
    · next e => rw [e]; exact ⟨rfl, rfl, rfl, rfl⟩
    · exact ⟨rfl, rfl, rfl, rfl⟩

theorem hostReset_support {s : State} (idle : IdleUntilStart s) : SupportCurrent (hostResetState s) :=
  hostReset_keeps (fun _ _ k => k.congr rfl rfl rfl rfl rfl) s
    (fun k => (resetDone_unstarted (idle.unstarted k) k).support) fun _ => settle_current _ _

theorem effect_support {s t : State} (idle : IdleUntilStart s) (h : SupportCurrent s) (e : Effect s t) : SupportCurrent t := by
  have load (m : t.ctl.mode = .unconfigured) : SupportCurrent t := ((effect_idle idle e).blocks m).support
  have same {v : State} (lft : v.lft = s.lft) (peers : v.pv.peers = s.pv.peers) (ziu : v.ziu = s.ziu) (ctl : v.ctl = s.ctl)
      (cfg : v.cfg = s.cfg) : SupportCurrent v := h.congr lft peers ziu (by rw [ctl]) (by rw [cfg])
  cases e with
  | settled u c => exact settle_current s u
  | hostReset l => exact hostReset_support idle
  | hostResetPin l => exact (hostReset_support idle).congr rfl rfl rfl rfl rfl
  | powerOn =>
    exact (powerOn_blocksInitial s.ctl.station s.ctl.role s.pins.faultLines s.pending s.choices).support.congr rfl rfl rfl rfl rfl
  | powerUp => exact (powerOn_blocksInitial _ _ _ _ _).support
  | setTiming item value m => exact load m
  | setZone z l1 l2 l3 delay attrs m => exact load m
  | setInput n flags qualify heal cls severity zone c m => exact load m
  | setLevels b v m => exact load m
  | setPeers expected group quorum m => exact load m
  | statusTimer =>
    have work := requestStatus_work { s with sbc.statusTimer := none }
    exact same work.lft (by rw [work.pv]) work.ziu work.ctl work.cfg
  | clean z => exact h.of_same (cleaned_sameSupport s z false Option.none)
  | ramp =>
    have work := setOutput_linesOnly (min s.perm.target (s.perm.output + s.cfg.rampStep)) s
    exact same work.lft (by rw [work.pv]) work.ziu work.ctl work.cfg
  | openContactor =>
    have work := startDrop_note s
    exact same work.lft (by rw [work.pv]) work.ziu work.ctl work.cfg
  | _ => exact same rfl rfl rfl rfl rfl

/-- Settles O13: every event ends in a settled pass, and outside an event nothing that the support is formed from changes. -/
theorem stepsKeepSupportCurrent : Obligations.StepsKeepSupportCurrent := fun _ _ idle support step =>
  (step_keeps (P := fun u => IdleUntilStart u ∧ SupportCurrent u)
    (fun _ r k => ⟨idle_reply k.1 r, k.2.congr rfl rfl rfl rfl rfl⟩)
    (fun _ l on k => ⟨idle_line k.1 on l, k.2.congr rfl rfl rfl rfl rfl⟩)
    (fun _ q d n k => ⟨idle_queue k.1 q d n, k.2.congr rfl rfl rfl rfl rfl⟩)
    (fun u _ k => ⟨idle_elapse k.1, k.2.of_same (elapse_sameSupport u)⟩)
    (fun _ _ k e => ⟨effect_idle k.1 e, effect_support k.1 k.2 e⟩) ⟨idle, support⟩ step).2

end Sys2Proof.Machine
end

section
/-! Levels, caps and lines stay current (R96 to R119, R130, R137). -/

namespace Sys2Proof.Machine

/-- What levels, caps, GEN and LAMP are formed from, and what they are. -/
structure SameDrive (s t : State) : Prop where
  cfg : t.cfg = s.cfg
  station : t.ctl.station = s.ctl.station
  held : t.ctl.held = s.ctl.held
  view : View.of t = View.of s
  lvl : t.lvl = s.lvl
  foldback : t.perm.foldback = s.perm.foldback
  target : t.perm.target = s.perm.target
  gen : t.out.gen = s.out.gen
  lamp : t.out.lamp = s.out.lamp

theorem DriveCurrent.of_same {s t : State} (h : DriveCurrent s) (k : SameDrive s t) : DriveCurrent t := by
  have state (z : Zone) : (t.ziu.zones[z]).state = (s.ziu.zones[z]).state := by rw [← view_zones, ← view_zones, k.view]
  have announced (p : Station) : (t.pv.peers[p]).announced = (s.pv.peers[p]).announced := by
    rw [← view_peers, ← view_peers, k.view]
  have mode : t.ctl.mode = s.ctl.mode := congrArg View.mode k.view
  have trip : t.out.tripLatch = s.out.tripLatch := congrArg View.trip k.view
  have stress : t.perm.stress = s.perm.stress := congrArg View.stress k.view
  constructor
  · simp only [k.lvl, k.cfg, k.station, state]; exact h.lown
  · simp only [k.lvl, k.cfg, k.station, k.view, announced]; exact h.follow
  · simp only [k.lvl, mode, trip]; exact h.lapp
  · simp only [k.lvl, k.cfg]; exact h.speedCap
  · simp only [k.lvl, k.cfg, state]; exact h.regen
  · simp only [k.foldback, k.cfg, stress]; exact h.foldback
  · simp only [k.target, k.foldback, k.lvl, k.cfg]; exact h.target
  · simp only [k.gen, k.lvl, trip]; exact h.gen
  · simp only [k.held, k.lamp, k.lvl]; exact h.lamp

theorem view_congr {s t : State} (zones : ∀ z : Zone, (t.ziu.zones[z]).state = (s.ziu.zones[z]).state)
    (peers : ∀ p : Station, (t.pv.peers[p]).announced = (s.pv.peers[p]).announced) (mode : t.ctl.mode = s.ctl.mode)
    (trip : t.out.tripLatch = s.out.tripLatch) (floor : t.lvl.floor = s.lvl.floor) (stress : t.perm.stress = s.perm.stress) :
    View.of t = View.of s := by
  simp only [View.of, zones, peers, mode, trip, floor, stress]

theorem view_elapse (s : State) : View.of (elapse s) = View.of s := by
  refine view_congr (fun z => ?_) (fun p => ?_) rfl rfl rfl rfl
  · have e : (elapse s).ziu.zones[z] = ZoneRecord.elapse s.ziu.zones[z] := getElem_ofFn_fin _ z
    rw [e]; rfl
  · have e : (elapse s).pv.peers[p] = PeerRecord.elapse s.pv.peers[p] := getElem_ofFn_fin _ p
    rw [e]; rfl

theorem view_setZoneRecord {s : State} {z : Zone} {r : ZoneRecord} (h : r.state = (s.ziu.zones[z]).state) :
    View.of (setZoneRecord z r s) = View.of s := by
  refine view_congr (fun y => ?_) (fun _ => rfl) rfl rfl rfl rfl
  rw [setZoneRecord_zones, getElem_set_fin]
  split
  · next e => rw [h, e]
  · rfl

theorem setOutput_lamp (o : Nat) (s : State) : (setOutput o s).out.lamp = s.out.lamp := by
  unfold setOutput; split <;> rfl

theorem hostReset_drive {s : State} (idle : IdleUntilStart s) : DriveCurrent (hostResetState s) := by
  refine hostReset_keeps (fun _ _ k => k.of_same ⟨rfl, rfl, rfl, rfl, rfl, rfl, rfl, rfl, rfl⟩) s (fun k => ?_) fun _ => settle_drive _ _
  have out := resetDone_out s
  exact driveCurrent_unstarted (resetDone_unstarted (idle.unstarted k) k) (by rw [out]) (fun _ => by rw [out])

theorem effect_drive {s t : State} (idle : IdleUntilStart s) (h : DriveCurrent s) (e : Effect s t) : DriveCurrent t := by
  have load (m : s.ctl.mode = .unconfigured) (ctl : t.ctl = s.ctl) (out : t.out = s.out) : DriveCurrent t := by
    have stop := h.stopped (by rw [m]; decide)
    refine driveCurrent_unstarted ((effect_idle idle e).blocks (by rw [ctl, m])) (by rw [out]; exact (h.atStop stop).2.2.2) fun k => ?_
    rw [ctl] at k
    rw [out, h.lamp k, stop]; rfl
  have same {v : State} (cfg : v.cfg = s.cfg) (ctl : v.ctl = s.ctl) (view : View.of v = View.of s) (lvl : v.lvl = s.lvl)
      (foldback : v.perm.foldback = s.perm.foldback) (target : v.perm.target = s.perm.target) (gen : v.out.gen = s.out.gen)
      (lamp : v.out.lamp = s.out.lamp) : DriveCurrent v :=
    h.of_same ⟨cfg, by rw [ctl], by rw [ctl], view, lvl, foldback, target, gen, lamp⟩
  cases e with
  | settled u c => exact settle_drive s u
  | hostReset l => exact hostReset_drive idle
  | hostResetPin l => exact (hostReset_drive idle).of_same ⟨rfl, rfl, rfl, rfl, rfl, rfl, rfl, rfl, rfl⟩
  | powerOn =>
    have b := powerOn_blocksInitial s.ctl.station s.ctl.role s.pins.faultLines s.pending s.choices
    exact driveCurrent_unstarted ⟨b.mode, b.lft, b.sbc, b.pv, b.ziu, b.lvl, b.perm, rfl, b.quorum⟩ rfl nofun
  | powerUp => exact driveCurrent_unstarted (powerOn_blocksInitial _ _ _ _ _) rfl fun _ => rfl
  | setTiming item value m => exact load m rfl rfl
  | setZone z l1 l2 l3 delay attrs m => exact load m rfl rfl
  | setInput n flags qualify heal cls severity zone c m => exact load m rfl rfl
  | setLevels b v m => exact load m rfl rfl
  | setPeers expected group quorum m => exact load m rfl rfl
  | statusTimer =>
    have work := requestStatus_work { s with sbc.statusTimer := none }
    have view : View.of (requestStatus { s with sbc.statusTimer := none }) = View.of s :=
      view_congr (fun _ => by rw [work.ziu]) (fun _ => by rw [work.pv]) (by rw [work.ctl]) (by rw [work.out]) (by rw [work.lvl])
        (by rw [work.perm])
    exact same work.cfg work.ctl view work.lvl (by rw [work.perm]) (by rw [work.perm]) (by rw [work.out]) (by rw [work.out])
  | clean z => exact same rfl rfl (view_setZoneRecord rfl) rfl rfl rfl rfl rfl
  | ramp =>
    have work := setOutput_linesOnly (min s.perm.target (s.perm.output + s.cfg.rampStep)) s
    exact same work.cfg work.ctl work.view (setOutput_lvl _ s) (setOutput_foldback _ s) (setOutput_target _ s)
      (setOutput_gen _ s) (setOutput_lamp _ s)
  | openContactor =>
    have work := startDrop_note s
    have view : View.of (startDrop s) = View.of s :=
      view_congr (fun _ => by rw [work.ziu]) (fun _ => by rw [work.pv]) (by rw [work.ctl]) (by rw [work.out]) (by rw [work.lvl])
        (by rw [work.perm])
    exact same work.cfg work.ctl view work.lvl (by rw [work.perm]) (by rw [work.perm]) (by rw [work.out]) (by rw [work.out])
  | _ => exact same rfl rfl rfl rfl rfl rfl rfl rfl

/-- Settles O14: every event ends in a resolve of the levels, caps and lines, and outside an event none of their inputs moves. -/
theorem stepsKeepDriveCurrent : Obligations.StepsKeepDriveCurrent := fun _ _ idle drive step =>
  (step_keeps (P := fun u => IdleUntilStart u ∧ DriveCurrent u)
    (fun _ r k => ⟨idle_reply k.1 r, k.2.of_same ⟨rfl, rfl, rfl, rfl, rfl, rfl, rfl, rfl, rfl⟩⟩)
    (fun _ l on k => ⟨idle_line k.1 on l, k.2.of_same ⟨rfl, rfl, rfl, rfl, rfl, rfl, rfl, rfl, rfl⟩⟩)
    (fun _ q d n k => ⟨idle_queue k.1 q d n, k.2.of_same ⟨rfl, rfl, rfl, rfl, rfl, rfl, rfl, rfl, rfl⟩⟩)
    (fun u _ k => ⟨idle_elapse k.1, k.2.of_same ⟨rfl, rfl, rfl, view_elapse u, rfl, rfl, rfl, rfl, rfl⟩⟩)
    (fun _ _ k e => ⟨effect_idle k.1 e, effect_drive k.1 k.2 e⟩) ⟨idle, drive⟩ step).2

end Sys2Proof.Machine
end

section
/-! The output cap, the re-arm hold, the duties and the contactor stay consistent (R121 to R144). -/

namespace Sys2Proof.Machine

/-- What the Output Unit keeps up while an event is in progress, before the levels and lines follow. -/
structure OutputsReady (s : State) : Prop where
  capped : s.perm.output ≤ s.perm.target
  low : s.out.gen = false → s.perm.output = 0
  held : s.out.rearm.isSome = true → s.perm.output = 0 ∧ s.out.gen = true
  pendingDuty : s.ctl.held = false → s.out.pendingDuty = 50 + 9 * s.perm.output / 10
  activeDuty : s.ctl.held = false → 50 ≤ s.out.activeDuty ∧ s.out.activeDuty ≤ 950
  drop : s.out.contactorTimer.isSome = true ↔ s.out.contactor = .dropping
  fitted : s.cfg.contactorFitted = false → s.out.contactor = .opened

theorem OutputsConsistent.ready {s : State} (h : OutputsConsistent s) : OutputsReady s :=
  ⟨h.capped.1, fun k => h.zero (.inl k), fun k => ⟨h.zero (.inr (.inr k)), h.hold k⟩, h.pendingDuty, h.activeDuty, h.drop, h.fitted⟩

/-- With the levels current, GEN is low while the trip latch is set. -/
theorem OutputsReady.consistent {s : State} (h : OutputsReady s) (drive : DriveCurrent s) (bound : s.perm.target ≤ 1000) :
    OutputsConsistent s where
  capped := ⟨h.capped, bound⟩
  zero
    | .inl k => h.low k
    | .inr (.inl k) => h.low (drive.atStop (drive.tripped k)).2.2.2
    | .inr (.inr k) => (h.held k).1
  trip k := (drive.atStop (drive.tripped k)).2.2.2
  hold k := (h.held k).2
  pendingDuty := h.pendingDuty
  activeDuty := h.activeDuty
  drop := h.drop
  fitted := h.fitted

theorem OutputsReady.of_same {s t : State} (h : OutputsReady s) (perm : t.perm.output = s.perm.output ∧ t.perm.target = s.perm.target)
    (out : t.out = { s.out with tripLatch := t.out.tripLatch }) (held : t.ctl.held = s.ctl.held)
    (cfg : t.cfg.contactorFitted = s.cfg.contactorFitted) : OutputsReady t := by
  obtain ⟨output, target⟩ := perm
  constructor
  · rw [output, target]; exact h.capped
  · rw [out, output]; exact h.low
  · rw [out, output]; exact h.held
  · rw [held, out, output]; exact h.pendingDuty
  · rw [held, out]; exact h.activeDuty
  · rw [out]; exact h.drop
  · rw [cfg, out]; exact h.fitted

/-- R124, R134: an output cap brought within the target cap, with its duty handed on. -/
theorem OutputsReady.setOutput {s : State} (h : OutputsReady s) {o : Nat} (capped : o ≤ s.perm.target)
    (low : o = 0 ∨ s.out.gen = true ∧ s.out.rearm = none) : OutputsReady (setOutput o s) := by
  unfold Machine.setOutput
  split
  · exact h
  · refine ⟨capped, fun k => ?_, fun k => ?_, fun _ => rfl, h.activeDuty, h.drop, h.fitted⟩
    · rcases low with z | ⟨g, -⟩
      · exact z
      · exact absurd (g.symm.trans k) (by decide)
    · rcases low with z | ⟨-, r⟩
      · exact ⟨z, (h.held k).2⟩
      · exact absurd k (by rw [show (_ : State).out.rearm = s.out.rearm from rfl, r]; decide)

theorem OutputsReady.trip {s : State} (h : OutputsReady s) : OutputsReady (setTrip s) := by
  unfold setTrip
  split
  · exact h
  · have set : OutputsReady { s with out.tripLatch := true } := h.of_same ⟨rfl, rfl⟩ rfl rfl rfl
    exact (set.setOutput (Nat.zero_le _) (.inl rfl)).of_same ⟨rfl, rfl⟩ rfl rfl rfl

/-! ### An event -/

theorem foldbackOf_le (slo shi x : Nat) : foldbackOf slo shi x ≤ 1000 := by
  unfold foldbackOf
  split_ifs with low high
  · exact le_rfl
  · exact Nat.div_le_of_le_mul (by rw [Nat.mul_comm (shi - slo)]; exact Nat.mul_le_mul_left _ (by omega))
  · exact Nat.zero_le _

theorem DriveCurrent.target_le {s : State} (h : DriveCurrent s) (caps : ∀ i : Fin 4, s.cfg.baseCaps[i] ≤ 1000) : s.perm.target ≤ 1000 := by
  have base : baseCap s.cfg s.lvl.lapp ≤ 1000 := by
    unfold baseCap
    split
    · next k => exact caps ⟨_, k⟩
    · exact Nat.zero_le _
  have factor : s.perm.foldback ≤ 1000 := by rw [h.foldback]; exact foldbackOf_le _ _ _
  rw [h.target]
  exact Nat.div_le_of_le_mul (Nat.mul_le_mul base factor)

theorem settle_ready {b u : State} (h : OutputsReady u) : OutputsReady (settle b u) := by
  have follows := settle_follows b u
  have held := settle_held b u
  have cfg := settle_cfg b u
  have active := settle_activeDuty b u
  generalize settle b u = t at *
  have lines := follows.lines
  have fall := lines.fall
  have capped : t.perm.output ≤ t.perm.target := by
    rcases lines.cap with ⟨-, k⟩ | ⟨-, rise, same | zero⟩
    · exact k
    · rw [same]; exact h.capped.trans rise
    · rw [zero]; exact Nat.zero_le _
  have zero (k : u.perm.output = 0) : t.perm.output = 0 := by omega
  refine ⟨capped, fun k => ?_, fun k => ?_, fun k => ?_, ?_, ?_, ?_⟩
  · rcases lines.low k with ⟨-, e⟩ | ⟨g, -⟩
    · exact e
    · exact zero (h.low g)
  · cases gen : t.out.gen with
    | false =>
      rcases lines.low gen with ⟨e, -⟩ | ⟨g, e⟩
      · rw [e] at k; cases k
      · rw [e] at k
        exact absurd (g.symm.trans (h.held k).2) (by decide)
    | true =>
      refine ⟨?_, rfl⟩
      rcases lines.high gen with ⟨-, e⟩ | ⟨-, e⟩
      · cases g : u.out.gen with
        | false => exact zero (h.low g)
        | true => exact e g
      · rw [e] at k
        exact zero (h.held k).1
  · rcases lines.duty with ⟨o, d⟩ | d
    · rw [o, d]; exact h.pendingDuty (by rw [← held]; exact k)
    · exact d
  · rw [held, active]; exact h.activeDuty
  · have contactor := follows.contactor
    split at contactor
    · rw [contactor.1, contactor.2]; simp
    · rw [contactor.1, contactor.2]; exact h.drop
  · rw [cfg]
    intro k
    have opened := h.fitted k
    have contactor := follows.contactor
    rw [if_neg (by rw [opened]; nofun)] at contactor
    rw [contactor.1, opened]

theorem settle_outputs {b u : State} (h : OutputsReady u) (caps : ∀ i : Fin 4, u.cfg.baseCaps[i] ≤ 1000) :
    OutputsConsistent (settle b u) :=
  (settle_ready h).consistent (settle_drive b u) ((settle_drive b u).target_le (by rw [settle_cfg]; exact caps))

theorem change_ready {s u : State} (h : OutputsReady s) (c : Change s u) : OutputsReady u := by
  cases c with
  | assertion n =>
    have input := takeAssertion_work n (setLine n true s)
    have taken : OutputsReady (takeAssertion n (setLine n true s)) :=
      h.of_same ⟨by rw [input.perm]; rfl, by rw [input.perm]; rfl⟩ (by rw [input.out]; rfl) (by rw [input.ctl]; rfl) (by rw [input.cfg]; rfl)
    unfold takeTrip
    split
    · exact taken.trip
    · exact taken
  | inputRelease n =>
    have input := takeRelease_work n (setLine n false s)
    exact h.of_same ⟨by rw [input.perm]; rfl, by rw [input.perm]; rfl⟩ (by rw [input.out]; rfl) (by rw [input.ctl]; rfl) (by rw [input.cfg]; rfl)
  | start =>
    have ready : OutputsReady (startReady s) := by
      have loaded : OutputsReady (startLoaded s) :=
        h.of_same ⟨by rw [startLoaded_perm], by rw [startLoaded_perm]⟩ (by rw [startLoaded_out]) (by rw [startLoaded_ctl])
          (by rw [startLoaded_cfg]; rfl)
      rw [startReady_eq]
      unfold sampleTrip
      split
      · exact loaded.trip.of_same ⟨rfl, rfl⟩ rfl rfl rfl
      · exact loaded.of_same ⟨rfl, rfl⟩ rfl rfl rfl
    have input := watchInputs_work (startReady s)
    have watched : OutputsReady (watchInputs (startReady s)) :=
      ready.of_same ⟨by rw [input.perm], by rw [input.perm]⟩ (by rw [input.out]) (by rw [input.ctl]) (by rw [input.cfg])
    exact watched
  | completes l f =>
    have work := completeFrame_work f.kind s
    exact h.of_same ⟨by rw [work.perm], by rw [work.perm]⟩ (by rw [work.out]) (by rw [work.ctl]) (by rw [work.cfg])
  | hello p role g =>
    have noticed : OutputsReady (raiseIf (!(s.pv.peers[p]).expected) .notice s) := by
      cases (!(s.pv.peers[p]).expected)
      · exact h
      · exact h.of_same ⟨rfl, rfl⟩ rfl rfl rfl
    exact noticed.of_same ⟨rfl, rfl⟩ rfl rfl rfl
  | _ => exact h.of_same ⟨rfl, rfl⟩ rfl rfl rfl

/-! ### The other effects -/

theorem resetDone_ready {s : State} (h : OutputsReady s) : OutputsReady (resetDone s) := by
  have perm := resetDone_perm s
  have out := resetDone_out s
  have ctl := resetDone_ctl s
  have cfg := resetDone_cfg s
  generalize resetDone s = t at *
  constructor
  · rw [perm]; exact le_rfl
  · rw [perm]; exact fun _ => rfl
  · rw [out]; exact nofun
  · rw [out, perm]; exact fun _ => rfl
  · rw [ctl, out]; exact h.activeDuty
  · rw [out]; exact h.drop
  · rw [cfg, out]; exact h.fitted

theorem OutputsConsistent.of_same {s t : State} (h : OutputsConsistent s) (perm : t.perm = s.perm) (out : t.out = s.out)
    (held : t.ctl.held = s.ctl.held) (cfg : t.cfg.contactorFitted = s.cfg.contactorFitted) : OutputsConsistent t := by
  constructor
  · rw [perm]; exact h.capped
  · rw [out, perm]; exact h.zero
  · rw [out]; exact h.trip
  · rw [out]; exact h.hold
  · rw [held, out, perm]; exact h.pendingDuty
  · rw [held, out]; exact h.activeDuty
  · rw [out]; exact h.drop
  · rw [cfg, out]; exact h.fitted

theorem hostReset_outputs {s : State} (caps : ∀ i : Fin 4, s.cfg.baseCaps[i] ≤ 1000) (h : OutputsConsistent s) (idle : IdleUntilStart s) :
    OutputsConsistent (hostResetState s) := by
  have done := resetDone_ready h.ready
  refine hostReset_keeps (fun _ _ k => k.of_same rfl rfl rfl rfl) s (fun k => ?_) fun _ => ?_
  · have out := resetDone_out s
    exact done.consistent (driveCurrent_unstarted (resetDone_unstarted (idle.unstarted k) k) (by rw [out]) fun _ => by rw [out])
      (by rw [resetDone_perm]; decide)
  · have input := watchInputs_work (resetReady (resetDone s))
    have watched : OutputsReady (watchInputs (resetReady (resetDone s))) :=
      done.of_same ⟨by rw [input.perm]; rfl, by rw [input.perm]; rfl⟩ (by rw [input.out]; rfl) (by rw [input.ctl]; rfl)
        (by rw [input.cfg]; rfl)
    exact settle_outputs watched (by rw [input.cfg, resetReady_cfg, resetDone_cfg]; exact caps)

/-- R122: a rise of the output cap, which the target cap bounds and which needs GEN high and no re-arm hold. -/
theorem ramp_outputs {s : State} (h : OutputsConsistent s) (r : rampReady s = true) :
    OutputsConsistent (setOutput (min s.perm.target (s.perm.output + s.cfg.rampStep)) s) := by
  have work := setOutput_linesOnly (min s.perm.target (s.perm.output + s.cfg.rampStep)) s
  simp only [rampReady, Bool.and_eq_true, decide_eq_true_eq, Option.isNone_iff_eq_none] at r
  obtain ⟨⟨⟨-, gen⟩, rearm⟩, -⟩ := r
  have untripped : s.out.tripLatch = false := by
    rw [Bool.eq_false_iff]
    exact fun k => absurd (gen.symm.trans (h.trip k)) (by decide)
  have ready := h.ready.setOutput (Nat.min_le_left s.perm.target (s.perm.output + s.cfg.rampStep)) (.inr ⟨gen, rearm⟩)
  refine ⟨⟨ready.capped, ?_⟩, ?_, ?_, fun k => (ready.held k).2, ready.pendingDuty, ready.activeDuty, ready.drop, ready.fitted⟩
  · rw [setOutput_target]; exact h.capped.2
  · rw [work.tripLatch, setOutput_gen, setOutput_rearm, gen, untripped, rearm]; nofun
  · rw [work.tripLatch, untripped]; nofun

theorem effect_outputs {s t : State} (idle : IdleUntilStart s) (config : ConfigInRange s) (h : OutputsConsistent s)
    (e : Effect s t) : OutputsConsistent t := by
  have after := effect_config idle config e
  have load (m : s.ctl.mode = .unconfigured) (ctl : t.ctl = s.ctl) (perm : t.perm = s.perm) (out : t.out = s.out) :
      OutputsConsistent t := by
    constructor
    · rw [perm]; exact h.capped
    · rw [out, perm]; exact h.zero
    · rw [out]; exact h.trip
    · rw [out]; exact h.hold
    · rw [ctl, out, perm]; exact h.pendingDuty
    · rw [ctl, out]; exact h.activeDuty
    · rw [out]; exact h.drop
    · rw [out]; exact fun _ => idle.contactor m
  cases e with
  | settled u c =>
    have caps := after.caps
    rw [settle_cfg] at caps
    exact settle_outputs (change_ready h.ready c) fun i => (caps i).1
  | hostReset l => exact hostReset_outputs (fun i => (config.caps i).1) h idle
  | hostResetPin l => exact (hostReset_outputs (fun i => (config.caps i).1) h idle).of_same rfl rfl rfl rfl
  | powerOn =>
    constructor <;> simp [heldInReset, State.powerOn, Permission.initial, Outputs.inReset, Outputs.initial]
  | powerUp => constructor <;> simp [releaseStation, State.powerOn, Permission.initial, Outputs.initial]
  | setTiming item value m => exact load m rfl rfl rfl
  | setZone z l1 l2 l3 delay attrs m => exact load m rfl rfl rfl
  | setInput n flags qualify heal cls severity zone c m => exact load m rfl rfl rfl
  | setLevels b v m => exact load m rfl rfl rfl
  | setPeers expected group quorum m => exact load m rfl rfl rfl
  | statusTimer =>
    have work := requestStatus_work { s with sbc.statusTimer := none }
    exact h.of_same work.perm work.out (by rw [work.ctl]) (by rw [work.cfg])
  | dwell => exact { h with }
  | ramp l r => exact ramp_outputs h r
  | rearm =>
    exact { h with
      zero := fun k => h.zero (k.imp_right (·.imp_right nofun))
      hold := nofun }
  | pwm =>
    exact { h with
      activeDuty := fun k => by
        have duty := h.pendingDuty k
        obtain ⟨capped, bound⟩ := h.capped
        show 50 ≤ s.out.pendingDuty ∧ s.out.pendingDuty ≤ 950
        omega }
  | closeContactor f m o =>
    exact { h with
      drop := by
        have timer := h.drop
        rw [o] at timer
        exact timer.trans (by simp)
      fitted := fun k => absurd (f.symm.trans k) (by decide) }
  | openContactor f =>
    have work := startDrop_note s
    constructor
    · rw [work.perm]; exact h.capped
    · rw [work.out, work.perm]; exact h.zero
    · rw [work.out]; exact h.trip
    · rw [work.out]; exact h.hold
    · rw [work.ctl, work.out, work.perm]; exact h.pendingDuty
    · rw [work.ctl, work.out]; exact h.activeDuty
    · exact startDrop_contactor s h.drop
    · rw [work.cfg]; exact fun k => absurd (f.symm.trans k) (by decide)
  | contactorDelay =>
    exact { h with
      drop := by simp
      fitted := fun _ => rfl }
  | _ => exact h.of_same rfl rfl rfl rfl

theorem ConfigInRange.of_same {s t : State} (h : ConfigInRange s) (cfg : t.cfg = s.cfg) (started : t.ctl.started = s.ctl.started) :
    ConfigInRange t := by
  rw [configInRange_iff, cfg, started, ← configInRange_iff]; exact h

theorem elapse_outputs {s : State} (h : OutputsConsistent s) : OutputsConsistent (elapse s) := by
  have runs (t : Timer) : (Timer.elapse t).isSome = t.isSome := by simp [Timer.elapse]
  exact { h with
    zero := fun k => h.zero (k.imp_right (·.imp_right fun r => (runs _).symm.trans r))
    hold := fun k => h.hold ((runs _).symm.trans k)
    drop := (Bool.eq_iff_iff.mp (runs _)).trans h.drop }

/-- Settles O15: each event keeps the output cap within the target cap that its resolve forms, and at 0 where GEN is low. -/
theorem stepsKeepOutputsConsistent : Obligations.StepsKeepOutputsConsistent := fun _ _ idle config _ outputs step =>
  (step_keeps (P := fun u => IdleUntilStart u ∧ ConfigInRange u ∧ OutputsConsistent u)
    (fun _ r k => ⟨idle_reply k.1 r, k.2.1.of_same rfl rfl, k.2.2.of_same rfl rfl rfl rfl⟩)
    (fun _ l on k => ⟨idle_line k.1 on l, k.2.1.of_same rfl rfl, k.2.2.of_same rfl rfl rfl rfl⟩)
    (fun _ q d n k => ⟨idle_queue k.1 q d n, k.2.1.of_same rfl rfl, k.2.2.of_same rfl rfl rfl rfl⟩)
    (fun _ _ k => ⟨idle_elapse k.1, k.2.1.of_same rfl rfl, elapse_outputs k.2.2⟩)
    (fun _ _ k e => ⟨effect_idle k.1 e, effect_config k.1 k.2.1 e, effect_outputs k.1 k.2.1 k.2.2 e⟩)
    ⟨idle, config, outputs⟩ step).2.2

end Sys2Proof.Machine
end

section
/-! What an event never does of itself: the state that only named commands change (R154, R157, R162, R101, R123, R139, R142, R171), said
once of every change that leaves it alone. -/

namespace Sys2Proof.Machine

/-- The state that only named commands change is in `t` as in `s`, but that a contactor may open or drop, the trip latch be set, the
output cap fall and flags be raised. -/
structure Guarded (s t : State) : Prop where
  pending : t.pending = s.pending
  due : t.due = s.due
  cfg : t.cfg = s.cfg
  ctl : t.ctl = { s.ctl with mode := t.ctl.mode }
  contactor : t.out.contactor = .closed → s.out.contactor = .closed
  trip : s.out.tripLatch = true → t.out.tripLatch = true
  output : t.perm.output ≤ s.perm.output
  floor : t.lvl.floor = s.lvl.floor
  flags : ∀ f, s.isPending f = true → t.isPending f = true
  expected : ∀ p : Station, (t.pv.peers[p]).expected = (s.pv.peers[p]).expected

theorem Guarded.refl (s : State) : Guarded s s :=
  ⟨rfl, rfl, rfl, rfl, id, id, le_rfl, rfl, fun _ => id, fun _ => rfl⟩

theorem Guarded.trans {a b c : State} (h : Guarded a b) (k : Guarded b c) : Guarded a c where
  pending := k.pending.trans h.pending
  due := k.due.trans h.due
  cfg := k.cfg.trans h.cfg
  ctl := by rw [k.ctl, h.ctl]
  contactor := h.contactor ∘ k.contactor
  trip := k.trip ∘ h.trip
  output := k.output.trans h.output
  floor := k.floor.trans h.floor
  flags f := k.flags f ∘ h.flags f
  expected p := (k.expected p).trans (h.expected p)

/-- Nothing of that state is touched. -/
theorem Guarded.same {s t : State} (pending : t.pending = s.pending) (due : t.due = s.due) (cfg : t.cfg = s.cfg) (ctl : t.ctl = s.ctl)
    (contactor : t.out.contactor = s.out.contactor) (trip : t.out.tripLatch = s.out.tripLatch)
    (output : t.perm.output = s.perm.output) (floor : t.lvl.floor = s.lvl.floor) (flags : t.port.flags = s.port.flags)
    (peers : t.pv.peers = s.pv.peers) : Guarded s t where
  pending := pending
  due := due
  cfg := cfg
  ctl := by rw [ctl]
  contactor := by rw [contactor]; exact id
  trip := by rw [trip]; exact id
  output := output.le
  floor := floor
  flags f := by rw [isPending_congr flags]; exact id
  expected _ := by rw [peers]

theorem Guarded.raise {s t : State} (h : Guarded s t) (f : Flag) : Guarded s (raise f t) :=
  { h with flags := fun g k => by rw [isPending_raise, h.flags g k, Bool.true_or] }

theorem Guarded.setPeer {s t : State} (h : Guarded s t) {p : Station} {r : PeerRecord} (e : r.expected = (t.pv.peers[p]).expected) :
    Guarded s (setPeer p r t) :=
  { h with
    expected := fun q => by
      rw [setPeer_peers, getElem_set_fin]
      split
      · next k => rw [e, k, h.expected]
      · exact h.expected q }

theorem Guarded.work {s t : State} (h : InputWork s t) : Guarded s t :=
  .same h.pending h.due (by rw [h.rest]) h.ctl (by rw [h.out]) (by rw [h.out]) (by rw [h.perm]) (by rw [h.lvl]) (by rw [h.port])
    (by rw [h.pv])

theorem Guarded.bus {s t : State} (h : BusWork s t) : Guarded s t :=
  .same h.pending h.due h.cfg h.ctl (by rw [h.out]) (by rw [h.out]) (by rw [h.perm]) (by rw [h.lvl]) (by rw [h.port]) (by rw [h.pv])

theorem Guarded.trigger {s t : State} (h : TriggerWork s t) : Guarded s t :=
  .same h.pending h.due h.cfg h.ctl (by rw [h.out]) (by rw [h.out]) (by rw [h.perm]) (by rw [h.lvl]) (by rw [h.port]) (by rw [h.pv])

/-- R124, R138: the trip latch set. -/
theorem Guarded.setTrip {s t : State} (h : Guarded s t) : Guarded s (setTrip t) := by
  have work := setTrip_work t
  rcases setTrip_cases t with ⟨-, e⟩ | ⟨-, set, zero, raised⟩
  · rw [e]; exact h
  · refine h.trans ⟨work.pending, work.due, work.cfg, by rw [work.ctl], by rw [work.out]; exact id, fun _ => set, ?_, by rw [work.lvl],
      fun f k => ?_, fun _ => by rw [work.pv]⟩
    · rw [zero]; exact Nat.zero_le _
    · have e : (Machine.setTrip t).isPending f = (Machine.raise .trip t).isPending f := isPending_congr raised f
      rw [e, isPending_raise, k, Bool.true_or]

theorem Guarded.takeTrip {s t : State} (h : Guarded s t) (n : Input) : Guarded s (takeTrip n t) := by
  unfold Machine.takeTrip
  split
  · exact h.setTrip
  · exact h

theorem Guarded.sampleTrip {s t : State} (h : Guarded s t) : Guarded s (sampleTrip t) := by
  unfold Machine.sampleTrip
  split
  · exact h.setTrip
  · exact h

theorem Guarded.startDrop (s : State) : Guarded s (startDrop s) := by
  have work := startDrop_note s
  refine ⟨work.pending, work.due, work.cfg, by rw [work.ctl], ?_, by rw [work.out]; exact id, by rw [work.perm], by rw [work.lvl],
    fun f k => by rw [startDrop_pending, k, Bool.true_or], fun _ => by rw [work.pv]⟩
  rcases startDrop_linesOnly_or s with e | ⟨k, -⟩
  · rw [e]; exact id
  · exact fun _ => k

/-! ### What follows within the event -/

/-- R171: no event takes a flag back. -/
theorem settle_flags {b u : State} (f : Flag) (h : u.isPending f = true) : (settle b u).isPending f = true := by
  have follows := settle_follows b u
  generalize settle b u = t at *
  cases f with
  | level => exact follows.level (.inl h)
  | zone => exact follows.zone.mpr (.inl h)
  | peer => exact follows.peer.mpr (.inl h)
  | contactor => exact follows.drop.mpr (.inl h)
  | trip => rw [follows.others _ (.inl rfl)]; exact h
  | stale => rw [follows.others _ (.inr (.inl rfl))]; exact h
  | notice => rw [follows.others _ (.inr (.inr (.inl rfl)))]; exact h
  | spi => rw [follows.others _ (.inr (.inr (.inr rfl)))]; exact h

theorem Guarded.settle {s u : State} (h : Guarded s u) (b : State) : Guarded s (settle b u) := by
  refine h.trans ⟨settle_pending b u, settle_due b u, settle_cfg b u, (settle_kept b u).1.ctl, ?_, by rw [settle_tripLatch]; exact id,
    settle_output_le b u, settle_floor b u, settle_flags, fun _ => by rw [settle_peers]⟩
  have follows := (settle_follows b u).contactor
  generalize Machine.settle b u = t at *
  split at follows
  · next k => exact fun _ => k.1
  · rw [follows.1]; exact id

/-- R58, R159: of itself the node mode moves at the end of a join alone. -/
abbrev Stays (s t : State) : Prop :=
  t.ctl.mode = s.ctl.mode ∨ (s.ctl.mode = .joining ∧ t.ctl.mode = .running ∧ joinComplete t = true)

theorem settle_stays (b u : State) : Stays u (settle b u) := by
  have follows := (settle_follows b u).mode
  have complete : joinComplete (settle b u) = joinComplete u := joinComplete_congr (settle_peers b u)
  generalize settle b u = t at *
  split at follows
  · next k => exact .inr ⟨k.1, follows.1, complete.trans k.2⟩
  · exact .inl follows.1

/-- What a command does that is named for none of this state. -/
structure Meek (s t : State) : Prop where
  guarded : Guarded s t
  stays : Stays s t

theorem Guarded.meek {s t : State} (h : Guarded s t) (m : t.ctl.mode = s.ctl.mode) : Meek s t := ⟨h, .inl m⟩

theorem Meek.refl (s : State) : Meek s s := (Guarded.refl s).meek rfl

theorem Guarded.settled {s u : State} (h : Guarded s u) (m : u.ctl.mode = s.ctl.mode) (b : State) : Meek s (Machine.settle b u) :=
  ⟨h.settle b, by
    have stays := settle_stays b u
    rwa [Stays, m] at stays⟩

theorem meek_if {s u : State} {c : Prop} [Decidable c] (h : Meek s u) : Meek s (if c then u else s) := by
  split
  · exact h
  · exact .refl s

/-- R57, R58: a join that ends in an event ends with a change of a presence, unless it was complete before. -/
theorem Guarded.presence {s t : State} (h : Guarded s t) (complete : joinComplete t = true) (waits : joinComplete s = false) :
    ∃ p : Station, (t.pv.peers[p]).presence ≠ (s.pv.peers[p]).presence := by
  by_contra none
  simp only [not_exists, not_not] at none
  have same : joinComplete t = joinComplete s := by simp only [joinComplete, none, h.expected]
  exact absurd (complete.symm.trans (same.trans waits)) (by decide)

/-! ### Received frames -/

theorem takePeerFrame_meek (f : Frame) (s : State) : Meek s (takePeerFrame f s) := by
  cases f with
  | hello p role group =>
    have noticed : Guarded s (raiseIf (!(s.pv.peers[p]).expected) .notice s) := by
      cases (!(s.pv.peers[p]).expected)
      · exact .refl s
      · exact (Guarded.refl s).raise .notice
    have ctl : (raiseIf (!(s.pv.peers[p]).expected) .notice s).ctl = s.ctl := (raiseIf_note _ _ s).ctl
    exact (noticed.setPeer (r := heardHello s.cfg s.ctl.nodeTime role group (s.pv.peers[p])) (by rw [noticed.expected]; rfl)).settled
      (by rw [setPeer_ctl, ctl]) s
  | status p join attest selfIsolated more group lown lapp list =>
    have heard : Guarded s (setPeer p
        (heardStatus s.cfg s.ctl.nodeTime join group ⟨lown, lapp, attest, selfIsolated, more⟩ list (s.pv.peers[p])) s) :=
      (Guarded.refl s).setPeer rfl
    exact heard.settled rfl s
  | leave p =>
    have heard : Guarded s (setPeer p (heardLeave s.cfg s.ctl.nodeTime (s.pv.peers[p])) s) := (Guarded.refl s).setPeer rfl
    exact heard.settled rfl s

theorem deliver_meek (f : Frame) (s : State) : Meek s (deliver f s) := by
  unfold deliver
  split_ifs
  · exact .refl s
  · have latched : Guarded s { s with sbc.duplicateLatch := true, ziu.derived.duplicate := true } :=
      .same rfl rfl rfl rfl rfl rfl rfl rfl rfl rfl
    exact (latched.raise .notice).settled rfl s
  · exact takePeerFrame_meek f s

theorem receiveSample_meek (b : Bool) (s : State) : Meek s (receiveSample b s) := by
  have heard (l : Line) : Guarded s { s with sbc.line := l } := .same rfl rfl rfl rfl rfl rfl rfl rfl rfl rfl
  unfold receiveSample
  split
  · split
    · next m f e =>
      have after := deliver_meek f { s with sbc.line := m }
      exact ⟨(heard m).trans after.guarded, after.stays⟩
    · exact (heard _).meek rfl
  · exact .refl s

theorem receiveSamples_guarded (bits : List Bool) : ∀ s : State, Guarded s (receiveSamples bits s) := by
  induction bits with
  | nil => exact .refl
  | cons b bs ih => exact fun s => (receiveSample_meek b s).guarded.trans (ih _)

/-- R39, R58: where samples of the line bring the join to its end, one of them does. -/
theorem receiveSamples_mode (bits : List Bool) : ∀ s : State, (receiveSamples bits s).ctl.mode = s.ctl.mode
    ∨ (s.ctl.mode = .joining ∧ (receiveSamples bits s).ctl.mode = .running
      ∧ ∃ before after, bits = before ++ after ∧ joinComplete (receiveSamples before s) = true) := by
  induction bits with
  | nil => exact fun _ => .inl rfl
  | cons b bs ih =>
    intro s
    have rest := ih (receiveSample b s)
    have unfolds (l : List Bool) : receiveSamples (b :: l) s = receiveSamples l (receiveSample b s) := rfl
    rw [unfolds]
    rcases (receiveSample_meek b s).stays with same | ⟨j, r, complete⟩
    · rw [same] at rest
      refine rest.imp_right fun ⟨j, r, before, after, e, complete⟩ => ⟨j, r, b :: before, after, by rw [e]; rfl, ?_⟩
      rw [unfolds]; exact complete
    · refine .inr ⟨j, ?_, [b], bs, rfl, complete⟩
      rcases rest with e | ⟨k, -⟩
      · rw [e, r]
      · rw [r] at k; cases k

end Sys2Proof.Machine
end

section
/-! What each command can do to the state that only named commands change, and to the node mode: every command is meek but for the ones
that the manual names. -/

namespace Sys2Proof.Machine

/-- What command `d` leaves of `s`, but for the reply: a command named for a part of the protected state makes its own change to it, and
what follows is meek. -/
inductive Gentle (d : Instr) (s : State) : State → Prop where
  | meek {t : State} (h : Meek s t) : Gentle d s t
  | load {t : State} (c : Store) (m : s.ctl.mode = .unconfigured) (h : Meek { s with cfg := c } t) : Gentle d s t
  | start {t : State} (tail : Tail) (e : d = .start tail) (m : s.ctl.mode = .unconfigured)
    (peers : t.pv.peers = (startReady s).pv.peers) (h : Meek (startReady s) t) : Gentle d s t
  | floor {t : State} (level : Byte) (tail : Tail) (e : d = .floor level tail) (l : Level) (h : Meek { s with lvl.floor := l } t) :
    Gentle d s t
  | tripClear {t : State} (tail : Tail) (e : d = .tripClear tail) (h : Meek { s with out.tripLatch := false } t) : Gentle d s t
  | close (tail : Tail) (e : d = .contactorClose tail) : Gentle d s { s with out.contactor := .closed }
  | ramp (e : d = .rampExpiry) : Gentle d s (setOutput (min s.perm.target (s.perm.output + s.cfg.rampStep)) s)
  | ack (mask : Byte) (tail : Tail) (e : d = .ack mask tail) : Gentle d s (withFlags (ackFlags s.port.flags mask) s)
  | flagTest (setMask clearMask : Byte) (tail : Tail) (e : d = .flagTest setMask clearMask tail) :
    Gentle d s (withFlags (testFlags s.port.flags setMask clearMask) s)
  | depart {t : State} (tail : Tail) (e : d = .depart tail) (m : s.ctl.mode = .joining ∨ s.ctl.mode = .running)
    (h : Meek { s with ctl.mode := .departed } t) : Gentle d s t
  | rejoin {t : State} (tail : Tail) (e : d = .rejoin tail) (m : s.ctl.mode = .departed) (peers : t.pv.peers = s.pv.peers)
    (h : Meek { s with ctl.mode := .joining } t) : Gentle d s t
  | deadline {t : State} (e : d = .joinDeadlineExpiry) (m : s.ctl.mode = .joining) (h : Meek { s with ctl.mode := .running } t) :
    Gentle d s t
  | samples (idle : Nat) (bits : List Bool) (e : d = .hello idle bits ∨ d = .status idle bits ∨ d = .leave idle bits)
    (held : s.ctl.held = false) : Gentle d s (receiveSamples (List.replicate idle true ++ bits) s)
  | frameStart {t : State} (idle : Nat) (e : d = .frameStart idle) (held : s.ctl.held = false)
    (h : t = { receiveSamples (List.replicate idle true) s with sbc := t.sbc }) : Gentle d s t
  | reset (e : (∃ tail, d = .reset tail) ∨ ∃ low, d = .hostReset low) (held : s.ctl.held = false) (low : Bool) :
    Gentle d s { hostResetState s with pins.rstLow := low }
  | powerOn (e : d = .powerOnReset) : Gentle d s (heldInReset s)
  | powerUp (straps : Straps) (ready : Nat) (e : d = .releaseFromReset straps ready) (held : s.ctl.held = true) :
    Gentle d s (releaseStation straps s)

/-- What a command leaves, with the reply that it forms. -/
def Gently (d : Instr) (s t : State) : Prop := ∃ u, Gentle d s u ∧ (t = u ∨ ∃ r, t = { u with port.reply := r })

theorem Gently.of {d : Instr} {s t : State} (h : Gentle d s t) : Gently d s t := ⟨t, h, .inl rfl⟩

theorem Gently.reply {d : Instr} {s t : State} (h : Gently d s t) (r : Option (List Byte)) : Gently d s { t with port.reply := r } := by
  obtain ⟨u, g, e⟩ := h
  refine ⟨u, g, .inr ⟨r, ?_⟩⟩
  rcases e with e | ⟨_, e⟩ <;> rw [e]

theorem gently_next {d : Instr} {s u t : State} (h : Gentle d s u) (e : (Host.Outcome.next u : Result) = .next t) : Gently d s t := by
  injection e with e
  exact .of (e ▸ h)

theorem gently_taken {d : Instr} {command : Byte} {args : List Byte} {tail : Tail} {n : Nat} {owner : State → Answer} {s t : State}
    (h : hostRequest command args tail n owner s = .next t) (ho : s.ctl.held = false → Gentle d s (owner s).state) : Gently d s t := by
  rcases hostRequest_cases command args tail n owner s with ⟨-, e⟩ | ⟨-, -, e⟩ | ⟨taken, e⟩
  · obtain ⟨r, k⟩ := turnAway_reply s
    rw [e, k] at h
    injection h with h
    exact ⟨s, .meek (.refl s), .inr ⟨r, h.symm⟩⟩
  · rw [e] at h
    injection h with h
    exact ⟨raise .spi s, .meek (((Guarded.refl s).raise .spi).meek rfl), .inr ⟨_, h.symm⟩⟩
  · rw [e] at h
    injection h with h
    exact ⟨_, ho (takes_held taken.1), .inr ⟨_, h.symm⟩⟩

theorem gently_request {d : Instr} {command : Byte} {args : List Byte} {tail : Tail} {n : Nat} {owner : State → Answer} {s t : State}
    (h : hostRequest command args tail n owner s = .next t) (ho : Gentle d s (owner s).state) : Gently d s t :=
  gently_taken h fun _ => ho

theorem gently_event {d : Instr} {s t : State} {f : State → State} (h : event s f = .next t)
    (hf : s.ctl.held = false → Gentle d s (f s)) : Gently d s t := by
  rcases event_cases s f with ⟨-, e⟩ | ⟨held, e⟩
  · rw [e] at h; exact gently_next (.meek (.refl s)) h
  · rw [e] at h; exact gently_next (hf held) h

theorem gentle_whenStarted {d : Instr} {s : State} {a : Answer} (h : Gentle d s a.state) : Gentle d s (whenStarted s a).state := by
  unfold whenStarted
  split
  · exact .meek (.refl s)
  · exact h

theorem gentle_whenUnconfigured {d : Instr} {s : State} {a : Answer} (h : s.ctl.mode = .unconfigured → Gentle d s a.state) :
    Gentle d s (whenUnconfigured s a).state := by
  unfold whenUnconfigured
  split
  · next m => exact h m
  · exact .meek (.refl s)

/-- The configuration loaded, in UNCONFIGURED. -/
theorem gentle_load {d : Instr} {s t : State} (h : t = { s with cfg := t.cfg }) (m : s.ctl.mode = .unconfigured) : Gentle d s t :=
  .load t.cfg m (h ▸ .refl _)

theorem meek_accept {s t : State} (h : Meek s t) (b : Bool) : Meek s (accept b t).state := by rw [accept_state]; exact h

theorem gentle_accept {d : Instr} {s t : State} (h : Gentle d s t) (b : Bool) : Gentle d s (accept b t).state := by
  rw [accept_state]; exact h

/-! ### What the owners do -/

theorem declareFault_meek (c : FaultClass) (z : Zone) (v : Severity) (s : State) : Meek s (declareFault c z v s).state := by
  unfold declareFault
  split
  · split
    · next d _ _ x _ =>
      have set : Guarded s (setDeclaredSlot d (redeclareSlot s.cfg.escalation v x (s.lft.declared[d])) s) :=
        .same rfl rfl rfl rfl rfl rfl rfl rfl rfl rfl
      exact meek_accept (set.settled rfl s) false
    · exact .refl s
  · split
    · next d _ =>
      have set : Guarded s { setDeclaredSlot d ⟨some (declaredEntry s.cfg.escalation s.ctl.nodeTime c z v), none, none⟩ s with
          lft.pointer := d + 1 } := .same rfl rfl rfl rfl rfl rfl rfl rfl rfl rfl
      exact meek_accept (set.settled rfl s) false
    · exact .refl s

theorem withdrawFault_meek (c : FaultClass) (z : Zone) (s : State) : Meek s (withdrawFault c z s).state := by
  unfold withdrawFault
  split
  · split
    · next d _ _ x _ =>
      have set : Guarded s (setDeclaredSlot d (withdrawSlot s.cfg.declaredHeal x (s.lft.declared[d])) s) :=
        .same rfl rfl rfl rfl rfl rfl rfl rfl rfl rfl
      exact meek_accept (set.settled rfl s) false
    · exact .refl s
  · exact .refl s

theorem clearSlot_meek (name : SlotName) (s : State) : Meek s (clearSlot name s).state := by
  cases name with
  | input n =>
    have set : Guarded s (setInputSlot n Slot.empty s) := .same rfl rfl rfl rfl rfl rfl rfl rfl rfl rfl
    unfold clearSlot
    dsimp only
    split
    · exact .refl s
    · split
      · exact .refl s
      · exact meek_accept (set.settled rfl s) false
  | declared d =>
    have set : Guarded s (setDeclaredSlot d Slot.empty s) := .same rfl rfl rfl rfl rfl rfl rfl rfl rfl rfl
    unfold clearSlot
    dsimp only
    split
    · exact .refl s
    · exact meek_accept (set.settled rfl s) false

theorem releaseZone_meek (z : Zone) (w : Half) (s : State) : Meek s (releaseZone z w s).state := by
  have set : Guarded s (setZoneRecord z (releasedRecord s.cfg (s.ziu.zones[z])) s) := .same rfl rfl rfl rfl rfl rfl rfl rfl rfl rfl
  unfold releaseZone
  dsimp only
  split
  · exact .refl s
  · exact .refl s
  · exact .refl s
  · exact .refl s
  · split
    · split
      · exact meek_accept (set.settled rfl s) false
      · exact .refl s
    · exact .refl s

theorem openContactor_meek (s : State) : Meek s (openContactor s).state := by
  unfold openContactor
  split
  · exact meek_accept ((Guarded.startDrop s).meek (by rw [(startDrop_note s).ctl])) false
  · exact .refl s
  · exact .refl s

theorem closeContactor_gentle (tail : Tail) (s : State) : Gentle (.contactorClose tail) s (closeContactor s).state := by
  have idle : Gentle (.contactorClose tail) s s := .meek (.refl s)
  unfold closeContactor
  split
  · exact idle
  · exact idle
  · split
    · split
      · exact idle
      · exact .close tail rfl
    · exact idle

theorem startUnit_gentle (tail : Tail) {s : State} (m : s.ctl.mode = .unconfigured) : Gentle (.start tail) s (startUnit s).state := by
  have watched : Meek (startReady s) (settle s (watchInputs (startReady s))) :=
    (Guarded.work (watchInputs_work (startReady s))).settled (by rw [(watchInputs_work _).ctl]) s
  have peers : (settle s (watchInputs (startReady s))).pv.peers = (startReady s).pv.peers := by
    rw [settle_peers, (watchInputs_work _).pv]
  exact gentle_accept (.start tail rfl m peers watched) _

theorem depart_gentle (tail : Tail) {s : State} (m : s.ctl.mode = .joining ∨ s.ctl.mode = .running) :
    Gentle (.depart tail) s (departUnit s).state := by
  have moved : Guarded { s with ctl.mode := .departed } { s with ctl.mode := .departed, sbc := departBus s.sbc, pv.joinTimer := none } :=
    .same rfl rfl rfl rfl rfl rfl rfl rfl rfl rfl
  exact gentle_accept (.depart tail rfl m (moved.settled rfl s)) _

theorem rejoin_gentle (tail : Tail) {s : State} (m : s.ctl.mode = .departed) : Gentle (.rejoin tail) s (rejoinUnit s).state := by
  have moved : Guarded { s with ctl.mode := .joining } (enterJoining { s with sbc := rejoinBus s.sbc }) :=
    .same rfl rfl rfl rfl rfl rfl rfl rfl rfl rfl
  have peers := settle_peers s (enterJoining { s with sbc := rejoinBus s.sbc })
  exact gentle_accept (.rejoin tail rfl m peers (moved.settled rfl s)) _

/-! ### The requests -/

theorem exec_start_gently {tail : Tail} {s t : State} (h : execStart tail s = .next t) : Gently (.start tail) s t := by
  have owner : Gentle (.start tail) s (whenUnconfigured s (startUnit s)).state :=
    gentle_whenUnconfigured fun m => startUnit_gentle tail m
  unfold execStart at h
  split at h
  · injection h with h
    exact ⟨_, owner, .inr ⟨_, h.symm⟩⟩
  · exact gently_request h owner

theorem exec_unknown_gently {d : Instr} {byte : Byte} {tail : Tail} {s t : State} (h : execUnknownCommand byte tail s = .next t) :
    Gently d s t := by
  unfold execUnknownCommand at h
  split at h
  · exact gently_request h (.meek (((Guarded.refl s).raise .spi).meek rfl))
  · cases h

theorem runRequest_gently {i : Instr} {s t : State} (h : runRequest i s = .next t) : Gently i s t := by
  have idle {d : Instr} : Gentle d s s := .meek (.refl s)
  cases i with
  | setTiming item value tail =>
    unfold runRequest execSetTiming at h
    refine gently_request h ?_
    split
    · exact gentle_whenUnconfigured (gentle_load rfl)
    · exact gentle_whenUnconfigured fun _ => idle
  | setZone zone l1 l2 l3 delay attrs tail =>
    unfold runRequest execSetZone at h
    refine gently_request h (gentle_whenUnconfigured fun m => ?_)
    split
    · exact gentle_load rfl m
    · exact idle
  | setInput input flags qualify heal cls severity zone tail =>
    unfold runRequest execSetInput at h
    refine gently_request h (gentle_whenUnconfigured fun m => ?_)
    split
    · exact gentle_load rfl m
    · exact idle
  | setLevels b0 b1 b2 b3 v0 v1 v2 v3 tail =>
    unfold runRequest execSetLevels at h
    exact gently_request h (gentle_whenUnconfigured (gentle_load rfl))
  | setPeers expected group quorum tail =>
    unfold runRequest execSetPeers at h
    exact gently_request h (gentle_whenUnconfigured (gentle_load rfl))
  | start tail => exact exec_start_gently h
  | stress value tail =>
    unfold runRequest execStress at h
    have written : Guarded s (writeStress value s) := .same rfl rfl rfl rfl rfl rfl rfl rfl rfl rfl
    exact gently_request h (gentle_whenStarted (gentle_accept (.meek (written.settled rfl s)) _))
  | declare cls zone severity tail =>
    unfold runRequest execDeclare at h
    refine gently_request h ?_
    split
    · exact gentle_whenStarted (.meek (declareFault_meek _ _ _ s))
    · exact idle
  | withdraw cls zone tail =>
    unfold runRequest execWithdraw at h
    refine gently_request h ?_
    split
    · exact gentle_whenStarted (.meek (withdrawFault_meek _ _ s))
    · exact idle
  | clearFault slot tail =>
    unfold runRequest execClearFault at h
    refine gently_request h (gentle_whenStarted ?_)
    split
    · exact .meek (clearSlot_meek _ s)
    · exact idle
  | clearAll tail =>
    unfold runRequest execClearAll at h
    have cleared : Guarded s { s with lft := clearDeclared s.lft } := .same rfl rfl rfl rfl rfl rfl rfl rfl rfl rfl
    exact gently_request h (gentle_whenStarted (gentle_accept (.meek (cleared.settled rfl s)) _))
  | floor level tail =>
    unfold runRequest execFloor at h
    have follows : Meek { s with lvl.floor := levelArg level } (settle s { s with lvl.floor := levelArg level }) :=
      (Guarded.refl _).settled rfl s
    exact gently_request h (gentle_whenStarted (gentle_accept (.floor level tail rfl _ follows) _))
  | release zone stamp tail =>
    unfold runRequest execRelease at h
    refine gently_request h (gentle_whenStarted ?_)
    split
    · exact .meek (releaseZone_meek _ _ s)
    · exact idle
  | tripClear tail =>
    unfold runRequest execTripClear at h
    have follows : Meek { s with out.tripLatch := false } (settle s { s with out.tripLatch := false }) :=
      (Guarded.refl _).settled rfl s
    refine gently_request h ?_
    split_ifs
    · exact idle
    · exact gentle_accept (.tripClear tail rfl follows) _
    · exact idle
  | contactorClose tail =>
    unfold runRequest execContactorClose at h
    refine gently_request h ?_
    split
    · exact closeContactor_gentle tail s
    · exact idle
  | contactorOpen tail =>
    unfold runRequest execContactorOpen at h
    refine gently_request h ?_
    split
    · exact .meek (openContactor_meek s)
    · exact idle
  | depart tail =>
    unfold runRequest execDepart at h
    refine gently_request h ?_
    split
    · exact idle
    · exact idle
    · next m => exact depart_gentle tail (.inl m)
    · next m => exact depart_gentle tail (.inr m)
  | rejoin tail =>
    unfold runRequest execRejoin at h
    refine gently_request h ?_
    split
    · next m => exact rejoin_gentle tail m
    · exact idle
  | readSummary tail =>
    unfold runRequest execReadSummary at h
    exact gently_request h idle
  | readZone zone tail =>
    unfold runRequest execReadZone at h
    refine gently_request h ?_
    split <;> exact idle
  | readPeer station tail =>
    unfold runRequest execReadPeer at h
    refine gently_request h ?_
    split <;> exact idle
  | readFault slot tail =>
    unfold runRequest execReadFault at h
    refine gently_request h ?_
    split <;> exact idle
  | readTime tail =>
    unfold runRequest execReadTime at h
    exact gently_request h idle
  | ack mask tail =>
    unfold runRequest execAck at h
    exact gently_request h (.ack mask tail rfl)
  | flagTest setMask clearMask tail =>
    unfold runRequest execFlagTest at h
    exact gently_request h (.flagTest setMask clearMask tail rfl)
  | enable mask tail =>
    unfold runRequest execEnable at h
    have masked : Guarded s { s with port.enable := mask } := .same rfl rfl rfl rfl rfl rfl rfl rfl rfl rfl
    exact gently_request h (.meek (masked.meek rfl))
  | reset tail =>
    unfold runRequest execReset at h
    exact gently_taken h fun held => gentle_accept (.reset (.inl ⟨tail, rfl⟩) held (hostResetState s).pins.rstLow) _
  | unknownCommand byte tail => exact exec_unknown_gently h
  | _ => exact gently_next idle h

/-! ### Every command -/

/-- R164: a rise of CS_N counts as the request that its bits carry. -/
theorem exec_discarded_gently {clocked : Clocked} {s t : State} (h : execRequestDiscarded clocked s = .next t) :
    Gently (carried (.requestDiscarded clocked)) s t := by
  have taken (u : State) (hu : takeBits clocked.select clocked.bits s = .next u) : Gently (carried (.requestDiscarded clocked)) s u := by
    unfold takeBits at hu
    unfold carried
    dsimp only
    split at hu
    · next i e => rw [e]; exact runRequest_gently hu
    · exact gently_next (.meek (.refl s)) hu
  unfold execRequestDiscarded at h
  split at h
  · next u hu => injection h with h; exact h ▸ (taken u hu).reply none
  · cases h
  · cases h

theorem line_guarded (n : Input) (asserted : Bool) (s : State) : Guarded s (setLine n asserted s) :=
  .same rfl rfl rfl rfl rfl rfl rfl rfl rfl rfl

theorem exec_assertion_gently {d : Instr} {n : Input} {width : Nat} {s t : State} (h : execAssertion n width s = .next t) :
    Gently d s t := by
  have taken : Guarded s (takeAssertion n (setLine n true s)) := (line_guarded n true s).trans (.work (takeAssertion_work n _))
  have ctl : (takeTrip n (takeAssertion n (setLine n true s))).ctl = s.ctl :=
    (takeTrip_work n _).ctl.trans (takeAssertion_work n (setLine n true s)).ctl
  unfold execAssertion at h
  split at h
  · exact gently_next (.meek (.refl s)) h
  · split at h
    · exact gently_next (.meek ((line_guarded n true s).meek rfl)) h
    · exact gently_next (.meek ((taken.takeTrip n).settled (by rw [ctl]) s)) h

theorem exec_release_gently {d : Instr} {n : Input} {width : Nat} {s t : State} (h : execInputRelease n width s = .next t) :
    Gently d s t := by
  have taken : Guarded s (takeRelease n (setLine n false s)) := (line_guarded n false s).trans (.work (takeRelease_work n _))
  have ctl : (takeRelease n (setLine n false s)).ctl = s.ctl := (takeRelease_work n (setLine n false s)).ctl
  unfold execInputRelease at h
  split at h
  · exact gently_next (.meek (.refl s)) h
  · split at h
    · exact gently_next (.meek ((line_guarded n false s).meek rfl)) h
    · exact gently_next (.meek (taken.settled (by rw [ctl]) s)) h

theorem exec_samples_gently {d : Instr} {k : Kind} {idle : Nat} {bits : List Bool} {s t : State}
    (e : d = .hello idle bits ∨ d = .status idle bits ∨ d = .leave idle bits) (h : receiveAs k idle bits s = .next t) : Gently d s t := by
  unfold receiveAs at h
  split at h
  · exact gently_event h fun held => .samples idle bits e held
  · cases h

theorem startFrame_sbc (s : State) : startFrame s = { s with sbc := (startFrame s).sbc } := by
  unfold startFrame; split <;> rfl

theorem exec_frameStart_gently {idle : Nat} {s t : State} (h : execFrameStart idle s = .next t) : Gently (.frameStart idle) s t :=
  gently_event h fun held => .frameStart idle rfl held (startFrame_sbc _)

theorem atDeadline_expected (r : PeerRecord) : (atDeadline r).expected = r.expected := by
  unfold atDeadline; split <;> rfl

theorem exec_deadline_gently {s t : State} (h : execJoinDeadlineExpiry s = .next t) : Gently .joinDeadlineExpiry s t := by
  refine gently_event h fun _ => ?_
  split
  · next k =>
    have ended : Guarded { s with ctl.mode := .running } (endJoin { s with pv.peers := Vector.ofFn fun p => atDeadline s.pv.peers[p] }) :=
      { Guarded.refl { s with ctl.mode := .running } with
        expected := fun p =>
          (congrArg PeerRecord.expected (getElem_ofFn_fin (fun p => atDeadline s.pv.peers[p]) p)).trans (atDeadline_expected _) }
    exact .deadline rfl k.2 (ended.settled rfl s)
  · exact .meek (.refl s)

theorem exec_hostReset_gently {low : Nat} {s t : State} (h : execHostReset low s = .next t) : Gently (.hostReset low) s t := by
  have pin : Guarded s { s with pins.rstLow := true } := .same rfl rfl rfl rfl rfl rfl rfl rfl rfl rfl
  unfold execHostReset at h
  split_ifs at h with short held
  · exact gently_next (.meek (.refl s)) h
  · exact gently_next (.meek (pin.meek rfl)) h
  · injection h with h
    exact ⟨_, .reset (.inr ⟨low, rfl⟩) (by simpa using held) true, .inr ⟨some [], h.symm⟩⟩

theorem exec_powerUp_gently {straps : Straps} {ready : Nat} {s t : State} (h : execReleaseFromReset straps ready s = .next t) :
    Gently (.releaseFromReset straps ready) s t := by
  unfold execReleaseFromReset at h
  split at h
  · next k =>
    simp only [Bool.and_eq_true] at k
    exact gently_next (.powerUp straps ready rfl k.1.1) h
  · exact gently_next (.meek (.refl s)) h

theorem exec_rstHigh_gently {d : Instr} {s t : State} (h : execRstNReturnsHigh s = .next t) : Gently d s t := by
  have pin : Guarded s { s with pins.rstLow := false } := .same rfl rfl rfl rfl rfl rfl rfl rfl rfl rfl
  unfold execRstNReturnsHigh at h
  split at h
  · injection h with h
    exact ⟨_, .meek (pin.meek rfl), .inr ⟨some [], h.symm⟩⟩
  · exact gently_next (.meek (.refl s)) h

/-- A change of one block, and what follows from it in its event, that leave the protected state. -/
theorem gentle_settled {d : Instr} {s u : State} {c : Prop} [Decidable c] (g : Guarded s u) (ctl : u.ctl.mode = s.ctl.mode) :
    Gentle d s (if c then settle s u else s) := .meek (meek_if (g.settled ctl s))

theorem guarded_blocks {s t : State} (h : t = { s with lft := t.lft, ziu := t.ziu, sbc := t.sbc }) : Guarded s t := by
  rw [h]; exact .same rfl rfl rfl rfl rfl rfl rfl rfl rfl rfl

theorem exec_lost_gently {d : Instr} {bit : Nat} {s t : State} (h : execLostContention bit s = .next t) : Gently d s t := by
  refine gently_event h fun _ => ?_
  split
  · exact .meek (meek_if ((guarded_blocks rfl).meek rfl))
  · exact .meek (.refl s)

theorem exec_bitFault_gently {d : Instr} {bit : Nat} {s t : State} (h : execBitFault bit s = .next t) : Gently d s t := by
  refine gently_event h fun _ => ?_
  split
  · next f _ => exact gentle_settled (.bus (countBitFault_work f bit _ s)) rfl
  · exact .meek (.refl s)

theorem exec_completes_gently {d : Instr} {s t : State} (h : execCompletes s = .next t) : Gently d s t := by
  refine gently_event h fun _ => ?_
  split
  · next f _ =>
    have work := completeFrame_work f.kind s
    exact .meek ((Guarded.bus work).settled (by rw [work.ctl]) s)
  · exact .meek (.refl s)

theorem exec_statusTimer_gently {d : Instr} {s t : State} (h : execStatusTimerExpiry s = .next t) : Gently d s t := by
  have work := requestStatus_work { s with sbc.statusTimer := none }
  have idle : Guarded s { s with sbc.statusTimer := none } := guarded_blocks rfl
  exact gently_event h fun _ => .meek (meek_if ((idle.trans (.trigger work)).meek (by rw [work.ctl])))

theorem exec_stressTimer_gently {d : Instr} {s t : State} (h : execStressTimerExpiry s = .next t) : Gently d s t := by
  have stale : Guarded s { s with perm.stressTimer := none, ziu.derived.stale := true } :=
    .same rfl rfl rfl rfl rfl rfl rfl rfl rfl rfl
  exact gently_event h fun _ => gentle_settled (stale.raise .stale) rfl

theorem exec_contactorDelay_gently {d : Instr} {s t : State} (h : execContactorDelayExpiry s = .next t) : Gently d s t := by
  have opened : Guarded s { s with out.contactor := .opened, out.contactorTimer := none } :=
    { Guarded.refl s with contactor := nofun }
  exact gently_event h fun _ => .meek (meek_if (opened.meek rfl))

theorem exec_gently {c : Instr} {s t : State} (h : exec c s = .next t) : Gently (carried c) s t := by
  cases c with
  | setTiming => exact runRequest_gently (i := .setTiming _ _ _) h
  | setZone => exact runRequest_gently (i := .setZone _ _ _ _ _ _ _) h
  | setInput => exact runRequest_gently (i := .setInput _ _ _ _ _ _ _ _) h
  | setLevels => exact runRequest_gently (i := .setLevels _ _ _ _ _ _ _ _ _) h
  | setPeers => exact runRequest_gently (i := .setPeers _ _ _ _) h
  | start => exact runRequest_gently (i := .start _) h
  | stress => exact runRequest_gently (i := .stress _ _) h
  | declare => exact runRequest_gently (i := .declare _ _ _ _) h
  | withdraw => exact runRequest_gently (i := .withdraw _ _ _) h
  | clearFault => exact runRequest_gently (i := .clearFault _ _) h
  | clearAll => exact runRequest_gently (i := .clearAll _) h
  | floor => exact runRequest_gently (i := .floor _ _) h
  | release => exact runRequest_gently (i := .release _ _ _) h
  | tripClear => exact runRequest_gently (i := .tripClear _) h
  | contactorClose => exact runRequest_gently (i := .contactorClose _) h
  | contactorOpen => exact runRequest_gently (i := .contactorOpen _) h
  | depart => exact runRequest_gently (i := .depart _) h
  | rejoin => exact runRequest_gently (i := .rejoin _) h
  | readSummary => exact runRequest_gently (i := .readSummary _) h
  | readZone => exact runRequest_gently (i := .readZone _ _) h
  | readPeer => exact runRequest_gently (i := .readPeer _ _) h
  | readFault => exact runRequest_gently (i := .readFault _ _) h
  | readTime => exact runRequest_gently (i := .readTime _) h
  | ack => exact runRequest_gently (i := .ack _ _) h
  | flagTest => exact runRequest_gently (i := .flagTest _ _ _) h
  | enable => exact runRequest_gently (i := .enable _ _) h
  | reset => exact runRequest_gently (i := .reset _) h
  | unknownCommand => exact runRequest_gently (i := .unknownCommand _ _) h
  | requestDiscarded clocked => exact exec_discarded_gently h
  | assertion n width => exact exec_assertion_gently h
  | inputRelease n width => exact exec_release_gently h
  | hello idle bits => exact exec_samples_gently (.inl rfl) h
  | status idle bits => exact exec_samples_gently (.inr (.inl rfl)) h
  | leave idle bits => exact exec_samples_gently (.inr (.inr rfl)) h
  | frameStart idle => exact exec_frameStart_gently h
  | joinDeadlineExpiry => exact exec_deadline_gently h
  | hostReset low => exact exec_hostReset_gently h
  | powerOnReset => exact gently_next (.powerOn rfl) h
  | releaseFromReset straps ready => exact exec_powerUp_gently h
  | rstNReturnsHigh => exact exec_rstHigh_gently h
  | rampExpiry =>
    refine gently_event h fun _ => ?_
    split
    · exact .ramp rfl
    · exact .meek (.refl s)
  | qualifyExpiry n => exact gently_event h fun _ => gentle_settled (guarded_blocks rfl) rfl
  | healExpiry n => exact gently_event h fun _ => gentle_settled (guarded_blocks rfl) rfl
  | declaredHealExpiry d => exact gently_event h fun _ => gentle_settled (guarded_blocks rfl) rfl
  | lostContention bit => exact exec_lost_gently h
  | bitFault bit => exact exec_bitFault_gently h
  | completes => exact exec_completes_gently h
  | statusTimerExpiry => exact exec_statusTimer_gently h
  | spacingTimerExpiry =>
    have calm : Guarded s { s with sbc.spacing := none } := guarded_blocks rfl
    exact gently_event (f := fun s => { s with sbc.spacing := none }) h fun _ => .meek (calm.meek rfl)
  | muteTimerExpiry => exact gently_event h fun _ => gentle_settled (guarded_blocks rfl) rfl
  | silenceTimerExpiry p => exact gently_event h fun _ => gentle_settled ((Guarded.refl s).setPeer rfl) rfl
  | leaveTimerExpiry p => exact gently_event h fun _ => gentle_settled ((Guarded.refl s).setPeer rfl) rfl
  | isolationDelayExpiry z => exact gently_event h fun _ => gentle_settled (guarded_blocks rfl) rfl
  | disputeTimerExpiry z => exact gently_event h fun _ => gentle_settled (guarded_blocks rfl) rfl
  | cleanTimerExpiry z => exact gently_event h fun _ => .meek (meek_if ((guarded_blocks rfl).meek rfl))
  | stressTimerExpiry => exact exec_stressTimer_gently h
  | dwellTimerExpiry =>
    have calm : Guarded s { s with perm.dwell := none } := Guarded.same rfl rfl rfl rfl rfl rfl rfl rfl rfl rfl
    exact gently_event (f := fun s => { s with perm.dwell := none }) h fun _ => .meek (calm.meek rfl)
  | reArmTimerExpiry =>
    have calm : Guarded s { s with out.rearm := none } := Guarded.same rfl rfl rfl rfl rfl rfl rfl rfl rfl rfl
    exact gently_event (f := fun s => { s with out.rearm := none }) h fun _ => .meek (calm.meek rfl)
  | pwmPeriodStart =>
    have calm : Guarded s { s with out.activeDuty := s.out.pendingDuty } := Guarded.same rfl rfl rfl rfl rfl rfl rfl rfl rfl rfl
    exact gently_event (f := fun s => { s with out.activeDuty := s.out.pendingDuty }) h fun _ => .meek (calm.meek rfl)
  | contactorDelayExpiry => exact exec_contactorDelay_gently h

end Sys2Proof.Machine
end

section
/-! The state that only named commands change, the flags and the node mode, over every command (R3, R101, R123, R139, R142, R150 to R162,
R171). -/

namespace Sys2Proof.Machine

/-! ### The command that a rise of CS_N carries -/

theorem readRequest_request {select : Select} {bytes : List Byte} {i : Instr} (h : readRequest select bytes = some i) :
    (requestOf i).isSome = true ∨ ∃ byte tail, i = .unknownCommand byte tail := by
  unfold readRequest at h
  split at h
  · cases h
  · dsimp only at h
    split at h
    iterate 27 exact .inl (by rw [← Option.some.inj h]; rfl)
    · split at h
      · exact .inr ⟨_, _, (Option.some.inj h).symm⟩
      · cases h
    · cases h

/-- A rise of CS_N carries a request or nothing: any other command is itself. -/
theorem carried_event {c d : Instr} (h : carried c = d) (e : requestOf d = none) (k : ∀ byte tail, d ≠ .unknownCommand byte tail) :
    c = d := by
  cases c with
  | requestDiscarded clocked =>
    unfold carried at h
    dsimp only at h
    cases r : readRequest clocked.select (bytesOf clocked.bits) with
    | none => rw [r] at h; exact h
    | some i =>
      rw [r] at h
      have same : i = d := h
      rcases readRequest_request r with some | ⟨byte, tail, u⟩
      · rw [same, e] at some; cases some
      · exact absurd (same.symm.trans u) (k byte tail)
  | _ => exact h

/-! ### START and the host reset -/

theorem startLoaded_flags {s : State} (f : Flag) (h : s.isPending f = true) : (startLoaded s).isPending f = true := by
  have e : (startLoaded s).isPending f = (raiseIf (Store.corrected s.cfg != s.cfg) .notice s).isPending f := by
    unfold startLoaded
    cases Store.corrected s.cfg != s.cfg <;> rfl
  rw [e, isPending_raiseIf, h, Bool.true_or]

theorem startLoaded_queue (s : State) : (startLoaded s).pending = s.pending ∧ (startLoaded s).due = s.due := by
  unfold startLoaded
  cases Store.corrected s.cfg != s.cfg <;> exact ⟨rfl, rfl⟩

theorem startReady_guarded (s : State) : Guarded (startLoaded s) (startReady s) := by
  have sampled : Guarded (startLoaded s) (sampleTrip (startLoaded s)) := (Guarded.refl _).sampleTrip
  rw [startReady_eq]
  exact ⟨sampled.pending, sampled.due, sampled.cfg, by rw [switchOn, enterJoining, sampled.ctl], sampled.contactor, sampled.trip,
    sampled.output, sampled.floor, sampled.flags, sampled.expected⟩

theorem flagsAfterReset_eq (x : State) : flagsAfterReset x = { x with port.flags := (flagsAfterReset x).port.flags } := rfl

/-- A host reset, but for the flags, is meek after the reset of the blocks. -/
theorem hostReset_after (s : State) : ∃ x, Meek (resetDone s) x ∧ x.pv.peers = (resetDone s).pv.peers
    ∧ hostResetState s = { x with port.flags := (hostResetState s).port.flags } := by
  rw [hostResetState_eq]
  split
  · next k =>
    have ctl : (resetReady (resetDone s)).ctl = (resetDone s).ctl := by
      rw [resetReady_ctl, resetDone_ctl, if_pos (resetDone_started s ▸ k)]
    have entered : Guarded (resetDone s) (resetReady (resetDone s)) := .same rfl rfl rfl ctl rfl rfl rfl rfl rfl rfl
    have work := watchInputs_work (resetReady (resetDone s))
    have watched := (entered.trans (.work work)).settled (by rw [work.ctl, ctl]) (resetDone s)
    have peers := settle_peers (resetDone s) (watchInputs (resetReady (resetDone s)))
    exact ⟨_, watched, peers.trans (by rw [work.pv]; rfl), flagsAfterReset_eq _⟩
  · exact ⟨resetDone s, .refl _, rfl, flagsAfterReset_eq _⟩

theorem resetDone_queue (s : State) : (resetDone s).pending = s.pending ∧ (resetDone s).due = s.due :=
  ⟨(resetDone_work s).pending, (resetDone_work s).due⟩

/-! ### The protected state -/

/-- Power-on reset and its release. -/
abbrev IsPowerOn (c : Instr) : Prop := c = .powerOnReset ∨ ∃ straps ready, c = .releaseFromReset straps ready

/-- What a command changes of the protected state, and which one. -/
structure ProtectedKept (c : Instr) (s t : State) : Prop where
  pending : t.pending = s.pending
  due : t.due ≠ s.due → IsPowerOn c
  cfg : t.cfg ≠ s.cfg → s.ctl.mode = .unconfigured ∨ IsPowerOn c
  ctl : t.ctl.station ≠ s.ctl.station ∨ t.ctl.role ≠ s.ctl.role ∨ t.ctl.nodeTime ≠ s.ctl.nodeTime → IsPowerOn c
  contactor : t.out.contactor = .closed → s.out.contactor ≠ .closed → ∃ tail, carried c = .contactorClose tail
  trip : s.out.tripLatch = true → t.out.tripLatch = false → (∃ tail, carried c = .tripClear tail) ∨ IsReset (carried c)
  output : s.perm.output < t.perm.output →
    c = .rampExpiry ∧ t.perm.output ≤ s.perm.output + s.cfg.rampStep ∧ t.perm.output ≤ s.perm.target
  floor : t.lvl.floor ≠ s.lvl.floor → (∃ level tail, carried c = .floor level tail) ∨ IsReset (carried c)

theorem Guarded.identity {s t : State} (h : Guarded s t) :
    t.ctl.station = s.ctl.station ∧ t.ctl.role = s.ctl.role ∧ t.ctl.nodeTime = s.ctl.nodeTime := by
  rw [h.ctl]; exact ⟨rfl, rfl, rfl⟩

theorem identity_kept {s t : State} (h : t.ctl.station = s.ctl.station ∧ t.ctl.role = s.ctl.role ∧ t.ctl.nodeTime = s.ctl.nodeTime)
    {P : Prop} (k : t.ctl.station ≠ s.ctl.station ∨ t.ctl.role ≠ s.ctl.role ∨ t.ctl.nodeTime ≠ s.ctl.nodeTime) : P := by
  obtain ⟨station, role, time⟩ := h
  rcases k with k | k | k
  · exact absurd station k
  · exact absurd role k
  · exact absurd time k

theorem Guarded.kept {s t : State} (h : Guarded s t) (c : Instr) : ProtectedKept c s t where
  pending := h.pending
  due k := absurd h.due k
  cfg k := absurd h.cfg k
  ctl := identity_kept h.identity
  contactor k o := absurd (h.contactor k) o
  trip k o := absurd ((h.trip k).symm.trans o) (by decide)
  output k := absurd h.output (by omega)
  floor k := absurd h.floor k

/-- Power-on reset and its release may change all of it but the queue. -/
theorem powerOn_kept {c : Instr} {s t : State} (h : IsPowerOn c) (pending : t.pending = s.pending) (opened : t.out.contactor = .opened)
    (zero : t.perm.output = 0) : ProtectedKept c s t := by
  have reset : IsReset (carried c) := by
    rcases h with e | ⟨straps, ready, e⟩
    · rw [e]; exact .inr (.inr (.inl rfl))
    · rw [e]; exact .inr (.inr (.inr ⟨straps, ready, rfl⟩))
  exact ⟨pending, fun _ => h, fun _ => .inr h, fun _ => h, fun k => absurd (opened.symm.trans k) (by decide), fun _ _ => .inr reset,
    fun k => absurd k (by omega), fun _ => .inr reset⟩

theorem hostReset_kept {c : Instr} {s t : State} (reset : IsReset (carried c)) (h : t = { hostResetState s with pins := t.pins }) :
    ProtectedKept c s t := by
  obtain ⟨x, ⟨after, -⟩, -, e⟩ := hostReset_after s
  rw [e] at h
  have queue := resetDone_queue s
  have identity := after.identity
  rw [resetDone_ctl] at identity
  rw [h]
  refine ⟨after.pending.trans queue.1, fun k => absurd (after.due.trans queue.2) k, fun k => absurd (after.cfg.trans (resetDone_cfg s)) k,
    identity_kept identity, fun k o => ?_, fun _ _ => .inr reset, fun k => ?_, fun _ => .inr reset⟩
  · exact absurd (by have closed := after.contactor k; rwa [resetDone_out] at closed) o
  · have zero := after.output
    rw [resetDone_perm] at zero
    exact absurd (zero.trans (Nat.zero_le s.perm.output)) (Nat.not_le.mpr k)

theorem start_kept {c : Instr} {s t : State} (m : s.ctl.mode = .unconfigured) (h : Guarded (startReady s) t) : ProtectedKept c s t := by
  have g := (startReady_guarded s).trans h
  have queue := startLoaded_queue s
  have identity := g.identity
  rw [startLoaded_ctl] at identity
  refine ⟨g.pending.trans queue.1, fun k => absurd (g.due.trans queue.2) k, fun _ => .inl m, identity_kept identity,
    fun k o => ?_, fun k o => ?_, fun k => ?_, fun k => absurd (g.floor.trans (by rw [startLoaded_lvl])) k⟩
  · exact absurd (by have closed := g.contactor k; rwa [startLoaded_out] at closed) o
  · exact absurd ((g.trip (by rw [startLoaded_out]; exact k)).symm.trans o) (by decide)
  · have le := g.output
    rw [startLoaded_perm] at le
    omega

theorem Gentle.kept {c : Instr} {s t : State} (h : Gentle (carried c) s t) : ProtectedKept c s t := by
  have event {d : Instr} (e : carried c = d) (r : requestOf d = none) (u : ∀ byte tail, d ≠ .unknownCommand byte tail) : c = d :=
    carried_event e r u
  cases h with
  | meek h => exact h.guarded.kept c
  | load store m h =>
    exact { h.guarded.kept c with
      cfg := fun _ => .inl m
      output := fun k => absurd h.guarded.output (Nat.not_le.mpr k) }
  | start tail e m peers h => exact start_kept m h.guarded
  | floor level tail e l h => exact { h.guarded.kept c with floor := fun _ => .inl ⟨level, tail, e⟩ }
  | tripClear tail e h => exact { h.guarded.kept c with trip := fun _ _ => .inl ⟨tail, e⟩ }
  | close tail e => exact { (Guarded.refl s).kept c with contactor := fun _ _ => ⟨tail, e⟩ }
  | ramp e =>
    have work := setOutput_linesOnly (min s.perm.target (s.perm.output + s.cfg.rampStep)) s
    have output := setOutput_output (min s.perm.target (s.perm.output + s.cfg.rampStep)) s
    generalize setOutput (min s.perm.target (s.perm.output + s.cfg.rampStep)) s = t at *
    refine ⟨work.pending, fun k => absurd work.due k, fun k => absurd work.cfg k, identity_kept (by rw [work.ctl]; exact ⟨rfl, rfl, rfl⟩), fun k o => ?_, fun k o => ?_,
      fun _ => ⟨event e rfl nofun, by omega, by omega⟩, fun k => absurd work.floor k⟩
    · exact absurd (work.contactor.symm.trans k) o
    · rw [work.tripLatch, k] at o; cases o
  | ack mask tail e => exact { (Guarded.refl s).kept c with }
  | flagTest setMask clearMask tail e => exact { (Guarded.refl s).kept c with }
  | depart tail e m h => exact { h.guarded.kept c with cfg := fun k => absurd h.guarded.cfg k }
  | rejoin tail e m peers h => exact { h.guarded.kept c with cfg := fun k => absurd h.guarded.cfg k }
  | deadline e m h => exact { h.guarded.kept c with cfg := fun k => absurd h.guarded.cfg k }
  | samples idle bits e held => exact (receiveSamples_guarded _ s).kept c
  | frameStart idle e held h =>
    have k := (receiveSamples_guarded (List.replicate idle true) s).kept c
    rw [h]
    exact { k with }
  | reset e held low =>
    refine hostReset_kept ?_ rfl
    exact e.elim .inl fun k => .inr (.inl k)
  | powerOn e => exact powerOn_kept (.inl (event e rfl nofun)) rfl rfl rfl
  | powerUp straps ready e held => exact powerOn_kept (.inr ⟨straps, ready, event e rfl nofun⟩) rfl rfl rfl

/-- Settles O4: every command is gentle, and a gentle one leaves this state but for the part that it is named for. -/
theorem onlyNamedCommandsChangeProtectedState : Obligations.OnlyNamedCommandsChangeProtectedState := by
  intro c s t h
  obtain ⟨u, gentle, e⟩ := exec_gently h
  have kept : ProtectedKept c s t := by
    have k := gentle.kept
    rcases e with e | ⟨r, e⟩
    · exact e ▸ k
    · rw [e]; exact { k with }
  exact ⟨kept.pending, kept.due, kept.cfg, kept.ctl, kept.contactor, kept.trip, kept.output, kept.floor⟩

/-! ### The flags -/

theorem Gentle.flags {c : Instr} {s t : State} (h : Gentle (carried c) s t) (f : Flag) (k : s.isPending f = true)
    (o : t.isPending f = false) : (∃ mask tail, carried c = .ack mask tail ∧ mask.getLsbD f.bit = true)
      ∨ (∃ setMask clearMask tail, carried c = .flagTest setMask clearMask tail ∧ clearMask.getLsbD f.bit = true
        ∧ setMask.getLsbD f.bit = false)
      ∨ IsReset (carried c) := by
  have keeps {u : State} (h : Guarded u t) (same : u.isPending f = true) : False :=
    absurd ((h.flags f same).symm.trans o) (by decide)
  cases h with
  | meek h => exact (keeps h.guarded k).elim
  | load store m h => exact (keeps h.guarded k).elim
  | start tail e m peers h => exact (keeps ((startReady_guarded s).trans h.guarded) (startLoaded_flags f k)).elim
  | floor level tail e l h => exact (keeps h.guarded k).elim
  | tripClear tail e h => exact (keeps h.guarded k).elim
  | close tail e => exact absurd (k.symm.trans o) (by decide)
  | ramp e =>
    have same : (setOutput (min s.perm.target (s.perm.output + s.cfg.rampStep)) s).isPending f = s.isPending f :=
      isPending_congr (by rw [setOutput_flags]) f
    exact absurd (k.symm.trans (same.symm.trans o)) (by decide)
  | ack mask tail e =>
    refine .inl ⟨mask, tail, e, ?_⟩
    rw [isPending_withFlags, ackFlags_getLsbD _ _ (flagBit_lt f), show s.port.flags.getLsbD f.bit = true from k] at o
    simpa using o
  | flagTest setMask clearMask tail e =>
    refine .inr (.inl ⟨setMask, clearMask, tail, e, ?_⟩)
    rw [isPending_withFlags, testFlags_getLsbD _ _ _ (flagBit_lt f), show s.port.flags.getLsbD f.bit = true from k] at o
    simpa [and_comm] using o
  | depart tail e m h => exact (keeps h.guarded k).elim
  | rejoin tail e m peers h => exact (keeps h.guarded k).elim
  | deadline e m h => exact (keeps h.guarded k).elim
  | samples idle bits e held => exact (keeps (receiveSamples_guarded _ s) k).elim
  | frameStart idle e held h =>
    rw [h] at o
    exact absurd (((receiveSamples_guarded (List.replicate idle true) s).flags f k).symm.trans o) (by decide)
  | reset e held low => exact .inr (.inr (e.elim .inl fun k => .inr (.inl k)))
  | powerOn e => exact .inr (.inr (.inr (.inr (.inl e))))
  | powerUp straps ready e held => exact .inr (.inr (.inr (.inr (.inr ⟨straps, ready, e⟩))))

/-- Settles O24: every other command leaves the flags or raises some. -/
theorem flagsLeaveOnlyByAckTestOrReset : Obligations.FlagsLeaveOnlyByAckTestOrReset := by
  intro c s t f h k o
  obtain ⟨u, gentle, e⟩ := exec_gently h
  rcases e with e | ⟨r, e⟩
  · exact gentle.flags f k (e ▸ o)
  · rw [e] at o; exact gentle.flags f k o

/-! ### The node mode -/

/-- R58: with every peer ABSENT no join is complete. -/
theorem joinComplete_absent {s : State} (h : ∀ p : Station, (s.pv.peers[p]).presence = .absent) : joinComplete s = false := by
  rw [Bool.eq_false_iff]
  intro complete
  simp only [joinComplete, h, Bool.and_eq_true, List.any_eq_true, List.all_eq_true] at complete
  obtain ⟨⟨p, -, expected⟩, all⟩ := complete
  have p_present := all p (List.mem_finRange p)
  rw [expected] at p_present
  cases p_present

theorem startReady_presence {s : State} (h : ∀ p : Station, (s.pv.peers[p]).presence = .absent) (p : Station) :
    ((startReady s).pv.peers[p]).presence = .absent := by
  have peers : (startReady s).pv.peers = (startLoaded s).pv.peers := by
    have sampled : (sampleTrip (startLoaded s)).pv.peers = (startLoaded s).pv.peers := by rw [(sampleTrip_work _).pv]
    rw [startReady_eq]
    exact sampled
  rw [peers, startLoaded_pv]
  exact (congrArg PeerRecord.presence (getElem_ofFn_fin _ p)).trans (h p)

/-- R150 to R161: what each command makes of the node mode, where it changes it. -/
def ModeTabled (c : Instr) (s t : State) : Prop :=
  match t.ctl.mode with
  | .unconfigured => c = .powerOnReset
  | .joining => (s.ctl.mode = .unconfigured ∧ ∃ tail, carried c = .start tail)
    ∨ (s.ctl.mode = .departed ∧ ∃ tail, carried c = .rejoin tail)
    ∨ (s.ctl.started = true ∧ ((∃ tail, carried c = .reset tail) ∨ ∃ low, c = .hostReset low))
  | .running => (s.ctl.mode = .joining ∧ (c = .joinDeadlineExpiry ∨ ∃ u : State, joinComplete u = true
      ∧ (joinComplete s = false → ∃ p : Station, (u.pv.peers[p]).presence ≠ (s.pv.peers[p]).presence)
      ∧ (u = t ∨ ∃ (idle : Nat) (bits before after : List Bool),
        (c = .hello idle bits ∨ c = .status idle bits ∨ c = .leave idle bits ∨ (c = .frameStart idle ∧ bits = []))
        ∧ List.replicate idle true ++ bits = before ++ after ∧ u = receiveSamples before s)))
    ∨ (s.ctl.mode = .departed ∧ joinComplete s = true ∧ ∃ tail, carried c = .rejoin tail)
  | .departed => (s.ctl.mode = .joining ∨ s.ctl.mode = .running) ∧ ∃ tail, carried c = .depart tail

theorem ModeTabled.reply {c : Instr} {s t : State} (h : ModeTabled c s t) (r : Option (List Byte)) :
    ModeTabled c s { t with port.reply := r } := by
  unfold ModeTabled at h ⊢
  dsimp only
  split
  · next m => rw [m] at h; exact h
  · next m => rw [m] at h; exact h
  · next m =>
    rw [m] at h
    refine h.imp_left fun ⟨j, k⟩ => ⟨j, k.imp_right fun ⟨u, complete, moves, e⟩ => ?_⟩
    rcases e with e | e
    · exact ⟨{ t with port.reply := r }, e ▸ complete, e ▸ moves, .inl rfl⟩
    · exact ⟨u, complete, moves, .inr e⟩
  · next m => rw [m] at h; exact h

/-- R58: a meek command moves the mode at the early end of the join alone. -/
theorem Meek.tabled {c : Instr} {s b t : State} (h : Meek b t) (mode : b.ctl.mode = s.ctl.mode) (pv : b.pv = s.pv)
    (ne : t.ctl.mode ≠ s.ctl.mode) : ModeTabled c s t := by
  rcases h.stays with e | ⟨j, r, complete⟩
  · exact absurd (e.trans mode) ne
  · unfold ModeTabled
    rw [r]
    have moves (waits : joinComplete s = false) : ∃ p : Station, (t.pv.peers[p]).presence ≠ (s.pv.peers[p]).presence := by
      have k := h.guarded.presence complete ((joinComplete_congr (by rw [pv])).trans waits)
      rwa [pv] at k
    exact .inl ⟨mode.symm.trans j, .inr ⟨t, complete, moves, .inl rfl⟩⟩

/-- R39, R58: the frame that ends the join may be one among samples of the line. -/
theorem samples_tabled {c : Instr} {s t : State} (idle : Nat) (bits : List Bool)
    (e : c = .hello idle bits ∨ c = .status idle bits ∨ c = .leave idle bits ∨ (c = .frameStart idle ∧ bits = []))
    (mode : t.ctl.mode = (receiveSamples (List.replicate idle true ++ bits) s).ctl.mode) (ne : t.ctl.mode ≠ s.ctl.mode) :
    ModeTabled c s t := by
  rcases receiveSamples_mode (List.replicate idle true ++ bits) s with same | ⟨j, r, before, after, split, complete⟩
  · exact absurd (mode.trans same) ne
  · unfold ModeTabled
    rw [mode, r]
    exact .inl ⟨j, .inr ⟨_, complete, (receiveSamples_guarded before s).presence complete,
      .inr ⟨idle, bits, before, after, e, split, rfl⟩⟩⟩

theorem hostReset_tabled {c : Instr} {s t : State} (idle : IdleUntilStart s)
    (e : (∃ tail, carried c = .reset tail) ∨ ∃ low, c = .hostReset low) (mode : t.ctl.mode = (hostResetState s).ctl.mode)
    (ne : t.ctl.mode ≠ s.ctl.mode) : ModeTabled c s t := by
  obtain ⟨x, after, peers, done⟩ := hostReset_after s
  rw [done] at mode
  have ctl := resetDone_ctl s
  have absent (p : Station) : (x.pv.peers[p]).presence = .absent := by rw [peers, resetDone_peer]; rfl
  have stays : x.ctl.mode = (resetDone s).ctl.mode := by
    rcases after.stays with same | ⟨-, -, complete⟩
    · exact same
    · exact absurd (complete.symm.trans (joinComplete_absent absent)) (by decide)
  cases started : s.ctl.started with
  | false =>
    have unstarted : t.ctl.mode = .unconfigured := by rw [mode, stays, ctl, started]; rfl
    exact absurd (unstarted.trans (idle.started.mp started).symm) ne
  | true =>
    have joining : t.ctl.mode = .joining := by rw [mode, stays, ctl, started]; rfl
    unfold ModeTabled
    rw [joining]
    exact .inr (.inr ⟨started, e⟩)

theorem Gentle.mode {c : Instr} {s t : State} (idle : IdleUntilStart s) (h : Gentle (carried c) s t) (ne : t.ctl.mode ≠ s.ctl.mode) :
    ModeTabled c s t := by
  have event {d : Instr} (e : carried c = d) (r : requestOf d = none) (u : ∀ byte tail, d ≠ .unknownCommand byte tail) : c = d :=
    carried_event e r u
  cases h with
  | meek h => exact h.tabled rfl rfl ne
  | load store m h => exact h.tabled rfl rfl ne
  | floor level tail e l h => exact h.tabled rfl rfl ne
  | tripClear tail e h => exact h.tabled rfl rfl ne
  | start tail e m peers h =>
    have absent (p : Station) : (t.pv.peers[p]).presence = .absent := by
      rw [peers]; exact startReady_presence (idle.blocks m).presence p
    have joining : t.ctl.mode = .joining := by
      rcases h.stays with same | ⟨-, -, complete⟩
      · rw [same, startReady_ctl]
      · exact absurd (complete.symm.trans (joinComplete_absent absent)) (by decide)
    unfold ModeTabled
    rw [joining]
    exact .inl ⟨m, tail, e⟩
  | close tail e => exact absurd rfl ne
  | ramp e => exact absurd (by rw [(setOutput_linesOnly _ s).ctl]) ne
  | ack mask tail e => exact absurd rfl ne
  | flagTest setMask clearMask tail e => exact absurd rfl ne
  | depart tail e m h =>
    rcases h.stays with same | ⟨j, -⟩
    · unfold ModeTabled
      rw [same]
      exact ⟨m, tail, e⟩
    · cases j
  | rejoin tail e m peers h =>
    unfold ModeTabled
    rcases h.stays with same | ⟨-, r, complete⟩
    · rw [same]
      exact .inr (.inl ⟨m, tail, e⟩)
    · rw [r]
      exact .inr ⟨m, (joinComplete_congr peers).symm.trans complete, tail, e⟩
  | deadline e m h =>
    have running : t.ctl.mode = .running := by
      rcases h.stays with same | ⟨j, -⟩
      · exact same
      · cases j
    unfold ModeTabled
    rw [running]
    exact .inl ⟨m, .inl (event e rfl nofun)⟩
  | samples n bits e held =>
    refine samples_tabled n bits ?_ rfl ne
    rcases e with e | e | e
    · exact .inl (event e rfl nofun)
    · exact .inr (.inl (event e rfl nofun))
    · exact .inr (.inr (.inl (event e rfl nofun)))
  | frameStart n e held h =>
    exact samples_tabled n [] (.inr (.inr (.inr ⟨event e rfl nofun, rfl⟩))) (by rw [List.append_nil, h]) ne
  | reset e held low => exact hostReset_tabled idle (e.imp_right fun ⟨low, k⟩ => ⟨low, event k rfl nofun⟩) rfl ne
  | powerOn e => exact event e rfl nofun
  | powerUp straps ready e held => exact absurd (idle.held held).symm ne

/-- Settles O5: a gentle command moves the mode at the events of the table. -/
theorem nodeModeChangesOnlyAsTabled : Obligations.NodeModeChangesOnlyAsTabled := by
  intro c s t idle h ne
  obtain ⟨u, gentle, e⟩ := exec_gently h
  have tabled : ModeTabled c s t := by
    rcases e with e | ⟨r, e⟩
    · rw [e] at ne ⊢; exact gentle.mode idle ne
    · rw [e] at ne ⊢; exact (gentle.mode idle ne).reply r
  exact tabled

end Sys2Proof.Machine
end

section
/-! One step of the machine: the front command (section 8.3), a step on an empty queue (R1, R123, R133, R162), and which commands
complete. -/

namespace Sys2Proof.Machine

/-- Settles O1: this is what a step does with a queue that is not empty. -/
theorem stepRunsTheFrontCommand : Obligations.StepRunsTheFrontCommand := by
  intro s c rest h
  rw [step, h]

/-! ### Completion -/

theorem event_next (s : State) (f : State → State) : ∃ t, event s f = .next t := by
  rcases event_cases s f with ⟨-, e⟩ | ⟨-, e⟩
  · exact ⟨_, e⟩
  · exact ⟨_, e⟩

theorem start_next (tail : Tail) (s : State) : ∃ t, execStart tail s = .next t := by
  unfold execStart
  split
  · exact ⟨_, rfl⟩
  · exact hostRequest_next _ _ _ _ _ _

theorem receiveAs_next {k : Kind} {bits : List Bool} (h : framesAs k bits = true) (idle : Nat) (s : State) :
    ∃ t, receiveAs k idle bits s = .next t := by
  rw [receiveAs, if_pos h]; exact event_next _ _

theorem receiveAs_refused {k : Kind} {bits : List Bool} (h : framesAs k bits = false) (idle : Nat) (s : State) :
    receiveAs k idle bits s = .refused .mislabelled := by
  rw [receiveAs, if_neg (by rw [h]; decide)]

theorem unknown_next {byte : Byte} (h : (argCount byte).isNone = true) (tail : Tail) (s : State) :
    ∃ t, execUnknownCommand byte tail s = .next t := by
  rw [execUnknownCommand, if_pos h]; exact hostRequest_next _ _ _ _ _ _

theorem unknown_refused {byte : Byte} (h : (argCount byte).isNone = false) (tail : Tail) (s : State) :
    execUnknownCommand byte tail s = .refused .mislabelled := by
  rw [execUnknownCommand, if_neg (by rw [h]; decide)]

/-- R164: a request read from a transaction's bits is well formed. -/
theorem readRequest_wf {select : Select} {bytes : List Byte} {i : Instr} (h : readRequest select bytes = some i) : i.wf = true := by
  unfold readRequest at h
  split at h
  · cases h
  · dsimp only at h
    split at h
    iterate 27 exact (by rw [← Option.some.inj h]; rfl)
    · split at h
      · next k => rw [← Option.some.inj h]; exact k
      · cases h
    · cases h

/-- R163 to R168: a request is handled at the block that owns it, but for a START that came together with a host reset. -/
theorem exec_request {c : Instr} {bytes : List Byte} {tail : Tail} (h : requestOf c = some (bytes, tail)) :
    ∃ (command : Byte) (args : List Byte) (n : Nat) (owner : State → Answer), bytes = command :: args
      ∧ ∀ s, ¬(c = .start tail ∧ s.meetsReset tail = true) → exec c s = hostRequest command args tail n owner s := by
  cases c with
  | start =>
    cases h
    exact ⟨0x06, [], 0, fun s => whenUnconfigured s (startUnit s), rfl, fun s k => if_neg fun m => k ⟨rfl, m⟩⟩
  | setTiming | setZone | setInput | setLevels | setPeers | stress | declare | withdraw | clearFault | clearAll | floor | release
  | tripClear | contactorClose | contactorOpen | depart | rejoin | readSummary | readZone | readPeer | readFault | readTime | ack
  | flagTest | enable | reset =>
    cases h
    refine ⟨_, _, ?_, ?_, rfl, fun s _ => ?_⟩
    rotate_left 2
    · dsimp only [exec]; rfl
  | _ => cases h

theorem request_next {c : Instr} (h : (requestOf c).isSome = true) (s : State) : ∃ t, exec c s = .next t := by
  obtain ⟨⟨bytes, tail⟩, e⟩ := Option.isSome_iff_exists.mp h
  obtain ⟨command, args, n, owner, -, run⟩ := exec_request e
  by_cases k : c = .start tail ∧ s.meetsReset tail = true
  · rw [k.1]; exact start_next tail s
  · rw [run s k]; exact hostRequest_next _ _ _ _ _ _

theorem runRequest_exec {i : Instr} (h : (requestOf i).isSome = true) (s : State) : runRequest i s = exec i s := by
  cases i with
  | setTiming | setZone | setInput | setLevels | setPeers | stress | declare | withdraw | clearFault | clearAll | floor | release
  | tripClear | contactorClose | contactorOpen | depart | rejoin | readSummary | readZone | readPeer | readFault | readTime | ack
  | flagTest | enable | reset | start => rfl
  | _ => cases h

theorem runRequest_next {select : Select} {bytes : List Byte} {i : Instr} (h : readRequest select bytes = some i) (s : State) :
    ∃ t, runRequest i s = .next t := by
  rcases readRequest_request h with k | ⟨byte, tail, e⟩
  · rw [runRequest_exec k]; exact request_next k s
  · have wf := readRequest_wf h
    rw [e] at wf ⊢
    exact unknown_next wf tail s

theorem discarded_next (clocked : Clocked) (s : State) : ∃ t, execRequestDiscarded clocked s = .next t := by
  have taken : ∃ t, takeBits clocked.select clocked.bits s = .next t := by
    unfold takeBits
    split
    · next i e => exact runRequest_next e s
    · exact ⟨s, rfl⟩
  obtain ⟨t, e⟩ := taken
  rw [execRequestDiscarded, e]
  exact ⟨_, rfl⟩

theorem exec_next {c : Instr} (h : c.wf = true) (s : State) : ∃ t, exec c s = .next t := by
  cases c with
  | assertion n width => unfold exec execAssertion; dsimp only; split_ifs <;> exact ⟨_, rfl⟩
  | inputRelease n width => unfold exec execInputRelease; dsimp only; split_ifs <;> exact ⟨_, rfl⟩
  | unknownCommand byte tail => exact unknown_next h tail s
  | requestDiscarded clocked => exact discarded_next clocked s
  | hello idle bits => exact receiveAs_next h idle s
  | status idle bits => exact receiveAs_next h idle s
  | leave idle bits => exact receiveAs_next h idle s
  | hostReset | powerOnReset | releaseFromReset | rstNReturnsHigh => exact ⟨_, rfl⟩
  | setTiming | setZone | setInput | setLevels | setPeers | stress | declare | withdraw | clearFault | clearAll | floor | release
  | tripClear | contactorClose | contactorOpen | depart | rejoin | readSummary | readZone | readPeer | readFault | readTime | ack
  | flagTest | enable | reset | start => exact request_next rfl s
  | _ =>
    dsimp only [exec]
    exact event_next s _

/-- Settles O3: a frame's row and UNKNOWN_COMMAND check what they stand under; everything else completes. -/
theorem wellFormedCommandsComplete : Obligations.WellFormedCommandsComplete := by
  refine fun c s => ⟨fun h => exec_next h s, fun h => ?_⟩
  cases c with
  | unknownCommand byte tail => exact unknown_refused h tail s
  | hello idle bits => exact receiveAs_refused h idle s
  | status idle bits => exact receiveAs_refused h idle s
  | leave idle bits => exact receiveAs_refused h idle s
  | _ => cases h

/-! ### The events that fall due -/

theorem mem_dueIf {b : Bool} {i c : Instr} : c ∈ dueIf b i ↔ c = i ∧ b = true := by
  cases b <;> simp [dueIf]

theorem timer_due (t : Timer) : Timer.due t = true ↔ t = some 0 := by simp [Timer.due]

theorem rampDue_iff (now : Time) : rampDue now = true ↔ now ≠ 0 ∧ now.toNat % 50 = 0 := by simp [rampDue, rampPeriod]

theorem mem_dueEvents {s : State} {c : Instr} : c ∈ dueEvents s ↔ FallsDue s c := by
  simp only [dueEvents, List.mem_append, List.mem_flatMap, List.mem_finRange, true_and, mem_dueIf, timer_due, rampDue_iff,
    List.mem_singleton]
  delta FallsDue
  cases c <;> simp [-Fin.getElem_fin]

/-- Every event that can fall due. -/
def allDue : List Instr :=
  let one (i : Instr) : List Instr := [i]
  let inputs : List Instr := (List.finRange 8).flatMap fun n : Input => one (.qualifyExpiry n) ++ one (.healExpiry n)
  let declared : List Instr := (List.finRange 8).flatMap fun d : DeclSlot => one (.declaredHealExpiry d)
  let peers : List Instr := (List.finRange 8).flatMap fun p : Station => one (.silenceTimerExpiry p) ++ one (.leaveTimerExpiry p)
  let zones : List Instr := (List.finRange 12).flatMap fun z : Zone =>
    one (.isolationDelayExpiry z) ++ one (.disputeTimerExpiry z) ++ one (.cleanTimerExpiry z)
  one .pwmPeriodStart ++ one .rampExpiry ++ inputs ++ declared ++ one .statusTimerExpiry ++ one .spacingTimerExpiry
    ++ one .muteTimerExpiry ++ peers ++ one .joinDeadlineExpiry ++ zones ++ one .stressTimerExpiry ++ one .dwellTimerExpiry
    ++ one .reArmTimerExpiry ++ one .contactorDelayExpiry

theorem dueIf_sublist (b : Bool) (i : Instr) : (dueIf b i).Sublist [i] := by
  cases b
  · exact List.nil_sublist _
  · exact List.Sublist.refl _

theorem dueEvents_sublist (s : State) : (dueEvents s).Sublist allDue := by
  have one (b : Bool) (i : Instr) : (dueIf b i).Sublist [i] := dueIf_sublist b i
  refine .append (.append (.append (.append (.append (.append (.append (.append (.append (.append (.append (.append (.append ?_ ?_) ?_)
    ?_) ?_) ?_) ?_) ?_) ?_) ?_) ?_) ?_) ?_) ?_
  · exact .refl _
  · exact one _ _
  · exact .flatMap_right _ fun n _ => .append (one _ _) (one _ _)
  · exact .flatMap_right _ fun d _ => one _ _
  · exact one _ _
  · exact one _ _
  · exact one _ _
  · exact .flatMap_right _ fun p _ => .append (one _ _) (one _ _)
  · exact one _ _
  · exact .flatMap_right _ fun z _ => .append (.append (one _ _) (one _ _)) (one _ _)
  · exact one _ _
  · exact one _ _
  · exact one _ _
  · exact one _ _

/-- A number for each event that can fall due. -/
def dueNumber : Instr → Nat
  | .pwmPeriodStart => 0
  | .rampExpiry => 1
  | .statusTimerExpiry => 2
  | .spacingTimerExpiry => 3
  | .muteTimerExpiry => 4
  | .joinDeadlineExpiry => 5
  | .stressTimerExpiry => 6
  | .dwellTimerExpiry => 7
  | .reArmTimerExpiry => 8
  | .contactorDelayExpiry => 9
  | .qualifyExpiry n => 16 + n.val
  | .healExpiry n => 32 + n.val
  | .declaredHealExpiry d => 48 + d.val
  | .silenceTimerExpiry p => 64 + p.val
  | .leaveTimerExpiry p => 80 + p.val
  | .isolationDelayExpiry z => 96 + z.val
  | .disputeTimerExpiry z => 112 + z.val
  | .cleanTimerExpiry z => 128 + z.val
  | _ => 10

theorem allDue_nodup : allDue.Nodup := by
  have numbers : (allDue.map dueNumber).Nodup := by decide
  exact .of_map _ numbers

theorem dueEvents_nodup (s : State) : (dueEvents s).Nodup := allDue_nodup.sublist (dueEvents_sublist s)

theorem stillDue_iff (s : State) (c : Instr) : stillDue s c = true ↔ FallsDue s c := by
  rw [stillDue, List.contains_iff_mem, mem_dueEvents]

/-- The events wait each once, in an order left open. -/
theorem setDue_perm (l : List Instr) (s : State) : (setDue l s).due.Perm l := by
  unfold setDue
  split
  · exact .refl _
  · exact .refl _
  · exact freeOrder_perm _ _

theorem setDue_rest (l : List Instr) (s : State) : setDue l s = { s with due := (setDue l s).due, choices := (setDue l s).choices } := by
  unfold setDue; split <;> rfl

theorem fallsDue_setDue (l : List Instr) (s : State) (c : Instr) : FallsDue (setDue l s) c ↔ FallsDue s c := by
  rw [setDue_rest]; cases c <;> rfl

/-- Settles O2: the choice of the next event is `idle`, and the passing of a millisecond `tick`. -/
theorem emptyQueuePassesAMillisecond : Obligations.EmptyQueuePassesAMillisecond := by
  intro s empty
  have run : step s = idle s := by rw [step, empty]
  refine ⟨fun c rest h => ⟨fun k => ?_, fun k => ?_⟩, fun h held => ?_, fun h awake => ?_⟩
  · rw [run, idle, h]; exact if_pos ((stillDue_iff s c).mpr k)
  · rw [run, idle, h]; exact if_neg fun e => k ((stillDue_iff s c).mp e)
  · rw [run, idle, h, tick, if_pos held]
  · have rest := setDue_rest (dueEvents (elapse s)) (elapse s)
    have perm := setDue_perm (dueEvents (elapse s)) (elapse s)
    have falls := fallsDue_setDue (dueEvents (elapse s)) (elapse s)
    refine ⟨setDue (dueEvents (elapse s)) (elapse s), by rw [run, idle, h, tick, if_neg (by rw [awake]; decide)], ?_⟩
    generalize setDue (dueEvents (elapse s)) (elapse s) = t at *
    have due : t.due.Nodup ∧ ∀ c, c ∈ t.due ↔ FallsDue t c :=
      ⟨perm.nodup_iff.mpr (dueEvents_nodup _), fun c => by rw [perm.mem_iff, mem_dueEvents, falls]⟩
    obtain ⟨nodup, mem⟩ := due
    refine ⟨by rw [rest]; rfl, by rw [rest]; rfl, by rw [rest]; rfl, by rw [rest]; rfl, by rw [rest]; rfl, fun n => ?_, fun d => ?_,
      by rw [rest]; rfl, by rw [rest]; rfl, fun p => ?_, by rw [rest]; rfl, fun z => ?_, by rw [rest]; rfl, by rw [rest]; rfl,
      by rw [rest]; rfl, by rw [rest]; exact empty, nodup, mem⟩
    · rw [rest]; exact getElem_ofFn_fin _ n
    · rw [rest]; exact getElem_ofFn_fin _ d
    · rw [rest]; exact getElem_ofFn_fin _ p
    · rw [rest]; exact getElem_ofFn_fin _ z

end Sys2Proof.Machine
end

section
/-! The events of the local fault inputs and their timers (R3 to R11, R16, R138). -/

namespace Sys2Proof.Machine

/-! ### One entry -/

/-- R7, R11: no escalation count is reached by a first occurrence. -/
theorem activate_first {e : Nat} (h : e = 0 ∨ 2 ≤ e) (now : Time) (x : Entry) :
    activate e now x = { x with state := .active, count := some 1, firstActive := some now } := by
  unfold activate escalate
  exact if_neg fun k => by
    have reached : e ≤ 1 := k.2.2
    have named := k.1
    omega

theorem recurred_escalate {e : Nat} {x y : Entry} (h : y = { x with state := .active, count := countUp x.count }) :
    Recurred e x (escalate e y) := by
  have count : y.count.getD 0 = min 15 (x.count.getD 0 + 1) := by rw [h]; rfl
  unfold escalate
  split
  · next k =>
    have fresh : x.escalated = false := by have := k.2.1; rwa [h] at this
    have reached := k.2.2
    rw [count] at reached
    subst h
    exact ⟨rfl, rfl, ⟨fun _ => .inr ⟨k.1, reached⟩, fun _ => rfl⟩, (if_pos ⟨fresh, rfl⟩).symm, rfl⟩
  · next k =>
    have same : y.escalated = x.escalated ∧ y.current = x.current := by rw [h]; exact ⟨rfl, rfl⟩
    refine ⟨by rw [h], by rw [h]; rfl, ?_, ?_, by rw [h]⟩
    · rw [same.1]
      refine ⟨.inl, fun o => o.elim id fun ⟨named, reached⟩ => ?_⟩
      by_contra fresh
      exact k ⟨named, by rw [same.1]; simpa using fresh, by rw [count]; exact reached⟩
    · rw [same.2, same.1, if_neg]
      rintro ⟨fresh, marked⟩
      rw [fresh] at marked; cases marked

/-- R9, R13: an entry that returns to ACTIVE. -/
theorem reactivate_recurred (e : Nat) (x : Entry) : Recurred e x (reactivate e x) := recurred_escalate rfl

/-! ### One input's slot -/

theorem InputSlotConsistent.vacant {n : Input} {sl : Slot} (h : InputSlotConsistent n sl) (k : sl.entry = none) :
    sl = ⟨none, none, none⟩ := by
  obtain ⟨entry, qualify, heal⟩ := sl
  cases k
  obtain ⟨q, e⟩ := (inputSlot_vacant n qualify heal).mp h
  rw [q, e]

theorem InputSlotConsistent.occupied {n : Input} {sl : Slot} {x : Entry} (h : InputSlotConsistent n sl) (k : sl.entry = some x) :
    (x.state ≠ .qualifying → sl.qualify = none) ∧ (x.state ≠ .healing → sl.heal = none) := by
  obtain ⟨entry, qualify, heal⟩ := sl
  cases k
  obtain ⟨-, q, e⟩ := (inputSlot_occupied n x qualify heal).mp h
  refine ⟨fun ne => ?_, fun ne => ?_⟩
  · cases qualify with
    | none => rfl
    | some _ => exact absurd (q.mp rfl) ne
  · cases heal with
    | none => rfl
    | some _ => exact absurd (e.mp rfl) ne

/-- R6: an assertion of an input without an entry. -/
theorem assertSlot_vacant (n : Input) (c : InputConfig) {e : Nat} (h : e = 0 ∨ 2 ≤ e) (now : Time) :
    assertSlot e now n c ⟨none, none, none⟩ = ⟨some { qualifyingEntry n c with
        state := if c.qualify = 0 then .active else .qualifying
        count := if c.qualify = 0 then some 1 else none
        firstActive := if c.qualify = 0 then some now else none },
      if c.qualify = 0 then none else some c.qualify, none⟩ := by
  unfold assertSlot
  dsimp only
  split
  · rw [activate_first h]
  · rfl

/-- R9: an assertion of an input whose entry heals or is latched; any other entry is left. -/
theorem assertSlot_occupied {n : Input} {sl : Slot} {x : Entry} (c : InputConfig) (e : Nat) (now : Time) (h : InputSlotConsistent n sl)
    (k : sl.entry = some x) : assertSlot e now n c sl
      = if x.state = .healing ∨ x.state = .latched then ⟨some (reactivate e x), none, none⟩ else sl := by
  have timers := h.occupied k
  unfold assertSlot
  rw [k]
  dsimp only
  cases state : x.state with
  | healing => rw [timers.1 (by rw [state]; decide)]; rfl
  | latched => rw [timers.1 (by rw [state]; decide)]; rfl
  | qualifying => rfl
  | active => rfl

/-- R8: what a release makes of an entry. -/
theorem releaseSlot_occupied {n : Input} {sl : Slot} {x : Entry} (c : InputConfig) (h : InputSlotConsistent n sl)
    (k : sl.entry = some x) : releaseSlot c sl = match x.state with
      | .qualifying => ⟨none, none, none⟩
      | .active => if x.latching then ⟨some { x with state := .latched }, none, none⟩
        else if c.heal = 0 then ⟨none, none, none⟩
        else ⟨some { x with state := .healing }, none, some c.heal⟩
      | .healing | .latched => sl := by
  have timers := h.occupied k
  unfold releaseSlot
  rw [k]
  dsimp only
  cases state : x.state with
  | qualifying => rw [timers.2 (by rw [state]; decide)]
  | active =>
    rw [timers.1 (by rw [state]; decide), timers.2 (by rw [state]; decide)]
  | healing => rfl
  | latched => rfl

/-! ### The trip latch -/

theorem setTrip_tripped (s : State) : setTrip s = s.tripped := by
  unfold setTrip State.tripped
  split
  · rfl
  · unfold setOutput
    by_cases zero : s.perm.output = 0
    · rw [if_pos zero.symm, if_pos zero, ← zero]; rfl
    · rw [if_neg (Ne.symm zero), if_neg zero]; rfl

theorem takeTrip_tripped (n : Input) (s : State) : takeTrip n s = if (s.cfg.inputs[n]).trip then s.tripped else s := by
  rw [takeTrip, setTrip_tripped]

/-! ### The lines -/

theorem setLine_asserted (n : Input) (s : State) :
    setLine n true s = { s with pins.faultLines := s.pins.faultLines.set n (!(s.cfg.inputs[n]).activeLow) } := by
  unfold setLine
  cases (s.cfg.inputs[n]).activeLow <;> rfl

theorem setLine_released (n : Input) (s : State) :
    setLine n false s = { s with pins.faultLines := s.pins.faultLines.set n (s.cfg.inputs[n]).activeLow } := by
  unfold setLine
  cases (s.cfg.inputs[n]).activeLow <;> rfl

theorem setInputSlot_self (n : Input) (s : State) : setInputSlot n (s.lft.inputs[n]) s = s := by
  simp [setInputSlot]

/-- R2, R3: what an assertion makes of an input's slot. -/
def assertedSlot (n : Input) (s : State) : Slot :=
  if s.ctl.mode ≠ .unconfigured ∧ (s.cfg.inputs[n]).enabled = true then
    assertSlot s.cfg.escalation s.ctl.nodeTime n (s.cfg.inputs[n]) (s.lft.inputs[n])
  else s.lft.inputs[n]

theorem takeAssertion_slot (n : Input) (s : State) : takeAssertion n s = setInputSlot n (assertedSlot n s) s := by
  unfold takeAssertion assertedSlot
  split
  · rfl
  · exact (setInputSlot_self n s).symm

/-- R2, R3: what a release makes of an input's slot. -/
def releasedSlot (n : Input) (s : State) : Slot :=
  if s.ctl.mode ≠ .unconfigured ∧ (s.cfg.inputs[n]).enabled = true then releaseSlot (s.cfg.inputs[n]) (s.lft.inputs[n])
  else s.lft.inputs[n]

theorem takeRelease_slot (n : Input) (s : State) : takeRelease n s = setInputSlot n (releasedSlot n s) s := by
  unfold takeRelease releasedSlot
  split
  · rfl
  · exact (setInputSlot_self n s).symm

/-! ### The events -/

/-- Settles O34: the slot by the cases of its entry, and the trip path beside it. -/
theorem assertionActsOnItsSlotAndTheLatch : Obligations.AssertionActsOnItsSlotAndTheLatch := by
  refine fun n held s => ⟨fun h => if_pos h, fun awake long off config table => ?_⟩
  have slot : InputSlotConsistent n (s.lft.inputs[n]) := ((faultTableConsistent_iff s).mp table).input n
  have change : takeTrip n (takeAssertion n (setLine n true s)) = (let u := { s with
        pins.faultLines := s.pins.faultLines.set n (!(s.cfg.inputs[n]).activeLow)
        lft.inputs := s.lft.inputs.set n (assertedSlot n s) }
      if (s.cfg.inputs[n]).trip then u.tripped else u) := by
    rw [takeTrip_tripped, takeAssertion_slot, setLine_asserted]; rfl
  have run : exec (.assertion n held) s = .next (settle s (takeTrip n (takeAssertion n (setLine n true s)))) := by
    have event : ¬(held < minimumPulse ∨ s.lineAsserted n = true) := by
      rw [off]; exact fun k => k.elim (Nat.not_lt.mpr long) nofun
    exact (if_neg event).trans (if_neg (by rw [awake]; decide))
  have reply : (takeTrip n (takeAssertion n (setLine n true s))).port.reply = s.port.reply :=
    by
    rw [(takeTrip_work n _).reply, (takeAssertion_work n (setLine n true s)).port]; rfl
  refine ⟨_, assertedSlot n s, run, (settle_reply _ _).trans reply, change ▸ settle_follows _ _, ?_⟩
  unfold assertedSlot
  split
  · cases entry : (s.lft.inputs[n]).entry with
    | none =>
      dsimp only
      rw [slot.vacant entry, assertSlot_vacant n _ (config.escalation.imp_right And.left)]
      exact ⟨_, rfl, rfl, rfl, rfl⟩
    | some x =>
      dsimp only
      rw [assertSlot_occupied _ _ _ slot entry]
      split
      · exact ⟨_, reactivate_recurred _ x, rfl⟩
      · rfl
  · rfl

/-- Settles O35: the slot by the cases of its entry. -/
theorem inputReleaseActsOnItsEntry : Obligations.InputReleaseActsOnItsEntry := by
  refine fun n held s => ⟨fun h => if_pos h, fun awake long on table => ?_⟩
  have slot : InputSlotConsistent n (s.lft.inputs[n]) := ((faultTableConsistent_iff s).mp table).input n
  have change : takeRelease n (setLine n false s) = { s with
        pins.faultLines := s.pins.faultLines.set n (s.cfg.inputs[n]).activeLow
        lft.inputs := s.lft.inputs.set n (releasedSlot n s) } := by
    rw [takeRelease_slot, setLine_released]; rfl
  have run : exec (.inputRelease n held) s = .next (settle s (takeRelease n (setLine n false s))) := by
    have event : ¬(held < minimumPulse ∨ s.lineAsserted n = false) := by
      rw [on]; exact fun k => k.elim (Nat.not_lt.mpr long) nofun
    exact (if_neg event).trans (if_neg (by rw [awake]; decide))
  have reply : (takeRelease n (setLine n false s)).port.reply = s.port.reply := by
    rw [(takeRelease_work n (setLine n false s)).port]; rfl
  refine ⟨_, releasedSlot n s, run, (settle_reply _ _).trans reply, change ▸ settle_follows _ _, ?_⟩
  unfold releasedSlot
  split
  · cases entry : (s.lft.inputs[n]).entry with
    | none =>
      dsimp only
      unfold releaseSlot
      rw [entry]
    | some x =>
      dsimp only
      rw [releaseSlot_occupied _ slot entry]
      cases x.state <;> rfl
  · rfl

/-! ### The timers -/

/-- R7: a qualify timer runs on a QUALIFYING entry alone. -/
theorem InputSlotConsistent.qualifies {n : Input} {sl : Slot} (h : InputSlotConsistent n sl) (k : sl.qualify.isSome = true) :
    ∃ x, sl.entry = some x ∧ x.state = .qualifying := h.qualify.mp k

/-- R7: a QUALIFYING entry becomes ACTIVE. -/
theorem qualifySlot_occupied {n : Input} {sl : Slot} {x : Entry} {e : Nat} (h : InputSlotConsistent n sl) (entry : sl.entry = some x)
    (state : x.state = .qualifying) (config : e = 0 ∨ 2 ≤ e) (now : Time) : qualifySlot e now sl
      = ⟨some { x with state := .active, count := some 1, firstActive := some now }, none, none⟩ := by
  unfold qualifySlot
  rw [entry]
  dsimp only
  rw [if_pos state, activate_first config, (h.occupied entry).2 (by rw [state]; decide)]

/-- R10: the slot of an input whose heal timer runs is emptied. -/
theorem healSlot_input_emptied {n : Input} {sl : Slot} (h : InputSlotConsistent n sl) (k : sl.heal.isSome = true) :
    healSlot sl = ⟨none, none, none⟩ := by
  obtain ⟨x, entry, state⟩ := h.heal.mp k
  unfold healSlot
  rw [entry]
  dsimp only
  rw [if_pos state, (h.occupied entry).1 (by rw [state]; decide)]

/-- R16: a declared slot whose heal timer runs is emptied. -/
theorem healSlot_declared_emptied {sl : Slot} (h : DeclaredSlotConsistent sl) (k : sl.heal.isSome = true) :
    healSlot sl = ⟨none, none, none⟩ := by
  obtain ⟨x, entry, state⟩ := h.heal.mp k
  unfold healSlot
  rw [entry]
  dsimp only
  rw [if_pos state, h.qualify]

/-- Settles O36: each timer by whether it runs; one that runs says in what state its entry is. -/
theorem faultTimersExpire : Obligations.FaultTimersExpire := by
  intro s awake config table
  have slots := (faultTableConsistent_iff s).mp table
  refine ⟨fun n => ?_, fun n => ?_, fun d => ?_⟩
  · split
    · next k =>
      obtain ⟨x, entry, state⟩ := (slots.input n).qualifies k
      have change := qualifySlot_occupied (slots.input n) entry state (config.escalation.imp_right And.left) s.ctl.nodeTime
      obtain ⟨t, run, reply, follows⟩ := event_follows awake
        (f := fun s => if (s.lft.inputs[n]).qualify.isSome then
          settle s (setInputSlot n (qualifySlot s.cfg.escalation s.ctl.nodeTime (s.lft.inputs[n])) s) else s) (if_pos k) rfl
      exact ⟨t, x, entry, run, reply, change ▸ follows⟩
    · next k => exact (event_of_not_held awake _).trans (congrArg _ (if_neg k))
  · split
    · next k =>
      obtain ⟨t, run, reply, follows⟩ := event_follows awake
        (f := fun s => if (s.lft.inputs[n]).heal.isSome then settle s (setInputSlot n (healSlot (s.lft.inputs[n])) s) else s)
        (if_pos k) rfl
      exact ⟨t, run, reply, healSlot_input_emptied (slots.input n) k ▸ follows⟩
    · next k => exact (event_of_not_held awake _).trans (congrArg _ (if_neg k))
  · split
    · next k =>
      obtain ⟨t, run, reply, follows⟩ := event_follows awake
        (f := fun s => if (s.lft.declared[d]).heal.isSome then settle s (setDeclaredSlot d (healSlot (s.lft.declared[d])) s) else s)
        (if_pos k) rfl
      exact ⟨t, run, reply, healSlot_declared_emptied (slots.declared d) k ▸ follows⟩
    · next k => exact (event_of_not_held awake _).trans (congrArg _ (if_neg k))

end Sys2Proof.Machine
end

section
/-! DECLARE, WITHDRAW and CLEAR-FAULT (R12 to R17). -/

namespace Sys2Proof.Machine

/-! ### Arguments -/

theorem classArg_class {b : Byte} {c : FaultClass} (code : c.code = b.toNat) (named : c.code ≤ 6) : classArg b = some c := by
  rw [classArg, FaultClass.ofLocalCode, if_pos (code ▸ named), ← code]
  cases c <;> rfl

theorem classArg_range {b : Byte} (h : b.toNat = 0 ∨ 7 ≤ b.toNat) : classArg b = none := by
  rw [classArg, FaultClass.ofLocalCode]
  rcases h with h | h
  · rw [h]; rfl
  · exact if_neg (by omega)

theorem severityArg_severity {b : Byte} {v : Severity} (code : v.code = b.toNat) : severityArg b = some v := by
  rw [severityArg, ← code]
  cases v <;> rfl

theorem severityArg_range {b : Byte} (h : b.toNat = 0 ∨ 4 ≤ b.toNat) : severityArg b = none := by
  rw [severityArg]
  unfold Severity.ofCode
  split <;> first | rfl | omega

/-! ### Finding a declared slot -/

theorem findFrom_first {pointer d : DeclSlot} {test : DeclSlot → Bool} {P : DeclSlot → Prop} (agree : ∀ e, test e = true ↔ P e)
    (h : FirstFrom pointer d P) : findFrom pointer test = some d := by
  obtain ⟨found, before⟩ := h
  have back : pointer + (d - pointer) = d := add_sub_cancel pointer d
  have first : (List.finRange 8).find? (test ∘ fun i => pointer + i) = some (d - pointer) := by
    rw [List.find?_eq_some_iff_getElem]
    refine ⟨by simpa [back] using (agree d).mpr found, (d - pointer).val, by simp, by simp, fun j hj => ?_⟩
    have earlier := before (pointer + ⟨j, by omega⟩) (by
      rw [add_sub_cancel_left]; exact hj)
    rw [← agree] at earlier
    simpa using earlier
  rw [findFrom, List.find?_map, first]
  exact congrArg some back

theorem findFrom_none {test : DeclSlot → Bool} (h : ∀ e, test e = false) (pointer : DeclSlot) : findFrom pointer test = none := by
  rw [findFrom, List.find?_eq_none]
  intro e _
  rw [h e]; decide

theorem isEmptySlot_iff (l : Lft) (d : DeclSlot) : isEmptySlot l d = true ↔ (l.declared[d]).entry = none := by
  rw [isEmptySlot, Option.isNone_iff_eq_none]

theorem isHealingSlot_iff (l : Lft) (d : DeclSlot) :
    isHealingSlot l d = true ↔ ∃ x, (l.declared[d]).entry = some x ∧ x.state = .healing := by
  unfold isHealingSlot
  cases (l.declared[d]).entry <;> simp

/-- R12: the slot that holds a class and zone, which no two slots do. -/
theorem declaredSlot_holds {l : Lft} {d : DeclSlot} {x : Entry} (apart : DeclaredApart l.declared)
    (entry : (l.declared[d]).entry = some x) : declaredSlot l x.cls x.zone = some d := by
  cases found : declaredSlot l x.cls x.zone with
  | none => exact absurd ⟨rfl, rfl⟩ (declaredSlot_none found entry)
  | some e =>
    have holds := List.find?_some found
    split at holds
    · next y hy =>
      obtain ⟨cls, zone⟩ : y.cls = x.cls ∧ y.zone = x.zone := by simpa using holds
      rw [apart e d y x hy entry cls zone]
    · cases holds

theorem declaredSlot_missing {l : Lft} {c : FaultClass} {z : Zone}
    (h : ∀ (d : DeclSlot) (x : Entry), (l.declared[d]).entry = some x → x.cls ≠ c ∨ x.zone ≠ z) : declaredSlot l c z = none := by
  rw [declaredSlot, List.find?_eq_none]
  intro d _
  split
  · next x hx => simpa [-not_and, not_and_or] using h d x hx
  · decide

/-! ### DECLARE -/

theorem placementSlot_first {l : Lft} {d : DeclSlot} (h : FirstFrom l.pointer d (fun e => (l.declared[e]).entry = none)
    ∨ ((∀ e : DeclSlot, (l.declared[e]).entry ≠ none)
      ∧ FirstFrom l.pointer d fun e => ∃ x, (l.declared[e]).entry = some x ∧ x.state = .healing)) :
    placementSlot l = some d := by
  unfold placementSlot
  rcases h with first | ⟨full, first⟩
  · rw [findFrom_first (isEmptySlot_iff l) first]
  · rw [findFrom_none fun e => by rw [← Bool.not_eq_true, isEmptySlot_iff]; exact full e]
    exact findFrom_first (isHealingSlot_iff l) first

theorem placementSlot_full {l : Lft} (h : ∀ d : DeclSlot, ∃ x, (l.declared[d]).entry = some x ∧ x.state ≠ .healing) :
    placementSlot l = none := by
  unfold placementSlot
  have noEmpty (e : DeclSlot) : isEmptySlot l e = false := by
    obtain ⟨x, hx, -⟩ := h e
    rw [isEmptySlot, hx]; rfl
  have noHealing (e : DeclSlot) : isHealingSlot l e = false := by
    obtain ⟨x, hx, state⟩ := h e
    unfold isHealingSlot
    rw [hx]
    exact beq_false_of_ne state
  rw [findFrom_none noEmpty, findFrom_none noHealing]

/-- R13: a DECLARE leaves the slot that it updates without a timer. -/
theorem redeclareSlot_idle {sl : Slot} {x : Entry} (h : DeclaredSlotConsistent sl) (entry : sl.entry = some x) (e : Nat)
    (v : Severity) : redeclareSlot e v x sl = ⟨some (redeclared e v x), none, none⟩ := by
  have idle : x.state ≠ .healing → sl.heal = none := fun ne => by
    by_contra runs
    obtain ⟨y, hy, state⟩ := h.heal.mp (Option.isSome_iff_ne_none.mpr runs)
    cases entry.symm.trans hy
    exact ne state
  unfold redeclareSlot
  rw [h.qualify]
  split
  · rfl
  · next ne => rw [idle ne]

/-- R14: a new declaration is ACTIVE with count 1. -/
theorem declaredEntry_first {e : Nat} (h : e = 0 ∨ 2 ≤ e) (now : Time) (c : FaultClass) (z : Zone) (v : Severity) :
    declaredEntry e now c z v = { source := .declared, cls := c, zone := z, configured := v, current := v, state := .active
                                  count := some 1, escalated := false, firstActive := some now, latching := false } :=
  activate_first h now _

/-- R12, R167: how the Local Fault Table answers a DECLARE. -/
def declareAnswer (cls zone severity : Byte) (s : State) : Answer :=
  match classArg cls, zoneArg zone, severityArg severity with
  | some c, some z, some v => whenStarted s (declareFault c z v s)
  | _, _, _ => refuse .range s

theorem exec_declare (cls zone severity : Byte) (tail : Tail) (s : State) : exec (.declare cls zone severity tail) s
    = hostRequest 0x11 [cls, zone, severity] tail 0 (declareAnswer cls zone severity) s := by
  rfl

theorem declareAnswer_range {cls zone severity : Byte}
    (h : cls.toNat = 0 ∨ 7 ≤ cls.toNat ∨ severity.toNat = 0 ∨ 4 ≤ severity.toNat ∨ 12 ≤ zone.toNat) (s : State) :
    declareAnswer cls zone severity s = refuse .range s := by
  unfold declareAnswer
  split
  · next c z v hc hz hv =>
    rcases h with h | h | h | h | h
    · rw [classArg_range (.inl h)] at hc; cases hc
    · rw [classArg_range (.inr h)] at hc; cases hc
    · rw [severityArg_range (.inl h)] at hv; cases hv
    · rw [severityArg_range (.inr h)] at hv; cases hv
    · rw [zoneArg_range h] at hz; cases hz
  · rfl

theorem declareAnswer_valid {cls zone severity : Byte} {c : FaultClass} {z : Zone} {v : Severity} (hc : classArg cls = some c)
    (hz : zoneArg zone = some z) (hv : severityArg severity = some v) (s : State) :
    declareAnswer cls zone severity s = whenStarted s (declareFault c z v s) := by
  rw [declareAnswer, hc, hz, hv]

/-- Settles O37: the arguments, the node mode, then the slot of the class and zone, or the one that R14 finds. -/
theorem declareUpdatesPlacesOrRefuses : Obligations.DeclareUpdatesPlacesOrRefuses := by
  refine fun cls zone severity tail s taken => ⟨fun h => ?_, fun c z v code named place grade => ?_⟩
  · rw [exec_declare, request_answers taken (declareAnswer_range h s)]; rfl
  rw [exec_declare]
  have owner := declareAnswer_valid (classArg_class code named) (zoneArg_zone place.symm) (severityArg_severity grade) s
  refine ⟨fun m => request_answers (n := 0) taken (owner.trans (whenStarted_refused m _)), fun m config table => ?_⟩
  have slots := (faultTableConsistent_iff s).mp table
  replace owner := owner.trans (whenStarted_of m _)
  refine ⟨fun d x entry class_eq zone_eq => ?_, fun missing => ⟨fun d first => ?_, fun full => ?_⟩⟩
  · have found := declaredSlot_holds slots.apart entry
    rw [class_eq, zone_eq] at found
    have answer : declareFault c z v s
        = accept false (settle s (setDeclaredSlot d ⟨some (redeclared s.cfg.escalation v x), none, none⟩ s)) := by
      unfold declareFault
      rw [found]
      dsimp only
      rw [entry]
      dsimp only
      rw [redeclareSlot_idle (slots.declared d) entry]
    obtain ⟨t, run, reply, follows⟩ := request_follows taken (owner.trans answer)
    refine ⟨t, _, run, reply, follows, ?_⟩
    unfold redeclared
    split
    · exact reactivate_recurred _ _
    · rfl
  · have answer : declareFault c z v s = accept false (settle s { setDeclaredSlot d
        ⟨some (declaredEntry s.cfg.escalation s.ctl.nodeTime c z v), none, none⟩ s with lft.pointer := d + 1 }) := by
      unfold declareFault
      rw [declaredSlot_missing missing]
      dsimp only
      rw [placementSlot_first first]
    rw [declaredEntry_first (config.escalation.imp_right And.left)] at answer
    exact request_follows taken (owner.trans answer)
  · refine request_answers (n := 0) (a := refuse .full s) taken (owner.trans ?_)
    unfold declareFault
    rw [declaredSlot_missing missing]
    dsimp only
    rw [placementSlot_full full]

/-! ### WITHDRAW -/

/-- R15, R167: how the Local Fault Table answers a WITHDRAW. -/
def withdrawAnswer (cls zone : Byte) (s : State) : Answer :=
  match classArg cls, zoneArg zone with
  | some c, some z => whenStarted s (withdrawFault c z s)
  | _, _ => refuse .range s

theorem exec_withdraw (cls zone : Byte) (tail : Tail) (s : State) :
    exec (.withdraw cls zone tail) s = hostRequest 0x12 [cls, zone] tail 0 (withdrawAnswer cls zone) s := by
  rfl

theorem withdrawAnswer_range {cls zone : Byte} (h : cls.toNat = 0 ∨ 7 ≤ cls.toNat ∨ 12 ≤ zone.toNat) (s : State) :
    withdrawAnswer cls zone s = refuse .range s := by
  unfold withdrawAnswer
  split
  · next c z hc hz =>
    rcases h with h | h | h
    · rw [classArg_range (.inl h)] at hc; cases hc
    · rw [classArg_range (.inr h)] at hc; cases hc
    · rw [zoneArg_range h] at hz; cases hz
  · rfl

theorem withdrawAnswer_valid {cls zone : Byte} {c : FaultClass} {z : Zone} (hc : classArg cls = some c) (hz : zoneArg zone = some z)
    (s : State) : withdrawAnswer cls zone s = whenStarted s (withdrawFault c z s) := by
  rw [withdrawAnswer, hc, hz]

/-- R15: what a WITHDRAW makes of the slot that it names. -/
theorem withdrawSlot_cases {sl : Slot} (h : DeclaredSlotConsistent sl) (heal : Nat) (x : Entry) : withdrawSlot heal x sl
    = if x.state = .healing then sl
      else if heal = 0 then ⟨none, none, none⟩ else ⟨some { x with state := .healing }, none, some heal⟩ := by
  unfold withdrawSlot
  rw [h.qualify]

/-- Settles O38: the arguments, the node mode, then the slot of the class and zone. -/
theorem withdrawHealsDeclaredEntries : Obligations.WithdrawHealsDeclaredEntries := by
  refine fun cls zone tail s taken => ⟨fun h => ?_, fun c z code named place => ?_⟩
  · rw [exec_withdraw, request_answers taken (withdrawAnswer_range h s)]; rfl
  rw [exec_withdraw]
  have owner := withdrawAnswer_valid (classArg_class code named) (zoneArg_zone place.symm) s
  refine ⟨fun m => request_answers (n := 0) taken (owner.trans (whenStarted_refused m _)), fun m table => ?_⟩
  have slots := (faultTableConsistent_iff s).mp table
  replace owner := owner.trans (whenStarted_of m _)
  refine ⟨fun d x entry class_eq zone_eq => ?_, fun missing => ?_⟩
  · have found := declaredSlot_holds slots.apart entry
    rw [class_eq, zone_eq] at found
    have answer : withdrawFault c z s
        = accept false (settle s (setDeclaredSlot d (withdrawSlot s.cfg.declaredHeal x s.lft.declared[d]) s)) := by
      unfold withdrawFault
      rw [found]
      dsimp only
      rw [entry]
    rw [withdrawSlot_cases (slots.declared d)] at answer
    exact request_follows taken (owner.trans answer)
  · refine request_answers (n := 0) (a := refuse .notFound s) taken (owner.trans ?_)
    unfold withdrawFault
    rw [declaredSlot_missing missing]

/-! ### CLEAR-FAULT -/

theorem slotArg_range {b : Byte} (h : 16 ≤ b.toNat) : slotArg b = none := by
  unfold slotArg
  rw [dif_neg (by omega), dif_neg (by omega)]

theorem slotArg_input {b : Byte} {n : Input} (h : b.toNat = n.val) : slotArg b = some (.input n) := by
  unfold slotArg
  rw [dif_pos (h ▸ n.isLt)]
  exact congrArg (fun n => some (SlotName.input n)) (Fin.ext h)

theorem slotArg_declared {b : Byte} {d : DeclSlot} (h : b.toNat = 8 + d.val) : slotArg b = some (.declared d) := by
  unfold slotArg
  rw [dif_neg (by omega), dif_pos (by omega)]
  exact congrArg (fun d => some (SlotName.declared d)) (Fin.ext (by simp only [h]; omega))

/-- R17: how the Local Fault Table of a started station answers a CLEAR-FAULT. -/
def clearFaultAnswer (slot : Byte) (s : State) : Answer :=
  whenStarted s (match slotArg slot with
    | some name => clearSlot name s
    | none => refuse .range s)

theorem exec_clearFault (slot : Byte) (tail : Tail) (s : State) :
    exec (.clearFault slot tail) s = hostRequest 0x13 [slot] tail 0 (clearFaultAnswer slot) s := by
  rfl

theorem clearFaultAnswer_range {slot : Byte} {s : State} (m : s.ctl.mode ≠ .unconfigured) (h : slotArg slot = none) :
    clearFaultAnswer slot s = refuse .range s := by
  rw [clearFaultAnswer, whenStarted_of m, h]

theorem clearFaultAnswer_slot {slot : Byte} {s : State} {name : SlotName} (m : s.ctl.mode ≠ .unconfigured)
    (h : slotArg slot = some name) : clearFaultAnswer slot s = clearSlot name s := by
  rw [clearFaultAnswer, whenStarted_of m, h]

/-- Settles O39: the slot number, then the entry of the slot that it names. -/
theorem clearFaultRemovesOneEntry : Obligations.ClearFaultRemovesOneEntry := by
  refine fun slot tail s taken m => ⟨fun h => ?_, fun n h => ?_, fun d h => ?_⟩
  · rw [exec_clearFault, request_answers taken (clearFaultAnswer_range m (slotArg_range h))]; rfl
  · rw [exec_clearFault]
    have owner := clearFaultAnswer_slot m (slotArg_input h)
    dsimp only [clearSlot] at owner
    split
    · next entry =>
      rw [entry] at owner
      exact request_answers (n := 0) (a := refuse .notFound s) taken owner
    · next x entry =>
      rw [entry] at owner
      dsimp only at owner
      have still : x.stillAsserted = true ↔ x.state = .qualifying ∨ x.state = .active := by simp [Entry.stillAsserted]
      split
      · next k => exact request_answers (n := 0) (a := refuse .stillAsserted s) taken (owner.trans (if_pos (still.mpr k)))
      · next k => exact request_follows taken (owner.trans (if_neg fun e => k (still.mp e)))
  · rw [exec_clearFault]
    have owner := clearFaultAnswer_slot m (slotArg_declared h)
    dsimp only [clearSlot] at owner
    split
    · next entry =>
      rw [entry] at owner
      exact request_answers (n := 0) (a := refuse .notFound s) taken owner
    · next x entry =>
      rw [entry] at owner
      exact request_follows taken owner

end Sys2Proof.Machine
end

section
/-! Who accuses a zone, how strongly, and what becomes of its state (R19, R20, R67, R68, R70 to R72, R75 to R80, R88, R89). -/

namespace Sys2Proof.Machine

/-! ### The strongest accusation -/

theorem Claim.over_iff (a b : Claim) : Claim.over a b = true ↔ b.severity.code < a.severity.code
    ∨ (a.severity = b.severity ∧ a.cls.code < b.cls.code) := by
  simp [Claim.over]

theorem Severity.code_injective {a b : Severity} (h : a.code = b.code) : a = b := by
  revert h; cases a <;> cases b <;> decide

/-- R68: what is taken over an accusation is stronger, and what is not is not. -/
theorem Strongest.cons {l : List Claim} {c d : Claim} (h : Strongest (· ∈ l) d) :
    Strongest (· ∈ c :: l) (if Claim.over d c = true then d else c) := by
  obtain ⟨member, rest⟩ := h
  split
  · next wins =>
    rw [Claim.over_iff] at wins
    refine ⟨List.mem_cons_of_mem _ member, fun k hk => ?_⟩
    rcases List.mem_cons.mp hk with rfl | hk
    · exact wins.imp_right fun ⟨same, less⟩ => ⟨same.symm, less.le⟩
    · exact rest k hk
  · next wins =>
    rw [Claim.over_iff] at wins
    refine ⟨List.mem_cons_self, fun k hk => ?_⟩
    rcases List.mem_cons.mp hk with rfl | hk
    · exact .inr ⟨rfl, le_rfl⟩
    · have weaker : d.severity.code ≤ c.severity.code := by by_contra k; exact wins (.inl (not_le.mp k))
      rcases rest k hk with less | ⟨same, order⟩
      · exact .inl (less.trans_le weaker)
      · rcases weaker.lt_or_eq with less | equal
        · exact .inl (same ▸ less)
        · have level := Severity.code_injective equal
          exact .inr ⟨same.trans level, (not_lt.mp fun k => wins (.inr ⟨level, k⟩)).trans order⟩

theorem Strongest.congr {P Q : Claim → Prop} {c : Claim} (h : Strongest P c) (agree : ∀ k, P k ↔ Q k) : Strongest Q c :=
  ⟨(agree c).mp h.1, fun d hd => h.2 d ((agree d).mpr hd)⟩

/-- R19, R68: the accusation that the sources `P` form, absent without one. -/
def FormedBy (P : Claim → Prop) (o : Option Claim) : Prop := (o = none → ∀ k, ¬P k) ∧ ∀ c, o = some c → Strongest P c

theorem strongest_formed (l : List Claim) : FormedBy (· ∈ l) (strongest l) := by
  induction l with
  | nil => exact ⟨fun _ _ => List.not_mem_nil, nofun⟩
  | cons c l ih =>
    unfold strongest
    cases rest : strongest l with
    | none =>
      have empty : l = [] := List.eq_nil_iff_forall_not_mem.mpr (ih.1 rest)
      subst empty
      refine ⟨nofun, fun k hk => ?_⟩
      cases hk
      exact ⟨List.mem_singleton_self c, fun d hd => .inr (by rw [List.mem_singleton.mp hd]; exact ⟨rfl, le_rfl⟩)⟩
    | some d =>
      have wins := (ih.2 d rest).cons (c := c)
      dsimp only
      rw [← apply_ite some]
      exact ⟨nofun, fun k hk => by cases hk; exact wins⟩

/-- R19, R68: the accusation that several sources form, by what the sources are. -/
theorem strongest_of {l : List Claim} {P : Claim → Prop} (agree : ∀ k, k ∈ l ↔ P k) : FormedBy P (strongest l) :=
  ⟨fun none k hk => (strongest_formed l).1 none k ((agree k).mpr hk), fun c some => ((strongest_formed l).2 c some).congr agree⟩

/-! ### The local accusation -/

theorem Slot.claim_iff (z : Zone) (sl : Slot) (k : Claim) : Slot.claim z sl = some k
    ↔ ∃ x, sl.entry = some x ∧ x.zone = z ∧ x.state ≠ .qualifying ∧ k = ⟨x.cls, x.current⟩ := by
  unfold Slot.claim Entry.accuses
  cases sl.entry with
  | none => simp
  | some x => simp [and_assoc, eq_comm (a := k)]

theorem mem_slots {l : Lft} {sl : Slot} : sl ∈ l.slots ↔ (∃ n : Input, l.inputs[n] = sl) ∨ ∃ d : DeclSlot, l.declared[d] = sl := by
  simp only [Lft.slots, List.mem_append, Vector.mem_toList_iff, Vector.mem_iff_getElem]
  exact or_congr ⟨fun ⟨i, h, e⟩ => ⟨⟨i, h⟩, e⟩, fun ⟨n, e⟩ => ⟨n.val, n.isLt, e⟩⟩
    ⟨fun ⟨i, h, e⟩ => ⟨⟨i, h⟩, e⟩, fun ⟨n, e⟩ => ⟨n.val, n.isLt, e⟩⟩

theorem holds_iff {l : Lft} {x : Entry} : l.holds x ↔ ∃ sl ∈ l.slots, sl.entry = some x := by
  constructor
  · rintro (⟨n, h⟩ | ⟨d, h⟩)
    · exact ⟨_, mem_slots.mpr (.inl ⟨n, rfl⟩), h⟩
    · exact ⟨_, mem_slots.mpr (.inr ⟨d, rfl⟩), h⟩
  · rintro ⟨sl, member, h⟩
    rcases mem_slots.mp member with ⟨n, rfl⟩ | ⟨d, rfl⟩
    · exact .inl ⟨n, h⟩
    · exact .inr ⟨d, h⟩

theorem mem_localClaims {l : Lft} {z : Zone} {k : Claim} : k ∈ l.slots.filterMap (Slot.claim z)
    ↔ ∃ x, l.holds x ∧ x.zone = z ∧ x.state ≠ .qualifying ∧ k = ⟨x.cls, x.current⟩ := by
  simp only [List.mem_filterMap, Slot.claim_iff, holds_iff]
  exact ⟨fun ⟨sl, member, x, h, about⟩ => ⟨x, ⟨sl, member, h⟩, about⟩, fun ⟨x, ⟨sl, member, h⟩, about⟩ => ⟨sl, member, x, h, about⟩⟩

theorem attests_iff (s : State) : s.attests = true ↔ ∀ x, s.lft.holds x → x.zone ≠ stationZone s.ctl.station := by
  simp only [State.attests, List.all_eq_true, holds_iff]
  refine ⟨fun h x ⟨sl, member, entry⟩ => ?_, fun h sl member => ?_⟩
  · have k := h sl member
    rw [entry] at k
    simpa using k
  · split
    · next x entry => simpa using h x ⟨sl, member, entry⟩
    · rfl

/-- Settles O41: the slots of the table and what each contributes. -/
theorem localAccusationAndAttest : Obligations.LocalAccusationAndAttest := by
  refine ⟨fun l z => ?_, attests_iff⟩
  have formed : FormedBy _ (localAccusation l z) := strongest_of fun k => mem_localClaims
  split
  · next absent =>
    intro x holds zone
    by_contra state
    exact formed.1 absent ⟨x.cls, x.current⟩ ⟨x, holds, zone, state, rfl⟩
  · next c present => exact formed.2 c present

/-! ### The own accusation -/

theorem zoneOwner_iff (z : Zone) (p : Station) : zoneOwner z = some p ↔ stationZone p = z := by
  revert z p; decide

theorem ownerMarked_iff (marks : Vector Bool 8) (z : Zone) :
    ownerMarked marks z = true ↔ ∃ p : Station, stationZone p = z ∧ marks[p] = true := by
  unfold ownerMarked
  simp only [← zoneOwner_iff]
  cases zoneOwner z with
  | none => simp
  | some p => simp [-Fin.getElem_fin]

/-- R67: the derivations that stand against a zone. -/
theorem mem_derivedClaims {d : Derived} {self : Station} {z : Zone} {k : Claim} : k ∈ derivedClaims d self z
    ↔ ((∃ p : Station, stationZone p = z ∧ d.lost[p] = true) ∧ k = ⟨.lost, .major⟩)
      ∨ (z = 11 ∧ d.deaf = true ∧ k = ⟨.bus, .major⟩)
      ∨ (z = 11 ∧ d.mute = true ∧ k = ⟨.bus, .minor⟩)
      ∨ (z = 11 ∧ d.bitFault = true ∧ k = ⟨.bus, .major⟩)
      ∨ (z = 11 ∧ d.duplicate = true ∧ k = ⟨.bus, .major⟩)
      ∨ ((∃ p : Station, stationZone p = z ∧ d.implausible[p] = true) ∧ k = ⟨.implausible, .minor⟩)
      ∨ (z = stationZone self ∧ d.stale = true ∧ k = ⟨.stale, .minor⟩) := by
  simp only [derivedClaims, derivations, List.mem_filterMap, List.mem_cons, List.not_mem_nil, or_false, or_and_right, exists_or,
    exists_eq_left, Option.ite_none_right_eq_some, Option.some.injEq, Bool.and_eq_true, beq_iff_eq, ownerMarked_iff, eq_comm (a := k),
    busZone, and_assoc, and_left_comm (b := z = _)]

/-- Settles O42: the local accusation and the derivations are the sources. -/
theorem ownAccusationIsTheStrongestSource : Obligations.OwnAccusationIsTheStrongestSource := by
  intro s z source
  have formed : FormedBy source (ownClaim s z) := strongest_of fun k => by
    rw [List.mem_append, Option.mem_toList, mem_derivedClaims]
  split
  · next absent => exact formed.1 absent
  · next c present => exact formed.2 c present

/-! ### The accuser sets -/

/-- R70: a list that names each zone at most once has at most one accusation of it. -/
theorem find_zone_iff {l : List Accusation} (once : (l.map (·.zone)).Nodup) (z : Zone) (c : Claim) :
    (l.find? (·.zone == z)).map (·.claim) = some c ↔ ⟨z, c⟩ ∈ l := by
  induction l with
  | nil => simp
  | cons a l ih =>
    obtain ⟨fresh, once⟩ := List.nodup_cons.mp once
    by_cases here : a.zone = z
    · have others : ⟨z, c⟩ ∉ l := fun k => fresh (List.mem_map.mpr ⟨_, k, here.symm⟩)
      rw [List.find?_cons_of_pos (by simpa using here), List.mem_cons, or_iff_left others]
      obtain ⟨y, d⟩ := a
      simp only at here
      subst here
      simp [eq_comm]
    · have other : (⟨z, c⟩ : Accusation) ≠ a := fun k => here (k ▸ rfl)
      rw [List.find?_cons_of_neg (by simpa using here), List.mem_cons, or_iff_right other]
      exact ih once

theorem PeerRecord.claim_iff {r : PeerRecord} (once : (r.list.map (·.zone)).Nodup) (z : Zone) (c : Claim) :
    r.claim z = some c ↔ (r.presence = .joining ∨ r.presence = .present) ∧ ⟨z, c⟩ ∈ r.list := by
  unfold PeerRecord.claim
  split
  · next counts => rw [find_zone_iff once, and_iff_right counts]
  · next counts => simp [counts]

theorem mem_accusersOf {s : State} (h : PeerTableConsistent s) (own : Option Claim) (z : Zone) (a : Accuser) :
    a ∈ accusersOf s own z ↔ a.discounted = false ∧ if a.station = s.ctl.station then own = some a.claim
      else ((s.pv.peers[a.station]).presence = .joining ∨ (s.pv.peers[a.station]).presence = .present)
        ∧ ⟨z, a.claim⟩ ∈ (s.pv.peers[a.station]).list := by
  obtain ⟨p, c, marked⟩ := a
  have listed := PeerRecord.claim_iff (h.listBound p).2 z c
  dsimp only
  rw [← listed, accusersOf, List.mem_filterMap]
  constructor
  · rintro ⟨q, -, found⟩
    obtain ⟨d, accuses, same⟩ := Option.map_eq_some_iff.mp found
    cases same
    exact ⟨rfl, by simpa only [apply_ite (· = some c)] using accuses⟩
  · rintro ⟨rfl, accuses⟩
    exact ⟨p, List.mem_finRange p, Option.map_eq_some_iff.mpr ⟨c, by simpa only [apply_ite (· = some c)] using accuses, rfl⟩⟩

theorem mem_rawConfirming {l : List Accuser} {a : Accuser} : a ∈ rawConfirming l ↔ a ∈ l ∧ a.claim.cls ≠ .implausible := by
  simp [rawConfirming]

theorem mem_suspicion {l : List Accuser} {a : Accuser} : a ∈ suspicion l ↔ a ∈ l ∧ a.discounted = false := by
  simp [suspicion]

theorem mem_confirming {l : List Accuser} {a : Accuser} :
    a ∈ confirming l ↔ a ∈ l ∧ a.claim.cls ≠ .implausible ∧ a.discounted = false := by
  simp [confirming, mem_rawConfirming, and_assoc]

theorem criticalAmong_iff (l : List Accuser) : criticalAmong l = true ↔ ∃ a ∈ confirming l, a.claim.severity = .critical := by
  simp [criticalAmong]

theorem confirmationHolds_iff (q : Nat) (z : Zone) (l : List Accuser) : confirmationHolds q z l = true ↔
    (∃ a ∈ confirming l, stationZone a.station = z ∧ a.claim.severity ≠ .minor)
      ∨ (∃ a ∈ confirming l, a.claim.severity = .critical) ∨ q ≤ (confirming l).length := by
  simp only [confirmationHolds, Bool.or_eq_true, criticalAmong_iff, List.any_eq_true, Bool.and_eq_true, beq_iff_eq, bne_iff_ne,
    zoneOwner_iff, decide_eq_true_eq, or_assoc]

/-- Settles O43: the sets by their members. -/
theorem supportSetsAndConfirmation : Obligations.SupportSetsAndConfirmation :=
  ⟨fun s own z h => ⟨accusersOf_pairwise s own z, mem_accusersOf h own z⟩,
    fun _ _ => ⟨mem_rawConfirming, mem_confirming, mem_suspicion⟩, confirmationHolds_iff⟩

/-! ### The state rules -/

theorem unconfirmed_eq (c : Store) (r : ZoneRecord) : unconfirmed c r
    = if suspicion r.accusers ≠ [] then { r with state := .suspect, delay := none, clean := none }
      else if r.state = .clear then r
      else { r with state := .clear, delay := none, clean := if r.released then some (1000 * c.cleanInterval) else none } := by
  unfold unconfirmed cleanStart
  by_cases h : suspicion r.accusers = []
  · rw [if_pos (by rw [h]; rfl), if_neg (not_not.mpr h)]
  · rw [if_neg (by simpa using h), if_pos h]

/-- Settles O44: by the state that the zone is in, with the two conditions of R75 and R76 by their members. -/
theorem zoneStatesFollowSupport : Obligations.ZoneStatesFollowSupport := by
  intro c z r isolated critical unsupported
  have among : criticalAmong r.accusers = true ↔ critical := criticalAmong_iff r.accusers
  have atOnce : (criticalAmong r.accusers || (c.zones[z]).delay == 0) = true ↔ critical ∨ (c.zones[z]).delay = 0 := by
    rw [Bool.or_eq_true, among, beq_iff_eq]
  unfold zoneNext
  cases r.state with
  | clear | suspect => simp only [atOnce, unconfirmed_eq]; rfl
  | confirmed => simp only [among, unconfirmed_eq]; rfl
  | isolated | pinned => rfl

/-! ### The stamp -/

theorem confirming_sublist (l : List Accuser) : (confirming l).Sublist l := List.filter_sublist.trans List.filter_sublist

/-- R79: each bit of the accuser bitmap. -/
theorem accuserBitmap_testBit {l : List Accuser} (h : l.Pairwise fun a b => a.station < b.station) (p : Station) :
    (accuserBitmap l).testBit p.val = true ↔ ∃ a ∈ confirming l, a.station = p := by
  have ordered : ((confirming l).map fun a => a.station.val).SortedLT := by
    rw [List.sortedLT_iff_pairwise, List.pairwise_map]
    exact (h.sublist (confirming_sublist l)).imp id
  have bits := Nat.bitIndices_sum_map_two_pow ordered
  rw [List.map_map] at bits
  rw [← Nat.mem_bitIndices, accuserBitmap]
  rw [show (confirming l).map (fun a => 2 ^ a.station.val) = (confirming l).map ((fun i => 2 ^ i) ∘ fun a => a.station.val) from rfl,
    bits, List.mem_map]
  exact exists_congr fun a => and_congr_right fun _ => Fin.val_inj

/-- Settles O45: zone, count and bitmap stand side by side. -/
theorem stampIdentifiesTheIsolation : Obligations.StampIdentifiesTheIsolation := by
  intro z count l h
  have low := accuserBitmap_lt l h
  have zone := z.isLt
  have value : (isolationStamp z count l).toNat = z.val * 4096 + count % 16 * 256 + accuserBitmap l := by
    rw [isolationStamp, BitVec.toNat_ofNat]
    omega
  exact ⟨accuserBitmap l, low, value, accuserBitmap_testBit h, by omega⟩

end Sys2Proof.Machine
end

section
/-! The tables of levels and caps, the inputs that move them, the output timers, the trip latch and the contactor (R100 to R146). -/

namespace Sys2Proof.Machine

/-! ### The tables -/

/-- R104: whom a station follows. -/
theorem follows_iff (s : State) (p : Station) : follows s.cfg s.ctl.station (View.of s) p = true ↔
    (s.cfg.group ≠ 0 ∧ p ≠ s.ctl.station ∧ (s.pv.peers[p]).presence = .present ∧ (s.pv.peers[p]).group = some s.cfg.group
      ∧ ((s.ziu.zones[stationZone p]).state = .clear ∨ (s.ziu.zones[stationZone p]).state = .suspect)
      ∧ (s.pv.peers[p]).status.any (·.selfIsolated) = false) := by
  have flag : (s.pv.peers[p]).announced.selfIsolated = (s.pv.peers[p]).status.any (·.selfIsolated) := by
    rw [PeerRecord.announced]
    cases (s.pv.peers[p]).status <;> rfl
  simp only [follows, view_peers, view_zones, flag, Bool.and_eq_true, Bool.or_eq_true, bne_iff_ne, beq_iff_eq, Bool.not_eq_true',
    and_assoc]
  rfl

/-- R118: between the thresholds the factor is the rounded share. -/
theorem foldbackOf_between {slo shi stress : Nat} (top : shi ≤ 255) (low : slo < stress) (high : stress < shi) :
    foldbackOf slo shi stress = 1000 * (shi - stress) / (shi - slo)
      ∧ 3 ≤ foldbackOf slo shi stress ∧ foldbackOf slo shi stress < 1000 := by
  have share : foldbackOf slo shi stress = 1000 * (shi - stress) / (shi - slo) := by
    rw [foldbackOf, if_neg (not_le.mpr low), if_pos high]
  have span : 0 < shi - slo := by omega
  refine ⟨share, ?_, ?_⟩
  · rw [share, Nat.le_div_iff_mul_le span]
    omega
  · rw [share, Nat.div_lt_iff_lt_mul span]
    omega

/-- R137: LAMP at each applied level. -/
theorem lampLine_at {s : State} (awake : s.ctl.held = false) (lamp : s.out.lamp = lampOf s.lvl.lapp) :
    (s.lvl.lapp = 0 → s.lampLine = false)
      ∧ (s.lvl.lapp = 1 ∨ s.lvl.lapp = 2 → (s.lampLine = true ↔ s.ctl.nodeTime.toNat % 1000 < 500))
      ∧ (s.lvl.lapp = 3 ∨ s.lvl.lapp = 4 → (s.lampLine = true ↔ s.ctl.nodeTime.toNat % 250 < 125))
      ∧ (s.lvl.lapp = 5 → s.lampLine = true) := by
  rw [State.lampLine, awake, lamp]
  refine ⟨fun h => by rw [h]; rfl, ?_, ?_, fun h => by rw [h]; rfl⟩
  · rintro (h | h) <;> rw [h] <;> exact decide_eq_true_iff
  · rintro (h | h) <;> rw [h] <;> exact decide_eq_true_iff

/-- Settles O53: each table by its own lemma, and the lines of a chip that is not held. -/
theorem levelAndFoldbackTables : Obligations.LevelAndFoldbackTables := by
  refine ⟨fun c self z st => by cases st <;> rfl, follows_iff, fun slo shi stress ordered top => ⟨fun h => if_pos h, fun h => ?_,
    fun low high => foldbackOf_between top low high⟩, resolve_capMoves, fun s awake => ⟨?_, ?_, ?_, fun count => ?_, lampLine_at awake⟩⟩
  · rw [foldbackOf, if_neg (by omega), if_neg (by omega)]
  · simp [State.genLine, awake]
  · simp [State.rgnLine, awake]
  · simp only [State.ctrLine, awake]
    cases s.out.contactor <;> decide
  · simp [State.capLine, awake]

/-! ### FLOOR and STRESS -/

theorem exec_floor (level : Byte) (tail : Tail) (s : State) : exec (.floor level tail) s = hostRequest 0x15 [level] tail 0
    (fun s => whenStarted s (accept (decide (5 < level.toNat)) (settle s { s with lvl.floor := levelArg level }))) s := by
  rfl

theorem exec_stress (value : Byte) (tail : Tail) (s : State) : exec (.stress value tail) s = hostRequest 0x10 [value] tail 0
    (fun s => whenStarted s (accept false (settle s (writeStress value s)))) s := by
  rfl

theorem accept_answering (b : Bool) (s : State) : (accept b s).state.answering (accept b s).code (replyData 0 (accept b s))
    = s.answering (if b = true then .clamped else .ok) := by
  cases b <;> rfl

/-- R101: an accepted FLOOR; the present floor again changes nothing in a state from which nothing follows. -/
theorem exec_floor_started {level : Byte} {tail : Tail} {s : State} (taken : Taken s [0x15, level] tail)
    (m : s.ctl.mode ≠ .unconfigured) : exec (.floor level tail) s
      = .next ((settle s { s with lvl.floor := levelArg level }).answering (if 5 < level.toNat then .clamped else .ok)) := by
  rw [exec_floor, request_answers taken (whenStarted_of m _), accept_answering]
  simp only [decide_eq_true_eq]

/-- Settles O54: the two commands by the node mode, the stress timer by whether it runs. -/
theorem floorAndStressAreTaken : Obligations.FloorAndStressAreTaken := by
  refine ⟨fun level tail s taken => ⟨fun m => ?_, fun m => ?_⟩, fun value tail s taken => ⟨fun m => ?_, fun m => ?_⟩, fun s awake => ?_⟩
  · rw [exec_floor, request_answers taken (whenStarted_refused m _)]; rfl
  · refine ⟨_, levelArg level, Nat.min_comm _ _, exec_floor_started taken m, rfl, (settle_follows _ _).reply _,
      fun same support peers drive zones q => ?_⟩
    have unchanged : { s with lvl.floor := levelArg level } = s := by rw [same]
    rw [unchanged, settle_idle peers support zones q drive (takes_held taken.1)]
  · rw [exec_stress, request_answers taken (whenStarted_refused m _)]; rfl
  · rw [exec_stress]
    refine request_follows (b := false) taken ?_
    exact whenStarted_of m _
  · split
    · next runs =>
      exact event_follows awake (f := fun s => if s.perm.stressTimer.isSome then
        settle s (raise .stale { s with perm.stressTimer := none, ziu.derived.stale := true }) else s) (if_pos runs) rfl
    · next idle => exact (event_of_not_held awake _).trans (congrArg _ (if_neg idle))

/-! ### The output timers -/

theorem rampReady_iff (s : State) : rampReady s = true
    ↔ s.perm.output < s.perm.target ∧ s.out.gen = true ∧ s.out.rearm = none ∧ s.perm.dwell = none := by
  simp [rampReady, and_assoc]

/-- R123: the output cap after a ramp step differs from the one before. -/
theorem setOutput_ramp {s : State} (below : s.perm.output < s.perm.target) (step : 1 ≤ s.cfg.rampStep) :
    setOutput (min s.perm.target (s.perm.output + s.cfg.rampStep)) s = { s with
      perm.output := min s.perm.target (s.perm.output + s.cfg.rampStep)
      out.pendingDuty := 50 + 9 * min s.perm.target (s.perm.output + s.cfg.rampStep) / 10 } :=
  if_neg (by omega)

/-- Settles O55: each timer's own change. -/
theorem outputTimersAct : Obligations.OutputTimersAct := by
  refine fun s awake => ⟨fun ready step => ?_, fun idle => ?_, ?_, ?_, ?_, ?_⟩
  · refine (event_of_not_held awake _).trans ?_
    rw [if_pos ((rampReady_iff s).mpr ready), setOutput_ramp ready.1 step]
  · exact (event_of_not_held awake _).trans (congrArg _ (if_neg fun k => idle ((rampReady_iff s).mp k)))
  · exact event_of_not_held awake fun s => { s with perm.dwell := none }
  · exact event_of_not_held awake fun s => { s with out.rearm := none }
  · exact event_of_not_held awake fun s => { s with out.activeDuty := s.out.pendingDuty }
  · exact event_of_not_held awake fun s =>
      if s.out.contactorTimer.isSome then { s with out.contactor := .opened, out.contactorTimer := none } else s

/-! ### The trip latch -/

theorem tripAsserted_iff (s : State) : s.tripAsserted = true
    ↔ ∃ n : Input, (s.cfg.inputs[n]).trip = true ∧ s.lineAsserted n = true := by
  simp [State.tripAsserted, -Fin.getElem_fin]

/-- R138, R124: with the trip latch set, Lapp is L5 and GEN low. -/
theorem settle_tripped {b u : State} (h : u.out.tripLatch = true) :
    (settle b u).out.tripLatch = true ∧ (settle b u).lvl.lapp = 5 ∧ (settle b u).out.gen = false := by
  have latch := (settle_tripLatch b u).trans h
  have drive := settle_drive b u
  generalize settle b u = t at latch drive
  exact ⟨latch, drive.tripped latch, (drive.atStop (drive.tripped latch)).2.2.2⟩

theorem State.tripped_latch (s : State) : s.tripped.out.tripLatch = true := by
  unfold State.tripped
  split
  · assumption
  · rfl

theorem State.tripped_set {s : State} (h : s.out.tripLatch = true) : s.tripped = s := if_pos h

theorem State.tripped_clear {s : State} (h : s.out.tripLatch = false) :
    s.tripped.perm.output = 0 ∧ s.tripped.isPending .trip = true := by
  unfold State.tripped
  rw [if_neg (by rw [h]; decide)]
  refine ⟨rfl, ?_⟩
  simp [State.isPending, Flag.bit]

theorem State.tripped_lft (s : State) : s.tripped.lft = s.lft := by
  unfold State.tripped
  split <;> rfl

/-- R138: an assertion of a trip input. -/
theorem exec_assertion_trip {n : Input} {held : Nat} {s : State} (awake : s.ctl.held = false) (long : 200 ≤ held)
    (off : s.lineAsserted n = false) (trip : (s.cfg.inputs[n]).trip = true) :
    exec (.assertion n held) s = .next (settle s (takeAssertion n (setLine n true s)).tripped) := by
  have event : ¬(held < minimumPulse ∨ s.lineAsserted n = true) := by
    rw [off]; exact fun k => k.elim (Nat.not_lt.mpr long) nofun
  have cfg : (takeAssertion n (setLine n true s)).cfg = s.cfg := by
    rw [(takeAssertion_work n (setLine n true s)).cfg, setLine_asserted]
  have change : takeTrip n (takeAssertion n (setLine n true s)) = (takeAssertion n (setLine n true s)).tripped := by
    rw [takeTrip_tripped, if_pos (by rw [cfg]; exact trip)]
  rw [← change]
  exact (if_neg event).trans (if_neg (by rw [awake]; decide))

theorem takeAssertion_disabled {n : Input} {s : State} (h : (s.cfg.inputs[n]).enabled = false) : takeAssertion n s = s :=
  if_neg fun k => by rw [h] at k; exact absurd k.2 (by decide)

theorem exec_tripClear (tail : Tail) (s : State) : exec (.tripClear tail) s = hostRequest 0x17 [] tail 0 (fun s =>
    if s.tripAsserted then refuse .tripActive s
    else if s.out.tripLatch then accept false (settle s { s with out.tripLatch := false })
    else accept false s) s := by
  rfl

/-- R138: what an assertion of a trip input leaves behind. -/
theorem assertion_sets_trip {n : Input} {held : Nat} {s : State} (awake : s.ctl.held = false) (long : 200 ≤ held)
    (off : s.lineAsserted n = false) (trip : (s.cfg.inputs[n]).trip = true) :
    ∃ t, exec (.assertion n held) s = .next t ∧ t.out.tripLatch = true ∧ t.lvl.lapp = 5 ∧ t.out.gen = false
      ∧ (s.out.tripLatch = false → t.perm.output = 0 ∧ t.isPending .trip = true)
      ∧ (s.out.tripLatch = true → t.isPending .trip = s.isPending .trip)
      ∧ ((s.cfg.inputs[n]).enabled = false → t.lft = s.lft) := by
  have work := takeAssertion_work n (setLine n true s)
  have latch : (takeAssertion n (setLine n true s)).out.tripLatch = s.out.tripLatch := by rw [work.out, setLine_asserted]
  have flags : (takeAssertion n (setLine n true s)).port.flags = s.port.flags := by rw [work.port, setLine_asserted]
  have disabled : (s.cfg.inputs[n]).enabled = false → (takeAssertion n (setLine n true s)).lft = s.lft := fun off => by
    rw [takeAssertion_disabled (by rw [setLine_asserted]; exact off), setLine_asserted]
  have run := exec_assertion_trip awake long off trip
  generalize takeAssertion n (setLine n true s) = u at latch flags disabled run
  have tripped := settle_tripped (b := s) u.tripped_latch
  have kept := (settle_follows s u.tripped).others .trip (.inl rfl)
  have output := settle_output_le s u.tripped
  have lft := settle_lft s u.tripped
  generalize settle s u.tripped = t at run tripped kept output lft
  refine ⟨t, run, tripped.1, tripped.2.1, tripped.2.2, fun clear => ?_, fun set => ?_, fun off => ?_⟩
  · have fresh := State.tripped_clear (latch.trans clear)
    exact ⟨Nat.le_zero.mp (fresh.1 ▸ output), kept.trans fresh.2⟩
  · rw [kept, State.tripped_set (latch.trans set), State.isPending, flags]; rfl
  · rw [lft, State.tripped_lft, disabled off]

/-- Settles O56: the assertion, and TRIP-CLEAR by whether a trip input is asserted and the latch set. -/
theorem tripLatchSetsAndClears : Obligations.TripLatchSetsAndClears := by
  refine ⟨fun n held s awake long off trip => assertion_sets_trip awake long off trip, fun tail s taken => ?_⟩
  simp only [← tripAsserted_iff, exec_tripClear]
  split
  · next asserted => exact request_answers (n := 0) (a := refuse .tripActive s) taken (if_pos asserted)
  next free =>
  split
  · next set =>
    obtain ⟨t, run, reply, follows⟩ := request_follows (u := { s with out.tripLatch := false }) (b := false) (owner := fun s =>
      if s.tripAsserted then refuse .tripActive s
      else if s.out.tripLatch then accept false (settle s { s with out.tripLatch := false })
      else accept false s) taken ((if_neg free).trans (if_pos set))
    refine ⟨t, run, reply, follows.others .trip (.inl rfl), follows, fun low high => ?_⟩
    rcases follows.lines.high high with ⟨hold, -⟩ | ⟨was, -⟩
    · exact hold
    · exact absurd (low.symm.trans was) (by decide)
  · next clear => exact request_answers (n := 0) (a := accept false s) taken ((if_neg free).trans (if_neg clear))

/-! ### The contactor -/

theorem exec_contactorClose (tail : Tail) (s : State) : exec (.contactorClose tail) s = hostRequest 0x18 [] tail 0
    (fun s => if s.cfg.contactorFitted then closeContactor s else refuse .wrongMode s) s := by
  rfl

theorem exec_contactorOpen (tail : Tail) (s : State) : exec (.contactorOpen tail) s = hostRequest 0x19 [] tail 0
    (fun s => if s.cfg.contactorFitted then openContactor s else refuse .wrongMode s) s := by
  rfl

theorem dropZoneDoubted_iff (s : State) : dropZoneDoubted s = true
    ↔ ∃ z : Zone, (s.cfg.zones[z]).contactorDrop = true ∧ (s.ziu.zones[z]).state ≠ .clear := by
  simp [dropZoneDoubted, ZoneState.suspectOrWorse, -Fin.getElem_fin]

/-- Settles O57: by whether the contactor is fitted, then by its state. -/
theorem contactorCommandsFollowTheTable : Obligations.ContactorCommandsFollowTheTable := by
  refine fun tail s => ⟨fun taken => ?_, fun taken => ?_⟩
  · rw [exec_contactorClose, request_answers taken rfl]
    simp only [← dropZoneDoubted_iff]
    cases s.cfg.contactorFitted with
    | false => rfl
    | true =>
      unfold closeContactor
      cases s.out.contactor with
      | closed | dropping => rfl
      | opened =>
        dsimp only
        by_cases m : s.ctl.mode = .running
        · cases latch : s.out.tripLatch <;> cases doubted : dropZoneDoubted s <;> simp [m, accept, refuse, replyData]
        · simp [m, refuse, replyData]
  · rw [exec_contactorOpen, request_answers taken rfl]
    cases s.cfg.contactorFitted with
    | false => rfl
    | true =>
      unfold openContactor startDrop
      cases state : s.out.contactor with
      | opened | dropping => rfl
      | closed => simp [accept, replyData]; rfl

end Sys2Proof.Machine
end

section
/-! The reads: what their data bytes carry (R21, R62, R93, R169, R181). -/

namespace Sys2Proof.Machine

/-! ### Fields and words -/

theorem flagField_iff {n : Nat} {b : Bool} (h : n = b.toNat) : n = 1 ↔ b = true := by
  rw [h, Bool.toNat_eq_one]

/-- R180: the word that two bytes of a value carry. -/
theorem wordAt_of {d : List Byte} {i n : Nat} (high : d.getD i 0 = BitVec.ofNat 8 (n / 256))
    (low : d.getD (i + 1) 0 = BitVec.ofNat 8 n) : wordAt d i = n % 65536 := by
  rw [wordAt, high, low, BitVec.toNat_ofNat, BitVec.toNat_ofNat]
  omega

theorem modeCode_lt (m : NodeMode) : m.code < 4 := by cases m <;> decide
theorem roleCode_lt (r : Role) : r.code < 4 := by cases r <;> decide
theorem contactorCode_lt (c : Contactor) : c.code < 4 := by cases c <;> decide
theorem presenceCode_lt (p : Presence) : p.code < 8 := by cases p <;> decide
theorem zoneStateCode_lt (z : ZoneState) : z.code < 8 := by cases z <;> decide
theorem entryStateCode_lt (v : EntryState) : v.code < 8 := by cases v <;> decide
theorem severityCode_lt (v : Severity) : v.code < 4 := by cases v <;> decide
theorem classCode_lt (c : FaultClass) : c.code < 16 := by cases c <;> decide

/-! ### READ-SUMMARY -/

theorem exec_readSummary {tail : Tail} {s : State} (taken : Taken s [0x20] tail) :
    exec (.readSummary tail) s = .next (s.answering .ok (summaryData s)) :=
  request_answers (n := 13) (owner := fun s => ⟨s, .ok, summaryData s⟩) (a := ⟨s, .ok, summaryData s⟩) taken rfl

theorem fieldAt_summary_0 (s : State) (hi lo : Nat) : fieldAt (summaryData s) 0 hi lo
    = (s.ctl.mode.code * 64 + s.ctl.station.val * 8 + s.ctl.role.code * 2 + s.lvl.regen.toNat) % 256 / 2 ^ lo % 2 ^ (hi - lo + 1) := by
  simp [fieldAt, summaryData, packByte, add_assoc]

theorem fieldAt_summary_1 (s : State) (hi lo : Nat) : fieldAt (summaryData s) 1 hi lo
    = (s.out.contactor.code * 64 + s.lvl.lown.val * 8 + s.lvl.follow.val) % 256 / 2 ^ lo % 2 ^ (hi - lo + 1) := by
  simp [fieldAt, summaryData, packByte, add_assoc]

theorem fieldAt_summary_2 (s : State) (hi lo : Nat) : fieldAt (summaryData s) 2 hi lo
    = (s.out.tripLatch.toNat * 128 + s.rgnLine.toNat * 64 + s.genLine.toNat * 32 + s.lvl.lapp.val) % 256 / 2 ^ lo
      % 2 ^ (hi - lo + 1) := by
  simp [fieldAt, summaryData, packByte, add_assoc]

/-- Settles O26: the three bytes of fields, then the words and the two flag bytes. -/
theorem readSummaryShowsTheStation : Obligations.ReadSummaryShowsTheStation := by
  intro tail s taken
  have awake := takes_held taken.1
  have gen : s.genLine = s.out.gen := by rw [State.genLine, awake]; rfl
  have rgn : s.rgnLine = (s.out.gen && s.lvl.regen) := by rw [State.rgnLine, awake]; rfl
  have mode := modeCode_lt s.ctl.mode
  have station := s.ctl.station.isLt
  have role := roleCode_lt s.ctl.role
  have regen := s.lvl.regen.toNat_lt
  have contactor := contactorCode_lt s.out.contactor
  have lown := s.lvl.lown.isLt
  have follow := s.lvl.follow.isLt
  have trip := s.out.tripLatch.toNat_lt
  have rgnBound := s.rgnLine.toNat_lt
  have genBound := s.genLine.toNat_lt
  have lapp := s.lvl.lapp.isLt
  refine ⟨summaryData s, exec_readSummary taken, rfl, ?_, ?_, ?_, flagField_iff ?_, ?_, ?_, ?_, flagField_iff ?_, ?_,
    gen ▸ flagField_iff ?_, ?_, ?_, wordAt_of rfl rfl, wordAt_of rfl rfl, wordAt_of rfl rfl, wordAt_of rfl rfl, rfl, rfl⟩
  case refine_9 =>
    rw [← Bool.and_eq_true, ← rgn]
    refine flagField_iff ?_
    rw [fieldAt_summary_2]; omega
  all_goals
    simp only [fieldAt_summary_0, fieldAt_summary_1, fieldAt_summary_2]
    omega

/-! ### READ-ZONE -/

theorem readZone_range {zone : Byte} {tail : Tail} {s : State} (taken : Taken s [0x21, zone] tail) (h : 12 ≤ zone.toNat) :
    exec (.readZone zone tail) s = .next (s.answering .range (List.replicate 18 0)) :=
  request_answers (n := 18) (owner := fun s => match zoneArg zone with
    | some z => ⟨s, .ok, zoneData s z⟩
    | none => refuse .range s) (a := refuse .range s) taken (by simp only [zoneArg_range h])

theorem readZone_zone {zone : Byte} {tail : Tail} {s : State} {z : Zone} (taken : Taken s [0x21, zone] tail) (h : zone.toNat = z.val) :
    exec (.readZone zone tail) s = .next (s.answering .ok (zoneData s z)) :=
  request_answers (n := 18) (owner := fun s => match zoneArg zone with
    | some z => ⟨s, .ok, zoneData s z⟩
    | none => refuse .range s) (a := ⟨s, .ok, zoneData s z⟩) taken (by simp only [zoneArg_zone h])

/-- R181: bit `i` of a sum of powers of two says whether `i` is one of the exponents. -/
theorem testBit_sum_two_pow {l : List Nat} (ordered : l.SortedLT) (i : Nat) : ((l.map fun j => 2 ^ j).sum).testBit i = true ↔ i ∈ l := by
  rw [← Nat.mem_bitIndices, Nat.bitIndices_sum_map_two_pow ordered]

theorem zipIdx_snd_sorted {α : Type} (l : List α) (p : α × Nat → Bool) : ((l.zipIdx.filter p).map (·.2)).SortedLT := by
  rw [List.sortedLT_iff_pairwise]
  refine List.Pairwise.sublist (List.filter_sublist.map _) ?_
  rw [List.zipIdx_map_snd]
  exact List.pairwise_lt_range'

theorem claim_isSome_iff (z : Zone) (sl : Slot) : (Slot.claim z sl).isSome = true
    ↔ ∃ x, sl.entry = some x ∧ x.zone = z ∧ x.state ≠ .qualifying := by
  simp only [Option.isSome_iff_exists, Slot.claim_iff]
  exact ⟨fun ⟨_, x, entry, zone, state, _⟩ => ⟨x, entry, zone, state⟩, fun ⟨x, entry, zone, state⟩ => ⟨_, x, entry, zone, state, rfl⟩⟩

/-- R19, R181: the slots that accuse a zone, by their numbers. -/
theorem accusingSlots_testBit {l : Lft} {i : Nat} {sl : Slot} (h : l.slots[i]? = some sl) (z : Zone) :
    (accusingSlots l z).testBit i = true ↔ ∃ x, sl.entry = some x ∧ x.zone = z ∧ x.state ≠ .qualifying := by
  have exponents : accusingSlots l z
      = (((l.slots.zipIdx.filter fun x => (Slot.claim z x.1).isSome).map (·.2)).map fun j => 2 ^ j).sum := by
    rw [List.map_map]; rfl
  rw [exponents, testBit_sum_two_pow (zipIdx_snd_sorted _ _), ← claim_isSome_iff]
  simp only [List.mem_map, List.mem_filter, Prod.exists, List.mem_zipIdx_iff_getElem?, exists_eq_right, h, Option.some.injEq,
    exists_eq_left']

theorem slots_input (l : Lft) (n : Input) : l.slots[n.val]? = some l.inputs[n] := by
  rw [Lft.slots, List.getElem?_append_left (by simp), List.getElem?_eq_getElem (by simp)]
  rfl

theorem slots_declared (l : Lft) (d : DeclSlot) : l.slots[8 + d.val]? = some l.declared[d] := by
  rw [Lft.slots, List.getElem?_append_right (by simp), List.getElem?_eq_getElem (by simp)]
  simp

theorem mod_testBit {n i : Nat} (h : i < 16) : (n % 65536).testBit i = n.testBit i := by
  rw [show 65536 = 2 ^ 16 from rfl, Nat.testBit_mod_two_pow]
  simp [h]

theorem confirming_length_le {l : List Accuser} (h : l.Pairwise fun a b => a.station < b.station) : (confirming l).length ≤ 8 := by
  have once : ((confirming l).map (·.station)).Nodup := by
    rw [List.nodup_iff_pairwise_ne, List.pairwise_map]
    exact (h.sublist (confirming_sublist l)).imp fun less => less.ne
  simpa using once.length_le_card

/-- R181: the byte of an accuser. -/
theorem memberByte_of_mem {l : List Accuser} (h : l.Pairwise fun a b => a.station < b.station) {a : Accuser} (member : a ∈ l) :
    memberByte l a.station = packByte ([(7, 1), (6, a.discounted.toNat)] ++ claimFields 4 (some a.claim)) := by
  have found : l.find? (·.station == a.station) = some a := by
    cases e : l.find? (·.station == a.station) with
    | none => exact absurd (List.find?_eq_none.mp e a member) (by simp)
    | some b =>
      have same : b.station = a.station := by simpa using List.find?_some e
      have once : (l.map (·.station)).Nodup := by
        rw [List.nodup_iff_pairwise_ne, List.pairwise_map]
        exact h.imp fun less => less.ne
      rw [List.inj_on_of_nodup_map once (List.mem_of_find?_eq_some e) member same]
  rw [memberByte, found]

theorem memberByte_of_absent {l : List Accuser} {p : Station} (h : ∀ a ∈ l, a.station ≠ p) : memberByte l p = 0 := by
  rw [memberByte, List.find?_eq_none.mpr fun a member => by simpa using h a member]

theorem zoneData_length (s : State) (z : Zone) : (zoneData s z).length = 18 := rfl

theorem zoneData_member (s : State) (z : Zone) (p : Station) :
    (zoneData s z)[10 + p.val]? = some (memberByte (s.ziu.zones[z]).accusers p) := by
  rw [zoneData, List.getElem?_append_right (by simp [halfBytes])]
  simp [halfBytes, -Fin.getElem_fin]

theorem fieldAt_zone_0 (s : State) (z : Zone) (hi lo : Nat) : fieldAt (zoneData s z) 0 hi lo
    = ((confirming (s.ziu.zones[z]).accusers).length * 16 + (confirmationHolds s.cfg.quorum z (s.ziu.zones[z]).accusers).toNat * 8
      + (s.ziu.zones[z]).state.code) % 256 / 2 ^ lo % 2 ^ (hi - lo + 1) := by
  simp [fieldAt, zoneData, packByte, add_assoc]

theorem fieldAt_zone_7 (s : State) (z : Zone) (hi lo : Nat) : fieldAt (zoneData s z) 7 hi lo
    = ((s.ziu.zones[z]).stamp.isSome.toNat * 32 + (s.ziu.zones[z]).released.toNat * 16 + (s.ziu.zones[z]).count) % 256 / 2 ^ lo
      % 2 ^ (hi - lo + 1) := by
  simp [fieldAt, zoneData, packByte, halfBytes, add_assoc]

/-- R181: the byte of an accusation. -/
theorem claimByte (o : Option Claim) : (packByte (claimFields 6 o)).toNat / 2 ^ 6 % 2 ^ 2 = codeOf (·.severity.code) o
    ∧ (packByte (claimFields 6 o)).toNat / 2 ^ 0 % 2 ^ 4 = codeOf (·.cls.code) o := by
  cases o with
  | none => exact ⟨rfl, rfl⟩
  | some c =>
    have severity := severityCode_lt c.severity
    have cls := classCode_lt c.cls
    simp only [packByte, claimFields, codeOf, BitVec.toNat_ofNat, List.map_cons, List.map_nil, List.sum_cons, List.sum_nil,
      Option.map_some, Option.getD_some]
    omega

/-- R181: bit `i` of a byte of flags. -/
theorem flagByte (b : Fin 7 → Bool) (i : Fin 7) :
    (packByte ((List.finRange 7).map fun i => (i.val, (b i).toNat))).toNat / 2 ^ i.val % 2 = (b i).toNat := by
  have bound (i : Fin 7) := (b i).toNat_lt
  have b0 := bound 0; have b1 := bound 1; have b2 := bound 2; have b3 := bound 3
  have b4 := bound 4; have b5 := bound 5; have b6 := bound 6
  simp only [packByte, List.finRange, List.ofFn_succ, List.ofFn_zero, List.map_cons, List.map_nil, BitVec.toNat_ofNat, List.sum_cons,
    List.sum_nil]
  fin_cases i <;> simp [Fin.succ] <;> omega

theorem flagByte_top (b : Fin 7 → Bool) :
    (packByte ((List.finRange 7).map fun i => (i.val, (b i).toNat))).toNat / 2 ^ 7 % 2 = 0 := by
  have bound (i : Fin 7) := (b i).toNat_lt
  have b0 := bound 0; have b1 := bound 1; have b2 := bound 2; have b3 := bound 3
  have b4 := bound 4; have b5 := bound 5; have b6 := bound 6
  simp only [packByte, List.finRange, List.ofFn_succ, List.ofFn_zero, List.map_cons, List.map_nil, BitVec.toNat_ofNat, List.sum_cons,
    List.sum_nil]
  simp [Fin.succ]
  omega

/-- R67, R181: the derivations that stand against a zone, by their bits in the reply. -/
def derivationBits (d : Derived) (self : Station) (z : Zone) : Fin 7 → Bool :=
  ![ownerMarked d.lost z, d.deaf && z == busZone, d.mute && z == busZone, d.bitFault && z == busZone, d.duplicate && z == busZone,
    ownerMarked d.implausible z, d.stale && z == stationZone self]

theorem derivations_bits (d : Derived) (self : Station) (z : Zone) : (derivations d self z).map (fun x => (x.1, x.2.1.toNat))
    = (List.finRange 7).map fun i => (i.val, (derivationBits d self z i).toNat) := rfl

/-- R67, R181: the byte of derivations. -/
theorem fieldAt_zone_5 (s : State) (z : Zone) (i : Fin 7) :
    fieldAt (zoneData s z) 5 i i = (derivationBits s.ziu.derived s.ctl.station z i).toNat := by
  have byte := flagByte (derivationBits s.ziu.derived s.ctl.station z) i
  rw [← derivations_bits] at byte
  rw [fieldAt, Nat.sub_self]
  exact byte

theorem disputeByte_pending (a : Station) : (disputeByte (.pending a)).toNat = 4 * a.val + 1 := by revert a; decide

theorem disputeByte_inForce (a : Station) : (disputeByte (.inForce a)).toNat = 4 * a.val + 2 := by revert a; decide

/-- R181: the byte of an accuser. -/
theorem memberByte_fields {l : List Accuser} (h : l.Pairwise fun a b => a.station < b.station) {a : Accuser} (member : a ∈ l) :
    (memberByte l a.station).toNat = 128 + a.discounted.toNat * 64 + a.claim.severity.code * 16 + a.claim.cls.code := by
  have discounted := a.discounted.toNat_lt
  have severity := severityCode_lt a.claim.severity
  have cls := classCode_lt a.claim.cls
  rw [memberByte_of_mem h member]
  simp [packByte, claimFields]
  omega

/-- R79, R181: the stamp's word, 0 without one. -/
theorem stampWord (o : Option Half) : (o.map BitVec.toNat).getD 0 % 65536 = codeOf BitVec.toNat o := by
  cases o with
  | none => rfl
  | some w => exact Nat.mod_eq_of_lt w.isLt

/-- R181: what READ-ZONE says of the dispute. -/
theorem zoneData_dispute (s : State) (z : Zone) : match (s.ziu.zones[z]).dispute with
    | .none => (zoneData s z)[6]? = some 0
    | .pending a => fieldAt (zoneData s z) 6 4 2 = a.val ∧ fieldAt (zoneData s z) 6 1 0 = 1 ∧ fieldAt (zoneData s z) 6 7 5 = 0
    | .inForce a => fieldAt (zoneData s z) 6 4 2 = a.val ∧ fieldAt (zoneData s z) 6 1 0 = 2 ∧ fieldAt (zoneData s z) 6 7 5 = 0 := by
  have byte : (zoneData s z)[6]? = some (disputeByte (s.ziu.zones[z]).dispute) := rfl
  cases dispute : (s.ziu.zones[z]).dispute with
  | none => rw [byte, dispute]; rfl
  | pending a =>
    have value : ((zoneData s z).getD 6 0).toNat = 4 * a.val + 1 := by
      rw [List.getD_eq_getElem?_getD, byte, dispute]; exact disputeByte_pending a
    have bound := a.isLt
    simp only [fieldAt, value]
    omega
  | inForce a =>
    have value : ((zoneData s z).getD 6 0).toNat = 4 * a.val + 2 := by
      rw [List.getD_eq_getElem?_getD, byte, dispute]; exact disputeByte_inForce a
    have bound := a.isLt
    simp only [fieldAt, value]
    omega

/-- R181: what READ-ZONE says of each station. -/
theorem zoneData_members {s : State} {z : Zone} (h : (s.ziu.zones[z]).accusers.Pairwise fun a b => a.station < b.station) (p : Station) :
    (∀ a ∈ (s.ziu.zones[z]).accusers, a.station = p →
      fieldAt (zoneData s z) (10 + p.val) 7 7 = 1 ∧ (fieldAt (zoneData s z) (10 + p.val) 6 6 = 1 ↔ a.discounted = true)
        ∧ fieldAt (zoneData s z) (10 + p.val) 5 4 = a.claim.severity.code
        ∧ fieldAt (zoneData s z) (10 + p.val) 3 0 = a.claim.cls.code)
      ∧ ((∀ a ∈ (s.ziu.zones[z]).accusers, a.station ≠ p) → (zoneData s z)[10 + p.val]? = some 0) := by
  refine ⟨fun a member same => ?_, fun absent => by rw [zoneData_member, memberByte_of_absent absent]⟩
  subst same
  have value : ((zoneData s z).getD (10 + a.station.val) 0).toNat
      = 128 + a.discounted.toNat * 64 + a.claim.severity.code * 16 + a.claim.cls.code := by
    rw [List.getD_eq_getElem?_getD, zoneData_member]
    exact memberByte_fields h member
  have discounted := a.discounted.toNat_lt
  have severity := severityCode_lt a.claim.severity
  have cls := classCode_lt a.claim.cls
  simp only [fieldAt, value]
  exact ⟨by omega, flagField_iff (by omega), by omega, by omega⟩

/-- Settles O27: byte by byte. -/
theorem readZoneShowsTheZoneRecord : Obligations.ReadZoneShowsTheZoneRecord := by
  refine fun zone tail s taken => ⟨readZone_range taken, fun z named record => ?_⟩
  have count := record.count
  have members := confirming_length_le record.accusers
  have state := zoneStateCode_lt (s.ziu.zones[z]).state
  have holds := (confirmationHolds s.cfg.quorum z (s.ziu.zones[z]).accusers).toNat_lt
  have stamped := (s.ziu.zones[z]).stamp.isSome.toNat_lt
  have released := (s.ziu.zones[z]).released.toNat_lt
  have slots : wordAt (zoneData s z) 3 = accusingSlots s.lft z % 65536 := wordAt_of rfl rfl
  have derived (i : Fin 7) : fieldAt (zoneData s z) 5 i i = 1 ↔ derivationBits s.ziu.derived s.ctl.station z i = true :=
    flagField_iff (fieldAt_zone_5 s z i)
  have bus (b : Bool) : (b && z == busZone) = true ↔ z = 11 ∧ b = true := by
    rw [Bool.and_eq_true, beq_iff_eq, and_comm]; rfl
  refine ⟨zoneData s z, readZone_zone taken named, zoneData_length s z, ?_, flagField_iff ?_, ?_, (claimByte _).1, (claimByte _).2,
    (claimByte _).1, (claimByte _).2, fun n => ?_, fun e => ?_, (derived 0).trans (ownerMarked_iff _ z), (derived 1).trans (bus _),
    (derived 2).trans (bus _), (derived 3).trans (bus _), (derived 4).trans (bus _), (derived 5).trans (ownerMarked_iff _ z),
    (derived 6).trans ?_, flagByte_top (derivationBits s.ziu.derived s.ctl.station z), zoneData_dispute s z, flagField_iff ?_,
    flagField_iff ?_, ?_, ?_, (wordAt_of rfl rfl).trans (stampWord _), zoneData_members record.accusers⟩
  case refine_4 => rw [slots, mod_testBit (by omega)]; exact accusingSlots_testBit (slots_input s.lft n) z
  case refine_5 => rw [slots, mod_testBit (by omega)]; exact accusingSlots_testBit (slots_declared s.lft e) z
  case refine_6 =>
    show (s.ziu.derived.stale && z == stationZone s.ctl.station) = true ↔ _
    rw [Bool.and_eq_true, beq_iff_eq, and_comm]
  all_goals
    simp only [fieldAt_zone_0, fieldAt_zone_7]
    omega

/-! ### READ-PEER -/

theorem eightArg_range {b : Byte} (h : 8 ≤ b.toNat) : eightArg b = none := dif_neg (Nat.not_lt.mpr h)

theorem eightArg_eq {b : Byte} {p : Fin 8} (h : b.toNat = p.val) : eightArg b = some p := by
  rw [eightArg, dif_pos (h ▸ p.isLt)]
  exact congrArg some (Fin.ext h)

theorem readPeer_range {station : Byte} {tail : Tail} {s : State} (taken : Taken s [0x22, station] tail) (h : 8 ≤ station.toNat) :
    exec (.readPeer station tail) s = .next (s.answering .range (List.replicate 16 0)) :=
  request_answers (n := 16) (owner := fun s => match eightArg station with
    | some p => ⟨s, .ok, peerData s p⟩
    | none => refuse .range s) (a := refuse .range s) taken (by simp only [eightArg_range h])

theorem readPeer_peer {station : Byte} {tail : Tail} {s : State} {p : Station} (taken : Taken s [0x22, station] tail)
    (h : station.toNat = p.val) : exec (.readPeer station tail) s = .next (s.answering .ok (peerData s p)) :=
  request_answers (n := 16) (owner := fun s => match eightArg station with
    | some p => ⟨s, .ok, peerData s p⟩
    | none => refuse .range s) (a := ⟨s, .ok, peerData s p⟩) taken (by simp only [eightArg_eq h])

/-- R181: the bytes of a list of at most `n` accusations, its unused entries 0. -/
def listBytes (n : Nat) (l : List Accusation) : List Byte :=
  l.flatMap listEntryBytes ++ List.replicate (2 * n - (l.flatMap listEntryBytes).length) 0

theorem listEntryBytes_flatMap_length (l : List Accusation) : (l.flatMap listEntryBytes).length = 2 * l.length := by
  induction l with
  | nil => rfl
  | cons a l ih => rw [List.flatMap_cons, List.length_append, ih, List.length_cons]; simp [listEntryBytes]; omega

theorem listBytes_nil (n : Nat) : listBytes n [] = List.replicate (2 * n) 0 := rfl

theorem listBytes_cons (n : Nat) (a : Accusation) (l : List Accusation) :
    listBytes (n + 1) (a :: l) = listEntryBytes a ++ listBytes n l := by
  have fill : 2 * (n + 1) - (listEntryBytes a ++ l.flatMap listEntryBytes).length = 2 * n - (l.flatMap listEntryBytes).length := by
    rw [List.length_append, show (listEntryBytes a).length = 2 from rfl]
    omega
  rw [listBytes, listBytes, List.flatMap_cons, fill, List.append_assoc]

theorem listBytes_length {n : Nat} {l : List Accusation} (h : l.length ≤ n) : (listBytes n l).length = 2 * n := by
  rw [listBytes, List.length_append, List.length_replicate, listEntryBytes_flatMap_length]
  omega

/-- R181: entry `i` of a list. -/
theorem listBytes_entry (n : Nat) : ∀ (l : List Accusation), l.length ≤ n → ∀ i < n,
    (listBytes n l)[2 * i]? = some ((l[i]?.map fun a => BitVec.ofNat 8 a.zone.val).getD 0)
      ∧ (listBytes n l)[2 * i + 1]? = some ((l[i]?.map fun a => packByte [(4, a.claim.severity.code), (0, a.claim.cls.code)]).getD 0) := by
  induction n with
  | zero => exact fun l _ i h => absurd h (Nat.not_lt_zero i)
  | succ n ih =>
    intro l short i h
    cases l with
    | nil =>
      rw [listBytes_nil, List.getElem?_replicate, List.getElem?_replicate, if_pos (by omega), if_pos (by omega)]
      exact ⟨rfl, rfl⟩
    | cons a l =>
      rw [listBytes_cons]
      cases i with
      | zero => exact ⟨by simp [listEntryBytes, packByte], by simp [listEntryBytes]⟩
      | succ i =>
        have rest := ih l (Nat.le_of_succ_le_succ short) i (Nat.lt_of_succ_lt_succ h)
        have two : (listEntryBytes a).length = 2 := rfl
        rw [List.getElem?_append_right (by omega), List.getElem?_append_right (by omega), two, List.getElem?_cons_succ,
          show 2 * (i + 1) - 2 = 2 * i by omega, show 2 * (i + 1) + 1 - 2 = 2 * i + 1 by omega]
        exact rest

theorem codeOf_lt {α : Type} {code : α → Nat} {n : Nat} (h : ∀ a, code a < n) (positive : 0 < n) (o : Option α) : codeOf code o < n := by
  cases o with
  | none => exact positive
  | some a => exact h a

theorem fieldAt_peer_0 (s : State) (p : Station) (hi lo : Nat) : fieldAt (peerData s p) 0 hi lo
    = (s.ziu.derived.deaf.toNat * 32 + (s.ziu.derived.lost[p]).toNat * 16 + (s.pv.peers[p]).expected.toNat * 8
      + (s.pv.peers[p]).presence.code) % 256 / 2 ^ lo % 2 ^ (hi - lo + 1) := by
  simp [fieldAt, peerData, packByte, add_assoc]

theorem fieldAt_peer_1 (s : State) (p : Station) (hi lo : Nat) : fieldAt (peerData s p) 1 hi lo
    = ((s.pv.peers[p]).role.isSome.toNat * 128 + codeOf Role.code (s.pv.peers[p]).role * 32
      + (s.pv.peers[p]).group.isSome.toNat * 16 + codeOf Fin.val (s.pv.peers[p]).group * 4
      + (s.pv.peers[p]).status.isSome.toNat * 2 + (s.pv.peers[p]).lastHeard.isSome.toNat) % 256 / 2 ^ lo % 2 ^ (hi - lo + 1) := by
  simp [fieldAt, peerData, packByte, codeOf, add_assoc]

theorem fieldAt_peer_2 (s : State) (p : Station) (hi lo : Nat) : fieldAt (peerData s p) 2 hi lo
    = (codeOf (·.lown.val) (s.pv.peers[p]).status * 8 + codeOf (·.lapp.val) (s.pv.peers[p]).status) % 256 / 2 ^ lo
      % 2 ^ (hi - lo + 1) := by
  simp [fieldAt, peerData, packByte, codeOf]

theorem any_toNat {α : Type} (f : α → Bool) (o : Option α) : (o.any f).toNat = codeOf (fun a => (f a).toNat) o := by
  cases o <;> rfl

theorem fieldAt_peer_3 (s : State) (p : Station) (hi lo : Nat) : fieldAt (peerData s p) 3 hi lo
    = ((s.pv.peers[p]).list.length * 32 + codeOf (·.more.toNat) (s.pv.peers[p]).status * 4
      + codeOf (·.selfIsolated.toNat) (s.pv.peers[p]).status * 2 + codeOf (·.attest.toNat) (s.pv.peers[p]).status) % 256 / 2 ^ lo
      % 2 ^ (hi - lo + 1) := by
  simp [fieldAt, peerData, packByte, any_toNat, add_assoc]

/-- R180, R162: a 32-bit time in two words. -/
theorem timeWords {d : List Byte} {i : Nat} (t : Time) (high : wordAt d i = t.toNat / 65536 % 65536)
    (low : wordAt d (i + 2) = t.toNat % 65536 % 65536) : 65536 * wordAt d i + wordAt d (i + 2) = t.toNat := by
  have bound := t.isLt
  rw [high, low]
  omega

theorem toNat_getD (o : Option Time) : (o.getD 0).toNat = codeOf BitVec.toNat o := by
  cases o <;> rfl

/-- R181: the list follows the first eight bytes. -/
theorem peerData_eq {s : State} {p : Station} (h : (s.pv.peers[p]).list.length ≤ 4) :
    ∃ head : List Byte, head.length = 8 ∧ peerData s p = head ++ listBytes 4 (s.pv.peers[p]).list := by
  rw [peerData, List.take_of_length_le h, List.append_assoc]
  exact ⟨_, rfl, rfl⟩

theorem peerData_list {s : State} {p : Station} (h : (s.pv.peers[p]).list.length ≤ 4) (j : Nat) :
    (peerData s p)[8 + j]? = (listBytes 4 (s.pv.peers[p]).list)[j]? := by
  obtain ⟨head, length, data⟩ := peerData_eq h
  rw [data, List.getElem?_append_right (by omega), length, Nat.add_sub_cancel_left]

theorem peerData_length {s : State} {p : Station} (h : (s.pv.peers[p]).list.length ≤ 4) : (peerData s p).length = 16 := by
  obtain ⟨head, length, data⟩ := peerData_eq h
  rw [data, List.length_append, length, listBytes_length h]

/-- R181: what READ-PEER says of each place of the list. -/
theorem peerData_entry {s : State} {p : Station} (h : (s.pv.peers[p]).list.length ≤ 4) (i : Fin 4) :
    match (s.pv.peers[p]).list[i.val]? with
    | some a => (peerData s p)[8 + 2 * i.val]? = some (BitVec.ofNat 8 a.zone.val) ∧ fieldAt (peerData s p) (9 + 2 * i.val) 7 6 = 0
      ∧ fieldAt (peerData s p) (9 + 2 * i.val) 5 4 = a.claim.severity.code
      ∧ fieldAt (peerData s p) (9 + 2 * i.val) 3 0 = a.claim.cls.code
    | none => (peerData s p)[8 + 2 * i.val]? = some 0 ∧ (peerData s p)[9 + 2 * i.val]? = some 0 := by
  obtain ⟨first, second⟩ := listBytes_entry 4 _ h i.val i.isLt
  rw [← peerData_list h] at first second
  rw [show 8 + (2 * i.val + 1) = 9 + 2 * i.val by omega] at second
  split
  · next a entry =>
    rw [entry] at first second
    have severity := severityCode_lt a.claim.severity
    have cls := classCode_lt a.claim.cls
    have value : ((peerData s p).getD (9 + 2 * i.val) 0).toNat = a.claim.severity.code * 16 + a.claim.cls.code := by
      rw [List.getD_eq_getElem?_getD, second]
      simp [packByte]
      omega
    simp only [fieldAt, value]
    exact ⟨first, by omega, by omega, by omega⟩
  · next entry =>
    rw [entry] at first second
    exact ⟨first, second⟩

/-- Settles O28: byte by byte. -/
theorem readPeerShowsThePeerRecord : Obligations.ReadPeerShowsThePeerRecord := by
  refine fun station tail s taken => ⟨readPeer_range taken, fun p named short => ?_⟩
  have deaf := s.ziu.derived.deaf.toNat_lt
  have lost := (s.ziu.derived.lost[p]).toNat_lt
  have expected := (s.pv.peers[p]).expected.toNat_lt
  have presence := presenceCode_lt (s.pv.peers[p]).presence
  have hasRole := (s.pv.peers[p]).role.isSome.toNat_lt
  have hasGroup := (s.pv.peers[p]).group.isSome.toNat_lt
  have hasStatus := (s.pv.peers[p]).status.isSome.toNat_lt
  have heard := (s.pv.peers[p]).lastHeard.isSome.toNat_lt
  have role := codeOf_lt roleCode_lt (by decide) (s.pv.peers[p]).role
  have group := codeOf_lt (code := Fin.val) Fin.isLt (by decide) (s.pv.peers[p]).group
  have lown := codeOf_lt (code := fun f : StatusFields => f.lown.val) (fun f => f.lown.isLt) (by decide) (s.pv.peers[p]).status
  have lapp := codeOf_lt (code := fun f : StatusFields => f.lapp.val) (fun f => f.lapp.isLt) (by decide) (s.pv.peers[p]).status
  have more := codeOf_lt (code := fun f : StatusFields => f.more.toNat) (fun f => f.more.toNat_lt) (by decide) (s.pv.peers[p]).status
  have isolated := codeOf_lt (code := fun f : StatusFields => f.selfIsolated.toNat) (fun f => f.selfIsolated.toNat_lt) (by decide)
    (s.pv.peers[p]).status
  have attest := codeOf_lt (code := fun f : StatusFields => f.attest.toNat) (fun f => f.attest.toNat_lt) (by decide)
    (s.pv.peers[p]).status
  have time := timeWords (d := peerData s p) (i := 4) ((s.pv.peers[p]).lastHeard.getD 0) (wordAt_of rfl rfl) (wordAt_of rfl rfl)
  refine ⟨peerData s p, readPeer_peer taken named, peerData_length short, ?_, flagField_iff ?_, flagField_iff ?_, flagField_iff ?_, ?_,
    flagField_iff ?_, ?_, flagField_iff ?_, ?_, flagField_iff ?_, flagField_iff ?_, ?_, ?_, ?_, ?_, ?_, ?_, ?_, ?_,
    time.trans (toNat_getD _), peerData_entry short⟩
  all_goals
    simp only [fieldAt_peer_0, fieldAt_peer_1, fieldAt_peer_2, fieldAt_peer_3]
    omega

/-! ### READ-FAULT and READ-TIME -/

theorem readFault_range {slot : Byte} {tail : Tail} {s : State} (taken : Taken s [0x23, slot] tail) (h : 16 ≤ slot.toNat) :
    exec (.readFault slot tail) s = .next (s.answering .range (List.replicate 9 0)) :=
  request_answers (n := 9) (owner := fun s => match slotArg slot with
    | some name => ⟨s, .ok, faultData s name⟩
    | none => refuse .range s) (a := refuse .range s) taken (by simp only [slotArg_range h])

theorem readFault_slot {slot : Byte} {tail : Tail} {s : State} {name : SlotName} (taken : Taken s [0x23, slot] tail)
    (h : slotArg slot = some name) : exec (.readFault slot tail) s = .next (s.answering .ok (faultData s name)) :=
  request_answers (n := 9) (owner := fun s => match slotArg slot with
    | some name => ⟨s, .ok, faultData s name⟩
    | none => refuse .range s) (a := ⟨s, .ok, faultData s name⟩) taken (by simp only [h])

theorem readTime_data {tail : Tail} {s : State} (taken : Taken s [0x24] tail) :
    exec (.readTime tail) s = .next (s.answering .ok (timeBytes s.ctl.nodeTime)) :=
  request_answers (n := 4) (owner := fun s => ⟨s, .ok, timeBytes s.ctl.nodeTime⟩) (a := ⟨s, .ok, timeBytes s.ctl.nodeTime⟩) taken rfl

theorem entryBytes_length (entry : Option Entry) : (entryBytes entry).length = 8 := by
  cases entry <;> rfl

/-- R181: the number of the input that an entry comes from. -/
def sourceNumber : Source → Nat
  | .input n => n.val
  | .declared => 0

theorem sourceNumber_lt (source : Source) : sourceNumber source < 8 := by
  cases source with
  | input n => exact n.isLt
  | declared => decide

theorem fieldAt_entry_0 (x : Entry) (b : Byte) (hi lo : Nat) : fieldAt (entryBytes (some x) ++ [b]) 0 hi lo
    = (128 + x.state.code * 16 + (x.source == .declared).toNat * 8 + sourceNumber x.source) % 256 / 2 ^ lo % 2 ^ (hi - lo + 1) := by
  cases source : x.source <;> simp [fieldAt, entryBytes, packByte, source, sourceNumber, add_assoc]

theorem fieldAt_entry_1 (x : Entry) (b : Byte) (hi lo : Nat) : fieldAt (entryBytes (some x) ++ [b]) 1 hi lo
    = (x.cls.code * 16 + x.zone.val) % 256 / 2 ^ lo % 2 ^ (hi - lo + 1) := by
  simp [fieldAt, entryBytes, packByte]

theorem fieldAt_entry_2 (x : Entry) (b : Byte) (hi lo : Nat) : fieldAt (entryBytes (some x) ++ [b]) 2 hi lo
    = (x.configured.code * 64 + x.current.code * 16 + x.escalated.toNat * 8 + x.latching.toNat * 4
      + x.firstActive.isSome.toNat * 2) % 256 / 2 ^ lo % 2 ^ (hi - lo + 1) := by
  simp [fieldAt, entryBytes, packByte, add_assoc]

/-- R181: the eight bytes of an entry. -/
theorem entryBytes_fields (x : Entry) (b : Byte) : fieldAt (entryBytes (some x) ++ [b]) 0 7 7 = 1
    ∧ fieldAt (entryBytes (some x) ++ [b]) 0 6 4 = x.state.code
    ∧ (match x.source with
      | .input m => fieldAt (entryBytes (some x) ++ [b]) 0 3 3 = 0 ∧ fieldAt (entryBytes (some x) ++ [b]) 0 2 0 = m.val
      | .declared => fieldAt (entryBytes (some x) ++ [b]) 0 3 3 = 1 ∧ fieldAt (entryBytes (some x) ++ [b]) 0 2 0 = 0)
    ∧ fieldAt (entryBytes (some x) ++ [b]) 1 7 4 = x.cls.code ∧ fieldAt (entryBytes (some x) ++ [b]) 1 3 0 = x.zone.val
    ∧ fieldAt (entryBytes (some x) ++ [b]) 2 7 6 = x.configured.code ∧ fieldAt (entryBytes (some x) ++ [b]) 2 5 4 = x.current.code
    ∧ (fieldAt (entryBytes (some x) ++ [b]) 2 3 3 = 1 ↔ x.escalated = true)
    ∧ (fieldAt (entryBytes (some x) ++ [b]) 2 2 2 = 1 ↔ x.latching = true)
    ∧ (fieldAt (entryBytes (some x) ++ [b]) 2 1 1 = 1 ↔ x.firstActive.isSome = true)
    ∧ fieldAt (entryBytes (some x) ++ [b]) 2 0 0 = 0
    ∧ (entryBytes (some x) ++ [b])[3]? = some (BitVec.ofNat 8 (x.count.getD 0))
    ∧ 65536 * wordAt (entryBytes (some x) ++ [b]) 4 + wordAt (entryBytes (some x) ++ [b]) 6 = codeOf BitVec.toNat x.firstActive := by
  have state := entryStateCode_lt x.state
  have number := sourceNumber_lt x.source
  have cls := classCode_lt x.cls
  have zone := x.zone.isLt
  have configured := severityCode_lt x.configured
  have current := severityCode_lt x.current
  have escalated := x.escalated.toNat_lt
  have latching := x.latching.toNat_lt
  have active := x.firstActive.isSome.toNat_lt
  have time := timeWords (d := entryBytes (some x) ++ [b]) (i := 4) (x.firstActive.getD 0) (wordAt_of rfl rfl) (wordAt_of rfl rfl)
  have declared := (x.source == Source.declared).toNat_lt
  simp only [fieldAt_entry_0, fieldAt_entry_1, fieldAt_entry_2]
  refine ⟨by omega, by omega, ?_, by omega, by omega, by omega, by omega, flagField_iff (by omega), flagField_iff (by omega),
    flagField_iff (by omega), by omega, by simp [entryBytes, packByte], time.trans (toNat_getD _)⟩
  cases source : x.source with
  | input m =>
    have place := m.isLt
    rw [show (Source.input m == Source.declared).toNat = 0 from rfl]
    simp only [sourceNumber]
    omega
  | declared =>
    rw [show (Source.declared == Source.declared).toNat = 1 from rfl]
    simp only [sourceNumber]
    omega

theorem entryBytes_append_length (entry : Option Entry) (b : Byte) : (entryBytes entry ++ [b]).length = 9 := by
  rw [List.length_append, entryBytes_length]; rfl

theorem fieldAt_last (entry : Option Entry) (b : Byte) (hi lo : Nat) :
    fieldAt (entryBytes entry ++ [b]) 8 hi lo = b.toNat / 2 ^ lo % 2 ^ (hi - lo + 1) := by
  cases entry <;> rfl

theorem lineAsserted_iff (s : State) (n : Input) : s.lineAsserted n = true ↔ s.pins.faultLines[n] ≠ (s.cfg.inputs[n]).activeLow := by
  simp only [State.lineAsserted, bne_iff_ne]

/-- Settles O29: the entry's eight bytes, then the ninth by the area of the slot. -/
theorem readFaultAndTimeShowTheSlotAndClock : Obligations.ReadFaultAndTimeShowTheSlotAndClock := by
  refine ⟨fun tail s taken => ⟨_, readTime_data taken, rfl, ?_⟩, fun slot tail s taken => ⟨readFault_range taken, fun entry input named => ?_⟩⟩
  · exact timeWords s.ctl.nodeTime (wordAt_of rfl rfl) (wordAt_of rfl rfl)
  cases input with
  | some n =>
    obtain ⟨number, rfl⟩ := named
    have asserted := (s.lineAsserted n).toNat_lt
    have enabled := (s.cfg.inputs[n]).enabled.toNat_lt
    refine ⟨_, readFault_slot taken (slotArg_input number), entryBytes_append_length _ _, ?_, ?_⟩
    · dsimp only [faultData]
      cases (s.lft.inputs[n]).entry with
      | none => rfl
      | some x => exact entryBytes_fields x _
    · dsimp only
      rw [← lineAsserted_iff]
      simp only [faultData, fieldAt_last, packByte, BitVec.toNat_ofNat, List.map_cons, List.map_nil, List.sum_cons, List.sum_nil]
      exact ⟨by omega, flagField_iff (by omega), flagField_iff (by omega)⟩
  | none =>
    obtain ⟨e, number, rfl⟩ := named
    have pointer := s.lft.pointer.isLt
    refine ⟨_, readFault_slot taken (slotArg_declared number), entryBytes_append_length _ _, ?_, ?_⟩
    · dsimp only [faultData]
      cases (s.lft.declared[e]).entry with
      | none => rfl
      | some x => exact entryBytes_fields x _
    · simp only [faultData, fieldAt_last, packByte, BitVec.toNat_ofNat, List.map_cons, List.map_nil, List.sum_cons, List.sum_nil]
      omega

end Sys2Proof.Machine
end

section
/-! The configuration commands and the requests that the node mode locks out (R154 to R158, R167). -/

namespace Sys2Proof.Machine

/-! ### The commands at their owners -/

theorem exec_setTiming (item : Byte) (value : Half) (tail : Tail) (s : State) : exec (.setTiming item value tail) s
    = hostRequest 0x01 (item :: argBytes value) tail 0 (fun s =>
      whenUnconfigured s (if h : item.toNat < 16 then loadTiming ⟨item.toNat, h⟩ value s else refuse .range s)) s := by
  rfl

/-- R156: how SET-ZONE is answered in UNCONFIGURED. -/
def setZoneAnswer (zone suspect confirmed isolated : Byte) (delay : Half) (attrs : Byte) (s : State) : Answer :=
  match zoneArg zone with
  | some z => accept (zoneClamped suspect confirmed isolated delay)
    { s with cfg.zones := s.cfg.zones.set z (zoneConfigArg suspect confirmed isolated delay attrs) }
  | none => refuse .range s

theorem exec_setZone (zone l1 l2 l3 : Byte) (delay : Half) (attrs : Byte) (tail : Tail) (s : State) :
    exec (.setZone zone l1 l2 l3 delay attrs tail) s = hostRequest 0x02 ([zone, l1, l2, l3] ++ argBytes delay ++ [attrs]) tail 0
      (fun s => whenUnconfigured s (setZoneAnswer zone l1 l2 l3 delay attrs s)) s := by
  rfl

/-- R156: how SET-INPUT is answered in UNCONFIGURED. -/
def setInputAnswer (input flags qualify heal cls severity zone : Byte) (s : State) : Answer :=
  match eightArg input, inputConfigArg flags qualify heal cls severity zone with
  | some n, some c => accept false { s with cfg.inputs := s.cfg.inputs.set n c }
  | _, _ => refuse .range s

theorem exec_setInput (input flags qualify heal cls severity zone : Byte) (tail : Tail) (s : State) :
    exec (.setInput input flags qualify heal cls severity zone tail) s
      = hostRequest 0x03 [input, flags, qualify, heal, cls, severity, zone] tail 0
        (fun s => whenUnconfigured s (setInputAnswer input flags qualify heal cls severity zone s)) s := by
  rfl

theorem exec_setLevels (b0 b1 b2 b3 v0 v1 v2 v3 : Half) (tail : Tail) (s : State) :
    exec (.setLevels b0 b1 b2 b3 v0 v1 v2 v3 tail) s
      = hostRequest 0x04 ([b0, b1, b2, b3, v0, v1, v2, v3].flatMap argBytes) tail 0 (fun s =>
        whenUnconfigured s (accept (anyAbove 1000 #v[b0, b1, b2, b3] || anyAbove 500 #v[v0, v1, v2, v3])
          { s with cfg.baseCaps := clampFour 1000 #v[b0, b1, b2, b3], cfg.speedCaps := clampFour 500 #v[v0, v1, v2, v3] })) s := by
  rfl

theorem exec_setPeers (expected group quorum : Byte) (tail : Tail) (s : State) : exec (.setPeers expected group quorum tail) s
    = hostRequest 0x05 [expected, group, quorum] tail 0 (fun s => whenUnconfigured s (accept (peersClamped group quorum)
      { s with cfg.expected := expected, cfg.group := groupArg group, cfg.quorum := clampTo 1 3 quorum.toNat })) s := by
  rfl

theorem exec_start_taken {tail : Tail} {s : State} (taken : Taken s [0x06] tail) :
    exec (.start tail) s = hostRequest 0x06 [] tail 0 (fun s => whenUnconfigured s (startUnit s)) s :=
  if_neg (Bool.eq_false_iff.mp (Taken.apart taken))

theorem exec_clearAll (tail : Tail) (s : State) : exec (.clearAll tail) s = hostRequest 0x14 [] tail 0
    (fun s => whenStarted s (accept false (settle s { s with lft := clearDeclared s.lft }))) s := by
  rfl

/-- R160: how DEPART is answered. -/
def departAnswer (s : State) : Answer :=
  match s.ctl.mode with
  | .unconfigured => refuse .wrongMode s
  | .departed => accept false s
  | .joining | .running => departUnit s

theorem exec_depart (tail : Tail) (s : State) : exec (.depart tail) s = hostRequest 0x1A [] tail 0 departAnswer s := by
  rfl

theorem exec_rejoin (tail : Tail) (s : State) : exec (.rejoin tail) s = hostRequest 0x1B [] tail 0
    (fun s => if s.ctl.mode = .departed then rejoinUnit s else refuse .wrongMode s) s := by
  rfl

/-! ### Requests locked out by the node mode -/

/-- R167: a request that its owner refuses for the node mode. -/
theorem wrongMode_request {command : Byte} {args : List Byte} {tail : Tail} {s : State} {owner : State → Answer}
    (taken : Taken s (command :: args) tail) (e : owner s = refuse .wrongMode s) :
    hostRequest command args tail 0 owner s = .next (s.answering .wrongMode) := by
  rw [request_answers taken e]; rfl

/-- Settles O25: by the command, as its owner names the node mode. -/
theorem lockedOutRequestsAreRefused : Obligations.LockedOutRequestsAreRefused := by
  intro c bytes tail s request taken locked
  cases c <;> cases request
  case setTiming => rw [exec_setTiming]; exact wrongMode_request taken (if_neg locked)
  case setZone => rw [exec_setZone]; exact wrongMode_request taken (if_neg locked)
  case setInput => rw [exec_setInput]; exact wrongMode_request taken (if_neg locked)
  case setLevels => rw [exec_setLevels]; exact wrongMode_request taken (if_neg locked)
  case setPeers => rw [exec_setPeers]; exact wrongMode_request taken (if_neg locked)
  case start => rw [exec_start_taken taken]; exact wrongMode_request taken (if_neg locked)
  case stress => rw [exec_stress]; exact wrongMode_request taken (if_pos locked)
  case clearFault => rw [exec_clearFault]; exact wrongMode_request taken (if_pos locked)
  case clearAll => rw [exec_clearAll]; exact wrongMode_request taken (if_pos locked)
  case floor => rw [exec_floor]; exact wrongMode_request taken (if_pos locked)
  case release => exact exec_release_unconfigured taken locked
  case depart =>
    have refused : departAnswer s = refuse .wrongMode s := by
      unfold departAnswer
      rw [show s.ctl.mode = .unconfigured from locked]
    rw [exec_depart]; exact wrongMode_request taken refused
  case rejoin => rw [exec_rejoin]; exact wrongMode_request taken (if_neg locked)
  all_goals exact locked.elim

/-! ### SET-TIMING -/

/-- R154, R167: how a configuration command that stores a value is answered. -/
theorem stored_request {command : Byte} {args : List Byte} {tail : Tail} {s : State} {owner : State → Answer} {c : Store} {b : Bool}
    (taken : Taken s (command :: args) tail) (e : owner s = accept b { s with cfg := c }) :
    hostRequest command args tail 0 owner s = .next (s.stored c b) := by
  rw [request_answers taken e, accept_answering]; rfl

theorem range_request {command : Byte} {args : List Byte} {tail : Tail} {s : State} {owner : State → Answer}
    (taken : Taken s (command :: args) tail) (e : owner s = refuse .range s) :
    hostRequest command args tail 0 owner s = .next (s.answering .range) := by
  rw [request_answers taken e]; rfl

theorem exec_setTiming_item {item : Byte} {value : Half} {tail : Tail} {s : State} (taken : Taken s (0x01 :: item :: argBytes value) tail)
    (m : s.ctl.mode = .unconfigured) {i : Fin 16} (h : item.toNat = i.val) : exec (.setTiming item value tail) s
      = .next (s.stored (Store.setTiming s.cfg i (timingValue i value.toNat)) (timingClamped i value.toNat)) := by
  rw [exec_setTiming]
  refine stored_request taken ?_
  rw [whenUnconfigured_of m, dif_pos (h ▸ i.isLt)]
  simp only [h, Fin.eta]
  rfl

theorem exec_setTiming_range {item : Byte} {value : Half} {tail : Tail} {s : State} (taken : Taken s (0x01 :: item :: argBytes value) tail)
    (m : s.ctl.mode = .unconfigured) (h : 16 ≤ item.toNat) : exec (.setTiming item value tail) s = .next (s.answering .range) := by
  rw [exec_setTiming]
  exact range_request taken ((whenUnconfigured_of m _).trans (dif_neg (by omega)))

/-- R154: a value is clamped by an upper bound alone exactly if it is above it. -/
theorem min_bne (v bound : Nat) : (min v bound != v) = decide (bound < v) := by
  rw [Bool.eq_iff_iff, bne_iff_ne, decide_eq_true_eq]
  omega

theorem escalation_bne (v : Nat) : ((if v = 1 then 2 else min v 15) != v) = (v == 1 || decide (15 < v)) := by
  rw [Bool.eq_iff_iff, bne_iff_ne, Bool.or_eq_true, beq_iff_eq, decide_eq_true_eq]
  split <;> omega

theorem stressTimeout_bne (v : Nat) : ((if v = 0 then 0 else clampTo 100 5000 v) != v) = (v != 0 && max 100 (min 5000 v) != v) := by
  rw [Bool.eq_iff_iff, bne_iff_ne, Bool.and_eq_true, bne_iff_ne, bne_iff_ne]
  unfold clampTo
  split <;> omega

/-- R141, R155: item 14 is a truth value. -/
theorem min_one_bne_zero (v : Nat) : (min v 1 != 0) = (v != 0) := by
  rw [Bool.eq_iff_iff, bne_iff_ne, bne_iff_ne]
  omega

theorem stored_timing (s : State) (i : Fin 16) {v w : Nat} {b : Bool} (value : timingValue i v = w) (clamped : timingClamped i v = b) :
    s.stored (Store.setTiming s.cfg i (timingValue i v)) (timingClamped i v) = s.stored (Store.setTiming s.cfg i w) b := by
  rw [value, clamped]

/-- Settles O30: the sixteen items by number; all but five are one clamp to a range. -/
theorem setTimingLoadsTheNamedItem : Obligations.SetTimingLoadsTheNamedItem := by
  refine ⟨fun item value tail s taken m => ?_, fun station role => ⟨rfl, rfl, rfl, rfl, rfl, rfl, rfl, rfl, rfl, rfl, rfl, rfl, rfl, rfl,
    beq_iff_eq, rfl⟩⟩
  by_cases known : item.toNat < 16
  · obtain ⟨i, number⟩ : ∃ i : Fin 16, item.toNat = i.val := ⟨⟨item.toNat, known⟩, rfl⟩
    rw [exec_setTiming_item taken m number, number]
    generalize value.toNat = v
    clear number
    match i with
    | 4 => exact congrArg _ (stored_timing s 4 (congrArg (ite (v = 1) 2) (min_comm v 15)) (escalation_bne v))
    | 5 => exact congrArg _ (stored_timing s 5 (min_comm v 5000) (min_bne v 5000))
    | 11 => exact congrArg _ (stored_timing s 11 (min_comm v 10000) (min_bne v 10000))
    | 12 => exact congrArg _ (stored_timing s 12 rfl (stressTimeout_bne v))
    | 14 =>
      refine congrArg _ ((stored_timing s 14 rfl (min_bne v 1)).trans ?_)
      exact congrArg (fun b => s.stored { s.cfg with contactorFitted := b } _) (min_one_bne_zero v)
    | 0 | 1 | 2 | 3 | 6 | 7 | 8 | 9 | 10 | 13 | 15 => rfl
    | ⟨n + 16, beyond⟩ => exact absurd beyond (by omega)
  · rw [exec_setTiming_range taken m (not_lt.mp known)]
    split
    iterate 16 omega
    rfl

/-! ### SET-ZONE, SET-INPUT, SET-LEVELS and SET-PEERS -/

theorem classArg_named {b : Byte} (low : 1 ≤ b.toNat) (high : b.toNat ≤ 6) : ∃ c, classArg b = some c ∧ c.code = b.toNat := by
  rw [classArg, FaultClass.ofLocalCode, if_pos high]
  generalize b.toNat = n at low high
  interval_cases n <;> exact ⟨_, rfl, rfl⟩

theorem severityArg_named {b : Byte} (low : 1 ≤ b.toNat) (high : b.toNat ≤ 3) : ∃ v, severityArg b = some v ∧ v.code = b.toNat := by
  rw [severityArg]
  generalize b.toNat = n at low high
  interval_cases n <;> exact ⟨_, rfl, rfl⟩

theorem setInputAnswer_range {input flags qualify heal cls severity zone : Byte} (h : 8 ≤ input.toNat ∨ cls.toNat = 0 ∨ 7 ≤ cls.toNat
    ∨ severity.toNat = 0 ∨ 4 ≤ severity.toNat ∨ 12 ≤ zone.toNat) (s : State) :
    setInputAnswer input flags qualify heal cls severity zone s = refuse .range s := by
  unfold setInputAnswer inputConfigArg
  rcases h with h | h | h | h | h | h
  · rw [eightArg_range h]
  · rw [classArg_range (.inl h)]; cases eightArg input <;> rfl
  · rw [classArg_range (.inr h)]; cases eightArg input <;> rfl
  · rw [severityArg_range (.inl h)]; cases eightArg input <;> cases classArg cls <;> rfl
  · rw [severityArg_range (.inr h)]; cases eightArg input <;> cases classArg cls <;> rfl
  · rw [zoneArg_range h]; cases eightArg input <;> cases classArg cls <;> cases severityArg severity <;> rfl

theorem inputConfigArg_named {flags qualify heal cls severity zone : Byte} {c : FaultClass} {v : Severity} {z : Zone}
    (hc : classArg cls = some c) (hv : severityArg severity = some v) (hz : zoneArg zone = some z) :
    inputConfigArg flags qualify heal cls severity zone = some
      { enabled := flags.getLsbD 0, activeLow := flags.getLsbD 1, qualify := qualify.toNat, heal := 10 * heal.toNat, cls := c
        severity := v, zone := z, latching := flags.getLsbD 2, trip := flags.getLsbD 3 } := by
  rw [inputConfigArg, hc, hv, hz]

theorem setInputAnswer_named {input flags qualify heal cls severity zone : Byte} {n : Input} {k : InputConfig}
    (hn : eightArg input = some n) (hk : inputConfigArg flags qualify heal cls severity zone = some k) (s : State) :
    setInputAnswer input flags qualify heal cls severity zone s = accept false { s with cfg.inputs := s.cfg.inputs.set n k } := by
  rw [setInputAnswer, hn, hk]

theorem four_getElem (v : Vector Half 4) : #v[v[0], v[1], v[2], v[3]] = v := by
  ext i h
  interval_cases i <;> rfl

theorem anyAbove_iff (bound : Nat) (v : Vector Half 4) : anyAbove bound v = true ↔ ∃ i : Fin 4, bound < (v[i]).toNat := by
  simp [anyAbove, -Fin.getElem_fin]

theorem setLevels_clamped (b v : Vector Half 4) : (anyAbove 1000 b || anyAbove 500 v)
    = decide ((∃ i : Fin 4, 1000 < (b[i]).toNat) ∨ ∃ i : Fin 4, 500 < (v[i]).toNat) := by
  rw [Bool.eq_iff_iff, Bool.or_eq_true, anyAbove_iff, anyAbove_iff, decide_eq_true_eq]

theorem setZone_loads {zone l1 l2 l3 : Byte} {delay : Half} {attrs : Byte} {tail : Tail} {s : State}
    (taken : Taken s (0x02 :: ([zone, l1, l2, l3] ++ argBytes delay ++ [attrs])) tail) (m : s.ctl.mode = .unconfigured) :
    (12 ≤ zone.toNat → exec (.setZone zone l1 l2 l3 delay attrs tail) s = .next (s.answering .range))
    ∧ ∀ z : Zone, zone.toNat = z.val → exec (.setZone zone l1 l2 l3 delay attrs tail) s
      = .next (s.stored { s.cfg with zones := s.cfg.zones.set z (zoneConfigArg l1 l2 l3 delay attrs) } (zoneClamped l1 l2 l3 delay)) := by
  rw [exec_setZone]
  refine ⟨fun h => range_request taken ((whenUnconfigured_of m _).trans ?_), fun z h =>
    stored_request taken ((whenUnconfigured_of m _).trans ?_)⟩
  · rw [setZoneAnswer, zoneArg_range h]
  · rw [setZoneAnswer, zoneArg_zone h]

/-- R98: the zone defaults of the table. -/
theorem zoneDefaults (z : Zone) : ZoneConfig.initial z
    = { suspectLevel := if z.val = 8 ∨ z.val = 11 then 2 else 1
        confirmedLevel := if z.val < 8 ∨ z.val = 10 then 2 else 3
        isolatedLevel := if z.val < 8 then 2 else if z.val = 8 then 5 else 3
        delay := if z.val = 8 then 200 else 300
        regenInhibit := z.val == 8, contactorDrop := z.val == 8 } := by
  revert z; decide

/-- Settles O31: each command's answer in UNCONFIGURED, then the defaults of the store. -/
theorem setCommandsLoadTheirGroups : Obligations.SetCommandsLoadTheirGroups := by
  refine ⟨fun s tail m => ⟨fun zone l1 l2 l3 delay attrs taken => ?_, fun input flags qualify heal cls severity zone taken => ?_,
    fun b v taken => ?_, fun expected group quorum taken => ?_⟩, fun station role => ⟨fun z => ?_, fun n => ?_, rfl, rfl, rfl, ?_, rfl⟩⟩
  · obtain ⟨refused, loaded⟩ := setZone_loads taken m
    exact ⟨refused, fun z h => ⟨_, loaded z h, min_comm _ _, min_comm _ _, min_comm _ _, min_comm _ _, rfl, rfl⟩⟩
  · rw [exec_setInput]
    refine ⟨fun h => range_request taken ((whenUnconfigured_of m _).trans (setInputAnswer_range h s)),
      fun n z place low high least most named => ?_⟩
    obtain ⟨c, hc, code⟩ := classArg_named low high
    obtain ⟨v, hv, grade⟩ := severityArg_named least most
    have loads := inputConfigArg_named (flags := flags) (qualify := qualify) (heal := heal) hc hv (zoneArg_zone named)
    exact ⟨_, stored_request taken ((whenUnconfigured_of m _).trans (setInputAnswer_named (eightArg_eq place) loads s)),
      rfl, rfl, rfl, rfl, rfl, rfl, code, grade, rfl⟩
  · refine ⟨clampFour 1000 b, clampFour 500 v, ?_, fun i => ⟨?_, ?_⟩⟩
    · rw [exec_setLevels, four_getElem, four_getElem, ← setLevels_clamped]
      exact stored_request taken (whenUnconfigured_of m _)
    · rw [clampFour_getElem, min_comm]
    · rw [clampFour_getElem, min_comm]
  · refine ⟨groupArg group, ?_, min_comm _ _⟩
    rw [exec_setPeers]
    exact stored_request taken (whenUnconfigured_of m _)
  · exact (Store.initial_zone station role z).trans (zoneDefaults z)
  · rw [Store.initial_input]
    exact ⟨rfl, rfl, rfl, rfl, rfl, rfl, rfl, rfl, rfl⟩
  · cases role <;> rfl

end Sys2Proof.Machine
end

section
/-! Stuffing and its removal, and the frames that the receiver reads back (R24 to R26, R38, R178, R179). -/

namespace Sys2Proof.Machine

/-! ### Stuffing -/

/-- R25: the receiver drops exactly the stuff bits. -/
theorem destuffFrom_stuffFrom (bits : List Bool) : ∀ (last : Bool) (run : Nat), run < 4 →
    destuffFrom last run (stuffFrom last run bits) = some bits := by
  induction bits with
  | nil => exact fun last run _ => rfl
  | cons b bits ih =>
    intro last run short
    unfold stuffFrom
    split
    · next four =>
      rw [destuffFrom_cons, if_pos four]
      dsimp only
      rw [if_neg (by cases b <;> decide), ih (!b) 1 (by decide)]
      rfl
    · next more =>
      rw [destuffFrom_cons, if_neg more, ih b _ (runWith_lt short more)]
      rfl

/-- R25: a run that goes on past its fourth bit is a stuff error. -/
theorem destuffFrom_long (b : Bool) (rest : List Bool) (n : Nat) : ∀ run : Nat, run < 4 → 5 ≤ run + n →
    destuffFrom b run (List.replicate n b ++ rest) = none := by
  induction n with
  | zero => omega
  | succ n ih =>
    intro run short long
    have next : runWith b run b = run + 1 := if_pos rfl
    rw [List.replicate_succ, List.cons_append, destuffFrom_cons, next]
    split
    · obtain ⟨m, rfl⟩ : ∃ m, n = m + 1 := ⟨n - 1, by omega⟩
      rw [List.replicate_succ, List.cons_append]
      exact if_pos rfl
    · rw [ih (run + 1) (by omega) (by omega)]; rfl

theorem destuffFrom_five (b : Bool) (rest : List Bool) (last : Bool) {run : Nat} (short : run < 4) :
    destuffFrom last run (List.replicate 5 b ++ rest) = none := by
  by_cases same : b = last
  · rw [← same]; exact destuffFrom_long b rest 5 run short (by omega)
  · have first : runWith last run b = 1 := if_neg same
    rw [List.replicate_succ, List.cons_append, destuffFrom_cons, first, if_neg (by decide),
      destuffFrom_long b rest 4 1 (by decide) (by decide)]
    rfl

/-- R25: a run of five equal bits anywhere is a stuff error. -/
theorem destuffFrom_run (b : Bool) (rest : List Bool) : ∀ (before : List Bool) (last : Bool) (run : Nat), run < 4 →
    destuffFrom last run (before ++ (List.replicate 5 b ++ rest)) = none
  | [], last, _, short => destuffFrom_five b rest last short
  | x :: before, last, run, short => by
    rw [List.cons_append, destuffFrom_cons]
    split
    · cases before with
      | nil =>
        show (if b = x then none else (destuffFrom b 1 (List.replicate 4 b ++ rest)).map (x :: ·)) = none
        rw [destuffFrom_long b rest 4 1 (by decide) (by decide)]
        exact ite_self _
      | cons c before =>
        dsimp only [List.cons_append]
        rw [destuffFrom_run b rest before c 1 (by decide)]
        exact ite_self _
    · next more =>
      rw [destuffFrom_run b rest before x _ (runWith_lt short more)]
      rfl

theorem destuff_stuff (bits : List Bool) : destuff (stuff bits) = some bits := destuffFrom_stuffFrom bits true 0 (by decide)

theorem destuff_of_run {bits : List Bool} {b : Bool} (h : List.replicate 5 b <:+: bits) : destuff bits = none := by
  obtain ⟨before, rest, rfl⟩ := h
  rw [List.append_assoc]
  exact destuffFrom_run b rest before true 0 (by decide)

/-- Settles O17: a run of five would be a stuff error, and what `stuff` makes is none. -/
theorem stuffingLeavesNoRunOfFive : Obligations.StuffingLeavesNoRunOfFive := by
  refine ⟨fun bits b run => ?_, destuff_stuff, fun bits b => destuff_of_run, fun f => rfl⟩
  have broken := destuff_of_run run
  rw [destuff_stuff] at broken
  cases broken

/-! ### Numbers as bits -/

theorem foldl_natBits (w n : Nat) : ∀ a : Nat, (natBits w n).foldl (fun m b => 2 * m + b.toNat) a = a * 2 ^ w + n % 2 ^ w := by
  induction w with
  | zero => intro a; simp [natBits, Nat.mod_one]
  | succ w ih =>
    intro a
    rw [natBits, List.foldl_cons, ih, Nat.mod_pow_succ, Nat.toNat_testBit, pow_succ]
    ring

theorem bitsNat_natBits (w n : Nat) : bitsNat (natBits w n) = n % 2 ^ w := by
  rw [bitsNat, foldl_natBits, Nat.zero_mul, Nat.zero_add]

theorem bitsNat_natBits_of_lt {w n : Nat} (h : n < 2 ^ w) : bitsNat (natBits w n) = n := by
  rw [bitsNat_natBits, Nat.mod_eq_of_lt h]

/-! ### Reading a frame back -/

theorem readEntry_accusation (a : Accusation) : readEntry a.zone.val a.claim.cls.code a.claim.severity.code = some a := by
  obtain ⟨zone, cls, severity⟩ := a
  rw [readEntry, dif_pos zone.isLt]
  cases cls <;> cases severity <;> rfl

/-- R178: the entries of a list, read back. -/
theorem readEntries_bits (l : List Accusation) : readEntries l.length (l.flatMap Accusation.bits) = some l := by
  induction l with
  | nil => rfl
  | cons a l ih =>
    have zone : bitsNat (natBits 4 a.zone.val) = a.zone.val := bitsNat_natBits_of_lt (by have := a.zone.isLt; omega)
    have cls : bitsNat (natBits 4 a.claim.cls.code) = a.claim.cls.code := bitsNat_natBits_of_lt (classCode_lt _)
    have severity : bitsNat (natBits 2 a.claim.severity.code) = a.claim.severity.code := bitsNat_natBits_of_lt (severityCode_lt _)
    rw [List.length_cons, List.flatMap_cons]
    show (match readEntry (bitsNat (natBits 4 a.zone.val)) (bitsNat (natBits 4 a.claim.cls.code))
      (bitsNat (natBits 2 a.claim.severity.code)), readEntries l.length (l.flatMap Accusation.bits) with
      | some a, some l => some (a :: l)
      | _, _ => none) = _
    rw [zone, cls, severity, readEntry_accusation, ih]

theorem ofNat_natBits {n : Nat} [NeZero n] (i : Fin n) {w : Nat} (h : n ≤ 2 ^ w) : Fin.ofNat n (bitsNat (natBits w i.val)) = i := by
  rw [bitsNat_natBits_of_lt (i.isLt.trans_le h)]
  exact Fin.ext (Nat.mod_eq_of_lt i.isLt)

theorem readLevel_level (l : Level) : readLevel (bitsNat (natBits 3 l.val)) = some l := by
  rw [bitsNat_natBits_of_lt (l.isLt.trans (by decide)), readLevel, dif_pos l.isLt]

theorem ofCode_role (r : Role) : Role.ofCode (bitsNat (natBits 2 r.code)) = r := by
  cases r <;> rfl

theorem readCovered_hello (n r g : Nat) : readCovered (natBits 3 n ++ [false, false] ++ (natBits 2 r ++ natBits 2 g))
    = some (.hello (Fin.ofNat 8 (bitsNat (natBits 3 n))) (Role.ofCode (bitsNat (natBits 2 r))) (Fin.ofNat 4 (bitsNat (natBits 2 g)))) :=
  rfl

theorem readCovered_leave (n : Nat) : readCovered (natBits 3 n ++ [true, false] ++ [])
    = some (.leave (Fin.ofNat 8 (bitsNat (natBits 3 n)))) :=
  rfl

theorem readCovered_status (n : Nat) (payload : List Bool) : readCovered (natBits 3 n ++ [false, true] ++ payload)
    = readStatus (Fin.ofNat 8 (bitsNat (natBits 3 n))) payload :=
  rfl

/-- R178: the payload of a STATUS, read back. -/
theorem readStatus_payload (id : Station) (join attest selfIsolated more : Bool) (group : Group) (lown lapp : Level)
    {list : List Accusation} (short : list.length ≤ 4) (once : (list.map (·.zone)).Nodup) :
    readStatus id (Frame.status id join attest selfIsolated more group lown lapp list).payload
      = some (.status id join attest selfIsolated more group lown lapp list) := by
  have members : Fin.ofNat 4 (bitsNat (natBits 2 group.val)) = group := ofNat_natBits group (by decide)
  have count : bitsNat (natBits 3 list.length) = list.length := bitsNat_natBits_of_lt (by omega)
  show (if bitsNat (natBits 3 list.length) ≤ 4 then
      match readLevel (bitsNat (natBits 3 lown.val)), readLevel (bitsNat (natBits 3 lapp.val)),
        readEntries (bitsNat (natBits 3 list.length)) (list.flatMap Accusation.bits) with
      | some lown, some lapp, some list =>
        if (list.map (·.zone)).Nodup then
          some (Frame.status id join attest selfIsolated more (Fin.ofNat 4 (bitsNat (natBits 2 group.val))) lown lapp list)
        else none
      | _, _, _ => none
    else none) = _
  rw [count, if_pos short, readLevel_level, readLevel_level, readEntries_bits, members]
  exact if_pos once

/-- R178: the fields that the CRC covers, read back. -/
theorem readCovered_covered {f : Frame} (wf : f.wf = true) : readCovered f.covered = some f := by
  have number : Fin.ofNat 8 (bitsNat (natBits 3 f.id.val)) = f.id := ofNat_natBits f.id (by decide)
  cases f with
  | hello id role group =>
    have members : Fin.ofNat 4 (bitsNat (natBits 2 group.val)) = group := ofNat_natBits group (by decide)
    have kind : natBits 2 Kind.hello.code = [false, false] := by decide
    rw [Frame.covered, Frame.kind, kind, Frame.payload, readCovered_hello, number, members, ofCode_role]
    rfl
  | leave id =>
    have kind : natBits 2 Kind.leave.code = [true, false] := by decide
    rw [Frame.covered, Frame.kind, kind, Frame.payload, readCovered_leave, number]
    rfl
  | status id join attest selfIsolated more group lown lapp list =>
    obtain ⟨short, once⟩ : list.length ≤ 4 ∧ (list.map (·.zone)).Nodup := by simpa [Frame.wf] using wf
    have kind : natBits 2 Kind.status.code = [false, true] := by decide
    rw [Frame.covered, Frame.kind, kind, readCovered_status, number]
    exact readStatus_payload id join attest selfIsolated more group lown lapp short once

theorem natBits_length (w n : Nat) : (natBits w n).length = w := by
  induction w with
  | zero => rfl
  | succ w ih => rw [natBits, List.length_cons, ih]

/-- R179: start bit, covered fields and CRC, read back. -/
theorem readBody_body {f : Frame} (wf : f.wf = true) : readBody f.body = some f := by
  have crc : (natBits 16 (crc16 f.covered).toNat).length = 16 := natBits_length _ _
  have fields : (f.covered ++ natBits 16 (crc16 f.covered).toNat).length - 16 = f.covered.length := by
    rw [List.length_append, crc, Nat.add_sub_cancel]
  rw [Frame.body, readBody, fields, List.take_left', List.drop_left' rfl]
  · rw [if_pos rfl, readCovered_covered wf]
  · rfl

/-- R38: a frame that a 4130 may send passes every check. -/
theorem receive_wire {f : Frame} (wf : f.wf = true) : receive f.wire = some f := by
  have region : f.wire.length - 7 = (stuff f.body).length := by
    rw [Frame.wire, List.length_append, endField, List.length_replicate, Nat.add_sub_cancel]
  rw [receive, region, Frame.wire, List.drop_left' rfl, List.take_left' rfl, if_pos rfl, destuff_stuff]
  exact readBody_body wf

/-! ### The line after a frame -/

/-- R26: recessive bit times on a line that is waited for. -/
theorem hear_waiting {l : Line} (h : l = Line.enabled ∨ l = Line.ended) (n : Nat) : ∃ again : Nat, 10 ≤ again
    ∧ l.hear (List.replicate n true) = (if 10 ≤ n then .idle else .wait (10 - n) again, none) := by
  rcases h with rfl | rfl
  · exact ⟨10, le_rfl, Line.hear_wait n 10 10 (by decide)⟩
  · exact ⟨17, by decide, Line.hear_wait n 10 17 (by decide)⟩

/-- R26: a dominant bit time begins the wait afresh. -/
theorem hear_interrupted {l : Line} (h : l = Line.enabled ∨ l = Line.ended) {n : Nat} (short : n < 10) :
    (l.hear (List.replicate n true ++ [false] ++ List.replicate 9 true)).1 ≠ .idle := by
  obtain ⟨again, long, heard⟩ := hear_waiting h n
  rw [if_neg (not_le.mpr short)] at heard
  have restarted : (Line.wait (10 - n) again).hear ([false] ++ List.replicate 9 true) = (Line.wait again again).hear (List.replicate 9 true) :=
    rfl
  rw [List.append_assoc, Line.hear_append heard, restarted, Line.hear_wait 9 again again (by omega), if_neg (by omega)]
  simp

/-! ### A frame that has broken off -/

/-- R26: fewer than seven recessive bits after a dominant one are no end field. -/
theorem quietTail_short (bits : List Bool) {n : Nat} (short : n < 7) : quietTail (bits ++ [false] ++ List.replicate n true) = false := by
  by_contra quiet
  have tail : (bits ++ [false] ++ List.replicate n true).drop ((bits ++ [false] ++ List.replicate n true).length - 7)
      = List.replicate 7 true := by simpa [quietTail, endField, endBits] using quiet
  have split := List.take_append_drop ((bits ++ [false] ++ List.replicate n true).length - 7) (bits ++ [false] ++ List.replicate n true)
  rw [tail] at split
  have mirrored := congrArg (fun l : List Bool => l.reverse[n]?) split
  rw [List.reverse_append, List.reverse_replicate, List.getElem?_append_left (by simpa using short), List.getElem?_replicate,
    if_pos short] at mirrored
  simp at mirrored

/-- R26, R38: samples that hold a stuff error have not the form of a frame. -/
theorem formed_broken {bits : List Bool} (run : List.replicate 5 false <:+: bits) (more : List Bool) (k : Nat) :
    formed (bits ++ more ++ List.replicate (7 + k) true) = false := by
  have region : (bits ++ more ++ List.replicate (7 + k) true).take ((bits ++ more ++ List.replicate (7 + k) true).length - 7)
      = bits ++ (more ++ List.replicate k true) := by
    rw [Nat.add_comm 7 k, List.replicate_add, ← List.append_assoc, List.length_append, List.length_replicate, Nat.add_sub_cancel,
      List.take_left' rfl, List.append_assoc]
  rw [formed, endBits, region, destuff_of_run (run.trans (List.prefix_append _ _).isInfix)]
  exact Bool.and_false _

/-- R26: a frame that has broken off with a stuff error is over after seven recessive bits, and is not taken. -/
theorem hear_broken {bits : List Bool} (run : List.replicate 5 false <:+: bits) :
    (Line.frame (bits ++ [false])).hear (List.replicate 7 true) = (Line.ended, none) := by
  have under (n : Nat) : n ≤ 6 → (Line.frame (bits ++ [false])).hear (List.replicate n true)
      = (.frame (bits ++ [false] ++ List.replicate n true), none) := by
    induction n with
    | zero => exact fun _ => by rw [List.replicate_zero, List.append_nil]; rfl
    | succ n ih =>
      intro short
      have quiet : frameOver (bits ++ [false] ++ List.replicate n true ++ [true]) = false := by
        rw [List.append_assoc _ (List.replicate n true), ← List.replicate_succ', frameOver, quietTail_short bits (by omega)]
        rfl
      rw [List.replicate_succ', Line.hear_append (ih (by omega)), Line.hear, Line.sample, quiet, if_neg (by decide),
        List.append_assoc _ (List.replicate n true)]
      rfl
  have whole : bits ++ [false] ++ List.replicate 6 true ++ [true] = bits ++ [false] ++ List.replicate (7 + 0) true := by
    rw [List.append_assoc _ (List.replicate 6 true)]; rfl
  have quiet : quietTail (bits ++ [false] ++ List.replicate (7 + 0) true) = true := by
    rw [quietTail, endBits, List.length_append, List.length_replicate, Nat.add_sub_cancel, List.drop_left' rfl]
    rfl
  have finished : frameOver (bits ++ [false] ++ List.replicate (7 + 0) true) = true := by
    rw [frameOver, quiet, Bool.true_and, Bool.or_eq_true, List.all_eq_true]
    refine .inr fun k _ => ?_
    rw [List.append_assoc _ (List.replicate (7 + 0) true), ← List.replicate_add, Nat.add_zero, formed_broken run]
    rfl
  have lost : receive (bits ++ [false] ++ List.replicate (7 + 0) true) = none := by
    cases taken : receive (bits ++ [false] ++ List.replicate (7 + 0) true) with
    | none => rfl
    | some f => exact absurd (receive_formed taken).1 (by rw [formed_broken run]; decide)
  rw [show List.replicate 7 true = List.replicate 6 true ++ [true] from rfl, Line.hear_append (under 6 le_rfl), Line.hear,
    Line.sample, whole, if_pos finished, lost]
  rfl

/-- Settles O16: every check passes, the line takes the frame where R26 says, and a broken one ends without being taken. -/
theorem receiverReadsBackEveryFrame : Obligations.ReceiverReadsBackEveryFrame := by
  refine ⟨fun f wf => ⟨receive_wire wf, Line.hear_frame (receive_wire wf), fun n => Line.hear_straddling (receive_wire wf)⟩,
    fun l n h => ?_, fun bits => hear_broken⟩
  obtain ⟨again, -, heard⟩ := hear_waiting h n
  rw [heard]
  refine ⟨?_, rfl, hear_interrupted h⟩
  split
  · next idle => exact iff_of_true rfl idle
  · next early => exact iff_of_false (by simp) early

end Sys2Proof.Machine
end

section
/-! The host port: the bytes of a request, requests that are not executed, SDO, and the codes (R163 to R170, R176, R180, R182). -/

namespace Sys2Proof.Machine

/-- Settles O18: by evaluation. -/
theorem codesAndCheckValues : Obligations.CodesAndCheckValues := by
  refine ⟨rfl, rfl, rfl, rfl, rfl, rfl, rfl, rfl, rfl, rfl, ?_, ?_, ?_, ?_⟩
  all_goals decide +kernel

/-! ### Whether the port takes requests -/

theorem takes_iff (s : State) (select : Select) : s.takes select = true
    ↔ s.ctl.held = false ∧ s.pins.rstLow = false ∧ (select = .fresh ∨ s.port.reply = none) := by
  simp [State.takes, State.portOpen, and_assoc]

theorem turnAway_open {s : State} (h : s.portOpen = true) : turnAway s = s := if_pos (by rw [h]; rfl)

/-- R163, R170: what becomes of a request that is not taken. -/
theorem turnAway_eq (s : State) :
    turnAway s = if s.ctl.held = false ∧ s.pins.rstLow = true then { s with port.reply := some [] } else s := by
  unfold turnAway State.portOpen
  cases s.ctl.held <;> cases s.pins.rstLow <;> rfl

theorem settle_open (b u : State) : (settle b u).portOpen = u.portOpen := by
  rw [State.portOpen, settle_held, settle_pins]; rfl

/-- R163: whatever a request makes of the state, the port stays open or closed if its owner leaves it so. -/
theorem hostRequest_open {command : Byte} {args : List Byte} {tail : Tail} {n : Nat} {owner : State → Answer} {s t : State}
    (h : hostRequest command args tail n owner s = .next t) (owned : (owner s).state.portOpen = s.portOpen) : t.portOpen = s.portOpen :=
  hostRequest_keeps (P := fun t => t.portOpen = s.portOpen) (fun _ _ k => k) id rfl owned h

theorem whenStarted_open {s : State} {a : Answer} (h : a.state.portOpen = s.portOpen) : (whenStarted s a).state.portOpen = s.portOpen := by
  unfold whenStarted; split
  · rfl
  · exact h

theorem whenUnconfigured_open {s : State} {a : Answer} (h : a.state.portOpen = s.portOpen) :
    (whenUnconfigured s a).state.portOpen = s.portOpen := by
  unfold whenUnconfigured; split
  · exact h
  · rfl

theorem accept_settle_open {s u : State} (b : Bool) (h : u.portOpen = s.portOpen) : (accept b (settle s u)).state.portOpen = s.portOpen := by
  rw [accept_state, settle_open, h]

theorem declareFault_open (c : FaultClass) (z : Zone) (v : Severity) (s : State) : (declareFault c z v s).state.portOpen = s.portOpen := by
  unfold declareFault
  split
  · split
    · exact accept_settle_open _ rfl
    · rfl
  · split
    · exact accept_settle_open _ rfl
    · rfl

theorem withdrawFault_open (c : FaultClass) (z : Zone) (s : State) : (withdrawFault c z s).state.portOpen = s.portOpen := by
  unfold withdrawFault
  split
  · split
    · exact accept_settle_open _ rfl
    · rfl
  · rfl

theorem clearSlot_open (name : SlotName) (s : State) : (clearSlot name s).state.portOpen = s.portOpen := by
  unfold clearSlot
  split
  · split
    · rfl
    · split
      · rfl
      · exact accept_settle_open _ rfl
  · split
    · rfl
    · exact accept_settle_open _ rfl

theorem startReady_open (s : State) : (watchInputs (startReady s)).portOpen = s.portOpen := by
  have pins : (startReady s).pins = s.pins := (sampleTrip_work (startLoaded s)).pins.trans (startLoaded_pins s)
  rw [State.portOpen, (watchInputs_work _).ctl, (watchInputs_work _).pins, startReady_ctl, pins]
  rfl

theorem resetDone_open (s : State) : (resetDone s).portOpen = s.portOpen := by
  rw [State.portOpen, resetDone_ctl, resetDone_pins]; rfl

theorem hostReset_open (s : State) : (hostResetState s).portOpen = s.portOpen := by
  refine hostReset_keeps (P := fun t => t.portOpen = s.portOpen) (fun _ _ k => k) s (fun _ => resetDone_open s) fun _ => ?_
  have pins : (resetReady (resetDone s)).pins = (resetDone s).pins := rfl
  have ctl : (resetReady (resetDone s)).ctl.held = (resetDone s).ctl.held := rfl
  rw [settle_open, State.portOpen, (watchInputs_work _).ctl, (watchInputs_work _).pins, pins, ctl]
  exact resetDone_open s

theorem releaseZone_open (z : Zone) (stamp : Half) (s : State) : (releaseZone z stamp s).state.portOpen = s.portOpen := by
  cases state : (s.ziu.zones[z]).state with
  | clear => rw [releaseZone_notIsolated stamp (.inl state)]; rfl
  | suspect => rw [releaseZone_notIsolated stamp (.inr (.inl state))]; rfl
  | confirmed => rw [releaseZone_notIsolated stamp (.inr (.inr state))]; rfl
  | pinned => rw [releaseZone_pinned stamp state]; rfl
  | isolated =>
    rw [releaseZone_isolated stamp state]
    split_ifs
    · rfl
    · rfl
    · exact accept_settle_open _ rfl

theorem closeContactor_open (s : State) : (closeContactor s).state.portOpen = s.portOpen := by
  unfold closeContactor
  split
  · rfl
  · rfl
  · split_ifs <;> rfl

theorem openContactor_open (s : State) : (openContactor s).state.portOpen = s.portOpen := by
  unfold openContactor
  split
  · rw [accept_state, State.portOpen, (startDrop_note s).ctl, (startDrop_note s).pins]; rfl
  · rfl
  · rfl

theorem execStart_open {tail : Tail} {s t : State} (h : execStart tail s = .next t) : t.portOpen = s.portOpen := by
  unfold execStart at h
  have started : (whenUnconfigured s (startUnit s)).state.portOpen = s.portOpen :=
    whenUnconfigured_open (by rw [startUnit_eq]; exact accept_settle_open _ (startReady_open s))
  split at h
  · exact Host.Outcome.next.inj h ▸ started
  · exact hostRequest_open h started

theorem execUnknownCommand_open {byte : Byte} {tail : Tail} {s t : State} (h : execUnknownCommand byte tail s = .next t) :
    t.portOpen = s.portOpen := by
  by_cases unknown : (argCount byte).isNone = true
  · rw [execUnknownCommand, if_pos unknown] at h
    exact hostRequest_open h rfl
  · rw [execUnknownCommand, if_neg unknown] at h
    cases h

/-- R170: no request opens or closes the port. -/
theorem runRequest_open {i : Instr} {s t : State} (h : runRequest i s = .next t) : t.portOpen = s.portOpen := by
  cases i with
  | setTiming item value tail =>
    unfold runRequest execSetTiming at h
    refine hostRequest_open h (whenUnconfigured_open ?_)
    split <;> rfl
  | setZone zone suspect confirmed isolated delay attrs tail =>
    unfold runRequest execSetZone at h
    refine hostRequest_open h (whenUnconfigured_open ?_)
    split <;> rfl
  | setInput input flags qualify heal cls severity zone tail =>
    unfold runRequest execSetInput at h
    refine hostRequest_open h (whenUnconfigured_open ?_)
    split <;> rfl
  | setLevels b0 b1 b2 b3 v0 v1 v2 v3 tail => unfold runRequest execSetLevels at h; exact hostRequest_open h (whenUnconfigured_open rfl)
  | setPeers expected group quorum tail => unfold runRequest execSetPeers at h; exact hostRequest_open h (whenUnconfigured_open rfl)
  | start tail => exact execStart_open h
  | stress value tail =>
    unfold runRequest execStress at h; exact hostRequest_open h (whenStarted_open (accept_settle_open _ rfl))
  | declare cls zone severity tail =>
    unfold runRequest execDeclare at h
    refine hostRequest_open h ?_
    split
    · exact whenStarted_open (declareFault_open _ _ _ s)
    · rfl
  | withdraw cls zone tail =>
    unfold runRequest execWithdraw at h
    refine hostRequest_open h ?_
    split
    · exact whenStarted_open (withdrawFault_open _ _ s)
    · rfl
  | clearFault slot tail =>
    unfold runRequest execClearFault at h
    refine hostRequest_open h (whenStarted_open ?_)
    split
    · exact clearSlot_open _ s
    · rfl
  | clearAll tail => unfold runRequest execClearAll at h; exact hostRequest_open h (whenStarted_open (accept_settle_open _ rfl))
  | floor level tail => unfold runRequest execFloor at h; exact hostRequest_open h (whenStarted_open (accept_settle_open _ rfl))
  | release zone stamp tail =>
    unfold runRequest execRelease at h
    refine hostRequest_open h (whenStarted_open ?_)
    split
    · exact releaseZone_open _ _ s
    · rfl
  | tripClear tail =>
    unfold runRequest execTripClear at h
    refine hostRequest_open h ?_
    split_ifs
    · rfl
    · exact accept_settle_open _ rfl
    · rfl
  | contactorClose tail =>
    unfold runRequest execContactorClose at h
    refine hostRequest_open h ?_
    split
    · exact closeContactor_open s
    · rfl
  | contactorOpen tail =>
    unfold runRequest execContactorOpen at h
    refine hostRequest_open h ?_
    split
    · exact openContactor_open s
    · rfl
  | depart tail =>
    unfold runRequest execDepart at h
    refine hostRequest_open h ?_
    split
    · rfl
    · rfl
    · exact accept_settle_open _ rfl
    · exact accept_settle_open _ rfl
  | rejoin tail =>
    unfold runRequest execRejoin at h
    refine hostRequest_open h ?_
    split
    · exact accept_settle_open _ rfl
    · rfl
  | readSummary tail => unfold runRequest execReadSummary at h; exact hostRequest_open h rfl
  | readZone zone tail => unfold runRequest execReadZone at h; refine hostRequest_open h ?_; split <;> rfl
  | readPeer station tail => unfold runRequest execReadPeer at h; refine hostRequest_open h ?_; split <;> rfl
  | readFault slot tail => unfold runRequest execReadFault at h; refine hostRequest_open h ?_; split <;> rfl
  | readTime tail => unfold runRequest execReadTime at h; exact hostRequest_open h rfl
  | ack mask tail => unfold runRequest execAck at h; exact hostRequest_open h rfl
  | flagTest setMask clearMask tail => unfold runRequest execFlagTest at h; exact hostRequest_open h rfl
  | enable mask tail => unfold runRequest execEnable at h; exact hostRequest_open h rfl
  | reset tail => unfold runRequest execReset at h; exact hostRequest_open h (by rw [accept_state]; exact hostReset_open s)
  | unknownCommand byte tail => exact execUnknownCommand_open h
  | _ => cases h; rfl

/-! ### Requests that are not executed -/

theorem takes_open {s : State} {select : Select} (h : s.takes select = true) : s.portOpen = true := by
  rw [State.takes, Bool.and_eq_true] at h
  exact h.1

theorem takes_apart {s : State} {tail : Tail} (h : s.takes tail.select = true) : s.meetsReset tail = false := by
  obtain ⟨-, high, -⟩ := (takes_iff s tail.select).mp h
  simp [State.meetsReset, high]

/-- R163: a request of a transaction that has had one is ignored. -/
theorem exec_ignored {c : Instr} {bytes : List Byte} {tail : Tail} {t : State} (request : requestOf c = some (bytes, tail))
    (same : tail.select = .same) (isOpen : t.portOpen = true) (had : t.port.reply.isSome = true) : exec c t = .next t := by
  obtain ⟨command, args, n, owner, -, run⟩ := exec_request request
  have apart : t.meetsReset tail = false := by simp [State.meetsReset, same]
  have refused : t.takes tail.select = false := by
    rw [State.takes, same, Option.isSome_iff_ne_none] at *
    cases reply : t.port.reply with
    | none => exact absurd reply had
    | some r => simp
  rw [run t (by rw [apart]; exact fun k => by cases k.2), hostRequest, if_neg (by rw [refused]; decide), turnAway_open isOpen]

/-- R163: a request that the port takes is answered, whatever its CRC byte. -/
theorem hostRequest_replies {command : Byte} {args : List Byte} {tail : Tail} {n : Nat} {owner : State → Answer} {s t : State}
    (takes : s.takes tail.select = true) (h : hostRequest command args tail n owner s = .next t) : t.port.reply.isSome = true := by
  rcases hostRequest_cases command args tail n owner s with ⟨not, -⟩ | ⟨-, -, e⟩ | ⟨-, e⟩
  · rw [takes] at not; cases not
  · cases Host.Outcome.next.inj (h.symm.trans e); rfl
  · cases Host.Outcome.next.inj (h.symm.trans e); rfl

/-- R163, R176: SDO while a reply is shifted out. -/
theorem sdo_replying {s : State} (awake : s.ctl.held = false) {reply : List Byte} (has : s.port.reply = some reply) (n : Nat) :
    s.sdo (.replying n) = some (replyBit reply n) := by
  rw [State.sdo, awake, has]; rfl

theorem replyBit_within {reply : List Byte} {i : Nat} {b : Byte} (h : reply[i]? = some b) (n : Fin 8) :
    replyBit reply (8 * i + n.val) = b.getMsbD n.val := by
  rw [replyBit, show (8 * i + n.val) / 8 = i by omega, show (8 * i + n.val) % 8 = n.val by omega, h]

theorem replyBit_after {reply : List Byte} {n : Nat} (h : 8 * reply.length ≤ n) : replyBit reply n = true := by
  rw [replyBit, List.getElem?_eq_none (by omega)]

/-- Settles O19: each request as its owner and the port take it, then SDO by its phases. -/
theorem badRequestsAreNotExecuted : Obligations.BadRequestsAreNotExecuted := by
  refine ⟨fun c bytes tail s request => ?_, fun s => ⟨?_, ?_, fun held phase => if_pos held, fun awake =>
    ⟨by rw [State.sdo, awake]; rfl, fun reply has => ⟨fun i b n at_i => ?_, fun n past => ?_⟩⟩⟩⟩
  · obtain ⟨command, args, n, owner, rfl, run⟩ := exec_request request
    refine ⟨takes_iff s tail.select, fun takes wrong => ?_, fun takes => ?_, fun refused exception => ?_⟩
    · rw [run s (by rw [takes_apart takes]; exact fun k => by cases k.2), hostRequest, if_pos takes, if_neg wrong]
      rfl
    · obtain ⟨t, e⟩ := request_next (by rw [request]; rfl) s
      have handled := e
      rw [run s (by rw [takes_apart takes]; exact fun k => by cases k.2)] at handled
      have stays : t.portOpen = true := by
        rw [← runRequest_exec (by rw [request]; rfl)] at e
        rw [runRequest_open e]; exact takes_open takes
      exact ⟨t, e, fun d more next request' same => exec_ignored request' same stays (hostRequest_replies takes handled)⟩
    · have apart : ¬(c = .start tail ∧ s.meetsReset tail = true) := by
        rintro ⟨rfl, meets⟩
        cases request
        refine exception ⟨rfl, ?_⟩
        simpa [State.meetsReset, and_assoc, and_left_comm] using meets
      rw [run s apart, hostRequest, if_neg (by rw [refused]; decide), turnAway_eq]
  · rw [State.sdo]; split <;> rfl
  · rw [State.sdo]; split <;> rfl
  · rw [sdo_replying awake has, replyBit_within at_i]
  · rw [sdo_replying awake has, replyBit_after past]

/-! ### The bytes of a request -/

/-- R180: a 16-bit value from the bytes that carry it. -/
theorem half_argBytes (v : Half) : half (BitVec.ofNat 8 (v.toNat / 256)) (BitVec.ofNat 8 v.toNat) = v := by
  refine BitVec.eq_of_toNat_eq ?_
  have bound := v.isLt
  rw [half, BitVec.toNat_append, BitVec.toNat_ofNat, BitVec.toNat_ofNat, ← Nat.shiftLeft_add_eq_or_of_lt (by omega), Nat.shiftLeft_eq]
  omega

/-- R163, R180: the bytes of a request carry it, whatever follows its CRC byte. -/
theorem readRequest_bytes {c : Instr} {bytes : List Byte} {tail : Tail} (h : requestOf c = some (bytes, tail)) (more : List Byte) :
    readRequest tail.select (bytes ++ tail.crc :: more) = some c := by
  cases c <;> cases h
  case setTiming item value =>
    show some (Instr.setTiming item (half (BitVec.ofNat 8 (value.toNat / 256)) (BitVec.ofNat 8 value.toNat)) tail) = _
    rw [half_argBytes]
  case setZone zone l1 l2 l3 delay attrs =>
    show some (Instr.setZone zone l1 l2 l3 (half (BitVec.ofNat 8 (delay.toNat / 256)) (BitVec.ofNat 8 delay.toNat)) attrs tail) = _
    rw [half_argBytes]
  case setLevels b0 b1 b2 b3 v0 v1 v2 v3 =>
    have carried (v : Half) := half_argBytes v
    show some (Instr.setLevels (half (BitVec.ofNat 8 (b0.toNat / 256)) (BitVec.ofNat 8 b0.toNat))
      (half (BitVec.ofNat 8 (b1.toNat / 256)) (BitVec.ofNat 8 b1.toNat)) (half (BitVec.ofNat 8 (b2.toNat / 256)) (BitVec.ofNat 8 b2.toNat))
      (half (BitVec.ofNat 8 (b3.toNat / 256)) (BitVec.ofNat 8 b3.toNat)) (half (BitVec.ofNat 8 (v0.toNat / 256)) (BitVec.ofNat 8 v0.toNat))
      (half (BitVec.ofNat 8 (v1.toNat / 256)) (BitVec.ofNat 8 v1.toNat)) (half (BitVec.ofNat 8 (v2.toNat / 256)) (BitVec.ofNat 8 v2.toNat))
      (half (BitVec.ofNat 8 (v3.toNat / 256)) (BitVec.ofNat 8 v3.toNat)) tail) = _
    simp only [carried]
  case release zone stamp =>
    show some (Instr.release zone (half (BitVec.ofNat 8 (stamp.toNat / 256)) (BitVec.ofNat 8 stamp.toNat)) tail) = _
    rw [half_argBytes]
  all_goals rfl

/-- R166: the command bytes of the manual. -/
theorem argCount_none_iff (byte : Byte) : argCount byte = none ↔ byte ∉ ([0x01, 0x02, 0x03, 0x04, 0x05, 0x06, 0x10, 0x11, 0x12, 0x13,
    0x14, 0x15, 0x16, 0x17, 0x18, 0x19, 0x1A, 0x1B, 0x20, 0x21, 0x22, 0x23, 0x24, 0x30, 0x31, 0x32, 0x3C] : List Byte) := by
  revert byte; decide +kernel

theorem readRequest_unknown {byte : Byte} (h : argCount byte = none) (crc : Byte) (more : List Byte) (select : Select) :
    readRequest select (byte :: crc :: more) = some (.unknownCommand byte ⟨crc, select⟩) := by
  have unnamed (n : Nat) (k : byte.toNat = n) : argCount (BitVec.ofNat 8 n) = none := by
    rw [← k, BitVec.ofNat_toNat, BitVec.setWidth_eq]; exact h
  unfold readRequest
  dsimp only
  split
  iterate 27 exact absurd (unnamed _ ‹_›) (by decide)
  · next came _ _ _ _ _ _ _ _ _ _ _ _ _ _ _ _ _ _ _ _ _ _ _ _ _ _ _ =>
    rw [h, ← (List.cons.inj came).1]
    rfl
  · next came => cases came

theorem readRequest_short {command : Byte} {rest : List Byte} (h : rest.length < (argCount command).getD 0 + 1) (select : Select) :
    readRequest select (command :: rest) = none := by
  have count (n : Nat) (k : command.toNat = n) : rest.length < (argCount (BitVec.ofNat 8 n)).getD 0 + 1 := by
    rw [← k, BitVec.ofNat_toNat, BitVec.setWidth_eq]; exact h
  unfold readRequest
  dsimp only
  split
  iterate 27 exact absurd (count _ ‹_›) (by simp [argCount])
  · refine if_neg fun unknown => ?_
    rw [Option.isNone_iff_eq_none.mp unknown] at h
    simp at h
  · rfl

theorem bitsByte_natBits (b : Byte) : bitsByte (natBits 8 b.toNat) = b := by
  have number : bitsNat (natBits 8 b.toNat) = b.toNat := bitsNat_natBits_of_lt b.isLt
  rw [bitsByte, ← bitsNat, number, BitVec.ofNat_toNat, BitVec.setWidth_eq]

theorem bytesOf_part {part : List Bool} (short : part.length < 8) : bytesOf part = [] := by
  unfold bytesOf
  split
  · simp at short; omega
  · rfl

/-- R163, R164: the bytes of a transaction's bits, an incomplete last byte dropped. -/
theorem bytesOf_bits (bytes : List Byte) {part : List Bool} (short : part.length < 8) :
    bytesOf (bytes.flatMap (fun b => natBits 8 b.toNat) ++ part) = bytes := by
  induction bytes with
  | nil => exact bytesOf_part short
  | cons b bytes ih =>
    rw [List.flatMap_cons, List.append_assoc]
    show bitsByte (natBits 8 b.toNat) :: bytesOf (bytes.flatMap (fun b => natBits 8 b.toNat) ++ part) = _
    rw [bitsByte_natBits, ih]

/-! ### Requests that name no command, and requests broken off -/

theorem exec_unknown {byte : Byte} (h : argCount byte = none) (tail : Tail) (s : State) :
    exec (.unknownCommand byte tail) s = hostRequest byte [] tail 0 (fun s => ⟨raise .spi s, .unknown, []⟩) s :=
  if_pos (by rw [h]; rfl)

/-- R164: a rise of CS_N after a whole request ends its reply. -/
theorem exec_discarded_request {select : Select} {bits : List Bool} {c : Instr} (h : readRequest select (bytesOf bits) = some c) (s : State) :
    ∃ t, exec c s = .next t ∧ exec (.requestDiscarded ⟨select, bits⟩) s = .next { t with port.reply := none } := by
  obtain ⟨t, run⟩ := runRequest_next h s
  have same : runRequest c s = exec c s := by
    rcases readRequest_request h with request | ⟨byte, tail, rfl⟩
    · exact runRequest_exec request s
    · rfl
  refine ⟨t, same ▸ run, ?_⟩
  show execRequestDiscarded ⟨select, bits⟩ s = _
  rw [execRequestDiscarded, takeBits, h]
  dsimp only
  rw [run]

theorem exec_discarded_none {select : Select} {bits : List Bool} (h : readRequest select (bytesOf bits) = none) (s : State) :
    exec (.requestDiscarded ⟨select, bits⟩) s = .next { s with port.reply := none } := by
  show execRequestDiscarded ⟨select, bits⟩ s = _
  rw [execRequestDiscarded, takeBits, h]

/-- Settles O20: the unknown byte by whether the port takes it, then the bytes and the rise of CS_N. -/
theorem unknownAndBrokenOffRequests : Obligations.UnknownAndBrokenOffRequests := by
  refine ⟨fun byte tail s unknown => ⟨fun takes => ?_, fun refused => ?_⟩, argCount_none_iff, fun bytes part => bytesOf_bits bytes,
    fun c bytes more tail h => readRequest_bytes h more, fun byte crc more select h => readRequest_unknown h crc more select,
    fun select => rfl, fun command rest select h => readRequest_short h select, fun select bits s => ?_⟩
  · rw [exec_unknown unknown, hostRequest, if_pos takes]
    split <;> rfl
  · rw [exec_unknown unknown, hostRequest, if_neg (by rw [refused]; decide), turnAway_eq]
  · split
    · next h => exact exec_discarded_none h s
    · next c h => exact exec_discarded_request h s

end Sys2Proof.Machine
end

section
/-! SUPPORT. DEPART and REJOIN: what they make of a frame on the line, and the node mode that the join leaves (R43, R44, R58, R160,
R161). -/

namespace Sys2Proof.Machine

theorem departing_frame (x : Option Frame) : x.filter (fun f => f.kind == .leave)
    = match x with
      | some f => if f.kind = .leave then some f else none
      | none => none := by
  cases x with
  | none => rfl
  | some f => simp only [Option.filter_some, beq_iff_eq]

theorem rejoining_frame (x : Option Frame) : x.filter (fun f => f.kind != .leave)
    = match x with
      | some f => if f.kind = .leave then none else some f
      | none => none := by
  cases x with
  | none => rfl
  | some f => by_cases leave : f.kind = .leave <;> simp [leave]

theorem departAnswer_joined {s : State} (joined : s.ctl.mode = .joining ∨ s.ctl.mode = .running) :
    departAnswer s = departUnit s := by
  unfold departAnswer
  rcases joined with mode | mode <;> rw [mode]

theorem departAnswer_departed {s : State} (departed : s.ctl.mode = .departed) : departAnswer s = accept false s := by
  unfold departAnswer
  rw [departed]

/-- R58: outside JOINING the node mode stays. -/
theorem Follows.mode_stays {b u t : State} (h : Follows b u t) (m : u.ctl.mode ≠ .joining) : t.ctl.mode = u.ctl.mode := by
  have mode := h.mode
  rw [if_neg fun k => m k.1] at mode
  exact mode.1

/-- Settles O58: DEPART and REJOIN change the mode and the bus, and REJOIN's mode is that of the join at its entry. -/
theorem departAndRejoinChangeTheMode : Obligations.DepartAndRejoinChangeTheMode := by
  intro tail s
  refine ⟨fun taken joined => ?_, fun taken departed => ?_, fun taken departed => ?_⟩
  · obtain ⟨t, run, reply, follows⟩ := request_follows (b := false) taken (departAnswer_joined joined)
    have mode : t.ctl.mode = .departed := follows.mode_stays (fun k => NodeMode.noConfusion k)
    have stop : t.lvl.lapp = 5 := follows.drive.stopped (by rw [mode]; exact fun k => NodeMode.noConfusion k)
    obtain ⟨-, -, -, gen⟩ := follows.drive.atStop stop
    rw [departBus, departing_frame] at follows
    exact ⟨t, (exec_depart tail s).trans run, reply, follows, mode, stop, gen⟩
  · rw [exec_depart, request_answers taken (departAnswer_departed departed), accept_answering]; rfl
  · obtain ⟨t, run, reply, follows⟩ := request_follows (b := false)
      (owner := fun s => if s.ctl.mode = .departed then rejoinUnit s else refuse .wrongMode s) taken (if_pos departed)
    have mode := follows.mode
    have complete : joinComplete (enterJoining { s with sbc := rejoinBus s.sbc }) = joinComplete s := joinComplete_congr rfl
    have entered : (enterJoining { s with sbc := rejoinBus s.sbc }).ctl.mode = .joining := rfl
    simp only [complete, entered, true_and] at mode
    rw [enterJoining, rejoinBus, rejoining_frame] at follows
    refine ⟨t, (exec_rejoin tail s).trans run, reply, follows, fun all => ?_, fun waits => ?_⟩
    · exact (if_pos all).mp mode
    · exact (if_neg (by rw [waits]; exact Bool.false_ne_true)).mp mode

end Sys2Proof.Machine
end

section
/-! SUPPORT. The chip held in power-on reset: nothing but the movements of the input lines is followed (R146, R150, R170). -/

namespace Sys2Proof.Machine

/-! ### What a chip that is held follows -/

theorem event_of_held {s : State} (held : s.ctl.held = true) (f : State → State) : event s f = .next s := by
  rw [event, if_pos held]

theorem hostRequest_of_held {s : State} (held : s.ctl.held = true) (command : Byte) (args : List Byte) (tail : Tail) (n : Nat)
    (owner : State → Answer) : hostRequest command args tail n owner s = .next s := by
  rw [hostRequest, if_neg (by simp [State.takes, State.portOpen, held]), turnAway, if_pos (by simp [held])]

theorem exec_request_held {s : State} (held : s.ctl.held = true) {c : Instr} (request : (requestOf c).isSome = true) :
    exec c s = .next s := by
  obtain ⟨⟨bytes, tail⟩, e⟩ := Option.isSome_iff_exists.mp request
  obtain ⟨command, args, n, owner, -, run⟩ := exec_request e
  have apart : s.meetsReset tail = false := by simp [State.meetsReset, held]
  rw [run s (by rw [apart]; exact fun k => Bool.false_ne_true k.2), hostRequest_of_held held]

theorem receiveAs_of_held {s : State} (held : s.ctl.held = true) {k : Kind} {bits : List Bool} (spelt : framesAs k bits = true)
    (idle : Nat) : receiveAs k idle bits s = .next s := by
  rw [receiveAs, if_pos spelt, event_of_held held]

/-- R146, R150: every command but the movements of the input lines, the resets and a rise of CS_N. -/
theorem exec_of_held {s : State} (held : s.ctl.held = true) {c : Instr} (wf : c.wf = true)
    (discarded : ∀ clocked, c ≠ .requestDiscarded clocked) (asserted : ∀ n ns, c ≠ .assertion n ns)
    (released : ∀ n ns, c ≠ .inputRelease n ns) (reset : ∀ low, c ≠ .hostReset low) (returned : c ≠ .rstNReturnsHigh)
    (power : c ≠ .powerOnReset) (release : ∀ straps ready, c ≠ .releaseFromReset straps ready) : exec c s = .next s := by
  cases c with
  | assertion n ns => exact absurd rfl (asserted n ns)
  | inputRelease n ns => exact absurd rfl (released n ns)
  | requestDiscarded clocked => exact absurd rfl (discarded clocked)
  | hostReset low => exact absurd rfl (reset low)
  | powerOnReset => exact absurd rfl power
  | releaseFromReset straps ready => exact absurd rfl (release straps ready)
  | rstNReturnsHigh => exact absurd rfl returned
  | unknownCommand byte tail =>
    exact (if_pos wf).trans (hostRequest_of_held held ..)
  | hello idle bits => exact receiveAs_of_held held wf idle
  | status idle bits => exact receiveAs_of_held held wf idle
  | leave idle bits => exact receiveAs_of_held held wf idle
  | setTiming | setZone | setInput | setLevels | setPeers | stress | declare | withdraw | clearFault | clearAll | floor | release
  | tripClear | contactorClose | contactorOpen | depart | rejoin | readSummary | readZone | readPeer | readFault | readTime | ack
  | flagTest | enable | reset | start => exact exec_request_held held rfl
  | _ =>
    dsimp only [exec]
    exact event_of_held held _

/-- R164: a rise of CS_N of a chip that is held. -/
theorem exec_discarded_held {s : State} (held : s.ctl.held = true) (clocked : Clocked) :
    exec (.requestDiscarded clocked) s = .next { s with port.reply := none } := by
  cases read : readRequest clocked.select (bytesOf clocked.bits) with
  | none => exact exec_discarded_none read s
  | some c =>
    obtain ⟨t, run, e⟩ := exec_discarded_request read s
    have stays : exec c s = .next s := by
      rcases readRequest_request read with request | ⟨byte, tail, rfl⟩
      · exact exec_request_held held request
      · exact (if_pos (readRequest_wf read)).trans (hostRequest_of_held held ..)
    rw [Host.Outcome.next.inj (run.symm.trans stays)] at e
    exact e

/-! ### The lines of a chip that is held -/

theorem exec_assertion_held {s : State} (held : s.ctl.held = true) {n : Input} {ns : Nat} (long : 200 ≤ ns)
    (high : s.lineAsserted n = false) : exec (.assertion n ns) s = .next (setLine n true s) := by
  show execAssertion n ns s = _
  rw [execAssertion, if_neg (by simp [high, minimumPulse, long]), if_pos held]

theorem exec_inputRelease_held {s : State} (held : s.ctl.held = true) {n : Input} {ns : Nat} (long : 200 ≤ ns)
    (low : s.lineAsserted n = true) : exec (.inputRelease n ns) s = .next (setLine n false s) := by
  show execInputRelease n ns s = _
  rw [execInputRelease, if_neg (by simp [low, minimumPulse, long]), if_pos held]

theorem exec_hostReset_held {s : State} (held : s.ctl.held = true) {low : Nat} (long : 1000 ≤ low) :
    exec (.hostReset low) s = .next { s with pins.rstLow := true } := by
  show execHostReset low s = _
  by_cases stays : s.pins.rstLow = true
  · rw [execHostReset, if_pos (Or.inr stays), ← stays]
  · rw [execHostReset, if_neg (by simp [stays, minimumResetPulse, long]), if_pos held]

/-! ### Power-on reset and its release -/

theorem roleOf_code (r : BitVec 2) : (Role.ofCode r.toNat).code = r.toNat := by
  revert r; decide

/-- R150: a chip that is held, with RST_N high, is released after 2 ms. -/
theorem exec_releaseFromReset {s : State} (held : s.ctl.held = true) (high : s.pins.rstLow = false) (straps : Straps) {ready : Nat}
    (long : 2000 ≤ ready) : exec (.releaseFromReset straps ready) s = .next (releaseStation straps s) := by
  show execReleaseFromReset straps ready s = _
  rw [execReleaseFromReset, if_pos (by simp [held, high, releaseDelay, long])]

theorem exec_releaseFromReset_early {s : State} (straps : Straps) {ready : Nat}
    (early : s.ctl.held = false ∨ s.pins.rstLow = true ∨ ready < 2000) : exec (.releaseFromReset straps ready) s = .next s := by
  have not : (s.ctl.held && !s.pins.rstLow && decide (releaseDelay ≤ ready)) = false := by
    rcases early with k | k | k
    · rw [k]; rfl
    · rw [k, Bool.not_true, Bool.and_false, Bool.false_and]
    · rw [decide_eq_false (by rw [releaseDelay]; omega), Bool.and_false]
  show execReleaseFromReset straps ready s = _
  rw [execReleaseFromReset, if_neg (by rw [not]; exact Bool.false_ne_true)]

/-- Settles O60: the clauses in turn, each by the row of its command. -/
theorem powerOnResetAndItsRelease : Obligations.PowerOnResetAndItsRelease := by
  intro s
  refine ⟨⟨heldInReset s, rfl, rfl, rfl, rfl, rfl, rfl, fun _ => rfl, rfl, rfl, fun _ => rfl⟩,
    fun held high straps ready long => ?_, fun straps ready => exec_releaseFromReset_early straps,
    fun held c wf k1 k2 k3 k4 k5 k6 k7 => exec_of_held held wf k1 k2 k3 k4 k5 k6 k7, exec_discarded_held,
    fun held low => exec_hostReset_held held, fun held n ns long => ⟨fun high => ?_, fun low => ?_⟩, fun high => ?_, fun low => ?_,
    fun low short => congrArg Host.Outcome.next (if_pos short)⟩
  · have window (n : Nat) : (releaseStation straps s).capLine n = true ↔ n < 50 := by
      exact decide_eq_true_iff
    have quiet : (releaseStation straps s).intLow = false := by
      simp [State.intLow, releaseStation, State.powerOn, Port.initial]
    exact ⟨releaseStation straps s, exec_releaseFromReset held high straps long, rfl, rfl, roleOf_code straps.role, rfl, rfl, rfl, rfl,
      rfl, rfl, rfl, rfl, rfl, rfl, rfl, rfl, window, quiet⟩
  · rw [exec_assertion_held held long high, setLine_asserted]
  · rw [exec_inputRelease_held held long low, setLine_released]
  · exact congrArg Host.Outcome.next (if_neg (by rw [high]; exact Bool.false_ne_true))
  · refine ⟨_, congrArg Host.Outcome.next (if_pos low), rfl, fun awake => ⟨?_, ?_⟩⟩
    · exact (takes_iff _ _).mpr ⟨awake, rfl, Or.inl rfl⟩
    · simp [State.takes, cutReply]

end Sys2Proof.Machine
end

section
/-! SUPPORT. The timers of the Status Bus Controller and of the Peer View at their expiry (R33, R36, R37, R53, R54, R57). -/

namespace Sys2Proof.Machine

/-- R1: an expiry from whose change the rest of the event follows, if its timer runs. -/
theorem expiry_follows {s u : State} {f : State → State} {P : Prop} [Decidable P] (awake : s.ctl.held = false)
    (e : f s = if P then settle s u else s) (reply : u.port.reply = s.port.reply) :
    if P then ∃ t, event s f = .next t ∧ t.port.reply = s.port.reply ∧ Follows s u t else event s f = .next s := by
  split
  · next runs => exact event_follows awake (e.trans (if_pos runs)) reply
  · next idle => exact (event_of_not_held awake f).trans (congrArg _ (e.trans (if_neg idle)))

/-- R33: a STATUS request, with the mute timer if none was set. -/
theorem requestStatus_eq (s : State) : requestStatus s = { s with
    sbc := { s.sbc with
      requests.status := true, mute := if s.sbc.requests.status then s.sbc.mute else some s.cfg.silenceTimeout } } := by
  unfold requestStatus
  cases requested : s.sbc.requests.status with
  | true => simp only [if_true, ← requested]
  | false => rfl

theorem exec_statusTimerExpiry {s : State} (awake : s.ctl.held = false) : exec .statusTimerExpiry s
    = .next (if s.sbc.statusTimer.isSome then requestStatus { s with sbc.statusTimer := none } else s) :=
  event_of_not_held awake _

/-- Settles O49: each expiry by whether its timer runs. -/
theorem busAndPeerTimersExpire : Obligations.BusAndPeerTimersExpire := by
  intro s awake
  refine ⟨?_, event_of_not_held awake fun s => { s with sbc.spacing := none }, ?_, fun p => ?_, fun p => ?_, ?_⟩
  · split
    · next runs => rw [exec_statusTimerExpiry awake, if_pos runs, requestStatus_eq]
    · next idle => rw [exec_statusTimerExpiry awake, if_neg idle]
  · exact expiry_follows (f := fun s => if s.sbc.mute.isSome then settle s { s with sbc.mute := none, ziu.derived.mute := true } else s)
      awake rfl rfl
  · exact expiry_follows (f := fun s => if (s.pv.peers[p]).silence.isSome then settle s (setPeer p (silenced (s.pv.peers[p])) s) else s)
      awake rfl rfl
  · exact expiry_follows (f := fun s => if (s.pv.peers[p]).leave.isSome then settle s (setPeer p (departedRecord (s.pv.peers[p])) s) else s)
      awake rfl rfl
  · exact expiry_follows (f := fun s => if s.pv.joinTimer.isSome ∧ s.ctl.mode = .joining then
        settle s (endJoin { s with pv.peers := Vector.ofFn fun p => atDeadline s.pv.peers[p] }) else s) awake rfl rfl

end Sys2Proof.Machine
end

section
/-! SUPPORT. The timers of the Zone Table at their expiry, and the dispute that goes in force (R77, R83, R84, R88). -/

namespace Sys2Proof.Machine

/-! ### A dispute that goes in force -/

/-- R82: the state with the dispute on one zone in force. -/
abbrev inForce (z : Zone) (a : Station) (s : State) : State :=
  setZoneRecord z { s.ziu.zones[z] with dispute := .inForce a, disputeTimer := none } s

theorem inForce_zone (z : Zone) (a : Station) (s : State) : ((inForce z a s).ziu.zones[z]).dispute = .inForce a := by
  rw [setZoneRecord_zones, getElem_set_fin, if_pos rfl]

theorem inForce_apart {z y : Zone} (h : z ≠ y) (a : Station) (s : State) : (inForce z a s).ziu.zones[y] = s.ziu.zones[y] := by
  rw [setZoneRecord_zones, getElem_set_fin, if_neg h]

theorem holds_code {s : State} (h : FaultTableConsistent s) {x : Entry} (held : s.lft.holds x) : x.cls.code ≤ 6 := by
  rcases held with ⟨n, e⟩ | ⟨d, e⟩
  · exact (h.input n x e).1.cls
  · exact (h.declared d x e).1.cls

/-- R82: over current tables a dispute names its lone accuser. -/
theorem SupportCurrent.lone {s : State} (h : SupportCurrent s) {z : Zone} {a : Station}
    (named : (s.ziu.zones[z]).dispute.accuser = some a) : loneAccuser s z = some a := by
  have stands := h.dispute z
  unfold loneAccuser
  cases disputed : disputedBy s z (accusersOf s (ownClaim s z) z) with
  | none =>
    rw [disputed] at stands
    rw [show (s.ziu.zones[z]).dispute = .none from stands] at named
    cases named
  | some b =>
    rw [disputed] at stands
    have : (s.ziu.zones[z]).dispute.accuser = some b := by
      rcases (stands : (s.ziu.zones[z]).dispute = .pending b ∨ (s.ziu.zones[z]).dispute = .inForce b) with e | e <;> rw [e] <;> rfl
    rw [← named, this]

/-- R81: the owner of a zone is no accuser in its dispute. -/
theorem loneAccuser_not_owner {s : State} {z : Zone} {a : Station} (h : loneAccuser s z = some a) : z ≠ stationZone a := by
  rintro rfl
  unfold loneAccuser disputedBy at h
  rw [zoneOwner_stationZone] at h
  split at h
  · next o b owner _ =>
    cases owner
    split at h
    · next denied =>
      cases h
      simp at denied
    · cases h
  · cases h

/-- R81, R83: after an event that only puts a dispute in force, the lone accusers are those of the tables with the new marks. -/
theorem settle_inForce_lone {s : State} (peers : PeerTableConsistent s) (b : State) (z y : Zone) (a : Station) :
    loneAccuser (settle b (inForce z a s)) y = loneAccuser (withMarks (settle b (inForce z a s)).ziu.derived.implausible s) y := by
  have table : PeerTableConsistent (inForce z a s) := { peers with }
  rw [settle_lone, settle_derived, checkJoin_awaited table, peerDerivations_current table]
  have before : SameAccusers s (inForce z a s) := ⟨rfl, rfl, rfl, rfl⟩
  exact (before.trans (settleSupport_same 10 _)).lone y

/-- R82, R83: a dispute on a zone other than the station's own STALE one stays what it is. -/
theorem settle_inForce_stays {s : State} (faults : FaultTableConsistent s) {b : State} {z y : Zone} {a c : Station}
    (named : ((inForce z a s).ziu.zones[y]).dispute.accuser = some c)
    (lone : loneAccuser (settle b (inForce z a s)) y = some c) (firm : ¬OwnClaimYields (inForce z a s) (settle b (inForce z a s)) y) :
    ((settle b (inForce z a s)).ziu.zones[y]).dispute = ((inForce z a s).ziu.zones[y]).dispute := by
  have follows := settle_disputes b (inForce z a s) (fun x held => holds_code faults (by rwa [settle_lft] at held)) y
  unfold DisputeFollows at follows
  rw [lone] at follows
  exact (follows.1 named firm).1

/-- R84: this station stays IMPLAUSIBLE while another dispute goes in force. -/
theorem settle_inForce_own_mark {s : State} (current : SupportCurrent s) (peers : PeerTableConsistent s)
    (faults : FaultTableConsistent s) {b : State} {z : Zone} {a : Station} (pending : (s.ziu.zones[z]).dispute = .pending a)
    (marked : s.ziu.derived.implausible[s.ctl.station] = true) :
    (settle b (inForce z a s)).ziu.derived.implausible[s.ctl.station] = true := by
  obtain ⟨y, stands⟩ := (current.implausible _).mp marked
  have apart : z ≠ y := by rintro rfl; rw [pending] at stands; cases stands
  have named : (s.ziu.zones[y]).dispute.accuser = some s.ctl.station := by rw [stands]; rfl
  have foreign : y ≠ stationZone s.ctl.station := loneAccuser_not_owner (current.lone named)
  have lone : loneAccuser (settle b (inForce z a s)) y = some s.ctl.station := by
    rw [settle_inForce_lone peers, loneAccuser_marks (fun _ => holds_code faults) _ fun own => foreign own.1]
    exact current.lone named
  have stays := settle_inForce_stays faults (by rwa [inForce_apart apart]) lone fun own => foreign own.1
  rw [inForce_apart apart, stands] at stays
  exact ((settle_follows b (inForce z a s)).support.implausible _).mpr ⟨y, stays⟩

/-- R68, R73: with a lone accuser the station's own zone is STALE only where the station is IMPLAUSIBLE besides. -/
theorem lone_stale_marked {s : State} (faults : FaultTableConsistent s) {z : Zone} {a : Station} (lone : loneAccuser s z = some a)
    (own : z = stationZone s.ctl.station) (stale : s.ziu.derived.stale = true) : s.ziu.derived.implausible[s.ctl.station] = true := by
  rw [← Bool.not_eq_false]
  intro unmarked
  rw [loneAccuser_stale (fun _ => holds_code faults) own stale unmarked] at lone
  cases lone

/-- R84: other marks leave the lone accuser as it is, if they leave this station IMPLAUSIBLE. -/
theorem loneAccuser_remarked {s : State} (faults : FaultTableConsistent s) {z : Zone} {a : Station} (lone : loneAccuser s z = some a)
    {m : Vector Bool 8} (keeps : s.ziu.derived.implausible[s.ctl.station] = true → m[s.ctl.station] = true) :
    loneAccuser (withMarks m s) z = some a := by
  by_cases own : z = stationZone s.ctl.station ∧ s.ziu.derived.stale = true
  · have mark := keeps (lone_stale_marked faults lone own.1 own.2)
    rcases loneAccuser_change (s := withMarks m s) (m := s.ziu.derived.implausible) (fun _ => holds_code faults) lone
      with same | ⟨-, -, unmarked, -⟩
    · exact same
    · exact absurd (mark.symm.trans unmarked) (by decide)
  · rw [loneAccuser_marks (fun _ => holds_code faults) _ own, lone]

/-- R82, R84: a dispute that goes in force over current tables stays in force. -/
theorem settle_inForce {s : State} (current : SupportCurrent s) (peers : PeerTableConsistent s) (faults : FaultTableConsistent s)
    {b : State} {z : Zone} {a : Station} (pending : (s.ziu.zones[z]).dispute = .pending a) :
    ((settle b (inForce z a s)).ziu.zones[z]).dispute = .inForce a := by
  have lone : loneAccuser s z = some a := current.lone (by rw [pending]; rfl)
  have again : loneAccuser (settle b (inForce z a s)) z = some a := by
    rw [settle_inForce_lone peers]
    exact loneAccuser_remarked faults lone (settle_inForce_own_mark current peers faults pending)
  have firm : ¬OwnClaimYields (inForce z a s) (settle b (inForce z a s)) z := fun ⟨own, stale, unmarked, _⟩ =>
    absurd ((lone_stale_marked faults lone own stale).symm.trans unmarked) (by decide)
  rw [settle_inForce_stays faults (by rw [inForce_zone]; rfl) again firm, inForce_zone]

/-! ### The timers -/

/-- Settles O51: the delay timer runs in CONFIRMED alone and the dispute timer with a pending dispute alone. -/
theorem zoneTimersExpire : Obligations.ZoneTimersExpire := by
  intro z s awake table
  refine ⟨?_, ?_, ?_⟩
  · refine expiry_follows (u := setZoneRecord z (isolate z s.ziu.zones[z]) s)
      (f := fun s => if (s.ziu.zones[z]).delay.isSome ∧ (s.ziu.zones[z]).state = .confirmed then
        settle s (setZoneRecord z (isolate z (s.ziu.zones[z])) s) else s) awake (if_congr ?_ rfl rfl) rfl
    exact and_iff_left_of_imp (table z).delay.mp
  · split
    · next runs =>
      obtain ⟨a, pending⟩ := (table z).disputeTimer.mp runs
      have run : exec (.disputeTimerExpiry z) s = .next (settle s (inForce z a s)) := by
        refine (event_of_not_held awake fun s => if (s.ziu.zones[z]).disputeTimer.isSome then
          settle s (setZoneRecord z
            { s.ziu.zones[z] with dispute := putInForce (s.ziu.zones[z]).dispute, disputeTimer := none } s) else s).trans ?_
        rw [if_pos runs, pending]; rfl
      refine ⟨settle s (inForce z a s), a, pending, run, settle_reply _ _, settle_follows _ _, fun current peers faults => ?_⟩
      have stands := settle_inForce current peers faults (b := s) pending
      exact ⟨stands, ((settle_follows s (inForce z a s)).support.implausible a).mpr ⟨z, stands⟩⟩
    · next idle =>
      exact (event_of_not_held awake fun s => if (s.ziu.zones[z]).disputeTimer.isSome then
          settle s (setZoneRecord z
            { s.ziu.zones[z] with dispute := putInForce (s.ziu.zones[z]).dispute, disputeTimer := none } s) else s).trans
        (congrArg _ (if_neg idle))
  · exact event_of_not_held awake fun s => if (s.ziu.zones[z]).clean.isSome then
      setZoneRecord z { s.ziu.zones[z] with released := false, clean := none } s else s

end Sys2Proof.Machine
end

section
/-! SUPPORT. The frame of this station on the line: how it starts, how a difference in the bits read back ends it, and how it completes
(R27 to R32, R43, R91). -/

namespace Sys2Proof.Machine

/-! ### Differences in the bits read back -/

/-- R30: the start bit and the ID field, with the stuff bit after start and ID 000. -/
theorem idField_iff (f : Frame) (k : Nat) : k < idFieldEnd f ↔ InIdField f k := by
  have ends : ∀ id : Station, (stuff (false :: natBits 3 id.val)).length = if id = 0 then 5 else 4 := by decide
  unfold idFieldEnd InIdField
  rw [ends]
  split
  · next zero => simp only [zero, and_true]; omega
  · next other => simp only [other, and_false, or_false]; omega

theorem mismatch_lost (f : Frame) (k : Nat) :
    f.mismatch k = some .lostContention ↔ f.wire[k]? = some true ∧ InIdField f k := by
  unfold Frame.mismatch
  cases drove : f.wire[k]? with
  | none => simp
  | some driven => cases driven <;> simp [idField_iff]

theorem mismatch_fault (f : Frame) (k : Nat) :
    f.mismatch k = some .bitFault ↔ ∃ driven, f.wire[k]? = some driven ∧ ¬(driven = true ∧ InIdField f k) := by
  unfold Frame.mismatch
  cases drove : f.wire[k]? with
  | none => simp
  | some driven => cases driven <;> simp [idField_iff]

theorem exec_lostContention {s : State} (awake : s.ctl.held = false) {f : Frame} (flying : s.sbc.inFlight = some f) (bit : Nat) :
    exec (.lostContention bit) s
      = .next (if f.mismatch bit = some .lostContention then stopDriving f bit false s else s) := by
  show execLostContention bit s = _
  rw [execLostContention, event_of_not_held awake]
  simp only [flying]

theorem exec_bitFault {s : State} (awake : s.ctl.held = false) {f : Frame} (flying : s.sbc.inFlight = some f) (bit : Nat) :
    exec (.bitFault bit) s = .next (if f.mismatch bit = some .bitFault then
      settle s (countBitFault (stopDriving f bit (f.wire[bit]? == some false) s)) else s) := by
  show execBitFault bit s = _
  rw [execBitFault, event_of_not_held awake]
  simp only [flying]

/-- R30 to R32: with no frame on the line none is lost and none completes. -/
theorem exec_not_sending {s : State} (awake : s.ctl.held = false) (silent : s.sbc.inFlight = none) (bit : Nat) :
    exec (.lostContention bit) s = .next s ∧ exec (.bitFault bit) s = .next s ∧ exec .completes s = .next s := by
  refine ⟨?_, ?_, ?_⟩
  · show execLostContention bit s = _
    rw [execLostContention, event_of_not_held awake]
    simp only [silent]
  · show execBitFault bit s = _
    rw [execBitFault, event_of_not_held awake]
    simp only [silent]
  · show execCompletes s = _
    rw [execCompletes, event_of_not_held awake]
    simp only [silent]

theorem second_fault (n : Nat) : (min 2 (n + 1) == 2) = decide (1 ≤ n) := by
  rw [Bool.eq_iff_iff, beq_iff_eq, decide_eq_true_iff]; omega

theorem read_back (driven : Bool) : (some driven == some false) = !driven := by cases driven <;> rfl

/-- Settles O47: by what the difference is taken for. -/
theorem lostContentionAndBitFaultsAbort : Obligations.LostContentionAndBitFaultsAbort := by
  intro bit s awake
  refine ⟨fun f flying drove within => ?_, fun other => ?_, fun f driven flying drove apart => ?_, fun other => ?_⟩
  · rw [exec_lostContention awake flying, if_pos ((mismatch_lost f bit).mpr ⟨drove, within⟩)]; rfl
  · cases flying : s.sbc.inFlight with
    | none => exact (exec_not_sending awake flying bit).1
    | some f =>
      rw [exec_lostContention awake flying, if_neg]
      rw [mismatch_lost]
      exact fun ⟨drove, within⟩ => other f flying drove within
  · have fault := (mismatch_fault f bit).mpr ⟨driven, drove, apart⟩
    have run := exec_bitFault awake flying bit
    rw [if_pos fault, countBitFault, stopDriving, drove, read_back, second_fault] at run
    exact ⟨_, run, settle_reply _ _, settle_follows _ _⟩
  · cases flying : s.sbc.inFlight with
    | none => exact (exec_not_sending awake flying bit).2.1
    | some f =>
      rw [exec_bitFault awake flying, if_neg]
      rw [mismatch_fault]
      exact fun ⟨driven, drove, apart⟩ => apart (other f driven flying drove)

/-! ### Completion -/

/-- R32, R33, R36, R37: a STATUS that completes, and the request that a renewal mark makes. -/
theorem completeFrame_status (s : State) : completeFrame .status s = { s with
    sbc := { s.sbc with
      inFlight := none, requests.status := s.sbc.renewal, renewal := false, bitFaults := 0, line := .ended
      statusTimer := some s.cfg.statusPeriod, spacing := some 5
      mute := if s.sbc.renewal then some s.cfg.silenceTimeout else none }
    ziu.derived.bitFault := false, ziu.derived.mute := false } := by
  have done : completeFrame .status s = renew (statusDone (frameDone .status s)) := rfl
  have mark : (statusDone (frameDone .status s)).sbc.renewal = s.sbc.renewal := rfl
  rw [done, renew, mark]
  cases renewal : s.sbc.renewal with
  | true => rfl
  | false =>
    rw [if_neg Bool.false_ne_true]
    simp only [statusDone, frameDone, spacingTime, renewal, if_neg Bool.false_ne_true]

/-- R32, R43: a LEAVE that completes. -/
theorem completeFrame_leave (s : State) : completeFrame .leave s = { s with
    sbc := { s.sbc with
      inFlight := none, requests.leave := false, bitFaults := 0, line := .ended
      transmitterOn := if s.ctl.mode = .departed then false else s.sbc.transmitterOn }
    ziu.derived.bitFault := false } := by
  have done : completeFrame .leave s = if s.ctl.mode = .departed then
    { frameDone .leave s with sbc.transmitterOn := false } else frameDone .leave s := rfl
  rw [done]
  split
  · rfl
  · rfl

theorem exec_completes {s : State} (awake : s.ctl.held = false) {f : Frame} (flying : s.sbc.inFlight = some f) :
    exec .completes s = .next (settle s (completeFrame f.kind s)) := by
  show execCompletes s = _
  rw [execCompletes, event_of_not_held awake]
  simp only [flying]

theorem completes_follows {s : State} (awake : s.ctl.held = false) {f : Frame} (flying : s.sbc.inFlight = some f) :
    ∃ t, exec .completes s = .next t ∧ t.port.reply = s.port.reply ∧ Follows s (completeFrame f.kind s) t := by
  have port : (completeFrame f.kind s).port = s.port := by
    rw [(completeFrame_work f.kind s).rest]
  exact ⟨_, exec_completes awake flying, (settle_reply _ _).trans (congrArg Port.reply port), settle_follows _ _⟩

/-- Settles O48: by the kind of the frame on the line. -/
theorem completionServesTheRequest : Obligations.CompletionServesTheRequest := by
  intro s awake
  split
  · next silent => exact (exec_not_sending awake silent 0).2.2
  · next f flying =>
    obtain ⟨t, run, reply, follows⟩ := completes_follows awake flying
    refine ⟨t, run, reply, ?_⟩
    split
    · next kind => rw [kind] at follows; exact follows
    · next kind => rw [kind, completeFrame_status] at follows; exact follows
    · next kind => rw [kind, completeFrame_leave] at follows; exact follows

/-! ### The own accusations in a STATUS -/

/-- R91: this station's accusation of one zone, if it has this severity. -/
def accusedIn (s : State) (v : Severity) (z : Zone) : Option Accusation :=
  ((s.ziu.zones[z]).own.filter fun c => c.severity = v).map fun c => ⟨z, c⟩

theorem accusedAt_eq (s : State) (v : Severity) : accusedAt s v = (List.finRange 12).filterMap (accusedIn s v) := by
  unfold accusedAt
  congr 1
  funext z
  unfold accusedIn
  cases (s.ziu.zones[z]).own with
  | none => rfl
  | some c => by_cases severity : c.severity = v <;> simp [severity]

theorem accusedIn_iff {s : State} {v : Severity} {z : Zone} {a : Accusation} :
    accusedIn s v z = some a ↔ (s.ziu.zones[z]).own = some a.claim ∧ a.claim.severity = v ∧ a.zone = z := by
  simp only [accusedIn, Option.map_eq_some_iff, Option.filter_eq_some_iff, decide_eq_true_iff]
  constructor
  · rintro ⟨c, ⟨own, severity⟩, rfl⟩
    exact ⟨own, severity, rfl⟩
  · rintro ⟨own, severity, rfl⟩
    exact ⟨a.claim, ⟨own, severity⟩, rfl⟩

theorem mem_accusedAt {s : State} {v : Severity} {a : Accusation} :
    a ∈ accusedAt s v ↔ (s.ziu.zones[a.zone]).own = some a.claim ∧ a.claim.severity = v := by
  simp only [accusedAt_eq, List.mem_filterMap, List.mem_finRange, true_and, accusedIn_iff]
  constructor
  · rintro ⟨z, own, severity, rfl⟩
    exact ⟨own, severity⟩
  · exact fun ⟨own, severity⟩ => ⟨a.zone, own, severity, rfl⟩

theorem mem_ownAccusations {s : State} {a : Accusation} : a ∈ ownAccusations s ↔ (s.ziu.zones[a.zone]).own = some a.claim := by
  have severity : (a.claim.severity = .critical ∨ a.claim.severity = .major) ∨ a.claim.severity = .minor := by
    cases a.claim.severity <;> simp
  simp only [ownAccusations, List.mem_append, mem_accusedAt, ← and_or_left, severity, and_true]

theorem accusedAt_sorted (s : State) (v : Severity) : (accusedAt s v).Pairwise fun a b => a.zone < b.zone := by
  rw [accusedAt_eq, List.pairwise_filterMap]
  refine (List.pairwise_lt_finRange 12).imp fun {y z} below a ha b hb => ?_
  obtain ⟨-, -, rfl⟩ := accusedIn_iff.mp ha
  obtain ⟨-, -, rfl⟩ := accusedIn_iff.mp hb
  exact below

/-- R91: the order of the list of a STATUS. -/
abbrev Precedes (a b : Accusation) : Prop :=
  b.claim.severity.code < a.claim.severity.code ∨ (a.claim.severity = b.claim.severity ∧ a.zone < b.zone)

theorem accusedAt_precedes (s : State) (v : Severity) : (accusedAt s v).Pairwise Precedes :=
  (accusedAt_sorted s v).imp_of_mem fun ha hb below =>
    Or.inr ⟨(mem_accusedAt.mp ha).2.trans (mem_accusedAt.mp hb).2.symm, below⟩

theorem ownAccusations_sorted (s : State) : (ownAccusations s).Pairwise Precedes := by
  have falls {u v : Severity} (lower : v.code < u.code) {a b : Accusation} (ha : a ∈ accusedAt s u) (hb : b ∈ accusedAt s v) :
      Precedes a b := Or.inl (by rw [(mem_accusedAt.mp ha).2, (mem_accusedAt.mp hb).2]; exact lower)
  unfold ownAccusations
  rw [List.pairwise_append, List.pairwise_append]
  refine ⟨⟨accusedAt_precedes s _, accusedAt_precedes s _, fun a ha b hb => falls (by decide) ha hb⟩, accusedAt_precedes s _,
    fun a ha b hb => ?_⟩
  rcases List.mem_append.mp ha with critical | major
  · exact falls (by decide) critical hb
  · exact falls (by decide) major hb

/-! ### The start of a frame -/

/-- R28: the state whose receiver makes this of the line. -/
abbrev withLine (line : Line) (s : State) : State := { s with sbc.line := line }

/-- R26, R28: the recessive bit times before a frame, where no other frame ends among them. -/
theorem receiveSamples_quiet {s : State} {bits : List Bool} (quiet : s.sbc.receiverOn = false ∨ (s.sbc.line.hear bits).2 = none) :
    receiveSamples bits s = withLine (if s.sbc.receiverOn then (s.sbc.line.hear bits).1 else s.sbc.line) s := by
  cases on : s.sbc.receiverOn with
  | false => rw [receiveSamples_off bits on]; rfl
  | true =>
    have unheard : (s.sbc.line.hear bits).2 = none := quiet.resolve_left (by rw [on]; decide)
    exact receiveSamples_none bits on (Prod.ext rfl unheard)

theorem exec_frameStart {s : State} (awake : s.ctl.held = false) (idle : Nat) :
    exec (.frameStart idle) s = .next (startFrame (receiveSamples (List.replicate idle true) s)) :=
  event_of_not_held awake fun s => startFrame (receiveSamples (List.replicate idle true) s)

theorem startFrame_some {s : State} {f : Frame} (h : startingFrame s = some f) :
    startFrame s = { s with sbc.inFlight := some f, sbc.line := .frame [false] } := by
  simp only [startFrame, h]

theorem startFrame_none {s : State} (h : startingFrame s = none) : startFrame s = s := by
  simp only [startFrame, h]

/-- R28: the frame of the kind that is served, built from the state. -/
theorem startingFrame_withLine {s : State} {line : Line}
    (may : s.sbc.transmitterOn = true ∧ line = .idle ∧ s.sbc.inFlight = none) :
    startingFrame (withLine line s) = (eligibleKind s.sbc).map fun k => buildFrame k s :=
  if_pos may

/-- Settles O46: by what the recessive bit times make of the line, and then by the request that is served. -/
theorem frameStartServesTheRequests : Obligations.FrameStartServesTheRequests := by
  intro idle s awake
  dsimp only
  generalize heard : (if s.sbc.receiverOn then (s.sbc.line.hear (List.replicate idle true)).1 else s.sbc.line) = line
  have run (quiet : s.sbc.receiverOn = false ∨ (s.sbc.line.hear (List.replicate idle true)).2 = none) :
      exec (.frameStart idle) s = .next (startFrame (withLine line s)) := by
    rw [exec_frameStart awake, receiveSamples_quiet quiet, heard]
  have starts (quiet : s.sbc.receiverOn = false ∨ (s.sbc.line.hear (List.replicate idle true)).2 = none)
      (may : s.sbc.transmitterOn = true ∧ line = .idle ∧ s.sbc.inFlight = none) {k : Kind} (served : eligibleKind s.sbc = some k) :
      exec (.frameStart idle) s = .next { s with sbc.inFlight := some (buildFrame k s), sbc.line := .frame [false] } := by
    rw [run quiet, startFrame_some (f := buildFrame k s) (by rw [startingFrame_withLine may, served]; rfl)]
  refine ⟨?_, fun quiet may hello => ?_, fun quiet may hello leave => ?_, fun quiet may hello leave status spaced => ?_,
    fun quiet idle => ?_⟩
  · have held : (receiveSamples (List.replicate idle true) s).ctl.held = false := by
      rw [(receiveSamples_guarded _ s).ctl]; exact awake
    rw [exec_frameStart awake, exec_frameStart held]; rfl
  · exact starts quiet may (k := .hello) (by simp [eligibleKind, hello])
  · exact starts quiet may (k := .leave) (by simp [eligibleKind, hello, leave])
  · exact ⟨ownAccusations s, s.ctl.mode == .joining, s.selfIsolated, fun a => mem_ownAccusations, ownAccusations_sorted s, beq_iff_eq,
      Iff.rfl, starts quiet may (k := .status) (by simp [eligibleKind, hello, leave, status, spaced])⟩
  · rw [run quiet, startFrame_none]
    rcases idle with not | ⟨hello, leave, waits⟩
    · exact if_neg not
    · have unserved : eligibleKind s.sbc = none := by
        rcases waits with status | spaced
        · simp [eligibleKind, hello, leave, status]
        · simp [eligibleKind, hello, leave, Option.isNone_iff_eq_none, spaced]
      by_cases may : s.sbc.transmitterOn = true ∧ line = .idle ∧ s.sbc.inFlight = none
      · rw [startingFrame_withLine may, unserved]; rfl
      · exact if_neg may

end Sys2Proof.Machine
end

section
/-! SUPPORT. Frames of other stations: where the samples of a command end the first valid frame, and what that frame leaves (R38 to R40,
R50 to R52, R59). -/

namespace Sys2Proof.Machine

/-! ### The first valid frame among samples -/

/-- R26: enough recessive bit times make the line idle, or leave it so. -/
theorem hear_recessive {l : Line} {n : Nat} (h : l = .idle ∨ ∃ left again, l = .wait left again ∧ 1 ≤ left ∧ left ≤ n) :
    l.hear (List.replicate n true) = (.idle, none) := by
  rcases h with rfl | ⟨left, again, rfl, runs, enough⟩
  · exact Line.hear_idle n
  · rw [Line.hear_wait n left again runs, if_pos enough]

theorem receive_ne_nil {bits : List Bool} {f : Frame} (h : receive bits = some f) : bits ≠ [] := by
  rintro rfl
  obtain ⟨region, -, -, -⟩ := (receive_formed h).2
  cases (show receive [] = none by decide).symm.trans h

/-- R26, R39: a whole frame after recessive bit times that make the line idle is heard at its last bit. -/
theorem hear_whole {l : Line} {n : Nat} {bits : List Bool} {f : Frame} (h : receive bits = some f)
    (free : l = .idle ∨ ∃ left again, l = .wait left again ∧ 1 ≤ left ∧ left ≤ n) :
    l.hear (List.replicate n true ++ bits) = (Line.ended, some f)
      ∧ (l.hear (List.replicate n true ++ bits).dropLast).2 = none := by
  have idle := hear_recessive free
  rw [List.dropLast_append_of_ne_nil (receive_ne_nil h), Line.hear_append idle, Line.hear_append idle, Line.hear_frame h,
    Line.hear_prior h]
  exact ⟨rfl, rfl⟩

theorem receiveAs_heard {s : State} (awake : s.ctl.held = false) {k : Kind} {bits : List Bool}
    (spelt : ∀ f : Frame, receive bits = some f → f.kind = k) (idle : Nat) :
    receiveAs k idle bits s = .next (receiveSamples (List.replicate idle true ++ bits) s) := by
  have row : framesAs k bits = true := by
    unfold framesAs
    cases read : receive bits with
    | none => rfl
    | some f => exact beq_iff_eq.mpr (spelt f read)
  rw [receiveAs, if_pos row, event_of_not_held awake]

/-! ### What a frame leaves -/

/-- R50 to R52, R59: what the frame of another station makes of its record, before the rest follows. -/
def recorded (s : State) : Frame → State
  | .hello p role group => setPeer p (heardHello s.cfg s.ctl.nodeTime role group (s.pv.peers[p]))
      (raiseIf (!(s.pv.peers[p]).expected) .notice s)
  | .status p join attest selfIsolated more group lown lapp list => setPeer p
      (heardStatus s.cfg s.ctl.nodeTime join group ⟨lown, lapp, attest, selfIsolated, more⟩ list (s.pv.peers[p])) s
  | .leave p => setPeer p (heardLeave s.cfg s.ctl.nodeTime (s.pv.peers[p])) s

/-- R40: the change that a frame of another sender makes, before the rest follows. -/
def arrived (f : Frame) (s : State) : State :=
  if f.id = s.ctl.station then raise .notice { s with sbc.duplicateLatch := true, ziu.derived.duplicate := true } else recorded s f

theorem takePeerFrame_recorded (f : Frame) (s : State) : takePeerFrame f s = settle s (recorded s f) := by
  cases f <;> rfl

theorem deliver_foreign {f : Frame} {s : State} (foreign : s.sbc.inFlight ≠ some f) : deliver f s = settle s (arrived f s) := by
  rw [deliver, if_neg foreign, takePeerFrame_recorded, arrived, apply_ite (settle s)]
  rfl

theorem deliver_own {f : Frame} {s : State} (own : s.sbc.inFlight = some f) : deliver f s = s := if_pos own

/-- R59: NOTICE is raised for a station that is not expected. -/
theorem raiseIf_unexpected (expected : Bool) (s : State) :
    raiseIf (!expected) .notice s = if expected then s else { s with port.flags := s.port.flags ||| 0x40#8 } := by
  cases expected <;> rfl

theorem arrived_reply (f : Frame) (s : State) : (arrived f s).port.reply = s.port.reply := by
  unfold arrived
  split
  · rfl
  · cases f with
    | hello p role group =>
      rw [recorded, raiseIf_unexpected]
      cases (s.pv.peers[p]).expected <;> rfl
    | status | leave => rfl

/-- What the line is taken for is no part of the state that an event finds. -/
theorem Follows.before_line {line : Line} {b u t : State} (h : Follows (withLine line b) u t) : Follows b u t := by
  obtain ⟨kept, mode, derived, lost, zones, disputes, support, drive, lines, inTurn, one, contactor, level, zone, peer, drop, others,
    urgent, quiet⟩ := h
  exact ⟨kept, mode, derived, lost, zones, disputes, support, drive, lines, inTurn, one, contactor, level, zone, peer, drop, others,
    urgent, quiet⟩

/-- Settles O50: the samples are split at the end of the first valid frame among them. -/
theorem receivedFramesUpdateTheirPeer : Obligations.ReceivedFramesUpdateTheirPeer := by
  intro idle bits s awake command samples
  have run {k : Kind} (spelt : ∀ f : Frame, receive bits = some f → f.kind = k) : exec (command k) s = .next (receiveSamples samples s) := by
    cases k with
    | hello => exact receiveAs_heard awake spelt idle
    | status => exact receiveAs_heard awake spelt idle
    | leave => exact receiveAs_heard awake spelt idle
  refine ⟨fun f read free => hear_whole read free, fun k f spelt on heard => ?_, fun k spelt => ⟨run spelt, fun off => ?_, fun on unheard => ?_⟩⟩
  · obtain ⟨a, b, after, n, split, before, ends, whole⟩ := Line.hear_split samples s.sbc.line (Prod.ext rfl heard)
    have received : receiveSamples samples s = receiveSamples after (deliver f (withLine .ended s)) := by
      rw [split]; exact receiveSamples_frame on before ends
    refine ⟨a ++ [b], after, deliver f (withLine .ended s), by rw [split, List.append_assoc]; rfl, by rw [whole],
      by rw [List.dropLast_concat, before], (run spelt).trans (congrArg _ received), ?_⟩
    split
    · next own => exact deliver_own own
    · next foreign =>
      have delivered := deliver_foreign (s := withLine .ended s) foreign
      have follows := (settle_follows (withLine .ended s) (arrived f (withLine .ended s))).before_line
      have reply := (settle_reply (withLine .ended s) (arrived f (withLine .ended s))).trans (arrived_reply f _)
      rw [← delivered] at follows reply
      generalize deliver f (withLine .ended s) = t at follows reply
      refine ⟨reply, ?_⟩
      by_cases own : f.id = s.ctl.station
      · rw [arrived, if_pos own] at follows
        dsimp only
        rw [if_pos own]
        exact follows
      · rw [arrived, if_neg own] at follows
        dsimp only
        rw [if_neg own]
        cases f with
        | hello p role group => rw [recorded, raiseIf_unexpected] at follows; exact follows
        | status | leave => exact follows
  · rw [run spelt, receiveSamples_off _ off]
  · rw [run spelt, receiveSamples_none _ on (Prod.ext rfl unheard)]

end Sys2Proof.Machine
end

section
/-! SUPPORT. The watch on the inputs that START and a host reset begin: what it makes of every slot (R3, R6, R7). -/

namespace Sys2Proof.Machine

/-! ### The entry of a first assertion -/

/-- R4, R6, R7: a new entry of an input, ACTIVE at once where there is no qualify time. -/
structure NewEntry (n : Input) (c : InputConfig) (now : Time) (x : Entry) : Prop where
  source : x.source = .input n
  cls : x.cls = c.cls
  zone : x.zone = c.zone
  configured : x.configured = c.severity
  latching : x.latching = c.latching
  state : x.state = if c.qualify = 0 then .active else .qualifying
  count : x.count = if c.qualify = 0 then some 1 else none
  firstActive : x.firstActive = if c.qualify = 0 then some now else none

theorem NewEntry.escalate {n : Input} {c : InputConfig} {now : Time} {x : Entry} (h : NewEntry n c now x) (e : Nat) :
    NewEntry n c now (escalate e x) := by
  unfold Machine.escalate
  split
  · exact { h with }
  · exact h

/-- R6, R7: the slot of an input after its first assertion. -/
theorem assertSlot_empty (e : Nat) (now : Time) (n : Input) (c : InputConfig) :
    ∃ x, assertSlot e now n c Slot.empty = ⟨some x, if c.qualify = 0 then none else some c.qualify, none⟩
      ∧ NewEntry n c now x ∧ (e = 0 ∨ 2 ≤ e → x.escalated = false ∧ x.current = c.severity) := by
  by_cases immediate : c.qualify = 0
  · refine ⟨activate e now (qualifyingEntry n c), ?_, NewEntry.escalate ?_ e, fun h => ?_⟩
    · rw [if_pos immediate]; exact if_pos immediate
    · exact ⟨rfl, rfl, rfl, rfl, rfl, (if_pos immediate).symm, (if_pos immediate).symm, (if_pos immediate).symm⟩
    · rw [activate_first h]; exact ⟨rfl, rfl⟩
  · refine ⟨qualifyingEntry n c, ?_, ?_, fun _ => ⟨rfl, rfl⟩⟩
    · rw [if_neg immediate]; exact if_neg immediate
    · exact ⟨rfl, rfl, rfl, rfl, rfl, (if_neg immediate).symm, (if_neg immediate).symm, (if_neg immediate).symm⟩

/-! ### The watch -/

/-- R3: what the watch makes of the slot of one input. -/
def watchedSlot (s : State) (n : Input) : Slot :=
  if s.ctl.mode ≠ .unconfigured ∧ (s.cfg.inputs[n]).enabled = true ∧ s.lineAsserted n = true then
    assertSlot s.cfg.escalation s.ctl.nodeTime n (s.cfg.inputs[n]) (s.lft.inputs[n])
  else s.lft.inputs[n]

/-- R3: the watch on one input. -/
def watchInput (s : State) (n : Input) : State := if s.lineAsserted n then takeAssertion n s else s

theorem watchInput_work (s : State) (n : Input) : InputWork s (watchInput s n) := by
  unfold watchInput
  split
  · exact takeAssertion_work n s
  · exact .refl s

theorem watchInput_slot (s : State) (n m : Input) :
    (watchInput s n).lft.inputs[m] = if n = m then watchedSlot s n else s.lft.inputs[m] := by
  by_cases acts : s.ctl.mode ≠ .unconfigured ∧ (s.cfg.inputs[n]).enabled = true ∧ s.lineAsserted n = true
  · have made : watchInput s n = setInputSlot n (watchedSlot s n) s := by
      obtain ⟨on, enabled, asserted⟩ := acts
      rw [watchInput, if_pos asserted, takeAssertion, if_pos ⟨on, enabled⟩, watchedSlot, if_pos ⟨on, enabled, asserted⟩]
    rw [made]
    exact getElem_set_fin _ _ _ _
  · have left : watchInput s n = s := by
      by_cases asserted : s.lineAsserted n = true
      · rw [watchInput, if_pos asserted, takeAssertion, if_neg fun k => acts ⟨k.1, k.2, asserted⟩]
      · rw [watchInput, if_neg asserted]
    rw [left, watchedSlot, if_neg acts]
    split
    · next same => rw [same]
    · rfl

/-- What the watch makes of a slot depends on that slot alone. -/
theorem watchedSlot_congr {s t : State} {n : Input} (h : InputWork s t) (slot : t.lft.inputs[n] = s.lft.inputs[n]) :
    watchedSlot t n = watchedSlot s n := by
  have line : t.lineAsserted n = s.lineAsserted n := by rw [State.lineAsserted, h.pins, h.cfg]; rfl
  unfold watchedSlot
  rw [line, slot, h.ctl, h.cfg]

theorem watch_fold_slot (l : List Input) : ∀ (s : State) (m : Input), l.Nodup →
    (l.foldl watchInput s).lft.inputs[m] = if m ∈ l then watchedSlot s m else s.lft.inputs[m] := by
  induction l with
  | nil => intro s m _; rfl
  | cons n l ih =>
    intro s m once
    obtain ⟨apart, rest⟩ := List.nodup_cons.mp once
    rw [List.foldl_cons, ih _ m rest, watchInput_slot]
    by_cases same : n = m
    · subst same
      rw [if_neg apart, if_pos rfl, if_pos List.mem_cons_self]
    · have slot : (watchInput s n).lft.inputs[m] = s.lft.inputs[m] := by rw [watchInput_slot, if_neg same]
      rw [if_neg same, watchedSlot_congr (watchInput_work s n) slot]
      exact if_congr (by simp [Ne.symm same]) rfl rfl

/-- R3: the watch acts on every slot once. -/
theorem watchInputs_slot (s : State) (n : Input) : (watchInputs s).lft.inputs[n] = watchedSlot s n := by
  have watch : watchInputs s = (List.finRange 8).foldl watchInput s := rfl
  rw [watch, watch_fold_slot _ s n (List.nodup_finRange 8), if_pos (List.mem_finRange n)]

/-- R3, R6: over an empty table each enabled input whose line is active gets a new entry, and no other does. -/
theorem watchInputs_new {s : State} (empty : s.lft = Lft.empty) (on : s.ctl.mode ≠ .unconfigured) {n : Input}
    (enabled : (s.cfg.inputs[n]).enabled = true) (asserted : s.lineAsserted n = true) :
    ∃ x, (watchInputs s).lft.inputs[n]
        = ⟨some x, if (s.cfg.inputs[n]).qualify = 0 then none else some (s.cfg.inputs[n]).qualify, none⟩
      ∧ NewEntry n (s.cfg.inputs[n]) s.ctl.nodeTime x
      ∧ (s.cfg.escalation = 0 ∨ 2 ≤ s.cfg.escalation → x.escalated = false ∧ x.current = (s.cfg.inputs[n]).severity) := by
  obtain ⟨x, made⟩ := assertSlot_empty s.cfg.escalation s.ctl.nodeTime n (s.cfg.inputs[n])
  refine ⟨x, ?_⟩
  rwa [watchInputs_slot, watchedSlot, if_pos ⟨on, enabled, asserted⟩, empty, Lft.empty_inputs]

theorem watchInputs_passed {s : State} (empty : s.lft = Lft.empty) {n : Input}
    (passed : ¬((s.cfg.inputs[n]).enabled = true ∧ s.lineAsserted n = true)) : (watchInputs s).lft.inputs[n] = Slot.empty := by
  rw [watchInputs_slot, watchedSlot, if_neg fun k => passed k.2, empty, Lft.empty_inputs]

end Sys2Proof.Machine
end

section
/-! SUPPORT. START: the join that it begins, and what the blocks of a station that begins hold (R42, R62, R117, R138, R140, R151, R153,
R157). -/

namespace Sys2Proof.Machine

/-! ### The blocks at the join -/

theorem startReady_pins (s : State) : (startReady s).pins = s.pins := by
  simp [startReady_eq, switchOn, enterJoining, (sampleTrip_work _).pins, startLoaded_pins]

theorem startReady_sbc (s : State) : (startReady s).sbc = { s.sbc with
    requests.hello := true, statusTimer := some s.cfg.statusPeriod, receiverOn := true, line := .enabled, transmitterOn := true } := by
  simp [startReady_eq, switchOn, enterJoining, (sampleTrip_work _).sbc, (sampleTrip_work _).cfg, startLoaded_sbc, startLoaded_cfg,
    Store.corrected]

theorem startReady_joinTimer (s : State) : (startReady s).pv.joinTimer = some s.cfg.joinDeadline := by
  simp [startReady_eq, switchOn, enterJoining, (sampleTrip_work _).cfg, startLoaded_cfg, Store.corrected]

theorem startReady_peer (s : State) (p : Station) : (startReady s).pv.peers[p]
    = { s.pv.peers[p] with expected := s.cfg.expected.getLsbD p.val && p != s.ctl.station } := by
  have peers : (startReady s).pv.peers = (sampleTrip (startLoaded s)).pv.peers := rfl
  rw [peers, (sampleTrip_work _).pv, startLoaded_pv]
  exact getElem_ofFn_fin _ p

theorem startReady_stressTimer (s : State) : (startReady s).perm.stressTimer = startTimer s.cfg.stressTimeout := by
  simp [startReady_eq, switchOn, enterJoining, (sampleTrip_work _).cfg, startLoaded_cfg, Store.corrected]

/-- R138, R140: the trip inputs are sampled when the join begins. -/
theorem startReady_out (s : State) : (startReady s).out = (sampleTrip (startLoaded s)).out := rfl

theorem startLoaded_tripAsserted (s : State) : (startLoaded s).tripAsserted = s.tripAsserted := by
  have inputs : (startLoaded s).cfg.inputs = s.cfg.inputs := by rw [startLoaded_cfg]; rfl
  unfold State.tripAsserted State.lineAsserted
  rw [inputs, startLoaded_pins]

theorem sampleTrip_latch (s : State) : (sampleTrip s).out.tripLatch = (s.out.tripLatch || s.tripAsserted) := by
  unfold sampleTrip
  split
  · next asserted => rw [setTrip_tripped, State.tripped_latch, asserted, Bool.or_true]
  · next quiet => rw [Bool.eq_false_iff.mpr quiet, Bool.or_false]

theorem startReady_latch (s : State) : (startReady s).out.tripLatch = (s.out.tripLatch || s.tripAsserted) := by
  rw [startReady_out, sampleTrip_latch, startLoaded_out, startLoaded_tripAsserted]

/-- R138: TRIP is raised exactly if the latch is set by the sample. -/
theorem sampleTrip_trip (s : State) : (sampleTrip s).isPending .trip = (s.isPending .trip || (!s.out.tripLatch && s.tripAsserted)) := by
  unfold sampleTrip
  split
  · next asserted =>
    rw [asserted, Bool.and_true]
    rcases setTrip_cases s with ⟨set, same⟩ | ⟨clear, -, -, flags⟩
    · rw [same, set, Bool.not_true, Bool.or_false]
    · have raised : (setTrip s).isPending .trip = (raise .trip s).isPending .trip := isPending_congr flags _
      rw [raised, isPending_raise_self, clear, Bool.not_false, Bool.or_true]
  · next quiet => rw [Bool.eq_false_iff.mpr quiet, Bool.and_false, Bool.or_false]

theorem startReady_trip (s : State) : (startReady s).isPending .trip
    = (s.isPending .trip || (!s.out.tripLatch && s.tripAsserted)) := by
  have joined (u : State) : (switchOn (enterJoining u)).isPending .trip = u.isPending .trip := rfl
  have loaded : (startLoaded s).isPending .trip = s.isPending .trip := by
    have expecting (u : State) : (expectPeers u).isPending .trip = u.isPending .trip := rfl
    rw [startLoaded, expecting, isPending_raiseIf]
    simp [State.isPending]
  rw [startReady_eq, joined, sampleTrip_trip, startLoaded_out, startLoaded_tripAsserted, loaded]

/-! ### START -/

/-- R151, R157, R170: START that the port takes, or that came together with a host reset; the latter's reply is lost. -/
theorem exec_start_begins {tail : Tail} {s : State} (given : Taken s [0x06] tail
      ∨ (tail.select = .atReset ∧ s.pins.rstLow = true ∧ s.ctl.held = false ∧ crc8 [0x06] = tail.crc))
    (unstarted : s.ctl.mode = .unconfigured) : ∃ t, exec (.start tail) s = .next t
      ∧ t.port.reply = some (if s.pins.rstLow then [] else replyFrame (if Store.corrected s.cfg != s.cfg then .clamped else .ok) [])
      ∧ Follows s (watchInputs (startReady s)) t := by
  rcases given with taken | ⟨select, low, awake, crc⟩
  · obtain ⟨t, run, reply, follows⟩ := exec_start_follows taken unstarted
    obtain ⟨-, high, -⟩ := (takes_iff s tail.select).mp taken.1
    exact ⟨t, run, by rw [reply, high]; rfl, follows⟩
  · have meets : s.meetsReset tail = true := by
      simpa [State.meetsReset, select, low, awake] using crc
    have run : exec (.start tail) s = .next { (whenUnconfigured s (startUnit s)).state with port.reply := some [] } := if_pos meets
    rw [whenUnconfigured_of unstarted, startUnit_eq, accept_state] at run
    exact ⟨_, run, by rw [low]; rfl, (settle_follows _ _).reply _⟩

/-- R42, R62, R117, R153: the blocks of a station that begins, and the join, which no peer ends at once. -/
theorem begins_joining {s t : State} (initial : BlocksInitial s) (follows : Follows s (watchInputs (startReady s)) t) :
    t.ctl = { s.ctl with mode := .joining, started := true } ∧ t.pv.joinTimer = some s.cfg.joinDeadline := by
  have ctl := watch_startReady_ctl s
  have pv := (watchInputs_work (startReady s)).pv
  have timer := startReady_joinTimer s
  have absent (p : Station) : ((startReady s).pv.peers[p]).presence = .absent := by
    rw [startReady_peer, initial.pv, PeerView.initial_peers]; rfl
  generalize watchInputs (startReady s) = u at follows ctl pv
  generalize startReady s = v at pv timer absent
  have mode := follows.mode
  rw [if_neg fun k => absurd k.2 (by rw [joinComplete_congr (congrArg PeerView.peers pv), joinComplete_absent absent]; decide)] at mode
  refine ⟨?_, by rw [mode.2, pv, timer]⟩
  rw [follows.kept.ctl, mode.1, ctl]

/-- Settles O33: what the join and the watch leave to the event's end, read off block by block. -/
theorem startEntersJoining : Obligations.StartEntersJoining := by
  intro tail s given unstarted idle range
  obtain ⟨t, run, reply, follows⟩ := exec_start_begins given unstarted
  have initial := idle.blocks unstarted
  have work := watchInputs_work (startReady s)
  have kept := follows.kept
  have cfg := start_follows_cfg follows
  obtain ⟨ctl, joinTimer⟩ := begins_joining initial follows
  have sbc := kept.sbc
  rw [work.sbc, startReady_sbc, initial.sbc] at sbc
  have stop : t.lvl.lapp = 5 := follows.drive.stopped (by rw [ctl]; exact fun k => NodeMode.noConfusion k)
  obtain ⟨-, -, -, gen⟩ := follows.drive.atStop stop
  have latch : t.out.tripLatch = (s.out.tripLatch || s.tripAsserted) := by
    rw [kept.tripLatch, work.out, startReady_latch]
  refine ⟨t, run, ?reply, ?notice, by rw [cfg]; rfl, by rw [cfg]; rfl, by rw [cfg]; rfl, by rw [cfg]; rfl, ctl,
    by rw [kept.pins, work.pins, startReady_pins], by rw [sbc], by rw [sbc]; rfl, by rw [sbc], by rw [sbc], by rw [sbc], by rw [sbc],
    joinTimer, fun p => ?peer, ?latched, ?trip, ?stress, fun n => ?slot, stop, gen, follows.support, follows.drive⟩
  case reply =>
    rw [reply, cfg]
    by_cases same : Store.corrected s.cfg = s.cfg
    · simp [same]
    · simp [same]
  case notice => rw [start_follows_notice follows, cfg, Bool.or_eq_true, bne_iff_ne]
  case peer => rw [kept.peers, work.pv, startReady_peer, initial.pv, PeerView.initial_peers]; rfl
  case latched => rw [latch, Bool.or_eq_true, tripAsserted_iff]
  case trip =>
    rw [follows.others .trip (.inl rfl), work.isPending, startReady_trip, latch]
    cases s.out.tripLatch <;> simp
  case stress => rw [kept.stressTimer, work.perm, startReady_stressTimer]; rfl
  case slot =>
    have empty : (startReady s).lft = Lft.empty := (startReady_lft s).trans initial.lft
    have inputs : (startReady s).cfg.inputs = s.cfg.inputs := by rw [startReady_cfg]; rfl
    have line : (startReady s).lineAsserted n = s.lineAsserted n := by
      unfold State.lineAsserted; rw [inputs, startReady_pins]
    rw [kept.lft]
    split
    · next takes =>
      obtain ⟨x, slot, new, -⟩ := watchInputs_new (n := n) empty (by rw [startReady_ctl]; exact fun k => NodeMode.noConfusion k)
        (by rw [inputs]; exact takes.1) (line.trans takes.2)
      rw [inputs] at slot new
      exact ⟨x, by rw [slot], new.source, new.state, by rw [slot]⟩
    · next passed => exact watchInputs_passed empty (by rw [inputs, line]; exact passed)

end Sys2Proof.Machine
end

section
/-! SUPPORT. What follows from a change at a station that has heard no peer: no join ends, no dispute begins, and no derivation comes to
stand (R55, R56, R58, R70, R81). -/

namespace Sys2Proof.Machine

/-- R49: every peer record is ABSENT. -/
def Alone (s : State) : Prop := ∀ p : Station, (s.pv.peers[p]).presence = .absent

theorem Alone.of_peers {s t : State} (h : Alone s) (k : t.pv.peers = s.pv.peers) : Alone t := fun p => by rw [k]; exact h p

/-- R70: this station is the only accuser. -/
theorem Alone.accuser {s : State} (h : Alone s) {own : Option Claim} {z : Zone} {a : Accuser} (member : a ∈ accusersOf s own z) :
    a.station = s.ctl.station := by
  simp only [accusersOf, List.mem_filterMap, List.mem_finRange, true_and, Option.map_eq_some_iff] at member
  obtain ⟨p, c, claimed, rfl⟩ := member
  by_contra other
  have silent : (s.pv.peers[p]).claim z = none := if_neg (by rw [h p]; decide)
  rw [if_neg other, silent] at claimed
  cases claimed

/-- R81: no owner that denies an accusation has a lone accuser other than itself. -/
theorem Alone.lone {s : State} (h : Alone s) (z : Zone) : loneAccuser s z = none := by
  unfold loneAccuser disputedBy
  split
  · next o a owner alone =>
    rw [if_neg]
    intro denied
    simp only [Bool.and_eq_true, bne_iff_ne] at denied
    obtain ⟨⟨denies, other⟩, -⟩ := denied
    have member : a ∈ rawConfirming (accusersOf s (ownClaim s z) z) := by rw [alone]; exact List.mem_singleton_self a
    have self : a.station = s.ctl.station := h.accuser (List.mem_filter.mp member).1
    have foreign : o ≠ s.ctl.station := fun same => other (self.trans same.symm)
    rw [ownerDenies, if_neg foreign, h o] at denies
    cases denies
  · rfl

/-- R82: no dispute, and none in its window. -/
def Undisputed (s : State) : Prop := ∀ z : Zone, (s.ziu.zones[z]).dispute = .none ∧ (s.ziu.zones[z]).disputeTimer = none

theorem supportPass_undisputed {s : State} (h : Alone s) : Undisputed (supportPass s) := fun z => by
  have moves := supportPass_moves s z
  rw [h.lone z] at moves
  exact moves

theorem settleSupport_undisputed (n : Nat) : ∀ s : State, Alone s → Undisputed s → Undisputed (settleSupport n s) := by
  induction n with
  | zero => exact fun s _ free => free
  | succ n ih =>
    intro s alone _
    have pass := supportPass_undisputed alone
    unfold settleSupport
    dsimp only
    split
    · exact pass
    · exact ih { supportPass s with ziu.derived.implausible := implausibleMarks (supportPass s).ziu.zones } alone pass

/-- R58: no join ends. -/
theorem checkJoin_alone {s : State} (alone : Alone s) : checkJoin s = s := by
  unfold checkJoin
  rw [joinComplete_absent alone, Bool.and_false]
  rfl

theorem settle_alone_ctl {b s : State} (alone : Alone s) : (settle b s).ctl = s.ctl ∧ (settle b s).pv = s.pv := by
  rw [settle_ctl, settle_pv, checkJoin_alone alone]
  exact ⟨rfl, rfl⟩

theorem settle_undisputed {b s : State} (alone : Alone s) (free : Undisputed s) : Undisputed (settle b s) := fun z => by
  have formed := settle_dispute b s z
  rw [checkJoin_alone alone] at formed
  have passes := settleSupport_undisputed 10 (peerDerivations s) alone free z
  exact ⟨formed.1.trans passes.1, formed.2.trans passes.2⟩

/-- R55, R56, R84: no derivation comes to stand. -/
theorem settle_alone_derived {b s : State} (alone : Alone s) (free : Undisputed s) (derived : s.ziu.derived = Derived.empty) :
    (settle b s).ziu.derived = Derived.empty := by
  have follows := settle_follows b s
  have peers := settle_peers b s
  have undisputed := settle_undisputed (b := b) alone free
  have deaf : (settle b s).ziu.derived.deaf = deafCondition s := by rw [settle_ziu, settleTables_deaf]
  generalize settle b s = t at *
  have none_silent : deafCondition s = false := by
    have absent : ∀ p : Station, (s.pv.peers[p]).presence = .absent := alone
    simp [deafCondition, absent, -Fin.getElem_fin]
  have lost : t.ziu.derived.lost = Derived.empty.lost := marks_ext fun p => by
    rw [Derived.empty_lost, Bool.eq_false_iff, Ne, follows.lost p, peers, alone p]; decide
  have implausible : t.ziu.derived.implausible = Derived.empty.implausible := marks_ext fun a => by
    rw [Derived.empty_implausible, Bool.eq_false_iff, Ne, follows.support.implausible a]
    rintro ⟨z, stands⟩
    rw [(undisputed z).1] at stands
    cases stands
  rw [follows.derived, derived, lost, implausible, deaf, none_silent]
  rfl

end Sys2Proof.Machine
end

section
/-! SUPPORT. The Permission Unit and the Output Unit of a station that stays stopped: whatever inputs arrive, and in whatever order, the
target cap stays 0 (R106, R107, R119 to R124, R131). -/

namespace Sys2Proof.Machine

/-! ### Inputs in turn -/

theorem appliedLevel_stopped (c : Store) (n : Station) {v : View} (h : v.mode ≠ .running) : appliedLevel c n v = 5 := by
  have floor : modeFloor v.mode = 5 := if_neg h
  have top : ∀ a b : Level, max a (max 5 b) = 5 := by decide
  rw [appliedLevel_eq, floor, top]

theorem targetOf_stopped (c : Store) (n : Station) {v : View} (h : v.mode ≠ .running) : targetOf c n v = 0 := by
  rw [targetOf, appliedLevel_stopped c n h, baseCap_stop, Nat.zero_mul, Nat.zero_div]

theorem take_stopped {v w : View} (k : HandOn) (hv : v.mode ≠ .running) (hw : w.mode ≠ .running) :
    (View.take k v w).mode ≠ .running := by
  cases k with
  | mode => exact hw
  | records | zones | trip | floor | stress => exact hv

theorem viewsInTurn_stopped {w : View} (hw : w.mode ≠ .running) : ∀ (order : List HandOn) (v : View), v.mode ≠ .running →
    ∀ x ∈ viewsInTurn w order v, x.mode ≠ .running
  | [], v, _, x, member => by rw [List.mem_singleton.mp member]; exact hw
  | k :: rest, v, hv, x, member => by
    have taken := take_stopped k hv hw
    rcases List.mem_cons.mp member with rfl | later
    · exact taken
    · exact viewsInTurn_stopped hw rest _ taken x later

/-! ### The caps -/

/-- R121, R122: with the target cap at 0 throughout there is no fall, and the dwell is left. -/
theorem Follows.dwell_stopped {b u t : State} (h : Follows b u t) (before : b.ctl.mode ≠ .running) (after : t.ctl.mode ≠ .running)
    (target : u.perm.target = 0) : t.perm.dwell = u.perm.dwell := by
  obtain ⟨order, -, turns⟩ := h.inTurn
  have low : ∀ x ∈ u.perm.target :: (viewsInTurn (View.of t) order (View.of b)).map (targetOf u.cfg u.ctl.station), x = 0 := by
    intro x member
    rcases List.mem_cons.mp member with rfl | later
    · exact target
    · obtain ⟨v, stands, rfl⟩ := List.mem_map.mp later
      exact targetOf_stopped _ _ (viewsInTurn_stopped after order _ before v stands)
  rw [turns.dwell, if_pos (List.pairwise_of_forall_mem_list fun a ha b hb => by rw [low a ha, low b hb])]

/-- R116 to R125: the caps of a stopped station at rest stay as they are, but for the stress timer. -/
theorem Follows.perm_stopped {b u t : State} (h : Follows b u t) (before : b.ctl.mode ≠ .running) (after : t.ctl.mode ≠ .running)
    {timer : Timer} (rest : u.perm = { Permission.initial with stressTimer := timer }) :
    t.perm = { Permission.initial with stressTimer := timer } := by
  have stress : t.perm.stress = 0 := by rw [h.kept.stress, rest]; rfl
  obtain ⟨-, -, target, -⟩ := h.drive.atStop (h.drive.stopped after)
  have foldback : t.perm.foldback = 1000 := by rw [h.drive.foldback, stress]; exact foldbackOf_zero _ _
  have output : t.perm.output = 0 := Nat.le_zero.mp (by have fall := h.lines.fall; rw [rest] at fall; exact fall)
  have dwell : t.perm.dwell = none := by rw [h.dwell_stopped before after (by rw [rest]; rfl), rest]; rfl
  have stressTimer : t.perm.stressTimer = timer := by rw [h.kept.stressTimer, rest]
  revert stress foldback target output dwell stressTimer
  cases t.perm
  rintro rfl rfl rfl rfl rfl rfl
  rfl

/-- R130 to R134, R137: the lines of a stopped station at rest, but for the contactor. -/
theorem Follows.out_stopped {b u t : State} (h : Follows b u t) (awake : t.ctl.held = false) (after : t.ctl.mode ≠ .running)
    (rearm : u.out.rearm = none) (output : u.perm.output = 0) (duty : u.out.pendingDuty = 50) :
    t.out = { u.out with
      gen := false, rearm := none, pendingDuty := 50, lamp := .steady, contactor := t.out.contactor
      contactorTimer := t.out.contactorTimer } := by
  have stop := h.drive.stopped after
  obtain ⟨-, -, -, low⟩ := h.drive.atStop stop
  have hold : t.out.rearm = none := by
    rcases h.lines.low low with ⟨ended, -⟩ | ⟨-, same⟩
    · exact ended
    · rw [same, rearm]
  have zero : t.perm.output = 0 := Nat.le_zero.mp (output ▸ h.lines.fall)
  have pending : t.out.pendingDuty = 50 := by
    rcases h.lines.duty with ⟨-, same⟩ | formed
    · rw [same, duty]
    · rw [formed, zero]
  have lamp : t.out.lamp = .steady := by rw [h.drive.lamp awake, stop]; rfl
  have latch := h.kept.tripLatch
  have active := h.kept.activeDuty
  revert low hold pending lamp latch active
  cases t.out
  rintro rfl rfl rfl rfl rfl rfl
  rfl

end Sys2Proof.Machine
end

section
/-! SUPPORT. The blocks of a station after a host reset, before a started one resumes: they are current (R95, R113, R129, R148, R151). -/

namespace Sys2Proof.Machine

/-! ### A zone record at host reset -/

theorem resetZone_pinned {c : Store} {r : ZoneRecord} (pinned : r.state = .pinned) : resetZone c r
    = { r with accusers := [], own := none, delay := none, dispute := .none, disputeTimer := none, clean := none } := if_pos pinned

theorem resetZone_free {c : Store} {r : ZoneRecord} (free : r.state ≠ .pinned) : resetZone c r
    = { ZoneRecord.initial with clean := cleanStart c r, count := r.count, released := r.released } := if_neg free

/-- R95: what a host reset clears and keeps, whatever the zone's state. -/
structure ZoneCleared (r q : ZoneRecord) : Prop where
  own : q.own = none
  accusers : q.accusers = []
  dispute : q.dispute = .none
  disputeTimer : q.disputeTimer = none
  released : q.released = r.released
  count : q.count = r.count
  state : q.state = if r.state = .pinned then .pinned else .clear

theorem resetZone_cleared (c : Store) (r : ZoneRecord) : ZoneCleared r (resetZone c r) := by
  by_cases pinned : r.state = .pinned
  · rw [resetZone_pinned pinned]
    exact ⟨rfl, rfl, rfl, rfl, rfl, rfl, by rw [if_pos pinned]; exact pinned⟩
  · rw [resetZone_free pinned]
    exact ⟨rfl, rfl, rfl, rfl, rfl, rfl, by rw [if_neg pinned]; rfl⟩

/-- R88, R95: the timers of a record that a host reset has cleared, and that support may have changed since. -/
structure ZoneResumed (c : Store) (z : Zone) (r q : ZoneRecord) : Prop where
  released : q.released = r.released
  pinned : r.state = .pinned → q.state = .pinned ∧ q.stamp = r.stamp ∧ q.count = r.count
  delay : q.delay = if q.state = .confirmed then some (c.zones[z]).delay else none
  clean : q.clean = if q.state = .clear ∧ q.released = true then some (1000 * c.cleanInterval) else none

theorem resetZone_resumed (c : Store) (z : Zone) (r : ZoneRecord) : ZoneResumed c z r (resetZone c r) := by
  by_cases pinned : r.state = .pinned
  · rw [resetZone_pinned pinned]
    exact ⟨rfl, fun _ => ⟨pinned, rfl, rfl⟩, (if_neg fun k => absurd (pinned.symm.trans k) (by decide)).symm,
      (if_neg fun k => absurd (pinned.symm.trans k.1) (by decide)).symm⟩
  · rw [resetZone_free pinned]
    exact ⟨rfl, fun k => absurd k pinned, rfl, by simp [ZoneRecord.initial, cleanStart]⟩

/-- R75 to R80, R88: support that comes after the reset keeps a PINNED zone, and sets the timers of any other as its state has them. -/
theorem zoneFollows_resumed {c : Store} {z : Zone} {r q : ZoneRecord} (h : ZoneFollows c z (resetZone c r) q) : ZoneResumed c z r q := by
  by_cases pinned : r.state = .pinned
  · have record := resetZone_pinned (c := c) pinned
    rw [record] at h
    obtain ⟨state, stamp, count, delay, clean⟩ := h.held (by rw [pinned]; rfl)
    rw [pinned] at state
    exact ⟨h.released, fun _ => ⟨state, stamp, count⟩, delay.trans (if_neg fun k => absurd (state.symm.trans k) (by decide)).symm,
      clean.trans (if_neg fun k => absurd (state.symm.trans k.1) (by decide)).symm⟩
  · have record := resetZone_free (c := c) pinned
    rw [record] at h
    have released : q.released = r.released := h.released
    refine ⟨released, fun k => absurd k pinned, ?_, ?_⟩
    · cases state : q.state with
      | clear => exact (h.clear state).1
      | suspect => exact (h.suspect state).1
      | confirmed => exact (h.confirmed state).2.1
      | isolated => exact (h.entered rfl (by rw [state]; rfl)).2.2.1
      | pinned => exact (h.entered rfl (by rw [state]; rfl)).2.2.1
    · cases state : q.state with
      | clear => rw [(h.clear state).2, released]; simp [ZoneRecord.initial, cleanStart]
      | suspect => exact (h.suspect state).2
      | confirmed => exact (h.confirmed state).2.2.1
      | isolated => exact (h.entered rfl (by rw [state]; rfl)).2.2.2.1
      | pinned => exact (h.entered rfl (by rw [state]; rfl)).2.2.2.1

/-! ### The blocks -/

theorem resetDone_cleared (s : State) (z : Zone) : ZoneCleared s.ziu.zones[z] (resetDone s).ziu.zones[z] := by
  rw [resetDone_zone]; exact resetZone_cleared s.cfg _

theorem resetDone_alone (s : State) : Alone (resetDone s) := fun p => by rw [resetDone_peer]; rfl

theorem resetDone_undisputed (s : State) : Undisputed (resetDone s) := fun z =>
  ⟨(resetDone_cleared s z).dispute, (resetDone_cleared s z).disputeTimer⟩

theorem resetDone_stopped (s : State) : (resetDone s).ctl.mode ≠ .running := by
  rw [resetDone_ctl]
  dsimp only
  split <;> exact fun k => NodeMode.noConfusion k

theorem resetDone_support (s : State) : SupportCurrent (resetDone s) := by
  refine supportCurrent_unaccused (resetDone_lft s) (resetDone_alone s) (by rw [resetDone_ziu]) (fun z => (resetDone_cleared s z).own)
    (fun z => (resetDone_cleared s z).accusers) (fun z => (resetDone_cleared s z).dispute) fun z => ?_
  rw [(resetDone_cleared s z).state]
  split
  · exact .inr rfl
  · exact .inl rfl

/-- R138, R140: the trip inputs are sampled at a host reset. -/
theorem resetDone_latch (s : State) : (resetDone s).out.tripLatch = s.tripAsserted := by
  have asserted : (resetLevels (resetBlocks s)).tripAsserted = s.tripAsserted := rfl
  rw [resetDone, sampleTrip_latch, asserted]
  rfl

/-- R113: Lown is formed again from the zones that stay PINNED. -/
theorem resetDone_levels (s : State) : (resetDone s).lvl = { Levels.initial with
    lown := ownCauseLevel s.cfg s.ctl.station (View.of (resetDone s)) } := by
  have zones : (View.of (resetDone s)).zones = (View.of (resetBlocks s)).zones := by
    have ziu : (resetDone s).ziu = (resetBlocks s).ziu := (resetDone_work s).ziu
    rw [View.of, View.of, ziu]
  have floor : (View.of (resetDone s)).floor = 0 := by
    show (resetDone s).lvl.floor = 0
    rw [resetDone_lvl]; rfl
  rw [resetDone_lvl, ownCauseLevel, zones, floor]
  rfl

/-- R102 to R137: levels, caps and lines are current. -/
theorem resetDone_drive (s : State) : DriveCurrent (resetDone s) := by
  have levels := resetDone_levels s
  have perm := resetDone_perm s
  have out := resetDone_out s
  have stop : (resetDone s).lvl.lapp = 5 := by rw [levels]; rfl
  have low : (resetDone s).lvl.floor = 0 := by rw [levels]; rfl
  obtain ⟨above, each, attained⟩ := ownCauseLevel_spec s.cfg s.ctl.station (View.of (resetDone s))
  simp only [view_zones] at each attained
  have viewed : (View.of (resetDone s)).floor = 0 := low
  rw [viewed] at attained
  have cfg := resetDone_cfg s
  have station : (resetDone s).ctl.station = s.ctl.station := by rw [resetDone_ctl]
  have lown : (resetDone s).lvl.lown = ownCauseLevel s.cfg s.ctl.station (View.of (resetDone s)) := by rw [levels]
  refine ⟨?lown, ?follow, ?lapp, by rw [stop, speedCapOf_stop, levels]; rfl, ?regen, ?foldback, ?target, ?gen, fun _ => ?lamp⟩
  case lown =>
    rw [lown, low, cfg, station]
    exact ⟨Fin.zero_le _, each, attained⟩
  case follow =>
    have none_followed (p : Station) : follows (resetDone s).cfg (resetDone s).ctl.station (View.of (resetDone s)) p = false := by
      have absent : ((View.of (resetDone s)).peers[p]).presence = .absent := by rw [view_peers]; exact resetDone_alone s p
      simp [follows, absent, -Fin.getElem_fin]
    refine ⟨fun p k => ?_, .inl (by rw [levels]; rfl)⟩
    rw [none_followed p] at k; cases k
  case lapp =>
    have floor : modeFloor (resetDone s).ctl.mode = 5 := if_neg (resetDone_stopped s)
    have top : ∀ a b : Level, max a (max 5 b) = 5 := by decide
    rw [stop, floor, top]
  case regen => rw [stop, levels]; exact ⟨fun k => Bool.noConfusion k, fun k => absurd k.1 (by decide)⟩
  case foldback => rw [perm]; exact (foldbackOf_zero _ _).symm
  case target => rw [stop, baseCap_stop, Nat.zero_mul, Nat.zero_div, perm]; rfl
  case gen => rw [stop, out]; exact ⟨fun k => Bool.noConfusion k, fun k => absurd k.1 (by decide)⟩
  case lamp => rw [stop, out]; rfl

end Sys2Proof.Machine
end

section
/-! SUPPORT. A started station after a host reset: it enters JOINING, watches its inputs, and the rest follows (R3, R34, R153, R151). -/

namespace Sys2Proof.Machine

/-! ### Entering JOINING -/

/-- R3, R153: the state that a started station hands to the end of its reset. -/
def resumed (s : State) : State := watchInputs (resetReady (resetDone s))

theorem resumed_work (s : State) : InputWork (resetReady (resetDone s)) (resumed s) := watchInputs_work _

theorem resumed_ctl (s : State) : (resumed s).ctl = { s.ctl with mode := .joining } := by
  rw [(resumed_work s).ctl, resetReady_ctl, resetDone_ctl]

theorem resumed_cfg (s : State) : (resumed s).cfg = s.cfg := by rw [(resumed_work s).cfg, resetReady_cfg, resetDone_cfg]

theorem resumed_pins (s : State) : (resumed s).pins = s.pins := (resumed_work s).pins.trans (resetDone_pins s)

theorem resumed_due (s : State) : (resumed s).due = s.due := (resumed_work s).due.trans (resetDone_queue s).2

theorem resumed_ziu (s : State) : (resumed s).ziu = (resetDone s).ziu := (resumed_work s).ziu

theorem resumed_zone (s : State) (z : Zone) : (resumed s).ziu.zones[z] = resetZone s.cfg s.ziu.zones[z] := by
  rw [resumed_ziu, resetDone_zone]

theorem resumed_pv (s : State) : (resumed s).pv = ⟨(resetDone s).pv.peers, some s.cfg.joinDeadline⟩ := by
  have entered : (resetReady (resetDone s)).pv = ⟨(resetDone s).pv.peers, some (resetDone s).cfg.joinDeadline⟩ := rfl
  rw [(resumed_work s).pv, entered, resetDone_cfg]

theorem resumed_alone (s : State) : Alone (resumed s) := (resetDone_alone s).of_peers (by rw [resumed_pv])

theorem resumed_undisputed (s : State) : Undisputed (resumed s) := fun z => by
  rw [resumed_ziu]; exact resetDone_undisputed s z

theorem resumed_lvl (s : State) : (resumed s).lvl = (resetDone s).lvl := (resumed_work s).lvl

theorem resumed_out (s : State) : (resumed s).out = (resetDone s).out := (resumed_work s).out

theorem resumed_enable (s : State) : (resumed s).port.enable = 0xFF := by
  have entered : (resetReady (resetDone s)).port = (resetDone s).port := rfl
  rw [(resumed_work s).port, entered, (resetDone_work s).enable]
  rfl

theorem resumed_perm (s : State) : (resumed s).perm = { Permission.initial with stressTimer := startTimer s.cfg.stressTimeout } := by
  have entered : (resetReady (resetDone s)).perm
      = { (resetDone s).perm with stressTimer := startTimer (resetDone s).cfg.stressTimeout } := rfl
  rw [(resumed_work s).perm, entered, resetDone_perm, resetDone_cfg]

theorem resumed_sbc (s : State) : (resumed s).sbc = { Sbc.initial with
    requests := ⟨true, false, false⟩, receiverOn := true, transmitterOn := true, statusTimer := some s.cfg.statusPeriod } := by
  have entered : (resetReady (resetDone s)).sbc = { (resetDone s).sbc with
      requests.hello := true, receiverOn := true, line := .enabled, transmitterOn := true
      statusTimer := some (resetDone s).cfg.statusPeriod } := rfl
  rw [(resumed_work s).sbc, entered, resetDone_sbc, resetDone_cfg]
  rfl

/-- R3, R6, R7, R22: the table of `t` holds the new entries alone that the inputs of `s` give. -/
structure Watched (s t : State) : Prop where
  new : ∀ n : Input, (s.cfg.inputs[n]).enabled = true → s.lineAsserted n = true →
    ∃ x, t.lft.inputs[n] = ⟨some x, if (s.cfg.inputs[n]).qualify = 0 then none else some (s.cfg.inputs[n]).qualify, none⟩
      ∧ NewEntry n (s.cfg.inputs[n]) s.ctl.nodeTime x
      ∧ (s.cfg.escalation = 0 ∨ 2 ≤ s.cfg.escalation → x.escalated = false ∧ x.current = (s.cfg.inputs[n]).severity)
  passed : ∀ n : Input, ¬((s.cfg.inputs[n]).enabled = true ∧ s.lineAsserted n = true) → t.lft.inputs[n] = Slot.empty
  declared : t.lft.declared = Lft.empty.declared
  pointer : t.lft.pointer = 0

/-- R3: the watch finds the table empty. -/
theorem resumed_watched (s : State) : Watched s (resumed s) := by
  have empty : (resetReady (resetDone s)).lft = Lft.empty := resetDone_lft s
  have cfg : (resetReady (resetDone s)).cfg = s.cfg := resetDone_cfg s
  have time : (resetReady (resetDone s)).ctl.nodeTime = s.ctl.nodeTime := by rw [resetReady_ctl, resetDone_ctl]
  have pins : (resetReady (resetDone s)).pins = s.pins := resetDone_pins s
  have line (n : Input) : (resetReady (resetDone s)).lineAsserted n = s.lineAsserted n := by
    rw [State.lineAsserted, State.lineAsserted, cfg, pins]
  have on : (resetReady (resetDone s)).ctl.mode ≠ .unconfigured := by rw [resetReady_ctl]; exact fun k => NodeMode.noConfusion k
  have work := resumed_work s
  have watch : resumed s = watchInputs (resetReady (resetDone s)) := rfl
  refine ⟨fun n enabled asserted => ?_, fun n passed => ?_, ?_, ?_⟩
  · have made := watchInputs_new (n := n) empty on (by rw [cfg]; exact enabled) (by rw [line]; exact asserted)
    rw [cfg, time] at made
    rw [watch]
    exact made
  · rw [watch]
    exact watchInputs_passed empty (by rw [cfg, line]; exact passed)
  · rw [work.declared, empty]
  · rw [work.pointer, empty]; rfl

/-! ### The accusations of the new entries -/

/-- R5, R7: some input with no qualify time is asserted, so that its new entry is ACTIVE. -/
def Immediate (s : State) : Prop :=
  ∃ n : Input, (s.cfg.inputs[n]).enabled = true ∧ s.lineAsserted n = true ∧ (s.cfg.inputs[n]).qualify = 0

/-- R5, R19: entries that are all QUALIFYING accuse no zone. -/
theorem Watched.silent {s t : State} (w : Watched s t) (h : ¬Immediate s) (z : Zone) : localAccusation t.lft z = none := by
  have qualifying {sl : Slot} (member : sl ∈ t.lft.slots) {x : Entry} (entry : sl.entry = some x) : x.state = .qualifying := by
    rcases mem_slots.mp member with ⟨n, rfl⟩ | ⟨d, rfl⟩
    · by_cases takes : (s.cfg.inputs[n]).enabled = true ∧ s.lineAsserted n = true
      · obtain ⟨y, made, new, -⟩ := w.new n takes.1 takes.2
        rw [made] at entry
        cases entry
        exact new.state.trans (if_neg fun zero => h ⟨n, takes.1, takes.2, zero⟩)
      · rw [w.passed n takes] at entry; cases entry
    · rw [w.declared, Lft.empty_declared] at entry; cases entry
  have unclaimed : t.lft.slots.filterMap (Slot.claim z) = [] := List.filterMap_eq_nil_iff.mpr fun sl member => by
    rw [← Option.not_isSome_iff_eq_none, Option.isSome_iff_exists]
    rintro ⟨k, claimed⟩
    obtain ⟨x, entry, -, accuses, -⟩ := (Slot.claim_iff z sl k).mp claimed
    exact accuses (qualifying member entry)
  rw [localAccusation, unclaimed, strongest]

/-- R5, R19: an ACTIVE entry accuses its zone. -/
theorem Watched.accuses {s t : State} (w : Watched s t) (h : Immediate s) : ∃ z : Zone, localAccusation t.lft z ≠ none := by
  obtain ⟨n, enabled, asserted, zero⟩ := h
  obtain ⟨x, made, new, -⟩ := w.new n enabled asserted
  refine ⟨x.zone, fun silent => ?_⟩
  have active : x.state ≠ .qualifying := by rw [new.state, if_pos zero]; exact fun k => EntryState.noConfusion k
  have claimed : Slot.claim x.zone (t.lft.inputs[n]) = some ⟨x.cls, x.current⟩ :=
    (Slot.claim_iff _ _ _).mpr ⟨x, by rw [made], rfl, active, rfl⟩
  exact (strongest_formed _).1 silent _ (List.mem_filterMap.mpr ⟨_, mem_slots.mpr (.inl ⟨n, rfl⟩), claimed⟩)

end Sys2Proof.Machine
end

section
/-! SUPPORT. What a host reset leaves of a started and of an unstarted station, but for the flags (R3, R34, R46, R64, R75, R95, R113,
R129, R143, R148, R151). -/

namespace Sys2Proof.Machine

/-! ### Without an ACTIVE entry -/

/-- R67, R68: with nothing derived and nothing accused locally the station accuses no zone. -/
theorem SupportCurrent.unaccused {v : State} (h : SupportCurrent v) (alone : Alone v) (derived : v.ziu.derived = Derived.empty) {z : Zone}
    (silent : localAccusation v.lft z = none) : (v.ziu.zones[z]).own = none ∧ (v.ziu.zones[z]).accusers = [] := by
  have own : ownClaim v z = none := by rw [ownClaim, silent, derived, derivedClaims_empty]; rfl
  refine ⟨(h.own z).trans own, ?_⟩
  rw [h.accusers z, own, accusersOf_absent alone]
  rfl

/-- R74 to R76: a zone that was CLEAR or PINNED and that nobody accuses stays what it was. -/
theorem ZoneFollows.unaccused {c : Store} {z : Zone} {r : ZoneRecord} {v : State} (h : ZoneFollows c z r v.ziu.zones[z])
    (current : SupportCurrent v) (silent : (v.ziu.zones[z]).accusers = []) (quorum : 1 ≤ v.cfg.quorum) (same : v.cfg.quorum = c.quorum)
    (before : r.state = .clear ∨ r.state = .pinned) :
    (v.ziu.zones[z]).state = r.state ∧ (v.ziu.zones[z]).stamp = r.stamp ∧ (v.ziu.zones[z]).count = r.count
      ∧ (v.ziu.zones[z]).clean = r.clean := by
  rcases before with clear | pinned
  · have unconfirmed : confirmationHolds c.quorum z (v.ziu.zones[z]).accusers = false := by
      rw [silent, ← same]; exact confirmationHolds_nil rfl quorum
    have stands := current.state z
    have free : (v.ziu.zones[z]).state = .clear := by
      cases state : (v.ziu.zones[z]).state with
      | clear => rfl
      | suspect => rw [state, silent] at stands; exact absurd rfl stands.1
      | confirmed => rw [state, same, unconfirmed] at stands; exact absurd stands.1 Bool.false_ne_true
      | isolated =>
        have entered := (h.entered (by rw [clear]; rfl) (by rw [state]; rfl)).2.2.2.2.2.1
        rw [unconfirmed] at entered
        cases entered
      | pinned =>
        have entered := (h.entered (by rw [clear]; rfl) (by rw [state]; rfl)).2.2.2.2.2.1
        rw [unconfirmed] at entered
        cases entered
    obtain ⟨count, stamp⟩ := h.free (by rw [free]; rfl)
    exact ⟨free.trans clear.symm, stamp, count, (h.clear free).2.trans (if_pos clear)⟩
  · obtain ⟨state, stamp, count, -, clean⟩ := h.held (by rw [pinned]; rfl)
    exact ⟨state, stamp, count, clean⟩

/-! ### What a host reset leaves -/

/-- R34, R75, R143: what holds where no entry of the reset is ACTIVE. -/
structure ResetQuiet (s v : State) : Prop where
  contactor : v.out.contactor = s.out.contactor ∧ v.out.contactorTimer = s.out.contactorTimer
  zones : ∀ z : Zone, (v.ziu.zones[z]).state = (resetZone s.cfg s.ziu.zones[z]).state
    ∧ (v.ziu.zones[z]).stamp = (resetZone s.cfg s.ziu.zones[z]).stamp ∧ (v.ziu.zones[z]).count = (resetZone s.cfg s.ziu.zones[z]).count
    ∧ (v.ziu.zones[z]).clean = (resetZone s.cfg s.ziu.zones[z]).clean

/-- R151: the state `v` that a host reset leaves of `s`, but for the flags. -/
structure ResetLeaves (s v : State) : Prop where
  pins : v.pins = s.pins
  cfg : v.cfg = s.cfg
  ctl : v.ctl = { s.ctl with mode := if s.ctl.started then .joining else .unconfigured }
  due : v.due = s.due
  enable : v.port.enable = 0xFF
  watched : s.ctl.started = true → Watched s v
  unwatched : s.ctl.started = false → v.lft = Lft.empty
  pv : v.pv = ⟨(resetDone s).pv.peers, if s.ctl.started then some s.cfg.joinDeadline else none⟩
  sbc : v.sbc = { Sbc.initial with
    requests := ⟨s.ctl.started, v.sbc.requests.status, false⟩, receiverOn := s.ctl.started, transmitterOn := s.ctl.started
    statusTimer := if s.ctl.started then some s.cfg.statusPeriod else none
    mute := if v.sbc.requests.status then some s.cfg.silenceTimeout else none }
  derived : v.ziu.derived = Derived.empty
  undisputed : Undisputed v
  zones : ∀ z : Zone, ZoneResumed s.cfg z s.ziu.zones[z] v.ziu.zones[z]
  support : SupportCurrent v
  drive : DriveCurrent v
  floor : v.lvl.floor = 0
  perm : v.perm = { Permission.initial with
    stressTimer := if s.ctl.started = true ∧ s.cfg.stressTimeout ≠ 0 then some s.cfg.stressTimeout else none }
  out : v.out = { s.out with
    gen := false, tripLatch := s.tripAsserted, rearm := none, pendingDuty := 50, lamp := .steady, contactor := v.out.contactor
    contactorTimer := v.out.contactorTimer }
  request : 1 ≤ s.cfg.quorum → (v.sbc.requests.status = true ↔ s.ctl.started = true ∧ Immediate s)
  quiet : 1 ≤ s.cfg.quorum → ¬Immediate s → ResetQuiet s v

/-- R151: an unstarted station. -/
theorem resetDone_leaves {s : State} (unstarted : s.ctl.started = false) : ResetLeaves s (resetDone s) where
  pins := resetDone_pins s
  cfg := resetDone_cfg s
  ctl := resetDone_ctl s
  due := (resetDone_queue s).2
  enable := (resetDone_work s).enable
  watched started := absurd (started.symm.trans unstarted) (by decide)
  unwatched _ := resetDone_lft s
  pv := by rw [resetDone_pv, unstarted]; rfl
  sbc := by rw [resetDone_sbc, unstarted]; rfl
  derived := by rw [resetDone_ziu]
  undisputed := resetDone_undisputed s
  zones z := by rw [resetDone_zone]; exact resetZone_resumed s.cfg z _
  support := resetDone_support s
  drive := resetDone_drive s
  floor := by rw [resetDone_levels]; rfl
  perm := by rw [resetDone_perm, unstarted]; rfl
  out := by rw [← resetDone_latch s]; exact (resetDone_out s).trans (by rw [resetDone_out])
  request _ := by
    rw [resetDone_sbc, unstarted]
    exact ⟨fun k => Bool.noConfusion k, fun k => Bool.noConfusion k.1⟩
  quiet _ _ := ⟨by rw [resetDone_out]; exact ⟨rfl, rfl⟩, fun z => by rw [resetDone_zone]; exact ⟨rfl, rfl, rfl, rfl⟩⟩

/-! ### A started station -/

/-- R151: `v` is what follows, within the event, from the join that a host reset begins. -/
structure Rejoined (s v : State) : Prop where
  follows : Follows (resetDone s) (resumed s) v
  ctl : v.ctl = (resumed s).ctl
  pv : v.pv = (resumed s).pv
  undisputed : Undisputed v
  derived : v.ziu.derived = Derived.empty

theorem settle_rejoined (s : State) : Rejoined s (settle (resetDone s) (resumed s)) where
  follows := settle_follows _ _
  ctl := (settle_alone_ctl (resumed_alone s)).1
  pv := (settle_alone_ctl (resumed_alone s)).2
  undisputed := settle_undisputed (resumed_alone s) (resumed_undisputed s)
  derived := settle_alone_derived (resumed_alone s) (resumed_undisputed s) (by rw [resumed_ziu, resetDone_ziu])

theorem Rejoined.mode {s v : State} (h : Rejoined s v) : v.ctl.mode = .joining := by rw [h.ctl, resumed_ctl]

theorem Rejoined.stopped {s v : State} (h : Rejoined s v) : v.ctl.mode ≠ .running := by
  rw [h.mode]; exact fun k => NodeMode.noConfusion k

theorem Rejoined.alone {s v : State} (h : Rejoined s v) : Alone v := (resumed_alone s).of_peers (by rw [h.pv])

theorem Rejoined.cfg {s v : State} (h : Rejoined s v) : v.cfg = s.cfg := h.follows.kept.cfg.trans (resumed_cfg s)

theorem Rejoined.watched {s v : State} (h : Rejoined s v) : Watched s v := by
  have lft := h.follows.kept.lft
  have w := resumed_watched s
  exact ⟨fun n => by rw [lft]; exact w.new n, fun n => by rw [lft]; exact w.passed n, by rw [lft]; exact w.declared,
    by rw [lft]; exact w.pointer⟩

theorem Rejoined.zone {s v : State} (h : Rejoined s v) (z : Zone) :
    ZoneFollows s.cfg z (resetZone s.cfg s.ziu.zones[z]) v.ziu.zones[z] := by
  have follows := h.follows.zones z
  rwa [resumed_zone, resumed_cfg] at follows

/-- R5: with no ACTIVE entry this station accuses no zone, and every zone stays what it was. -/
theorem Rejoined.calm {s v : State} (h : Rejoined s v) (quorum : 1 ≤ s.cfg.quorum) (calm : ¬Immediate s) (z : Zone) :
    (v.ziu.zones[z]).own = none ∧ (v.ziu.zones[z]).state = (resetZone s.cfg s.ziu.zones[z]).state
      ∧ (v.ziu.zones[z]).stamp = (resetZone s.cfg s.ziu.zones[z]).stamp
      ∧ (v.ziu.zones[z]).count = (resetZone s.cfg s.ziu.zones[z]).count
      ∧ (v.ziu.zones[z]).clean = (resetZone s.cfg s.ziu.zones[z]).clean := by
  obtain ⟨own, silent⟩ := h.follows.support.unaccused h.alone h.derived (h.watched.silent calm z)
  refine ⟨own, (h.zone z).unaccused h.follows.support silent (by rw [h.cfg]; exact quorum) (by rw [h.cfg]) ?_⟩
  rw [(resetZone_cleared s.cfg _).state]
  split
  · exact .inr rfl
  · exact .inl rfl

theorem Rejoined.calm_state {s v : State} (h : Rejoined s v) (quorum : 1 ≤ s.cfg.quorum) (calm : ¬Immediate s) (z : Zone) :
    (v.ziu.zones[z]).state = ((resetDone s).ziu.zones[z]).state := by
  rw [(h.calm quorum calm z).2.1, resetDone_zone]

/-- R143: with every zone as the event found it no contactor-drop zone is entered. -/
theorem Follows.contactor_kept {b u t : State} (h : Follows b u t)
    (same : ∀ z : Zone, (t.ziu.zones[z]).state = (b.ziu.zones[z]).state) :
    t.out.contactor = u.out.contactor ∧ t.out.contactorTimer = u.out.contactorTimer := by
  have contactor := h.contactor
  split at contactor
  · next entered =>
    obtain ⟨-, z, -, after, before⟩ := entered
    rw [same z, before] at after
    cases after
  · exact contactor

theorem Rejoined.quiet {s v : State} (h : Rejoined s v) (quorum : 1 ≤ s.cfg.quorum) (calm : ¬Immediate s) : ResetQuiet s v := by
  refine ⟨?_, fun z => (h.calm quorum calm z).2⟩
  have contactor := h.follows.contactor_kept (h.calm_state quorum calm)
  rw [resumed_out, resetDone_out] at contactor
  exact contactor

/-- R34: an urgent STATUS is asked for exactly if an entry of the reset is ACTIVE. -/
theorem Rejoined.urgent_iff {s v : State} (h : Rejoined s v) (quorum : 1 ≤ s.cfg.quorum) : Urgent (resetDone s) v ↔ Immediate s := by
  constructor
  · intro urgent
    by_contra calm
    rcases urgent with ⟨z, c, own, -⟩ | rise | ⟨isolated, was⟩
    · rw [(h.calm quorum calm z).1] at own; cases own
    · obtain ⟨-, -, attained⟩ := h.follows.drive.lown
      have before := (resetDone_drive s).lown
      rcases attained with low | ⟨z, e⟩
      · rw [low, h.follows.kept.floor, resumed_lvl] at rise
        exact absurd rise (not_lt.mpr before.1)
      · have station : v.ctl.station = (resetDone s).ctl.station := by rw [h.ctl, resumed_ctl, resetDone_ctl]
        rw [e, h.calm_state quorum calm z, h.cfg, ← resetDone_cfg s, station] at rise
        exact absurd rise (not_lt.mpr (before.2.1 z))
    · have station : v.ctl.station = (resetDone s).ctl.station := by rw [h.ctl, resumed_ctl, resetDone_ctl]
      unfold SelfIsolated at isolated
      rw [h.calm_state quorum calm] at isolated
      exact was (by simpa only [station] using isolated)
  · intro immediate
    obtain ⟨z, accuses⟩ := h.watched.accuses immediate
    have claims : (v.ziu.zones[z]).own ≠ none := by
      rw [h.follows.support.own z, ownClaim, h.derived, derivedClaims_empty, List.append_nil]
      cases claim : localAccusation v.lft z with
      | none => exact absurd claim accuses
      | some c => exact Option.some_ne_none c
    obtain ⟨c, own⟩ := Option.ne_none_iff_exists'.mp claims
    exact .inl ⟨z, c, own, .inl (resetDone_cleared s z).own⟩

/-- R27, R37: the bus of a station that joins, with the STATUS that an urgent trigger asks for. -/
theorem Rejoined.sbc {s v : State} (h : Rejoined s v) : (v.sbc.requests.status = true ↔ Urgent (resetDone s) v)
    ∧ v.sbc = { Sbc.initial with
      requests := ⟨true, v.sbc.requests.status, false⟩, receiverOn := true, transmitterOn := true
      statusTimer := some s.cfg.statusPeriod, mute := if v.sbc.requests.status then some s.cfg.silenceTimeout else none } := by
  have cfg := resumed_cfg s
  have sbc := resumed_sbc s
  by_cases urgent : Urgent (resetDone s) v
  · have asked := h.follows.urgent urgent (.inl h.mode)
    rw [sbc, cfg] at asked
    have asked' : v.sbc = { Sbc.initial with
        requests := ⟨true, true, false⟩, receiverOn := true, transmitterOn := true, statusTimer := some s.cfg.statusPeriod
        mute := some s.cfg.silenceTimeout } := asked
    rw [asked']
    exact ⟨iff_of_true rfl urgent, rfl⟩
  · have left := h.follows.quiet (.inl urgent)
    rw [left, sbc]
    exact ⟨iff_of_false Bool.false_ne_true urgent, rfl⟩

/-- R151: a started station. -/
theorem Rejoined.leaves {s v : State} (h : Rejoined s v) (started : s.ctl.started = true) (awake : s.ctl.held = false) :
    ResetLeaves s v where
  pins := h.follows.kept.pins.trans (resumed_pins s)
  cfg := h.cfg
  ctl := by rw [h.ctl, resumed_ctl, started]; rfl
  due := h.follows.kept.due.trans (resumed_due s)
  enable := h.follows.kept.enable.trans (resumed_enable s)
  watched _ := h.watched
  unwatched unstarted := absurd (started.symm.trans unstarted) (by decide)
  pv := by rw [h.pv, resumed_pv, started]; rfl
  sbc := by rw [started]; exact h.sbc.2
  derived := h.derived
  undisputed := h.undisputed
  zones z := zoneFollows_resumed (h.zone z)
  support := h.follows.support
  drive := h.follows.drive
  floor := by rw [h.follows.kept.floor, resumed_lvl, resetDone_levels]; rfl
  perm := by
    rw [h.follows.perm_stopped (resetDone_stopped s) h.stopped (resumed_perm s), started, startTimer]
    simp
  out := by
    have out := resumed_out s
    rw [resetDone_out, resetDone_latch] at out
    have rest := h.follows.out_stopped (by rw [h.ctl, resumed_ctl]; exact awake) h.stopped (by rw [out]) (by rw [resumed_perm]; rfl)
      (by rw [out])
    rw [out] at rest
    exact rest
  request quorum := by rw [h.sbc.1, h.urgent_iff quorum]; exact (and_iff_right started).symm
  quiet quorum calm := h.quiet quorum calm

/-- R151: a host reset leaves a state of this kind, with the flags as R177 has them. -/
theorem hostReset_leaves {s : State} (awake : s.ctl.held = false) : ∃ v, ResetLeaves s v ∧ hostResetState s = flagsAfterReset v := by
  cases started : s.ctl.started with
  | true => exact ⟨_, (settle_rejoined s).leaves started awake, by rw [hostResetState_eq, resetDone_started, if_pos started]; rfl⟩
  | false =>
    exact ⟨_, resetDone_leaves started, by rw [hostResetState_eq, resetDone_started, if_neg (by rw [started]; exact Bool.false_ne_true)]⟩

end Sys2Proof.Machine
end

section
/-! A host reset (R46, R64, R95, R113, R129, R140, R148, R151, R170, R177). -/

namespace Sys2Proof.Machine

/-! ### The flags -/

/-- R177: at most TRIP is pending, and that exactly if the latch was found set again. -/
theorem flagsAfterReset_pending (v : State) (f : Flag) : (flagsAfterReset v).isPending f = true ↔ (f = .trip ∧ v.out.tripLatch = true) := by
  have marked (latch : Bool) : (if latch then Flag.mask .trip else 0 : Byte).getLsbD f.bit = true ↔ (f = .trip ∧ latch = true) := by
    cases latch <;> cases f <;> decide
  exact marked v.out.tripLatch

/-! ### The state after the command -/

/-- R170, R177: `t` is the state that a host reset leaves as `v`, with the flags of the reset, once the command has had its effect on
RST_N and on the reply. -/
structure AfterReset (v t : State) : Prop where
  rest : t = { flagsAfterReset v with pins := t.pins, port.reply := t.port.reply }

theorem AfterReset.ctl {v t : State} (h : AfterReset v t) : t.ctl = v.ctl := by rw [h.rest]; rfl
theorem AfterReset.cfg {v t : State} (h : AfterReset v t) : t.cfg = v.cfg := by rw [h.rest]; rfl
theorem AfterReset.lft {v t : State} (h : AfterReset v t) : t.lft = v.lft := by rw [h.rest]; rfl
theorem AfterReset.sbc {v t : State} (h : AfterReset v t) : t.sbc = v.sbc := by rw [h.rest]; rfl
theorem AfterReset.pv {v t : State} (h : AfterReset v t) : t.pv = v.pv := by rw [h.rest]; rfl
theorem AfterReset.ziu {v t : State} (h : AfterReset v t) : t.ziu = v.ziu := by rw [h.rest]; rfl
theorem AfterReset.lvl {v t : State} (h : AfterReset v t) : t.lvl = v.lvl := by rw [h.rest]; rfl
theorem AfterReset.perm {v t : State} (h : AfterReset v t) : t.perm = v.perm := by rw [h.rest]; rfl
theorem AfterReset.out {v t : State} (h : AfterReset v t) : t.out = v.out := by rw [h.rest]; rfl
theorem AfterReset.due {v t : State} (h : AfterReset v t) : t.due = v.due := by rw [h.rest]; rfl
theorem AfterReset.enable {v t : State} (h : AfterReset v t) : t.port.enable = v.port.enable := by rw [h.rest]; rfl

theorem AfterReset.isPending {v t : State} (h : AfterReset v t) (f : Flag) :
    t.isPending f = true ↔ (f = .trip ∧ t.out.tripLatch = true) := by
  have flags : t.port.flags = (flagsAfterReset v).port.flags := by rw [h.rest]
  rw [isPending_congr flags, flagsAfterReset_pending, h.out]

theorem AfterReset.support {v t : State} (h : AfterReset v t) (k : SupportCurrent v) : SupportCurrent t :=
  k.congr h.lft (by rw [h.pv]) h.ziu (by rw [h.ctl]) (by rw [h.cfg])

theorem AfterReset.drive {v t : State} (h : AfterReset v t) (k : DriveCurrent v) : DriveCurrent t :=
  k.of_same ⟨h.cfg, by rw [h.ctl], by rw [h.ctl],
    view_congr (fun _ => by rw [h.ziu]) (fun _ => by rw [h.pv]) (by rw [h.ctl]) (by rw [h.out]) (by rw [h.lvl]) (by rw [h.perm]),
    h.lvl, by rw [h.perm], by rw [h.perm], by rw [h.out], by rw [h.out]⟩

/-! ### The commands -/

/-- R151, R170: RESET. -/
theorem exec_reset {tail : Tail} {s : State} (taken : Taken s [0x3C] tail) :
    exec (.reset tail) s = .next ((hostResetState s).answering .ok) := by
  have request : exec (.reset tail) s = hostRequest 0x3C [] tail 0 (fun s => accept false (hostResetState s)) s := by rfl
  rw [request, request_answers taken rfl, accept_answering]
  rfl

/-- R151, R170: RST_N low for long enough. -/
theorem exec_hostReset {low : Nat} {s : State} (long : 1000 ≤ low) (high : s.pins.rstLow = false) (awake : s.ctl.held = false) :
    exec (.hostReset low) s = .next { cutReply (hostResetState s) with pins.rstLow := true } := by
  show execHostReset low s = _
  rw [execHostReset, if_neg (by simp [high, minimumResetPulse, long]), if_neg (by rw [awake]; decide)]

/-- R151: either cause takes a host reset. -/
theorem exec_resets {c : Instr} {s : State} (given : (∃ tail, c = .reset tail ∧ Taken s [0x3C] tail)
      ∨ (∃ low, c = .hostReset low ∧ 1000 ≤ low ∧ s.pins.rstLow = false ∧ s.ctl.held = false)) :
    ∃ t v, exec c s = .next t ∧ ResetLeaves s v ∧ AfterReset v t ∧ t.pins = { s.pins with rstLow := t.pins.rstLow }
      ∧ (∀ tail, c = .reset tail → t.port.reply = some (replyFrame .ok []) ∧ t.pins.rstLow = s.pins.rstLow)
      ∧ ∀ low, c = .hostReset low → t.port.reply = some [] ∧ t.pins.rstLow = true := by
  rcases given with ⟨tail, rfl, taken⟩ | ⟨low, rfl, long, high, awake⟩
  · obtain ⟨v, leaves, e⟩ := hostReset_leaves (takes_held taken.1)
    refine ⟨_, v, exec_reset taken, leaves, ⟨by rw [e]; rfl⟩, ?_, fun _ _ => ⟨rfl, ?_⟩, fun _ k => Instr.noConfusion k⟩
    · rw [e]; exact leaves.pins.trans (by rw [← leaves.pins]; rfl)
    · rw [e]; exact congrArg Pins.rstLow leaves.pins
  · obtain ⟨v, leaves, e⟩ := hostReset_leaves awake
    refine ⟨_, v, exec_hostReset long high awake, leaves, ⟨by rw [e]; rfl⟩, ?_, fun _ k => Instr.noConfusion k, fun _ _ => ⟨rfl, rfl⟩⟩
    rw [e]
    show { v.pins with rstLow := true } = _
    rw [leaves.pins]

/-! ### What the levels and the zones are -/

/-- R6, R34: a STATUS is requested exactly if an input that is asserted has no qualify time. -/
theorem ResetLeaves.inRange {s v : State} (h : ResetLeaves s v) (range : ConfigInRange s) :
    (v.sbc.requests.status = true ↔ s.ctl.started = true ∧ ∃ n : Input, (s.cfg.inputs[n]).enabled = true ∧ s.lineAsserted n = true
      ∧ (s.cfg.inputs[n]).qualify = 0) :=
  h.request range.quorum.1

/-- R57, R151: the join deadline starts anew, so that an expiry which had fallen due does not happen. -/
theorem ResetLeaves.deadline {s v : State} (h : ResetLeaves s v) (range : ConfigInRange s) : v.pv.joinTimer ≠ some 0 := by
  have far := range.joinDeadline.1
  rw [h.pv]
  dsimp only
  split
  · intro k
    have zero := Option.some.inj k
    omega
  · exact (Option.some_ne_none 0).symm

/-- R102, R113: with every zone CLEAR or PINNED, Lown is L0 or what a PINNED zone contributes. -/
theorem ResetLeaves.lown {s v : State} (h : ResetLeaves s v) (quiet : ResetQuiet s v) :
    v.lvl.lown = 0 ∨ ∃ z : Zone, (s.ziu.zones[z]).state = .pinned
      ∧ v.lvl.lown = if z = stationZone s.ctl.station then 5 else (s.cfg.zones[z]).isolatedLevel := by
  obtain ⟨-, -, low | ⟨z, e⟩⟩ := h.drive.lown
  · exact .inl (low.trans h.floor)
  · have station : v.ctl.station = s.ctl.station := by rw [h.ctl]
    have state := (quiet.zones z).1.trans (resetZone_cleared s.cfg _).state
    rw [h.cfg, station, state] at e
    by_cases pinned : (s.ziu.zones[z]).state = .pinned
    · rw [if_pos pinned] at e; exact .inr ⟨z, pinned, e⟩
    · rw [if_neg pinned] at e; exact .inl e

/-- R95: a zone that was not PINNED, where no entry of the reset is ACTIVE. -/
theorem ResetQuiet.free {s v : State} (h : ResetQuiet s v) {z : Zone} (free : (s.ziu.zones[z]).state ≠ .pinned) :
    (v.ziu.zones[z]).state = .clear ∧ (v.ziu.zones[z]).stamp = none ∧ (v.ziu.zones[z]).count = (s.ziu.zones[z]).count
      ∧ (v.ziu.zones[z]).clean = if (s.ziu.zones[z]).released then some (1000 * s.cfg.cleanInterval) else none := by
  have zone := h.zones z
  rw [resetZone_free free] at zone
  exact zone

/-- Settles O59: `ResetLeaves` says what the reset leaves block by block, and the command adds its effect on RST_N and the reply. -/
theorem hostResetClearsAllButPinnedMemory : Obligations.HostResetClearsAllButPinnedMemory := by
  intro c s given
  obtain ⟨t, v, run, leaves, after, pins, reset, low⟩ := exec_resets given
  have sbc := leaves.sbc
  have drive := after.drive leaves.drive
  have stopped : t.ctl.mode ≠ .running := by
    rw [after.ctl, leaves.ctl]; dsimp only; split <;> exact fun k => NodeMode.noConfusion k
  have peer (p : Station) : t.pv.peers[p] = PeerRecord.absent (s.pv.peers[p]).expected := by
    rw [after.pv, leaves.pv]; exact resetDone_peer s p
  have stop := drive.stopped stopped
  obtain ⟨speedCap, regen, -, -⟩ := drive.atStop stop
  refine ⟨t, run, ?reply, ?rstLow, by rw [pins], by rw [after.cfg, leaves.cfg], by rw [after.ctl, leaves.ctl], fun n => ?input,
    fun d => ?declared, ?pointer, peer, ?joinTimer, ?hello, ?leave, ?inFlight, ?mute, fun range => ?request,
    by rw [after.due, leaves.due], fun range => ?deadline, ?line, ?receiver, ?transmitter, ?renewal, ?statusTimer, ?spacing,
    ?bitFaults, ?duplicate, by rw [after.ziu, leaves.derived], fun z => ?zone, fun z => ?timers, after.support leaves.support, drive,
    by rw [after.lvl, leaves.floor], drive.follow_absent fun p => by rw [peer p]; exact fun k => Presence.noConfusion k, stop, speedCap,
    regen, by rw [after.perm, leaves.perm], ?latch, ?gen, ?rearm, ?pendingDuty, ?activeDuty, ?lamp,
    by rw [after.enable, leaves.enable], after.isPending, fun range later => ?quiet⟩
  case reply =>
    rcases given with ⟨tail, rfl, -⟩ | ⟨ns, rfl, -⟩
    · exact (reset tail rfl).1
    · exact (low ns rfl).1
  case rstLow =>
    rcases given with ⟨tail, rfl, -⟩ | ⟨ns, rfl, -⟩
    · rw [(reset tail rfl).2]
      exact ⟨.inl, fun k => k.elim id fun ⟨_, e⟩ => Instr.noConfusion e⟩
    · exact iff_of_true (low ns rfl).2 (.inr ⟨ns, rfl⟩)
  case input =>
    dsimp only
    rw [after.lft]
    split
    · next takes =>
      obtain ⟨started, enabled, asserted⟩ := takes
      obtain ⟨x, slot, new, first⟩ := (leaves.watched started).new n enabled asserted
      exact ⟨x, slot, new.source, new.cls, new.zone, new.configured, new.latching, new.state, new.count, new.firstActive,
        fun range => first (range.escalation.imp_right fun k => k.1)⟩
    · next passed =>
      cases started : s.ctl.started with
      | true => exact (leaves.watched started).passed n fun k => passed ⟨started, k.1, k.2⟩
      | false => rw [leaves.unwatched started, Lft.empty_inputs]
  case declared =>
    rw [after.lft]
    cases started : s.ctl.started with
    | true => rw [(leaves.watched started).declared, Lft.empty_declared]
    | false => rw [leaves.unwatched started, Lft.empty_declared]
  case pointer =>
    rw [after.lft]
    cases started : s.ctl.started with
    | true => exact (leaves.watched started).pointer
    | false => rw [leaves.unwatched started]; rfl
  case joinTimer => rw [after.pv, leaves.pv]
  case hello => rw [after.sbc, sbc]
  case leave => rw [after.sbc, sbc]
  case inFlight => rw [after.sbc, sbc]; rfl
  case mute => rw [after.sbc]; exact congrArg Sbc.mute sbc
  case request => rw [after.sbc]; exact leaves.inRange range
  case deadline =>
    delta FallsDue
    show ¬t.pv.joinTimer = some 0
    rw [after.pv]
    exact leaves.deadline range
  case line => rw [after.sbc, sbc]; rfl
  case receiver => rw [after.sbc, sbc]
  case transmitter => rw [after.sbc, sbc]
  case renewal => rw [after.sbc, sbc]; rfl
  case statusTimer => rw [after.sbc, sbc]
  case spacing => rw [after.sbc, sbc]; rfl
  case bitFaults => rw [after.sbc, sbc]; rfl
  case duplicate => rw [after.sbc, sbc]; rfl
  case zone =>
    rw [after.ziu]
    exact ⟨(leaves.zones z).released, (leaves.zones z).pinned⟩
  case timers =>
    rw [after.ziu]
    exact ⟨(leaves.undisputed z).1, (leaves.undisputed z).2, (leaves.zones z).delay, (leaves.zones z).clean⟩
  case latch => rw [after.out, leaves.out]; exact tripAsserted_iff s
  case gen => rw [after.out, leaves.out]
  case rearm => rw [after.out, leaves.out]
  case pendingDuty => rw [after.out, leaves.out]
  case activeDuty => rw [after.out, leaves.out]
  case lamp => rw [after.out, leaves.out]
  case quiet =>
    have quiet := leaves.quiet range.quorum.1 fun ⟨n, enabled, asserted, zero⟩ => later n enabled asserted zero
    rw [after.out, after.lvl, after.ziu]
    exact ⟨quiet.contactor.1, quiet.contactor.2, leaves.lown quiet, fun z free => quiet.free free⟩

end Sys2Proof.Machine
end
